-- ==== Sys2Proof/Word.lean ====
section
/-! DEFINITION. The widths of the VJT416's records and the ranges of the numbers that name its parts
(spec/00_scope.md "Names" and "Numbers and units"). -/

namespace Sys2Proof

/-- One byte of a record on the SPI link. -/
abbrev Byte := BitVec 8

/-- A two-byte field: a tag, a width, a period, a term. -/
abbrev Half := BitVec 16

/-- A four-byte field: TC, a due, a threshold, a tally; sums wrap modulo 2^32. -/
abbrev Word := BitVec 32

/-- Port P0 to P3. -/
abbrev Port := Fin 4

/-- Line 0 to 15. -/
abbrev LineId := Fin 16

/-- Capture channel CH0 to CH7. -/
abbrev Channel := Fin 8

/-- Tally TY0 to TY7. -/
abbrev TallyId := Fin 8

/-- A level 0 to 3; a lower number is more privileged (spec/00_scope.md "Levels"). -/
abbrev Level := Fin 4

end Sys2Proof
end

