-- ==== Sys2Proof/Config.lean ====
section
/-! DEFINITION. What the part fixes (its sizes and codes) and the values and orders the manual leaves
open, as constants without a body. The configuration TABLE that CONFIG_WRITE changes is state and
stands in Machine/State.lean. -/

namespace Sys2Proof.Config

/-- Slots of the entry pool (R15). -/
def poolSlots : Nat := 64

/-- Notices a port's queue holds (R168). -/
def queueDepth : Nat := 16

/-- Notices one NOTICE_READ removes at most (R170). -/
def readDepth : Nat := 4

/-- Capture records a window holds (R126). -/
def windowDepth : Nat := 4

/-- Bytes the shift buffer keeps (R159). -/
def shiftDepth : Nat := 36

/-- Longest body a request record may have (R160, R164). -/
def maxBody : Nat := 32

/-- Family code that IDENTIFY returns (R166). -/
def familyCode : Half := 0x4A16#16

/-- Silicon revision that IDENTIFY returns (R166). -/
def revision : Byte := 2#8

/-- XIN periods in a microsecond of RC: XIN is 16 MHz (R123). -/
def xinPerUs : Nat := 16

/-- XIN periods in a millisecond of RC. -/
def xinPerMs : Nat := 16000

/-- The setup window, 2000 ms of RC (R177), in XIN periods. -/
def setupWindow : Nat := 2000 * xinPerMs

/-- One probe phase, 200 us of RC (R152), in XIN periods. -/
def probePhase : Nat := 200 * xinPerUs

/-- FREE VALUE. The n-th choice of an order the manual leaves open (R51, R125, R129, R136, R140;
DESIGN CHOICE, assumption log 7, 9, 10). Nothing constrains it. -/
opaque freeOrder : Nat → Nat

/-- FREE VALUE. The level on the sense input of a line, by number, at an RC time, read when RC itself
brings a probe phase to its end (R150, DESIGN CHOICE, assumption log 13). Nothing constrains it. -/
opaque freeSense : Nat → Nat → Bool

/-- FREE VALUE. The levels of the first samples of the capture inputs at the n-th free choice, taken when
RSTn rises; bit n is CHn (R123, R173, DESIGN CHOICE, assumption log 23). Nothing constrains it. -/
opaque freeInputs : Nat → BitVec 8

end Sys2Proof.Config
end

