-- ==== Sys2Proof/Syntax.lean ====
section
/-! DEFINITION. The commands of the block: one constructor of `Instr` per row of
spec/opcode_table.json, and the statuses a response may carry (spec/10, section 10.3). -/

namespace Sys2Proof

/-- Direction of a change of a capture input (R122). -/
inductive Edge where
  | rise
  | fall
deriving DecidableEq, Repr

/-- What a request record carries beside its KIND (R164): the port it arrives on, the second header
byte (requested level in bits 1:0), the body (LEN is its length), the further bytes the transaction
clocks after the check byte (R160: they are ignored; they clock out the response), and the bits of a
partly shifted byte at the rise of CSn_n, most significant first (R159: they are discarded). -/
structure Request where
  port   : Port
  head   : Byte
  body   : List Byte
  filler : List Byte
  tail   : List Bool
deriving DecidableEq, Repr

/-- What a transaction shifts in from the fall of CSn_n to its rise: its whole bytes, and the bits of a
partly shifted byte at the rise, most significant first (R159). -/
structure Wire where
  bytes : List Byte
  tail  : List Bool
deriving DecidableEq, Repr

/-- A fall of CSn_n on a port, and the bits shifted in before the next command (R159). -/
structure Fall where
  port : Port
  bits : List Bool
deriving DecidableEq, Repr

/-- Status, the first byte of a response (spec/10, section 10.3). -/
inductive Status where
  | ok
  | accepted
  | noRequest
  | badCheck
  | frameShort
  | badKind
  | badField
  | wrongState
  | noRight
  | notHolder
  | lineTaken
  | notLeasable
  | poolFull
  | quotaFull
  | dupTag
  | noTag
  | late
  | busy
  | badConfig
  | lineState
deriving DecidableEq, Repr

/-- The commands. A request is taken at the rise of its port's CSn_n (R159). A sense level, a strap
pin level or an RC time that a command reads from outside is an operand of it (DESIGN CHOICE,
assumption log 8, 13). -/
inductive Instr where
  -- requests (spec/10, section 10.5)
  | nop (r : Request)
  | identify (r : Request)
  | status (r : Request)
  | noticeRead (r : Request)
  | portReset (r : Request)
  | subscribe (r : Request)
  | configRead (r : Request)
  | configWrite (r : Request)
  | endSetup (r : Request)
  | tbHold (r : Request)
  | tbStart (r : Request)
  | schedule (r : Request)
  | cancel (r : Request)
  | entryMove (r : Request)
  | entryRead (r : Request)
  | lineMode (r : Request)
  /-- `sense` is the level read on the line's SN input when the request is taken (R84). -/
  | lineRead (r : Request) (sense : Bool)
  | waveRestart (r : Request)
  | lineProbe (r : Request)
  | leaseTake (r : Request)
  | leaseRenew (r : Request)
  | leaseRelease (r : Request)
  | leaseRead (r : Request)
  | captureRead (r : Request)
  | tallyRead (r : Request)
  | tallyAdd (r : Request)
  | tallySwap (r : Request)
  | tallyCas (r : Request)
  /-- A transaction that spells no request (R160). -/
  | undecodedRequest (p : Port) (wire : Wire)
  -- events
  /-- RSTn goes low; bit n of `lva` and `lvb` is the level on LVAn and LVBn (R172). -/
  | deviceReset (lva lvb : BitVec 4)
  | rstnRise
  | tick
  /-- A sample of the input shows a level, high for a rise, `after` XIN periods of RC after the step before
  (R123). -/
  | captureEdge (c : Channel) (dir : Edge) (after : Nat)
  | pulseEnd (l : LineId)
  | periodEnd (l : LineId)
  | holdTimerExpiry
  | lapse (l : LineId)
  /-- `sense` is the level on the line's SN input at the end of the phase (R152). -/
  | phaseAEnd (l : LineId) (sense : Bool)
  | phaseBEnd (l : LineId) (sense : Bool)
  | setupWindowExpiry
  | transactionBegin (fall : Fall)
deriving DecidableEq, Repr

end Sys2Proof
end

