-- ==== Sys2Proof/Decode.lean ====
section
/-! DEFINITION. Bits and bytes on the SPI link: field order, the CRC-8, framing (R160), the KIND codes of the
request summary table, the decoder from a transaction's bytes to a command and the record a command
spells. No row of spec/opcode_table.json gives bits, so `decodeTableWord` spells none. -/

namespace Sys2Proof

/-! Fields of more than one byte are sent most significant byte first (R164). -/

def half (a b : Byte) : Half := a ++ b

def word (a b c d : Byte) : Word := a ++ b ++ c ++ d

def halfBytes (h : Half) : List Byte := [h.extractLsb' 8 8, h.extractLsb' 0 8]

def wordBytes (w : Word) : List Byte :=
  [w.extractLsb' 24 8, w.extractLsb' 16 8, w.extractLsb' 8 8, w.extractLsb' 0 8]

/-- A small number as one byte. -/
def natByte (n : Nat) : Byte := BitVec.ofNat 8 n

/-- A yes or no as one byte, 1 for yes. -/
def flagByte (b : Bool) : Byte := if b then 1#8 else 0#8

/-- The bits of a byte, most significant first, as the link carries them (R159). -/
def byteBits (b : Byte) : List Bool :=
  [b.getLsbD 7, b.getLsbD 6, b.getLsbD 5, b.getLsbD 4, b.getLsbD 3, b.getLsbD 2, b.getLsbD 1,
    b.getLsbD 0]

/-- The byte of bits that come most significant first. -/
def bitsByte (bits : List Bool) : Byte := natByte (bits.foldl (fun n b => 2 * n + b.toNat) 0)

/-! CRC-8 of R160: polynomial x^8 + x^2 + x + 1, initial value 0, most significant bit first, no
reflection, no final inversion. -/

def crcBit (c : Byte) : Byte := if c.msb then (c <<< 1) ^^^ 0x07#8 else c <<< 1

def crcByte (c b : Byte) : Byte :=
  crcBit (crcBit (crcBit (crcBit (crcBit (crcBit (crcBit (crcBit (c ^^^ b))))))))

def crc8 (bs : List Byte) : Byte := bs.foldl crcByte 0#8

/-- The bytes of a request record (R164): KIND, header byte, LEN, body, check byte. -/
def recordBytes (kind head : Byte) (body : List Byte) : List Byte :=
  let front := kind :: head :: natByte body.length :: body
  front ++ [crc8 front]

/-- What framing makes of a transaction (R160). -/
inductive Framing where
  | refused (st : Status)
  | framed (kind head : Byte) (body : List Byte)
deriving DecidableEq, Repr

/-- Framing by R160: `kept` is what the shift buffer keeps, `count` the transaction's byte count. -/
def frame (kept : List Byte) (count : Nat) : Framing :=
  match kept with
  | kind :: head :: len :: rest =>
    if count < 4 + len.toNat then .refused .frameShort
    else if Config.maxBody < len.toNat then .refused .badCheck
    else
      let body := rest.take len.toNat
      if rest[len.toNat]? = some (crc8 (kind :: head :: len :: body)) then
        .framed kind head body
      else .refused .badCheck
  | _ => .refused .frameShort

/-- The request of a KIND code (spec/10, section 10.5); none for a code absent from the table. -/
def Instr.ofKind (kind : Byte) (r : Request) (sense : Bool) : Option Instr :=
  match kind.toNat with
  | 0x00 => some (.nop r)
  | 0x01 => some (.identify r)
  | 0x02 => some (.status r)
  | 0x03 => some (.noticeRead r)
  | 0x04 => some (.portReset r)
  | 0x05 => some (.subscribe r)
  | 0x08 => some (.configRead r)
  | 0x09 => some (.configWrite r)
  | 0x0A => some (.endSetup r)
  | 0x10 => some (.tbHold r)
  | 0x11 => some (.tbStart r)
  | 0x20 => some (.schedule r)
  | 0x21 => some (.cancel r)
  | 0x22 => some (.entryMove r)
  | 0x23 => some (.entryRead r)
  | 0x30 => some (.lineMode r)
  | 0x31 => some (.lineRead r sense)
  | 0x32 => some (.waveRestart r)
  | 0x33 => some (.lineProbe r)
  | 0x40 => some (.leaseTake r)
  | 0x41 => some (.leaseRenew r)
  | 0x42 => some (.leaseRelease r)
  | 0x43 => some (.leaseRead r)
  | 0x50 => some (.captureRead r)
  | 0x60 => some (.tallyRead r)
  | 0x61 => some (.tallyAdd r)
  | 0x62 => some (.tallySwap r)
  | 0x63 => some (.tallyCas r)
  | _ => none

/-- The KIND code, the record and the sense level read of a command that is a request; none for the
other commands (spec/10, section 10.5). -/
def Instr.record? : Instr → Option (Byte × Request)
  | .nop r => some (0x00#8, r)
  | .identify r => some (0x01#8, r)
  | .status r => some (0x02#8, r)
  | .noticeRead r => some (0x03#8, r)
  | .portReset r => some (0x04#8, r)
  | .subscribe r => some (0x05#8, r)
  | .configRead r => some (0x08#8, r)
  | .configWrite r => some (0x09#8, r)
  | .endSetup r => some (0x0A#8, r)
  | .tbHold r => some (0x10#8, r)
  | .tbStart r => some (0x11#8, r)
  | .schedule r => some (0x20#8, r)
  | .cancel r => some (0x21#8, r)
  | .entryMove r => some (0x22#8, r)
  | .entryRead r => some (0x23#8, r)
  | .lineMode r => some (0x30#8, r)
  | .lineRead r _ => some (0x31#8, r)
  | .waveRestart r => some (0x32#8, r)
  | .lineProbe r => some (0x33#8, r)
  | .leaseTake r => some (0x40#8, r)
  | .leaseRenew r => some (0x41#8, r)
  | .leaseRelease r => some (0x42#8, r)
  | .leaseRead r => some (0x43#8, r)
  | .captureRead r => some (0x50#8, r)
  | .tallyRead r => some (0x60#8, r)
  | .tallyAdd r => some (0x61#8, r)
  | .tallySwap r => some (0x62#8, r)
  | .tallyCas r => some (0x63#8, r)
  | .undecodedRequest _ _ | .deviceReset _ _ | .rstnRise | .tick | .captureEdge _ _ _ | .pulseEnd _
  | .periodEnd _ | .holdTimerExpiry | .lapse _ | .phaseAEnd _ _ | .phaseBEnd _ _
  | .setupWindowExpiry | .transactionBegin _ => none

/-- The sense level a command carries, where it is LINE_READ. -/
def Instr.sense : Instr → Bool
  | .lineRead _ b => b
  | _ => false

/-- The bits a request's transaction shifts in, from the fall of CSn_n to its rise (R159, R164). -/
def Request.bits (kind : Byte) (r : Request) : List Bool :=
  (recordBytes kind r.head r.body ++ r.filler).flatMap byteBits ++ r.tail

/-- The status R160 and R163 step 3 answer to the bytes of a transaction that spells no request; none
where they spell one. `kept` is what the shift buffer keeps, `count` the byte count. -/
def undecodedStatus (kept : List Byte) (count : Nat) : Option Status :=
  match frame kept count with
  | .refused st => some st
  | .framed kind head body =>
    match Instr.ofKind kind ⟨0, head, body, [], []⟩ false with
    | some _ => none
    | none => some .badKind

/-- The command that the whole bytes of one transaction on port `p` spell, total on any bytes, with the
bits `tail` of a partly shifted byte behind them; `sense` is the level a LINE_READ would read. What
spells no request is UNDECODED_REQUEST. -/
def decodeTransaction (p : Port) (bytes : List Byte) (tail : List Bool) (sense : Bool) : Instr :=
  match frame (bytes.take Config.shiftDepth) bytes.length with
  | .refused _ => .undecodedRequest p ⟨bytes, tail⟩
  | .framed kind head body =>
    match Instr.ofKind kind ⟨p, head, body, bytes.drop (4 + body.length), tail⟩ sense with
    | some i => i
    | none => .undecodedRequest p ⟨bytes, tail⟩

/-- The whole bytes that the transaction of a request shifts in, and the bits of a partly shifted byte
behind them; none for a command that is no transaction. -/
def Instr.wireBytes (i : Instr) : Option (Port × List Byte × List Bool) :=
  match i with
  | .undecodedRequest p wire => some (p, wire.bytes, wire.tail)
  | _ => i.record?.map fun (kind, r) =>
      (r.port, recordBytes kind r.head r.body ++ r.filler, r.tail)

/-- The command a word spells by the bits of spec/opcode_table.json: no row of it gives bits, so no
word spells one (DEDUCED, assumption log 24). -/
def decodeTableWord (_nbits _w : Nat) : Option Instr := none

end Sys2Proof
end

