-- ==== Sys2Proof/Machine/State.lean ====
section
/-! DEFINITION. The state of the VJT416, block by block (spec/00_scope.md "Block overview"), its value
after reset, and the reasons a step could stop: the manual gives none. -/

namespace Sys2Proof.Machine

/-! ## Setup control: device state and configuration table (spec/11) -/

inductive DeviceState where
  | setup
  | operating
deriving DecidableEq, Repr

/-- LINE_KIND (R66): `leased` is LEASED, `shared` is OPEN. -/
inductive LineKind where
  | leased
  | shared
deriving DecidableEq, Repr

inductive Polarity where
  | activeHigh
  | activeLow
deriving DecidableEq, Repr

inductive Mode where
  | drive
  | shadow
deriving DecidableEq, Repr

/-- The six configuration items of a line (R66); `fallback` is true for ACTIVE. -/
structure LineConfig where
  kind        : LineKind
  ceiling     : Level
  polarity    : Polarity
  fallback    : Bool
  preemptible : Bool
  initialMode : Mode
deriving DecidableEq, Repr

/-- TB_SOURCE (R24, R25). -/
inductive TickSource where
  | internal
  | pace (c : Channel)
deriving DecidableEq, Repr

inductive Arbitration where
  | oldest
  | newest
deriving DecidableEq, Repr

/-- CH_EDGE (R122). -/
inductive EdgeSelect where
  | off
  | rise
  | fall
  | both
deriving DecidableEq, Repr

/-- The two configuration items of a capture channel (R122); the holdoff is in microseconds. -/
structure ChannelConfig where
  select  : EdgeSelect
  holdoff : Half
deriving DecidableEq, Repr

/-- The two configuration items of a tally (R139). -/
structure TallyConfig where
  binding : Option Channel
  level   : Level
deriving DecidableEq, Repr

/-- The configuration table (R174). The prescale is in microseconds, the hold timeout in ms. -/
structure Table where
  quota       : Vector Nat 4
  lines       : Vector LineConfig 16
  source      : TickSource
  prescale    : Nat
  holdLevel   : Level
  holdTimeout : Nat
  arbitration : Arbitration
  channels    : Vector ChannelConfig 8
  tallies     : Vector TallyConfig 8
deriving DecidableEq, Repr

/-! ## Entries (spec/01) -/

inductive Align where
  | left
  | centre
deriving DecidableEq, Repr

inductive Start where
  | activeFirst
  | inactiveFirst
deriving DecidableEq, Repr

/-- The settings of a WAVE (R5): period P, duty D, alignment and start level. -/
structure Wave where
  period : Half
  duty   : Half
  align  : Align
  start  : Start
deriving DecidableEq, Repr

/-- The actions that name a line (R4), with their operands (R5). -/
inductive LineAction where
  | set
  | clear
  | toggle
  | pulse (width : Half)
  | wave (w : Wave)
  | waveStop
deriving DecidableEq, Repr

/-- An entry's action (R4): MARK is the one action without a line. -/
inductive Action where
  | onLine (l : LineId) (a : LineAction)
  | mark
deriving DecidableEq, Repr

/-- The name of an action, as a DONE notice reports it (R56). -/
inductive ActionKind where
  | set
  | clear
  | toggle
  | pulse
  | wave
  | waveStop
  | mark
deriving DecidableEq, Repr

/-- An entry's trigger with its operands (R6); the due of AT is the entry's due. -/
inductive Trigger where
  | atDue
  | edge (c : Channel) (n : Byte) (offset : Word)
  | count (t : TallyId) (threshold offset : Word)
deriving DecidableEq, Repr

inductive LatePolicy where
  | run
  | drop
deriving DecidableEq, Repr

/-- Executions left (R7). -/
inductive Left where
  | unlimited
  | count (n : Nat)
deriving DecidableEq, Repr

/-- An entry record (R1) but for the fields that only some states have: the due stands in `Timed`, the
edges left in `Waiting`, and the list that holds the entry says its state (R10). -/
structure Entry where
  owner       : Port
  tag         : Half
  level       : Level
  action      : Action
  trigger     : Trigger
  repeatCount : Byte
  step        : Option Word
  notify      : Bool
  latePolicy  : LatePolicy
  lateMark    : Bool
  left        : Left
deriving DecidableEq, Repr

/-- A PENDING or PULSING entry with its due (R9). -/
structure Timed where
  entry : Entry
  due   : Word
deriving DecidableEq, Repr

/-- An ARMED entry; edges left is present for an EDGE trigger (R9). -/
structure Waiting where
  entry     : Entry
  edgesLeft : Option Nat
deriving DecidableEq, Repr

/-- The state an entry is found in (R10), and DONE for one that has been removed (R48). -/
inductive EntryState where
  | armed
  | pending
  | pulsing
  | done
deriving DecidableEq, Repr

/-! ## Notices (spec/10, section 10.4) -/

/-- What a WAVE winner did to its generator (R54). -/
inductive WaveOutcome where
  | none
  | started
  | staged
deriving DecidableEq, Repr

inductive CutCause where
  | overtaken (winner : Port)
  | timeout
deriving DecidableEq, Repr

inductive ApplyCause where
  | periodEnd
  | restart
  | zeroPeriod
deriving DecidableEq, Repr

inductive LostCause where
  | lapsed
  | taken (by_ : Port) (level : Level)
deriving DecidableEq, Repr

inductive ProbeResult where
  | follows
  | stuckHigh
  | stuckLow
  | inverted
deriving DecidableEq, Repr

/-- The phase of a probe; sample A is present from the end of phase A (R150), true for high. -/
inductive ProbePhase where
  | a
  | b (sampleA : Bool)
deriving DecidableEq, Repr

/-- Timebase states (spec/02, section 2.4). -/
inductive Timebase where
  | off
  | held
  | running
  | holding
deriving DecidableEq, Repr

inductive TimebaseCause where
  | request (p : Port)
  | pulsesDone
  | timeout
  | setupClosed
deriving DecidableEq, Repr

inductive CloseCause where
  | request (p : Port)
  | window
deriving DecidableEq, Repr

/-- Kind and detail of a notice (spec/10, section 10.4, "Notice kinds and details"). -/
inductive Detail where
  | done (action : ActionKind) (late : Bool) (outcome : WaveOutcome) (left : Left)
  | superseded (winner : Port) (level : Level) (late : Bool) (left : Left)
  | late (due : Word)
  | pulseCut (cause : CutCause) (remaining : Nat)
  | waveApplied (cause : ApplyCause) (period : Half)
  | leaseLost (cause : LostCause) (removed : Nat)
  | edge (seq : Byte) (dir : Edge)
  | probe (result : ProbeResult) (sampleA sampleB : Bool) (saved : Bool)
  | probeAborted (phase : ProbePhase) (saved : Bool) (winner : Port)
  | timebase (old new : Timebase) (cause : TimebaseCause)
  | setupClosed (cause : CloseCause)
deriving DecidableEq, Repr

/-- A notice record (R164): subject (line, channel or 0xFF), tag or 0, TC at the event, detail. -/
structure Notice where
  subject : Byte
  tag     : Half
  tc      : Word
  detail  : Detail
deriving DecidableEq, Repr

/-- A port's notice queue, oldest first, with its overflow flag (R168). -/
structure Inbox where
  queue    : List Notice
  overflow : Bool
deriving DecidableEq, Repr

/-! ## Lines (spec/04, 05, 06, 09) -/

/-- The pulse record (R72): the PULSING entry it refers to and the ticks left. -/
structure PulseRec where
  owner     : Port
  tag       : Half
  remaining : Nat
deriving DecidableEq, Repr

inductive Direction where
  | up
  | down
deriving DecidableEq, Repr

/-- A pending load (R88). -/
structure Load where
  wave   : Wave
  owner  : Port
  tag    : Half
  notify : Bool
deriving DecidableEq, Repr

/-- The generator record (R88); `wave` holds the settings in force. -/
structure Generator where
  wave      : Wave
  counter   : Nat
  direction : Direction
  load      : Option Load
deriving DecidableEq, Repr

/-- The probe record (R150); `time` is the phase time left, in XIN periods. -/
structure ProbeRec where
  requester : Port
  saved     : Bool
  phase     : ProbePhase
  time      : Nat
deriving DecidableEq, Repr

/-- Line states with the records each holds (R72). -/
inductive LineState where
  | static
  | pulsing (p : PulseRec)
  | waving (g : Generator)
  | probing (r : ProbeRec)
deriving DecidableEq, Repr

/-- A lease with a holder (R105); `remaining` is in XIN periods of RC. -/
structure Lease where
  holder    : Port
  level     : Level
  term      : Half
  remaining : Nat
deriving DecidableEq, Repr

/-- One line: internal level (true for active), mode, line state, lease record (none: no holder). -/
structure Line where
  level : Bool
  mode  : Mode
  state : LineState
  lease : Option Lease
deriving DecidableEq, Repr

/-- What the schedule acts on: TB's count, state and hold timer, TQ's lists, LC's lines, and the
notice queues that every block posts to. -/
structure Plant where
  tc        : Word
  timebase  : Timebase
  /-- XIN periods left on the hold timer; none when stopped (R33). -/
  holdTimer : Option Nat
  /-- The timeline list of the PENDING entries, in timeline order (R41). -/
  timeline  : List Timed
  /-- The armed list, in arming order (R131). -/
  armed     : List Waiting
  /-- The PULSING entries, held by neither list (R10). -/
  pulsing   : List Timed
  lines     : Vector Line 16
  inboxes   : Vector Inbox 4
deriving DecidableEq, Repr

/-! ## Capture unit and port interfaces (spec/07, spec/10) -/

/-- A capture record (R126). -/
structure CaptureRecord where
  seq : Byte
  dir : Edge
  tc  : Word
deriving DecidableEq, Repr

/-- A capture channel (R123, R126): last-accept time (none when cleared), next sequence number, window,
and the latest sample of the input: its level, true for high, and the RC time of the first sample that
gave it. -/
structure CaptureChannel where
  lastAccept : Option Nat
  nextSeq    : Byte
  window     : List CaptureRecord
  level      : Bool
  since      : Nat
deriving DecidableEq, Repr

/-- A response record (R162); the check byte is computed from the rest. -/
structure Response where
  status    : Status
  queued    : Nat
  overflow  : Bool
  operating : Bool
  kind      : Byte
  body      : List Byte
deriving DecidableEq, Repr

/-- The shift buffer (R159): the first 36 whole bytes shifted in, how many whole bytes have been, and the
bits of the byte being shifted in, most significant first. -/
structure ShiftBuffer where
  kept  : List Byte
  count : Nat
  part  : List Bool
deriving DecidableEq, Repr

/-- One port's interface but for its notice queue (spec/10). -/
structure PortState where
  strap : Level
  slot  : Response
  /-- The record a transaction in progress shifts out; none when no transaction has begun (R159). -/
  txn   : Option (List Byte)
  shift : ShiftBuffer
  /-- The bytes the last transaction shifted out (DESIGN CHOICE, assumption log 17). -/
  sent  : List Byte
  /-- Subscription mask, bit n for CHn (R128). -/
  mask  : Byte
deriving DecidableEq, Repr

/-! ## The whole part -/

structure State where
  /-- Commands that wait, first in first out. -/
  pending   : List Instr
  /-- RSTn is low (R173). -/
  rstnLow   : Bool
  device    : DeviceState
  /-- XIN periods left on the setup window; none when stopped (R177). -/
  window    : Option Nat
  table     : Table
  /-- RC's count since RSTn rose, in XIN periods. -/
  rc        : Nat
  /-- XIN periods of RC since the INTERNAL divider's last boundary (R24). -/
  divider   : Nat
  ports     : Vector PortState 4
  channels  : Vector CaptureChannel 8
  tallies   : Vector Word 8
  plant     : Plant
  /-- Owner and tag of each entry that an ENTRY_MOVE has placed anew at this moment of RC and that no batch
  has executed since (R64; DESIGN CHOICE, assumption log 25). -/
  moved     : List (Port × Half)
  /-- How many free choices have been made: the model's own (DESIGN CHOICE, assumption log 22). -/
  freeCount : Nat
deriving DecidableEq, Repr

/-- Reasons to stop with a fault. The manual gives the part none, so no meaning raises one: the type
has no constructor. -/
inductive Fault where
deriving DecidableEq, Repr

/-- Reasons to refuse a command. -/
inductive Refusal where
  /-- Raised by an arm of `exec` whose command has no meaning yet; safe. No arm raises it. -/
  | notModelled (mnemonic : String)
deriving DecidableEq, Repr

/-! ## Reset values (R20, R38, R66, R86, R122, R138, R139, R161, R172, R173, R174) -/

def LineConfig.default : LineConfig := ⟨.leased, 3, .activeHigh, false, false, .drive⟩

/-- The default table (R174). -/
def Table.default : Table where
  quota       := Vector.replicate 4 16
  lines       := Vector.replicate 16 LineConfig.default
  source      := .internal
  prescale    := 10
  holdLevel   := 1
  holdTimeout := 100
  arbitration := .oldest
  channels    := Vector.replicate 8 ⟨.off, 0#16⟩
  tallies     := Vector.replicate 8 ⟨none, 3⟩

/-- A line after a device reset (R86). -/
def Line.reset : Line := ⟨false, .drive, .static, none⟩

/-- TB, TQ, LC and the notice queues after a device reset (R20, R38, R86, R172). -/
def Plant.reset : Plant where
  tc        := 0#32
  timebase  := .off
  holdTimer := none
  timeline  := []
  armed     := []
  pulsing   := []
  lines     := Vector.replicate 16 Line.reset
  inboxes   := Vector.replicate 4 ⟨[], false⟩

/-- The NONE response (R161). -/
def Response.initial : Response := ⟨.noRequest, 0, false, false, 0#8, []⟩

/-- No bit has been shifted in. -/
def ShiftBuffer.empty : ShiftBuffer := ⟨[], 0, []⟩

/-- A port's interface after a device reset that sampled the strap level `strap` (R172). -/
def PortState.reset (strap : Level) : PortState := 
  ⟨strap, Response.initial, none, ShiftBuffer.empty, [], 0#8⟩

/-- The part while RSTn is low, with the strap levels sampled (R172, R173). The queue of commands and
the counter of free choices are the model's and stay. -/
def State.inReset (straps : Vector Level 4) (pending : List Instr) (freeCount : Nat) : State where
  pending   := pending
  rstnLow   := true
  device    := .setup
  window    := none
  table     := Table.default
  rc        := 0
  divider   := 0
  ports     := straps.map PortState.reset
  channels  := Vector.replicate 8 ⟨none, 0#8, [], false, 0⟩
  tallies   := Vector.replicate 8 0#32
  plant     := Plant.reset
  moved     := []
  freeCount := freeCount

/-- RSTn has risen on a part in reset: SETUP, with the setup window at 2000 ms, and a first sample of the
capture inputs (R123, R173, R177). -/
def State.afterRise (inputs : BitVec 8) (s : State) : State :=
  { s with
    rstnLow := false
    device := .setup
    table := Table.default
    window := some Config.setupWindow
    rc := 0
    channels := Vector.ofFn fun c =>
      { s.channels.get c with level := inputs.getLsbD c.val, since := 0 } }

/-- The part right after reset: a device reset, then RSTn risen (DEDUCED, assumption log 1), every port
strapped to level 0 (DESIGN CHOICE, assumption log 2), every capture input low (DESIGN CHOICE, assumption
log 23), no command waiting. -/
def State.reset : State := (State.inReset (Vector.replicate 4 0) [] 0).afterRise 0#8

end Sys2Proof.Machine
end

