-- ==== Sys2Proof/Machine/Ops.lean ====
section
/-! DEFINITION. The named operations on the state that every family uses: reading and changing one line,
one queue or one port; leads and the timeline list (R28, R41, R42); the entry pool as the three lists
that hold entries (R13 to R18); the reference clock (R24, R33, R107, R152, R177); free orders. -/

namespace Sys2Proof.Machine

/-- Change one element of a register file (proofs read it by `upd_get`). -/
@[irreducible] def upd {α : Type} {n : Nat} (v : Vector α n) (i : Fin n) (f : α → α) : Vector α n :=
  v.set i (f (v.get i))

/-- Change every element of a register file, each by its number (proofs read it by `updAll_get`). -/
@[irreducible] def updAll {α : Type} {n : Nat} (v : Vector α n) (f : Fin n → α → α) : Vector α n :=
  Vector.ofFn fun i => f i (v.get i)

/-- The lines in ascending order (R77). -/
def allLines : List LineId := List.finRange 16

/-- The ports in ascending order. -/
def allPorts : List Port := List.finRange 4

/-! ## Lines and queues -/

def Plant.line (w : Plant) (l : LineId) : Line := w.lines.get l

def Plant.setLine (w : Plant) (l : LineId) (f : Line → Line) : Plant :=
  { w with lines := upd w.lines l f }

/-- Give a line its internal level and its line state; mode and lease stay. -/
def Line.rest (level : Bool) (state : LineState) (x : Line) : Line :=
  { x with level := level, state := state }

def Plant.inbox (w : Plant) (p : Port) : Inbox := w.inboxes.get p

/-- A notice joins a queue with room at the tail; a full queue discards it and sets the flag (R168). -/
def Inbox.post (n : Notice) (b : Inbox) : Inbox :=
  if b.queue.length < Config.queueDepth then { b with queue := b.queue ++ [n] }
  else { b with overflow := true }

/-- Post a notice to port `p`, stamped with TC as it stands. -/
def Plant.post (p : Port) (subject : Byte) (tag : Half) (d : Detail) (w : Plant) : Plant :=
  { w with inboxes := upd w.inboxes p (Inbox.post ⟨subject, tag, w.tc, d⟩) }

/-- Post a notice where `wanted` says so. -/
def Plant.postIf (wanted : Bool) (p : Port) (subject : Byte) (tag : Half) (d : Detail) (w : Plant) :
    Plant :=
  if wanted then w.post p subject tag d else w

/-- Post one notice to each of the four ports (R37, R178). -/
def Plant.postAll (subject : Byte) (tag : Half) (d : Detail) (w : Plant) : Plant :=
  { w with inboxes := updAll w.inboxes fun _ => Inbox.post ⟨subject, tag, w.tc, d⟩ }

/-- The subject of a notice about a line. -/
def lineByte (l : LineId) : Byte := natByte l.val

/-- The subject of a notice about nothing that has a number. -/
def noSubject : Byte := 0xFF#8

/-! ## Leads and the timeline list -/

/-- The lead of a due time: due minus TC, modulo 2^32 (R28). -/
def lead (tc due : Word) : Word := due - tc

/-- A lead of 2^31 or more is late (R28). -/
def isLate (tc due : Word) : Bool := 2 ^ 31 ≤ (lead tc due).toNat

/-- `v` has reached the threshold `h`: (v - h) modulo 2^32 is below 2^31 (R145). -/
def reached (v h : Word) : Bool := (v - h).toNat < 2 ^ 31

/-- Newly insert an entry: after every entry whose lead is less than or equal to its own, before every
entry whose lead is greater (R42). -/
def insertTimed (tc : Word) (x : Timed) : List Timed → List Timed
  | [] => [x]
  | y :: ys => if lead tc x.due < lead tc y.due then x :: y :: ys else y :: insertTimed tc x ys

def Plant.insert (x : Timed) (w : Plant) : Plant :=
  { w with timeline := insertTimed w.tc x w.timeline }

/-- Append an entry at the tail of the armed list (R131). -/
def Plant.arm (x : Waiting) (w : Plant) : Plant := { w with armed := w.armed ++ [x] }

/-! ## Entries and the pool -/

/-- Owner and tag name an entry (R2). -/
def Entry.isKey (p : Port) (tag : Half) (e : Entry) : Bool := e.owner == p && e.tag == tag

/-- The two entries carry the same name. -/
def Entry.sameKey (e f : Entry) : Bool := e.isKey f.owner f.tag

/-- The line an entry names; none for a MARK (R4). -/
def Entry.line? (e : Entry) : Option LineId :=
  match e.action with
  | .onLine l _ => some l
  | .mark => none

/-- The entry names line `l`. -/
def Entry.onLine (l : LineId) (e : Entry) : Bool := e.line? == some l

/-- The subject of a notice about an entry: its line, or 0xFF for a MARK (R56, R63). -/
def Entry.subject (e : Entry) : Byte :=
  match e.line? with
  | some l => lineByte l
  | none => noSubject

def Action.kind : Action → ActionKind
  | .onLine _ .set => .set
  | .onLine _ .clear => .clear
  | .onLine _ .toggle => .toggle
  | .onLine _ (.pulse _) => .pulse
  | .onLine _ (.wave _) => .wave
  | .onLine _ .waveStop => .waveStop
  | .mark => .mark

/-- Every live entry, in whichever list it stands. -/
def Plant.live (w : Plant) : List Entry :=
  w.armed.map Waiting.entry ++ w.timeline.map Timed.entry ++ w.pulsing.map Timed.entry

/-- Slots holding live entries (R15). -/
def Plant.used (w : Plant) : Nat := w.live.length

/-- Free slots (R15). -/
def Plant.free (w : Plant) : Nat := Config.poolSlots - w.used

/-- A port's count of live entries (R16). -/
def Plant.liveCount (p : Port) (w : Plant) : Nat := (w.live.filter fun e => e.owner == p).length

/-- The tag is in the port's tag map (R13). -/
def Plant.hasTag (p : Port) (tag : Half) (w : Plant) : Bool := w.live.any (Entry.isKey p tag)

def Plant.findArmed (p : Port) (tag : Half) (w : Plant) : Option Waiting :=
  w.armed.find? fun x => x.entry.isKey p tag

def Plant.findPending (p : Port) (tag : Half) (w : Plant) : Option Timed :=
  w.timeline.find? fun x => x.entry.isKey p tag

def Plant.findPulsing (p : Port) (tag : Half) (w : Plant) : Option Timed :=
  w.pulsing.find? fun x => x.entry.isKey p tag

/-- The state the entry of a name stands in; DONE when there is none (R10, R48). -/
def Plant.stateOf (p : Port) (tag : Half) (w : Plant) : EntryState :=
  if (w.findArmed p tag).isSome then .armed
  else if (w.findPending p tag).isSome then .pending
  else if (w.findPulsing p tag).isSome then .pulsing
  else .done

/-- Take every entry that `f` picks out of the pool: each leaves its list, the others keep their order
(R18). The line effects of a removal are made by its cause. -/
def Plant.drop (f : Entry → Bool) (w : Plant) : Plant :=
  { w with
    armed := w.armed.filter fun x => !f x.entry
    timeline := w.timeline.filter fun x => !f x.entry
    pulsing := w.pulsing.filter fun x => !f x.entry }

/-- How many live entries `f` picks. -/
def Plant.countLive (f : Entry → Bool) (w : Plant) : Nat := (w.live.filter f).length

/-! ## Timebase -/

def Line.isPulsing (x : Line) : Bool :=
  match x.state with
  | .pulsing _ => true
  | _ => false

/-- Pulses in flight: the lines whose line state is PULSING (R32). -/
def Plant.inFlight (w : Plant) : Nat := (allLines.filter fun l => (w.line l).isPulsing).length

/-- A change of timebase state, with its TIMEBASE notice to all four ports (R37). -/
def Plant.setTimebase (new : Timebase) (cause : TimebaseCause) (w : Plant) : Plant :=
  { w with timebase := new }.postAll noSubject 0#16 (.timebase w.timebase new cause)

/-- When HOLDING has no pulse left in flight, TB moves to HELD, stops the hold timer and tells every
port (R32). -/
def Plant.settleHold (w : Plant) : Plant :=
  if w.timebase = .holding ∧ w.inFlight = 0 then
    { w with holdTimer := none }.setTimebase .held .pulsesDone
  else w

/-! ## Ports -/

def State.port (s : State) (p : Port) : PortState := s.ports.get p

def State.setPort (s : State) (p : Port) (f : PortState → PortState) : State :=
  { s with ports := upd s.ports p f }

/-- Requests are taken from a port only when RSTn is high and a fall of CSn_n has begun a transaction
(R172). -/
def State.listening (s : State) (p : Port) : Bool := !s.rstnLow && (s.port p).txn.isSome

/-- One bit is shifted in; the eighth completes a byte, and the first 36 bytes are kept (R159). -/
def ShiftBuffer.clockBit (b : ShiftBuffer) (bit : Bool) : ShiftBuffer :=
  if b.part.length < 7 then { b with part := b.part ++ [bit] }
  else ⟨(b.kept ++ [bitsByte (b.part ++ [bit])]).take Config.shiftDepth, b.count + 1, []⟩

/-- Bits are shifted in one after the other. -/
def ShiftBuffer.clockIn (bits : List Bool) (b : ShiftBuffer) : ShiftBuffer :=
  bits.foldl ShiftBuffer.clockBit b

/-- How many bits have been shifted in. -/
def ShiftBuffer.size (b : ShiftBuffer) : Nat := 8 * b.count + b.part.length

/-- What has been shifted in is the first part of `bits`. -/
def ShiftBuffer.opens (bits : List Bool) (b : ShiftBuffer) : Bool :=
  decide (b.size ≤ bits.length) && ShiftBuffer.empty.clockIn (bits.take b.size) == b

/-- A transaction that shifts in `bits` can end on port `p`: it has begun, and the bits shifted in so far
are the first of them (R159, R172). -/
def State.hears (s : State) (p : Port) (bits : List Bool) : Bool :=
  s.listening p && (s.port p).shift.opens bits

/-! ## Reference clock -/

/-- The timebase takes ticks (R26, R27). -/
def Timebase.ticks : Timebase → Bool
  | .running => true
  | .holding => true
  | .held => false
  | .off => false

/-- The divider's period in XIN periods (R24). -/
def Table.period (t : Table) : Nat := t.prescale * Config.xinPerUs

/-- The INTERNAL divider runs: OPERATING with an INTERNAL source (R24). -/
def State.dividing (s : State) : Bool :=
  s.device == .operating && s.table.source == .internal

def Lease.run (n : Nat) (x : Lease) : Lease := { x with remaining := x.remaining - n }

def LineState.run (n : Nat) : LineState → LineState
  | .probing r => .probing { r with time := r.time - n }
  | st => st

/-- RC's time on one line: its lease and its probe count down (R107, R152). -/
def Line.run (n : Nat) (x : Line) : Line :=
  { x with lease := x.lease.map (Lease.run n), state := x.state.run n }

/-- The divider `n` XIN periods on (R24): a boundary passed in HELD is discarded and leaves nothing
behind; one passed in RUNNING or HOLDING stays until its TICK is taken. -/
def State.dividerAfter (n : Nat) (s : State) : Nat :=
  if s.dividing then
    if s.plant.timebase.ticks then s.divider + n else (s.divider + n) % s.table.period
  else s.divider

/-- RC runs on by `n` XIN periods: every running RC timer counts down, and one that comes to 0 stands
there until its event is taken (DESIGN CHOICE, assumption log 8). No later request comes together with an
ENTRY_MOVE of the moment before (DESIGN CHOICE, assumption log 25). -/
def State.runRc (n : Nat) (s : State) : State :=
  { s with
    rc := s.rc + n
    window := s.window.map (· - n)
    divider := s.dividerAfter n
    moved := if n = 0 then s.moved else []
    plant := { s.plant with
      holdTimer := s.plant.holdTimer.map (· - n)
      lines := updAll s.plant.lines fun _ => Line.run n } }

/-! ## Requests that come together (R14, R64; DESIGN CHOICE, assumption log 25) -/

/-- An ENTRY_MOVE has placed the entry of `p` with tag `tag` anew. -/
def State.markMoved (p : Port) (tag : Half) (s : State) : State :=
  { s with moved := s.moved.insert (p, tag) }

/-- The tag goes to a new entry, or the move has executed the entry at once. -/
def State.clearMoved (p : Port) (tag : Half) (s : State) : State :=
  { s with moved := s.moved.filter (· != (p, tag)) }

/-- The entries of a batch no longer stand where a move put them. -/
def State.clearBatch (batch : List Timed) (s : State) : State :=
  { s with moved := s.moved.filter fun q => !batch.any fun x => x.entry.isKey q.1 q.2 }

/-- The entry of `p` with tag `tag` is PENDING where an ENTRY_MOVE of this moment put it. -/
def State.justMoved (p : Port) (tag : Half) (s : State) : Bool :=
  s.moved.contains (p, tag) && (s.plant.findPending p tag).isSome

/-! ## Free orders (DESIGN CHOICE, assumption log 9, 10) -/

/-- A free choice among `n` things, and the counter after it; one thing leaves no choice. -/
def freeChoice (n : Nat) (f : Nat) : Nat × Nat :=
  if n ≤ 1 then (0, f) else (Config.freeOrder f % n, f + 1)

/-- `fuel` free choices without repetition. -/
def freeOrderOf {α : Type} : (fuel : Nat) → List α → Nat → List α × Nat
  | 0, xs, f => (xs, f)
  | _ + 1, [], f => ([], f)
  | k + 1, x :: xs, f =>
    let (i, f1) := freeChoice (x :: xs).length f
    let (ys, f2) := freeOrderOf k ((x :: xs).eraseIdx i) f1
    ((x :: xs).getD i x :: ys, f2)

/-- A free order of a list. -/
def shuffle {α : Type} (xs : List α) (f : Nat) : List α × Nat := freeOrderOf xs.length xs f

end Sys2Proof.Machine
end

