-- ==== Sys2Proof/Machine/Flags.lean ====
section
/-! DEFINITION. The codes and bits a master sees: status values, port flags and the response record
(R162, R164), notice records (R164), the codes of the request and response bodies (R164), the pins
(R68, R70), SDOn (R159) and NTFn (R169). -/

namespace Sys2Proof.Machine

/-- Status values (spec/10, section 10.3). -/
def statusCode : Status → Byte
  | .ok => 0x00#8
  | .accepted => 0x01#8
  | .noRequest => 0x02#8
  | .badCheck => 0x10#8
  | .frameShort => 0x11#8
  | .badKind => 0x12#8
  | .badField => 0x13#8
  | .wrongState => 0x20#8
  | .noRight => 0x21#8
  | .notHolder => 0x22#8
  | .lineTaken => 0x23#8
  | .notLeasable => 0x24#8
  | .poolFull => 0x30#8
  | .quotaFull => 0x31#8
  | .dupTag => 0x32#8
  | .noTag => 0x33#8
  | .late => 0x34#8
  | .busy => 0x35#8
  | .badConfig => 0x36#8
  | .lineState => 0x37#8

/-- The port flags byte: bits 4:0 notices queued, bit 5 overflow, bit 6 device OPERATING (R164). -/
def Response.flags (r : Response) : Byte :=
  natByte (r.queued + (if r.overflow then 32 else 0) + (if r.operating then 64 else 0))

/-- The response record as bytes (R162, R164). -/
def Response.bytes (r : Response) : List Byte :=
  let front := statusCode r.status :: r.flags :: r.kind :: natByte r.body.length :: r.body
  front ++ [crc8 front]

/-! ## Codes of R164 -/

def timebaseCode : Timebase → Byte
  | .off => 0#8
  | .held => 1#8
  | .running => 2#8
  | .holding => 3#8

def actionCode : ActionKind → Byte
  | .set => 0#8
  | .clear => 1#8
  | .toggle => 2#8
  | .pulse => 3#8
  | .wave => 4#8
  | .waveStop => 5#8
  | .mark => 6#8

def outcomeCode : WaveOutcome → Byte
  | .none => 0#8
  | .started => 1#8
  | .staged => 2#8

/-- Executions left in a notice: 0xFF for unlimited. -/
def leftByte : Left → Byte
  | .unlimited => 0xFF#8
  | .count n => natByte n

/-- Executions left in ENTRY_READ: 0xFFFF for unlimited. -/
def leftHalf : Left → Half
  | .unlimited => 0xFFFF#16
  | .count n => BitVec.ofNat 16 n

def edgeCode : Edge → Byte
  | .rise => 1#8
  | .fall => 2#8

def portByte (p : Port) : Byte := natByte p.val

def levelByte (v : Level) : Byte := natByte v.val

def entryStateCode : EntryState → Byte
  | .armed => 0#8
  | .pending => 1#8
  | .pulsing => 2#8
  | .done => 3#8

def kindCode : LineKind → Byte
  | .leased => 0#8
  | .shared => 1#8

def modeCode : Mode → Byte
  | .drive => 0#8
  | .shadow => 1#8

def selectCode : EdgeSelect → Byte
  | .off => 0#8
  | .rise => 1#8
  | .fall => 2#8
  | .both => 3#8

def directionCode : Direction → Byte
  | .up => 0#8
  | .down => 1#8

/-- Align in bit 0 (1 CENTRE), start in bit 1 (1 INACTIVE_FIRST). -/
def Wave.shapeByte (w : Wave) : Byte :=
  match w.align, w.start with
  | .left, .activeFirst => 0#8
  | .centre, .activeFirst => 1#8
  | .left, .inactiveFirst => 2#8
  | .centre, .inactiveFirst => 3#8

def lineStateCode : LineState → Byte
  | .static => 0#8
  | .pulsing _ => 1#8
  | .waving _ => 2#8
  | .probing _ => 3#8

def probeResultCode : ProbeResult → Byte
  | .follows => 0#8
  | .stuckHigh => 1#8
  | .stuckLow => 2#8
  | .inverted => 3#8

/-! ## Notice records -/

/-- The kind code of a notice (R164). -/
def Detail.kindCode : Detail → Byte
  | .done .. => 1#8
  | .superseded .. => 2#8
  | .late .. => 3#8
  | .pulseCut .. => 4#8
  | .waveApplied .. => 5#8
  | .leaseLost .. => 6#8
  | .edge .. => 7#8
  | .probe .. => 8#8
  | .probeAborted .. => 8#8
  | .timebase .. => 9#8
  | .setupClosed .. => 10#8

/-- The detail bytes d0 to d3 (R164). -/
def Detail.bytes : Detail → List Byte
  | .done a m o left => [actionCode a, flagByte m, outcomeCode o, leftByte left]
  | .superseded p v m left => [portByte p, levelByte v, flagByte m, leftByte left]
  | .late due => wordBytes due
  | .pulseCut (.overtaken p) n => [1#8, portByte p] ++ halfBytes (BitVec.ofNat 16 n)
  | .pulseCut .timeout n => [2#8, 0xFF#8] ++ halfBytes (BitVec.ofNat 16 n)
  | .waveApplied c p =>
    [match c with | .periodEnd => 1#8 | .restart => 2#8 | .zeroPeriod => 3#8, 0#8] ++ halfBytes p
  | .leaseLost .lapsed n => [1#8, 0xFF#8, 0xFF#8, natByte n]
  | .leaseLost (.taken p v) n => [2#8, portByte p, levelByte v, natByte n]
  | .edge q d => [q, edgeCode d, 0#8, 0#8]
  | .probe r a b saved => [probeResultCode r, flagByte a, flagByte b, flagByte saved]
  | .probeAborted ph saved p =>
    [4#8, match ph with | .a => 0xFF#8 | .b x => flagByte x, 0xFF#8,
      natByte ((if saved then 1 else 0) + (match ph with | .a => 0 | .b _ => 2) + 16 * p.val)]
  | .timebase o n c =>
    [timebaseCode o, timebaseCode n,
      match c with | .request _ => 1#8 | .pulsesDone => 2#8 | .timeout => 3#8 | .setupClosed => 4#8,
      match c with | .request p => portByte p | _ => 0xFF#8]
  | .setupClosed (.request p) => [1#8, portByte p, 0#8, 0#8]
  | .setupClosed .window => [2#8, 0xFF#8, 0#8, 0#8]

/-- The 12 bytes of a notice record (R164). -/
def Notice.bytes (n : Notice) : List Byte :=
  [n.detail.kindCode, n.subject] ++ halfBytes n.tag ++ wordBytes n.tc ++ n.detail.bytes

/-! ## Outputs -/

/-- A line's output pin (R70). -/
inductive Pin where
  | highZ
  | low
  | high
deriving DecidableEq, Repr

/-- A level through a polarity (R68): true is high. -/
def Polarity.through (p : Polarity) (active : Bool) : Bool :=
  match p with
  | .activeHigh => active
  | .activeLow => !active

/-- The level, active or inactive, that a line's pin shows while RSTn is high (R70). -/
def State.shownLevel (s : State) (l : LineId) : Bool :=
  match s.device, (s.plant.line l).mode with
  | .operating, .drive => (s.plant.line l).level
  | _, _ => (s.table.lines.get l).fallback

/-- The pin level, true for high, that the line shows while RSTn is high (R70). -/
def State.pinHigh (s : State) (l : LineId) : Bool :=
  (s.table.lines.get l).polarity.through (s.shownLevel l)

/-- The pin of line `l` (R70): high-impedance while RSTn is low. -/
def State.pin (s : State) (l : LineId) : Pin :=
  if s.rstnLow then .highZ else if s.pinHigh l then .high else .low

/-- The level on SDOn, true for high (R159): driven only in a transaction, with the bit of the record that
follows those shifted out, and 0 behind the record; none while it is released. Where CSn_n is still low
after a device reset and no fall has come since RSTn rose, no transaction has begun, and it is released
(DESIGN CHOICE, assumption log 26). -/
def State.sdo (s : State) (p : Port) : Option Bool :=
  let x := s.port p
  if s.rstnLow then none
  else x.txn.map fun record =>
    (record.getD x.shift.count 0#8).getLsbD (7 - x.shift.part.length)

/-- NTFn is low exactly while the port's queue holds a notice (R169). -/
def State.ntfLow (s : State) (p : Port) : Bool := !(s.plant.inbox p).queue.isEmpty

end Sys2Proof.Machine
end

