-- ==== Sys2Proof/Machine/Operands.lean ====
section
/-! DEFINITION. The operand forms of the request bodies (R164), the effective level and the right to act
(R67, R163), and the SCHEDULE body with the field checks of R44. A parser answers none for BAD_FIELD. -/

namespace Sys2Proof.Machine

/-! ## Levels and rights -/

/-- The requested level: bits 1:0 of the second header byte (R163). -/
def Request.level (r : Request) : Level := Fin.ofNat 4 r.head.toNat

/-- The effective level: the larger of strap level and requested level (R163). -/
def State.effective (s : State) (r : Request) : Level := max (s.port r.port).strap (Request.level r)

/-- Bits 7:2 of the second header byte are all 0 (R163 step 6). -/
def Request.headClean (r : Request) : Bool := r.head.toNat < 4

/-- Port `p` is the lease holder of line `l`. -/
def Line.heldBy (p : Port) (x : Line) : Bool :=
  match x.lease with
  | some k => k.holder == p
  | none => false

/-- The right-to-act test of R67: the status it refuses with, none where the requester passes. -/
def State.actRefusal (s : State) (p : Port) (v : Level) (l : LineId) : Option Status :=
  match (s.table.lines.get l).kind with
  | .leased => if (s.plant.line l).heldBy p then none else some .notHolder
  | .shared => if v ≤ (s.table.lines.get l).ceiling then none else some .noRight

/-! ## Plain operands -/

/-- A byte that numbers one of `n` things. -/
def byteFin (n : Nat) (b : Byte) : Option (Fin n) :=
  if h : b.toNat < n then some ⟨b.toNat, h⟩ else none

/-- An empty body. -/
def parseNothing (body : List Byte) : Option Unit :=
  match body with
  | [] => some ()
  | _ => none

/-- A body of one mask byte (R128). -/
def parseMask (body : List Byte) : Option Byte :=
  match body with
  | [b] => some b
  | _ => none

/-- A body of one number below `n`: a line, a channel, a tally. -/
def parseNumber (n : Nat) (body : List Byte) : Option (Fin n) :=
  match body with
  | [b] => byteFin n b
  | _ => none

/-- A tag that may be 0 (R60, R61). -/
def parseTag (body : List Byte) : Option Half :=
  match body with
  | [a, b] => some (half a b)
  | _ => none

/-- A tag from 1 to 65535 (R65). -/
def parseLiveTag (body : List Byte) : Option Half :=
  match parseTag body with
  | some t => if t = 0#16 then none else some t
  | none => none

/-- A tag from 1 to 65535 and a new due (R63). -/
def parseMove (body : List Byte) : Option (Half × Word) :=
  match body with
  | [a, b, d3, d2, d1, d0] =>
    if half a b = 0#16 then none else some (half a b, word d3 d2 d1 d0)
  | _ => none

/-- A line and a mode (R82). -/
def parseLineMode (body : List Byte) : Option (LineId × Mode) :=
  match body with
  | [a, b] =>
    match byteFin 16 a, b.toNat with
    | some l, 0 => some (l, .drive)
    | some l, 1 => some (l, .shadow)
    | _, _ => none
  | _ => none

/-- A line and a term of 10 to 60000 ms (R108). -/
def parseTake (body : List Byte) : Option (LineId × Half) :=
  match body with
  | [a, t1, t0] =>
    match byteFin 16 a with
    | some l =>
      if 10 ≤ (half t1 t0).toNat ∧ (half t1 t0).toNat ≤ 60000 then some (l, half t1 t0) else none
    | none => none
  | _ => none

/-- A line, or none for 0xFF, all of the requester's leases (R110). -/
def parseRenew (body : List Byte) : Option (Option LineId) :=
  match body with
  | [a] => if a = 0xFF#8 then some none else (byteFin 16 a).map some
  | _ => none

/-- A tally and a four-byte value (R142, R143). -/
def parseTallyValue (body : List Byte) : Option (TallyId × Word) :=
  match body with
  | [a, v3, v2, v1, v0] => (byteFin 8 a).map fun t => (t, word v3 v2 v1 v0)
  | _ => none

/-- A tally, the expected value and the new value (R143). -/
def parseCas (body : List Byte) : Option (TallyId × Word × Word) :=
  match body with
  | [a, e3, e2, e1, e0, v3, v2, v1, v0] =>
    (byteFin 8 a).map fun t => (t, word e3 e2 e1 e0, word v3 v2 v1 v0)
  | _ => none

/-! ## The SCHEDULE body (R43, R44, R164) -/

/-- An offset is at most 2^31 - 1 (R6). -/
def offsetOk (o : Word) : Bool := o.toNat < 2 ^ 31

/-- The trigger part: the trigger, the due operand of AT (0 for the others) and the bytes that
follow. -/
def parseTrigger (code : Byte) (rest : List Byte) : Option (Trigger × Word × List Byte) :=
  match code.toNat, rest with
  | 0, d3 :: d2 :: d1 :: d0 :: tail => some (.atDue, word d3 d2 d1 d0, tail)
  | 1, c :: n :: o3 :: o2 :: o1 :: o0 :: tail =>
    match byteFin 8 c with
    | some ch =>
      if n ≠ 0#8 ∧ offsetOk (word o3 o2 o1 o0) then
        some (.edge ch n (word o3 o2 o1 o0), 0#32, tail)
      else none
    | none => none
  | 2, t :: h3 :: h2 :: h1 :: h0 :: o3 :: o2 :: o1 :: o0 :: tail =>
    match byteFin 8 t with
    | some ty =>
      if offsetOk (word o3 o2 o1 o0) then
        some (.count ty (word h3 h2 h1 h0) (word o3 o2 o1 o0), 0#32, tail)
      else none
    | none => none
  | _, _ => none

/-- The align and start byte of a WAVE; a bit other than these two is refused (R44). -/
def parseShape (b : Byte) : Option (Align × Start) :=
  match b.toNat with
  | 0 => some (.left, .activeFirst)
  | 1 => some (.centre, .activeFirst)
  | 2 => some (.left, .inactiveFirst)
  | 3 => some (.centre, .inactiveFirst)
  | _ => none

/-- The action with its part of the body, which must end there. -/
def parseLineAction (code : Byte) (part : List Byte) : Option LineAction :=
  match code.toNat, part with
  | 0, [] => some .set
  | 1, [] => some .clear
  | 2, [] => some .toggle
  | 3, [w1, w0] => if half w1 w0 = 0#16 then none else some (.pulse (half w1 w0))
  | 4, [p1, p0, d1, d0, sh] =>
    (parseShape sh).map fun (a, st) => .wave ⟨half p1 p0, half d1 d0, a, st⟩
  | 5, [] => some .waveStop
  | _, _ => none

/-- A MARK names line 0xFF and has no part; every other action names a line 0 to 15 (R44 step 5). -/
def parseAction (code ln : Byte) (part : List Byte) : Option Action :=
  if code = 6#8 then
    if ln = 0xFF#8 ∧ part = [] then some .mark else none
  else
    match byteFin 16 ln, parseLineAction code part with
    | some l, some a => some (.onLine l a)
    | _, _ => none

/-- The step's range by trigger (R7). -/
def stepInRange (t : Trigger) (step : Word) : Bool :=
  match t with
  | .edge .. => 1 ≤ step.toNat ∧ step.toNat ≤ 255
  | _ => 1 ≤ step.toNat ∧ step.toNat < 2 ^ 31

/-- An AT-triggered repeating PULSE needs a step greater than its width (R5). -/
def pulseFits (t : Trigger) (a : Action) (step : Word) : Bool :=
  match t, a with
  | .atDue, .onLine _ (.pulse width) => width.toNat < step.toNat
  | _, _ => true

/-- The step field: not read for a repeat count of 1 (R7). -/
def parseStep (t : Trigger) (a : Action) (repeatCount : Byte) (step : Word) :
    Option (Option Word) :=
  if repeatCount = 1#8 then some none
  else if stepInRange t step && pulseFits t a step then some (some step)
  else none

/-- An EDGE trigger on a channel whose edge select is OFF is refused (R44 step 4). -/
def channelUsable (table : Table) : Trigger → Bool
  | .edge c _ _ => (table.channels.get c).select != .off
  | _ => true

/-- Executions left at SCHEDULE: the repeat count, or unlimited for 0 (R7). -/
def Left.ofRepeat (repeatCount : Byte) : Left :=
  if repeatCount = 0#8 then .unlimited else .count repeatCount.toNat

/-- The entry a SCHEDULE body spells, late mark clear, and its due operand (R43, R44). -/
def parseSchedule (s : State) (r : Request) : Option (Entry × Word) :=
  match r.body with
  | t1 :: t0 :: act :: ln :: trg :: rep :: fl :: s3 :: s2 :: s1 :: s0 :: rest =>
    match parseTrigger trg rest with
    | some (trigger, due, part) =>
      match parseAction act ln part with
      | some action =>
        match parseStep trigger action rep (word s3 s2 s1 s0) with
        | some step =>
          if half t1 t0 ≠ 0#16 ∧ fl.toNat < 4 ∧ channelUsable s.table trigger then
            some ({ owner := r.port, tag := half t1 t0, level := s.effective r, action, trigger,
                    repeatCount := rep, step, notify := fl.getLsbD 0,
                    latePolicy := if fl.getLsbD 1 then .drop else .run,
                    lateMark := false, left := Left.ofRepeat rep }, due)
          else none
        | none => none
      | none => none
    | none => none
  | _ => none

end Sys2Proof.Machine
end

