-- ==== Sys2Proof/Machine/Lines.lean ====
section
/-! DEFINITION. What happens on a line and to the entry that acts on it: completion and repeat (R56 to
R58), pulses and their ends and cuts (R76 to R81), generators (R88 to R100), the abort of a probe by a
winner (R154), the two parts of applying a winner (R74), the advance of a tick (R77, R94). -/

namespace Sys2Proof.Machine

/-! ## Completion and repeat -/

/-- One execution fewer, unless unlimited (R56 step 2). -/
def Left.after : Left → Left
  | .unlimited => .unlimited
  | .count n => .count (n - 1)

/-- Executions remain (R56 step 4). -/
def Left.goesOn : Left → Bool
  | .unlimited => true
  | .count n => n != 0

/-- How an execution ended: as a completion, or superseded by a winner (R53, R56). -/
inductive Finish where
  | done (o : WaveOutcome)
  | superseded (winner : Entry)

def Finish.detail (e : Entry) : Finish → Detail
  | .done o => .done e.action.kind e.lateMark o e.left.after
  | .superseded v => .superseded v.owner v.level e.lateMark e.left.after

/-- The repeat of a completed entry (R57, R58): an AT entry is re-inserted at its previous due plus the
step, an EDGE entry re-arms with the step as edges left, a COUNT entry raises its threshold and
re-arms. -/
def Plant.again (x : Timed) (w : Plant) : Plant :=
  let step := x.entry.step.getD 0#32
  match x.entry.trigger with
  | .atDue => w.insert { x with due := x.due + step }
  | .edge _ _ _ => w.arm ⟨x.entry, some step.toNat⟩
  | .count t h o => w.arm ⟨{ x.entry with trigger := .count t (h + step) o }, none⟩

/-- The entry as its completion leaves it: one execution fewer, late mark clear (R56). -/
def Entry.completed (e : Entry) : Entry := { e with lateMark := false, left := e.left.after }

/-- A completion (R56) of an entry that stands in no list: notice, decrement, clear, repeat or stay
removed. -/
def Plant.finish (how : Finish) (x : Timed) (w : Plant) : Plant :=
  let w1 := w.postIf x.entry.notify x.entry.owner x.entry.subject x.entry.tag (how.detail x.entry)
  if x.entry.left.after.goesOn then w1.again { x with entry := x.entry.completed } else w1

/-! ## Pulses -/

def Plant.dropPulsing (p : Port) (tag : Half) (w : Plant) : Plant :=
  { w with pulsing := w.pulsing.filter fun x => !x.entry.isKey p tag }

/-- A pulse leaves line `l` and its entry completes: the line goes inactive and STATIC; a cut posts
PULSE_CUT before the completion (R33, R77, R80). -/
def Plant.releasePulse (l : LineId) (r : PulseRec) (cut : Option CutCause) (w : Plant) : Plant :=
  let w1 := w.setLine l (Line.rest false .static)
  match w.findPulsing r.owner r.tag with
  | none => w1
  | some x =>
    let w2 := w1.dropPulsing r.owner r.tag
    let w3 := match cut with
      | some c => w2.postIf x.entry.notify r.owner (lineByte l) r.tag (.pulseCut c r.remaining)
      | none => w2
    w3.finish (.done .none) x

/-- The normal end of a pulse (R77): the pulse leaves the line, its entry completes, and in HOLDING the
last end brings the timebase to HELD (R32). -/
def Plant.endPulse (l : LineId) (r : PulseRec) (w : Plant) : Plant :=
  (w.releasePulse l r none).settleHold

/-- A pulse is taken from its line without a completion: the line is STATIC at `level` (R81). -/
def Plant.takePulse (l : LineId) (level : Bool) (w : Plant) : Plant :=
  match (w.line l).state with
  | .pulsing _ => w.setLine l (Line.rest level .static)
  | _ => w

/-! ## Generators -/

/-- The start level, true for active (R89). -/
def Start.active : Start → Bool
  | .activeFirst => true
  | .inactiveFirst => false

/-- The output rule (R89): the start level while the counter is below D, the other level from D on. -/
def Generator.output (g : Generator) : Bool :=
  if g.counter < g.wave.duty.toNat then g.wave.start.active else !g.wave.start.active

/-- A generator at the start of a period with the given settings and no pending load. -/
def Generator.fresh (v : Wave) : Generator := ⟨v, 0, .up, none⟩

/-- The line is WAVING with this generator, at its output as evaluated now (R89). -/
def Plant.showGenerator (l : LineId) (g : Generator) (w : Plant) : Plant :=
  w.setLine l (Line.rest g.output (.waving g))

/-- A pending load is applied: its settings are in force from c = 0, UP, and its owner is told where its
notify is set (R92, R97). -/
def Plant.applyLoad (l : LineId) (ld : Load) (cause : ApplyCause) (w : Plant) : Plant :=
  (w.showGenerator l (Generator.fresh ld.wave)).postIf ld.notify ld.owner (lineByte l) ld.tag
    (.waveApplied cause ld.wave.period)

/-- The generator goes to c = 0, UP, and any pending load is applied: a period end (R92) and a
WAVE_RESTART (R102). -/
def Plant.rewind (l : LineId) (g : Generator) (cause : ApplyCause) (w : Plant) : Plant :=
  match g.load with
  | some ld => w.applyLoad l ld cause
  | none => w.showGenerator l { g with counter := 0, direction := .up }

/-- One count of a generator whose P is not 0; none where the count ends the period (R90, R91). -/
def Generator.next (g : Generator) : Option Generator :=
  match g.wave.align, g.direction with
  | .left, _ =>
    if g.counter + 1 < g.wave.period.toNat then some { g with counter := g.counter + 1 } else none
  | .centre, .up =>
    some { g with
      counter := g.counter + 1
      direction := if g.counter + 1 < g.wave.period.toNat then .up else .down }
  | .centre, .down =>
    if g.counter ≤ 1 then none else some { g with counter := g.counter - 1 }

/-- One count on a WAVING line (R90, R91, R92); a generator whose P is 0 holds (R93). -/
def Plant.countGenerator (l : LineId) (g : Generator) (w : Plant) : Plant :=
  if g.wave.period = 0#16 then w
  else
    match g.next with
    | some g' => w.showGenerator l g'
    | none => w.rewind l g .periodEnd

/-- A WAVE winner stages its settings on a WAVING line, displacing any earlier load (R96); on a zero
period they are applied at once (R93). -/
def Plant.stage (l : LineId) (g : Generator) (ld : Load) (w : Plant) : Plant :=
  if g.wave.period = 0#16 then w.applyLoad l ld .zeroPeriod
  else w.setLine l fun x => { x with state := .waving { g with load := some ld } }

/-! ## Applying a winner -/

/-- The first part (R74): the line is cleared of what it was doing and is STATIC. -/
def Plant.clearLine (l : LineId) (winner : Port) (w : Plant) : Plant :=
  match (w.line l).state with
  | .static => w
  | .pulsing r => w.releasePulse l r (some (.overtaken winner))
  | .waving _ => w.setLine l fun x => { x with state := .static }
  | .probing r =>
    (w.setLine l (Line.rest r.saved .static)).post r.requester (lineByte l) 0#16
      (.probeAborted r.phase r.saved winner)

/-- Both parts (R74, R76, R95, R96, R99, R100): the plant after it and the wave outcome. -/
def Plant.applyWinner (x : Timed) (l : LineId) (a : LineAction) (w : Plant) : Plant × WaveOutcome :=
  match a with
  | .set => ((w.clearLine l x.entry.owner).setLine l (Line.rest true .static), .none)
  | .clear => ((w.clearLine l x.entry.owner).setLine l (Line.rest false .static), .none)
  | .toggle =>
    ((w.clearLine l x.entry.owner).setLine l fun y => y.rest (!y.level) .static, .none)
  | .waveStop => ((w.clearLine l x.entry.owner).setLine l (Line.rest false .static), .none)
  | .pulse width =>
    let w1 := (w.clearLine l x.entry.owner).setLine l
      (Line.rest true (.pulsing ⟨x.entry.owner, x.entry.tag, width.toNat⟩))
    ({ w1 with pulsing := w1.pulsing ++ [x] }, .none)
  | .wave v =>
    match (w.line l).state with
    | .waving g => (w.stage l g ⟨v, x.entry.owner, x.entry.tag, x.entry.notify⟩, .staged)
    | _ => ((w.clearLine l x.entry.owner).showGenerator l (Generator.fresh v), .started)

/-! ## The advance of a tick -/

/-- A line's advance for a tick: pulse countdown or generator count (R77, R94). -/
def Plant.advanceLine (w : Plant) (l : LineId) : Plant :=
  match (w.line l).state with
  | .pulsing r =>
    if r.remaining ≤ 1 then w.endPulse l r
    else w.setLine l fun x => { x with state := .pulsing { r with remaining := r.remaining - 1 } }
  | .waving g => w.countGenerator l g
  | .static => w
  | .probing _ => w

/-- The advance of every line, in ascending order (R77). -/
def Plant.advance (w : Plant) : Plant := allLines.foldl Plant.advanceLine w

end Sys2Proof.Machine
end

