-- ==== Sys2Proof/Machine/Batch.lean ====
section
/-! DEFINITION. Release batches: arbitration (R52, R53), the work of a batch (R54, R55), the placement of
an entry (R47, R50), the tick and START batches (R35, R49), and the walks of the armed list that an
edge and a tally change make (R132, R133, R146). -/

namespace Sys2Proof.Machine

/-- Of two entries that name one line, in batch order: the lower level, then the ARBITRATION setting
(R52). -/
def prefer (arb : Arbitration) (x y : Timed) : Timed :=
  if y.entry.level < x.entry.level then y
  else if y.entry.level = x.entry.level ∧ arb = .newest then y
  else x

/-- The winner of a line among a batch (R52); none where no entry of the batch names it. -/
def winner (arb : Arbitration) (l : LineId) (batch : List Timed) : Option Timed :=
  match batch.filter fun x => x.entry.onLine l with
  | [] => none
  | x :: xs => some (xs.foldl (prefer arb) x)

/-- The work of one entry of a batch (R53, R54, R55): a MARK completes; the line's winner is applied and
completes unless it is a PULSE; every other entry is superseded. -/
def Plant.runOne (arb : Arbitration) (batch : List Timed) (w : Plant) (x : Timed) : Plant :=
  match x.entry.action with
  | .mark => w.finish (.done .none) x
  | .onLine l a =>
    let v := (winner arb l batch).getD x
    if v.entry.sameKey x.entry then
      let (w1, o) := w.applyWinner x l a
      match a with
      | .pulse _ => w1
      | _ => w1.finish (.done o) x
    else w.finish (.superseded v.entry) x

/-- The work of a batch, in batch order (R55). -/
def Plant.runBatch (arb : Arbitration) (batch : List Timed) (w : Plant) : Plant :=
  batch.foldl (Plant.runOne arb batch) w

/-- The PENDING entries at lead 0, in timeline order (R35, R49). -/
def Plant.dueNow (w : Plant) : List Timed := w.timeline.filter fun x => lead w.tc x.due == 0#32

/-- Take the entries at lead 0 out of the timeline list and execute them as one batch: the tick batch
(R49) and the START batch (R35). -/
def Plant.releaseDue (arb : Arbitration) (w : Plant) : Plant :=
  { w with timeline := w.timeline.filter fun x => lead w.tc x.due != 0#32 }.runBatch arb w.dueNow

/-- An entry placed at lead 0 while RUNNING is executed at once (R50). -/
abbrev Plant.AtOnce (x : Timed) (w : Plant) : Prop := w.timebase = .running ∧ lead w.tc x.due = 0#32

/-- A placement (R47, R50): an entry at lead 0 while RUNNING is executed at once as a batch of one;
every other is inserted in the timeline list. -/
def Plant.place (arb : Arbitration) (x : Timed) (w : Plant) : Plant :=
  if w.AtOnce x then w.runBatch arb [x] else w.insert x

/-! ## Ticks -/

/-- TB advances TC by one (R23, R26). -/
def Plant.countTick (w : Plant) : Plant := { w with tc := w.tc + 1#32 }

/-- A tick (R26, R27): in RUNNING, TC and the lines advance and the tick batch is executed; in HOLDING
the lines alone advance; in HELD and OFF no tick is produced. -/
def Plant.tick (arb : Arbitration) (w : Plant) : Plant :=
  match w.timebase with
  | .running => w.countTick.advance.releaseDue arb
  | .holding => w.advance
  | .held => w
  | .off => w

/-- The batch that a tick executes: the entries at lead 0 once TC and the lines have advanced (R49). -/
def Plant.tickBatch (w : Plant) : List Timed :=
  match w.timebase with
  | .running => w.countTick.advance.dueNow
  | .holding | .held | .off => []

/-! ## The armed list -/

/-- An entry leaves the armed list. -/
def Plant.dropArmed (p : Port) (tag : Half) (w : Plant) : Plant :=
  { w with armed := w.armed.filter fun x => !x.entry.isKey p tag }

/-- An armed entry is released: it leaves the list, its due becomes TC plus its offset, and it is placed
(R132, R146). TC here is the capture TC of the releasing edge. -/
def Plant.release (arb : Arbitration) (x : Waiting) (offset : Word) (w : Plant) : Plant :=
  (w.dropArmed x.entry.owner x.entry.tag).place arb ⟨x.entry, w.tc + offset⟩

/-- One armed EDGE entry meets an accepted edge (R132): edges left falls by one, and at 0 it is
released. -/
def Plant.countDown (arb : Arbitration) (x : Waiting) (offset : Word) (w : Plant) : Plant :=
  let k := x.edgesLeft.getD 0
  if k ≤ 1 then w.release arb x offset
  else
    { w with
      armed := w.armed.map fun y =>
        if y.entry.sameKey x.entry then { y with edgesLeft := some (k - 1) } else y }

/-- The countdown walk of an edge on channel `c` over the entries that stood in the armed list when the
edge was accepted (R132, R58; DEDUCED, assumption log 11). -/
def Plant.walkEdge (arb : Arbitration) (c : Channel) (snapshot : List Waiting) (w : Plant) : Plant :=
  snapshot.foldl (fun w x =>
    match x.entry.trigger with
    | .edge c' _ o => if c' = c then w.countDown arb x o else w
    | _ => w) w

/-- The evaluation of a change of tally `t` that left it at `v`, over the entries that stood in the armed
list when the change was taken (R146, R58). -/
def Plant.walkCount (arb : Arbitration) (t : TallyId) (v : Word) (snapshot : List Waiting)
    (w : Plant) : Plant :=
  snapshot.foldl (fun w x =>
    match x.entry.trigger with
    | .count t' h o => if t' = t ∧ reached v h then w.release arb x o else w
    | _ => w) w

end Sys2Proof.Machine
end

