-- ==== Sys2Proof/Machine/Requests.lean ====
section
/-! DEFINITION. How a port takes a request (R159 to R163): the general checks in their order, the work,
the response record in the slot, the bytes clocked out. Each request's meaning is one `serve` over its
own parser and work. -/

namespace Sys2Proof.Machine

/-- What a block answers to a request: a status and a response body (R162). -/
structure Reply where
  status : Status
  body   : List Byte
deriving DecidableEq, Repr

/-- A refusal has an empty body (R162). -/
def refuse (st : Status) : Reply := ⟨st, []⟩

/-- The states column of the request summary table (spec/10, section 10.5). -/
inductive Allowed where
  | both
  | setupOnly
  | operatingOnly
deriving DecidableEq, Repr

def Allowed.admits : Allowed → DeviceState → Bool
  | .both, _ => true
  | .setupOnly, .setup => true
  | .setupOnly, .operating => false
  | .operatingOnly, .operating => true
  | .operatingOnly, .setup => false

/-- Whole bytes of a request's transaction: header, body, check byte, filler (R160). -/
def Request.count (r : Request) : Nat := 4 + r.body.length + r.filler.length

/-- Steps 2 and 4 to 6 of R163, in order: a LEN above 32 cannot be held (R160), the device state, the
level limit, the header bits with the body's length and operands. -/
def gate {α : Type} (allowed : Allowed) (limit : Option Level) (operands : Option α) (r : Request)
    (s : State) : Except Status α :=
  if Config.maxBody < r.body.length then .error .badCheck
  else if !allowed.admits s.device then .error .wrongState
  else
    match limit with
    | some v => if v < s.effective r then .error .noRight else operandGate
    | none => operandGate
where
  /-- Step 6 of R163. -/
  operandGate : Except Status α :=
    if !Request.headClean r then .error .badField
    else match operands with
      | some a => .ok a
      | none => .error .badField

/-- The bytes a transaction of `count` bytes clocks out: the record, then zeros (R159). -/
def shiftOut (record : List Byte) (count : Nat) : List Byte :=
  record.take count ++ List.replicate (count - record.length) 0#8

/-- The response that PI builds when the work of a request is done (R162). -/
def State.response (s : State) (p : Port) (kind : Byte) (rep : Reply) : Response :=
  ⟨rep.status, (s.plant.inbox p).queue.length, (s.plant.inbox p).overflow, s.device == .operating,
    kind, rep.body⟩

/-- The end of a transaction: the response goes into the slot, the shift buffer is emptied and a partly
shifted byte with it, the bytes clocked out are those of the record the slot held when the transaction
began (R159, R161, R162). -/
def State.respond (p : Port) (kind : Byte) (count : Nat) (rep : Reply) (s : State) : State :=
  s.setPort p fun x =>
    { x with
      slot := s.response p kind rep
      txn := none
      shift := ShiftBuffer.empty
      sent := shiftOut (x.txn.getD []) count }

/-- A request is taken (R159, R163): checks, work, response. On a port with no transaction in progress,
while RSTn is low, and where other bits have been shifted in, no such request is taken (R172; DEDUCED,
assumption log 5, 6). -/
def serve {α : Type} (kind : Byte) (allowed : Allowed) (limit : State → Option Level)
    (operands : State → Option α) (work : α → State → State × Reply) (r : Request) (s : State) :
    State :=
  if s.hears r.port (Request.bits kind r) then
    match gate allowed (limit s) (operands s) r s with
    | .error st => s.respond r.port kind (Request.count r) (refuse st)
    | .ok a => (work a s).1.respond r.port kind (Request.count r) (work a s).2
  else s

/-- Outcome of a step: the model has no fault and refuses nothing. -/
abbrev Out := Host.Outcome State Fault Refusal

/-- No level limit at step 5 of R163. -/
def noLimit : State → Option Level := fun _ => none

/-- Work on TB, TQ, LC and the queues alone. -/
def State.onPlant (f : Plant → Plant) (s : State) : State := { s with plant := f s.plant }

/-- A request that changes nothing answers OK with a body. -/
def readOnly {α : Type} (body : State → α → List Byte) (a : α) (s : State) : State × Reply :=
  (s, ⟨.ok, body s a⟩)

end Sys2Proof.Machine
end

