-- ==== Sys2Proof/Machine/LineRequests.lean ====
section
/-! DEFINITION. LINE_MODE (R82), LINE_READ (R84), WAVE_RESTART (R102), PULSE_END (R77) and PERIOD_END
(R92). -/

namespace Sys2Proof.Machine

/-! ## LINE_MODE -/

def isProbing (x : Line) : Bool :=
  match x.state with
  | .probing _ => true
  | _ => false

/-- Steps 3 and 4 of R82; none where the request is accepted. -/
def modeRefusal (s : State) (r : Request) (l : LineId) : Option Status :=
  match s.actRefusal r.port (s.effective r) l with
  | some st => some st
  | none => if isProbing (s.plant.line l) then some .busy else none

/-- The mode of a line is set; its level and line state stay (R82). -/
def State.setMode (l : LineId) (m : Mode) (s : State) : State :=
  s.onPlant fun w => w.setLine l fun x => { x with mode := m }

/-- Mode, internal level, pin level (R164). -/
def modeBody (l : LineId) (s : State) : List Byte :=
  [modeCode (s.plant.line l).mode, flagByte (s.plant.line l).level, flagByte (s.pinHigh l)]

def modeWork (r : Request) (q : LineId × Mode) (s : State) : State × Reply :=
  match modeRefusal s r q.1 with
  | some st => (s, refuse st)
  | none => (s.setMode q.1 q.2, ⟨.ok, modeBody q.1 (s.setMode q.1 q.2)⟩)

/-- LINE_MODE (R82). -/
def execLineMode (r : Request) (s : State) : Out :=
  .next (serve 0x30#8 .operatingOnly noLimit (fun _ => parseLineMode r.body) (modeWork r) r s)

/-! ## LINE_READ -/

/-- Remaining lease time in whole ms rounded up, 1 at least (R107, R112; DEDUCED, assumption log 16). -/
def Lease.remainingMs (k : Lease) : Nat :=
  max 1 ((k.remaining + Config.xinPerMs - 1) / Config.xinPerMs)

/-- Holder, lease level and remaining term in ms; absent fields are zeros (R84, R164). -/
def leaseShort (x : Line) : List Byte :=
  match x.lease with
  | some k =>
    [portByte k.holder, levelByte k.level] ++ halfBytes (BitVec.ofNat 16 k.remainingMs)
  | none => [0xFF#8, 0#8, 0#8, 0#8]

/-- Pulse remaining and owner while PULSING, else zeros (R84, R164). -/
def pulseFields (st : LineState) : List Byte :=
  match st with
  | .pulsing r => halfBytes (BitVec.ofNat 16 r.remaining) ++ [portByte r.owner]
  | _ => [0#8, 0#8, 0#8]

/-- Counter, direction, P, D, align and start, as WAVE_RESTART and LINE_READ give them (R164). -/
def generatorFields (g : Generator) : List Byte :=
  halfBytes (BitVec.ofNat 16 g.counter) ++ [directionCode g.direction] ++
    halfBytes g.wave.period ++ halfBytes g.wave.duty ++ [g.wave.shapeByte]

/-- The generator fields and the pending load while WAVING, else zeros (R84, R164). -/
def waveFields (st : LineState) : List Byte :=
  match st with
  | .waving g => generatorFields g ++ [flagByte g.load.isSome]
  | _ => List.replicate 9 0#8

/-- The 22 bytes of LINE_READ (R84, R164). -/
def lineBody (sense : Bool) (s : State) (l : LineId) : List Byte :=
  let x := s.plant.line l
  [kindCode (s.table.lines.get l).kind, modeCode x.mode] ++ leaseShort x ++
    [flagByte x.level, flagByte (s.pinHigh l), flagByte sense, lineStateCode x.state] ++
    pulseFields x.state ++ waveFields x.state

/-- LINE_READ (R84); `sense` is the level on SNn when the request is taken. -/
def execLineRead (r : Request) (sense : Bool) (s : State) : Out :=
  .next (serve 0x31#8 .both noLimit (fun _ => parseNumber 16 r.body)
    (readOnly (lineBody sense)) r s)

/-! ## WAVE_RESTART -/

/-- The WAVE_RESTART body (R102): the fields after the request, the output, whether a load was
applied. -/
def restartBody (l : LineId) (applied : Bool) (w : Plant) : List Byte :=
  match (w.line l).state with
  | .waving g => generatorFields g ++ [flagByte g.output, flagByte applied]
  | _ => []

def restartWork (r : Request) (l : LineId) (s : State) : State × Reply :=
  match s.actRefusal r.port (s.effective r) l with
  | some st => (s, refuse st)
  | none =>
    match (s.plant.line l).state with
    | .waving g =>
      let w := s.plant.rewind l g .restart
      ({ s with plant := w }, ⟨.ok, restartBody l g.load.isSome w⟩)
    | _ => (s, refuse .lineState)

/-- WAVE_RESTART (R102). -/
def execWaveRestart (r : Request) (s : State) : Out :=
  .next (serve 0x32#8 .operatingOnly noLimit (fun _ => parseNumber 16 r.body) (restartWork r) r s)

/-! ## PULSE_END and PERIOD_END -/

/-- PULSE_END (R77): the pulse of a line whose count reaches 0 at this tick ends normally. A line with
no such pulse, and a timebase that takes no tick, give no such event (DESIGN CHOICE, assumption log
12). -/
def Plant.pulseEnd (l : LineId) (w : Plant) : Plant :=
  match (w.line l).state with
  | .pulsing r => if w.timebase.ticks && r.remaining ≤ 1 then w.endPulse l r else w
  | _ => w

/-- PULSE_END (R77). -/
def execPulseEnd (l : LineId) (s : State) : Out := .next (s.onPlant (Plant.pulseEnd l))

/-- PERIOD_END (R92): the count of a generator that brings c to 0. A generator with no such count, and a
timebase that takes no tick, give no such event (DESIGN CHOICE, assumption log 12). -/
def Plant.periodEnd (l : LineId) (w : Plant) : Plant :=
  match (w.line l).state with
  | .waving g =>
    if w.timebase.ticks && g.wave.period != 0#16 && g.next.isNone then w.rewind l g .periodEnd else w
  | _ => w

/-- PERIOD_END (R92). -/
def execPeriodEnd (l : LineId) (s : State) : Out := .next (s.onPlant (Plant.periodEnd l))

end Sys2Proof.Machine
end

