-- ==== Sys2Proof/Machine/Leases.lean ====
section
/-! DEFINITION. The end of a lease (R113, R114, R115), LEASE_TAKE (R108, R109), LEASE_RENEW (R110),
LEASE_RELEASE (R111), LEASE_READ (R112) and LAPSE (R116). -/

namespace Sys2Proof.Machine

/-! ## The end of a lease -/

/-- Steps 1 to 3 of R113: the level at which the probe, the pulse or the generator leaves the line under
PREEMPT; a STATIC line keeps its level. -/
def Line.quietLevel (x : Line) : Bool :=
  match x.state with
  | .static => x.level
  | .pulsing _ => false
  | .waving _ => x.level
  | .probing r => r.saved

/-- The line effects of a lease end (R113): STATIC, at `level`, without a holder. -/
def Line.vacate (level : Bool) (x : Line) : Line :=
  { x with level := level, state := .static, lease := none }

/-- The entries of port `p` that name line `l` (R114). -/
def ownedOn (p : Port) (l : LineId) (e : Entry) : Bool := e.owner == p && e.onLine l

/-- The entries that the end of the lease of `p` on `l` removes, counted (R114). -/
def Plant.leaseEntries (p : Port) (l : LineId) (w : Plant) : Nat := w.countLive (ownedOn p l)

/-- R113 and R114 on one line: the line comes to rest at `level` without a holder, and the former
holder's entries on it leave the pool. -/
def Plant.vacate (p : Port) (l : LineId) (level : Bool) (w : Plant) : Plant :=
  (w.setLine l (Line.vacate level)).drop (ownedOn p l)

/-- The whole lease end by LAPSE (R113 to R116): fallback level, LEASE_LOST to the former holder, and
the move to HELD after it. -/
def Plant.lapse (p : Port) (l : LineId) (fallback : Bool) (w : Plant) : Plant :=
  ((w.vacate p l fallback).post p (lineByte l) 0#16
    (.leaseLost .lapsed (w.leaseEntries p l))).settleHold

/-- The whole lease end by RELEASE (R111): fallback level, no notice for it. -/
def Plant.releaseLease (p : Port) (l : LineId) (fallback : Bool) (w : Plant) : Plant :=
  (w.vacate p l fallback).settleHold

/-- A new lease at its full term (R108). -/
def Lease.fresh (p : Port) (v : Level) (term : Half) : Lease :=
  ⟨p, v, term, term.toNat * Config.xinPerMs⟩

def Plant.setLease (l : LineId) (k : Option Lease) (w : Plant) : Plant :=
  w.setLine l fun x => { x with lease := k }

/-- A preemption (R109): the old lease ends by PREEMPT, the former holder is told, the requester becomes
the holder; then the move to HELD, after the LEASE_LOST (R114). -/
def Plant.preempt (old : Port) (l : LineId) (new : Lease) (w : Plant) : Plant :=
  (((w.vacate old l (w.line l).quietLevel).post old (lineByte l) 0#16
    (.leaseLost (.taken new.holder new.level) (w.leaseEntries old l))).setLease l
      (some new)).settleHold

/-! ## LEASE_TAKE -/

inductive TakeOutcome where
  | new
  | renewed
  | preempted (former : Port) (removed : Nat)
deriving DecidableEq, Repr

/-- Outcome, lease level, term, former holder, entries removed (R164). -/
def takeBody (v : Level) (term : Half) (o : TakeOutcome) : List Byte :=
  (match o with | .new => [0#8] | .renewed => [1#8] | .preempted _ _ => [2#8]) ++
    [levelByte v] ++ halfBytes term ++
    (match o with | .preempted p n => [portByte p, natByte n] | _ => [0xFF#8, 0#8])

/-- The preemption test of R109. -/
def mayPreempt (c : LineConfig) (v : Level) (k : Lease) : Bool := c.preemptible && v < k.level

/-- Steps 3, 4 and 7 of R108; none where the take is accepted. -/
def takeRefusal (s : State) (r : Request) (l : LineId) : Option Status :=
  let c := s.table.lines.get l
  match c.kind with
  | .shared => some .notLeasable
  | .leased =>
    if c.ceiling < s.effective r then some .noRight
    else
      match (s.plant.line l).lease with
      | none => none
      | some k =>
        if k.holder = r.port ∨ mayPreempt c (s.effective r) k then none else some .lineTaken

/-- Steps 5 to 7 of R108. -/
def Plant.take (l : LineId) (new : Lease) (w : Plant) : Plant × TakeOutcome :=
  match (w.line l).lease with
  | none => (w.setLease l (some new), .new)
  | some k =>
    if k.holder = new.holder then (w.setLease l (some new), .renewed)
    else (w.preempt k.holder l new, .preempted k.holder (w.leaseEntries k.holder l))

def takeWork (r : Request) (q : LineId × Half) (s : State) : State × Reply :=
  match takeRefusal s r q.1 with
  | some st => (s, refuse st)
  | none =>
    let (w, o) := s.plant.take q.1 (Lease.fresh r.port (s.effective r) q.2)
    ({ s with plant := w }, ⟨.ok, takeBody (s.effective r) q.2 o⟩)

/-- LEASE_TAKE (R108, R109). -/
def execLeaseTake (r : Request) (s : State) : Out :=
  .next (serve 0x40#8 .operatingOnly noLimit (fun _ => parseTake r.body) (takeWork r) r s)

/-! ## LEASE_RENEW -/

/-- The countdown starts again at the term the lease holds (R107, R110). -/
def Lease.renew (k : Lease) : Lease := { k with remaining := k.term.toNat * Config.xinPerMs }

/-- The lease of port `p`, if it holds the line. -/
def Line.leaseOf (p : Port) (x : Line) : Option Lease :=
  match x.lease with
  | some k => if k.holder = p then some k else none
  | none => none

/-- Every lease that `p` holds is renewed (R110). -/
def Line.renewIf (p : Port) (x : Line) : Line :=
  if x.heldBy p then { x with lease := x.lease.map Lease.renew } else x

/-- How many lines port `p` holds, 0 to 16 (R110, R120). -/
def Plant.leaseCount (p : Port) (w : Plant) : Nat := (allLines.filter fun l => (w.line l).heldBy p).length

def renewWork (p : Port) (q : Option LineId) (s : State) : State × Reply :=
  match q with
  | some l =>
    match (s.plant.line l).leaseOf p with
    | some k =>
      (s.onPlant (Plant.setLease l (some k.renew)),
        ⟨.ok, [natByte l.val, levelByte k.level] ++ halfBytes k.term⟩)
    | none => (s, refuse .notHolder)
  | none =>
    (s.onPlant fun w => { w with lines := updAll w.lines fun _ => Line.renewIf p },
      ⟨.ok, [natByte (s.plant.leaseCount p)]⟩)

/-- LEASE_RENEW (R110). -/
def execLeaseRenew (r : Request) (s : State) : Out :=
  .next (serve 0x41#8 .operatingOnly noLimit (fun _ => parseRenew r.body) (renewWork r.port) r s)

/-! ## LEASE_RELEASE -/

/-- The fallback level of a line, true for ACTIVE (R66). -/
def State.fallback (s : State) (l : LineId) : Bool := (s.table.lines.get l).fallback

def releaseWork (p : Port) (l : LineId) (s : State) : State × Reply :=
  if (s.plant.line l).heldBy p then
    (s.onPlant (Plant.releaseLease p l (s.fallback l)),
      ⟨.ok, [natByte l.val, natByte (s.plant.leaseEntries p l)]⟩)
  else (s, refuse .notHolder)

/-- LEASE_RELEASE (R111). -/
def execLeaseRelease (r : Request) (s : State) : Out :=
  .next (serve 0x42#8 .operatingOnly noLimit (fun _ => parseNumber 16 r.body)
    (releaseWork r.port) r s)

/-! ## LEASE_READ -/

/-- Kind, ceiling, preemptible, holder, lease level, term, remaining (R112, R164). -/
def leaseBody (s : State) (l : LineId) : List Byte :=
  let c := s.table.lines.get l
  [kindCode c.kind, levelByte c.ceiling, flagByte c.preemptible] ++
    match (s.plant.line l).lease with
    | some k =>
      [portByte k.holder, levelByte k.level] ++ halfBytes k.term ++
        halfBytes (BitVec.ofNat 16 k.remainingMs)
    | none => [0xFF#8, 0#8, 0#8, 0#8, 0#8, 0#8]

/-- LEASE_READ (R112). -/
def execLeaseRead (r : Request) (s : State) : Out :=
  .next (serve 0x43#8 .operatingOnly noLimit (fun _ => parseNumber 16 r.body)
    (readOnly leaseBody) r s)

/-! ## LAPSE -/

/-- R116 at a lease that RC has brought to 0. A lease with time left, a renewed one among them, continues
(R118), and a line without a holder has no such event (DEDUCED, assumption log 6). -/
def State.lapse (l : LineId) (s : State) : State :=
  match (s.plant.line l).lease with
  | some k =>
    if k.remaining = 0 then s.onPlant (Plant.lapse k.holder l (s.fallback l)) else s
  | none => s

/-- LAPSE (R116). -/
def execLapse (l : LineId) (s : State) : Out := .next (s.lapse l)

end Sys2Proof.Machine
end

