-- ==== Sys2Proof/Machine/Probe.lean ====
section
/-! DEFINITION. LINE_PROBE (R151), PHASE_A_END (R152) and PHASE_B_END (R152, R153). -/

namespace Sys2Proof.Machine

/-- Steps 3 and 4 of R151; none where the probe is accepted. -/
def probeRefusal (s : State) (r : Request) (l : LineId) : Option Status :=
  match s.actRefusal r.port (s.effective r) l with
  | some st => some st
  | none =>
    if (s.plant.line l).state = .static ∧ (s.plant.line l).mode = .drive then none
    else some .lineState

/-- A probe starts: the line is PROBING in phase A at active, its level saved (R151). -/
def Plant.startProbe (p : Port) (l : LineId) (w : Plant) : Plant :=
  w.setLine l fun x => x.rest true (.probing ⟨p, x.level, .a, Config.probePhase⟩)

def probeWork (r : Request) (l : LineId) (s : State) : State × Reply :=
  match probeRefusal s r l with
  | some st => (s, refuse st)
  | none =>
    (s.onPlant (Plant.startProbe r.port l),
      ⟨.accepted, [natByte l.val, flagByte (s.plant.line l).level]⟩)

/-- LINE_PROBE (R151). -/
def execLineProbe (r : Request) (s : State) : Out :=
  .next (serve 0x33#8 .operatingOnly noLimit (fun _ => parseNumber 16 r.body) (probeWork r) r s)

/-- The result of two samples, true for high, under a polarity (R153). -/
def classify (p : Polarity) (a b : Bool) : ProbeResult :=
  match a, b with
  | true, true => .stuckHigh
  | false, false => .stuckLow
  | true, false => match p with | .activeHigh => .follows | .activeLow => .inverted
  | false, true => match p with | .activeHigh => .inverted | .activeLow => .follows

/-- Phase B begins with sample A kept and the line inactive (R152). -/
def Plant.phaseB (l : LineId) (r : ProbeRec) (sample : Bool) (w : Plant) : Plant :=
  w.setLine l (Line.rest false (.probing { r with phase := .b sample, time := Config.probePhase }))

/-- R152 at a phase A that RC has brought to its end; a line in no such phase has no such event (DEDUCED,
assumption log 6). -/
def State.phaseAEnd (l : LineId) (sense : Bool) (s : State) : State :=
  match (s.plant.line l).state with
  | .probing r =>
    match r.phase with
    | .a => if r.time = 0 then s.onPlant (Plant.phaseB l r sense) else s
    | .b _ => s
  | _ => s

/-- PHASE_A_END (R152). -/
def execPhaseAEnd (l : LineId) (sense : Bool) (s : State) : Out := .next (s.phaseAEnd l sense)

/-- A probe ends: the line is STATIC at the saved level and the requester is told (R153). -/
def Plant.endProbe (pol : Polarity) (l : LineId) (r : ProbeRec) (a b : Bool) (w : Plant) : Plant :=
  (w.setLine l (Line.rest r.saved .static)).post r.requester (lineByte l) 0#16
    (.probe (classify pol a b) a b r.saved)

/-- R153 at a phase B that RC has brought to its end; a line in no such phase has no such event (DEDUCED,
assumption log 6). -/
def State.phaseBEnd (l : LineId) (sense : Bool) (s : State) : State :=
  match (s.plant.line l).state with
  | .probing r =>
    match r.phase with
    | .a => s
    | .b a =>
      if r.time = 0 then
        s.onPlant (Plant.endProbe (s.table.lines.get l).polarity l r a sense)
      else s
  | _ => s

/-- PHASE_B_END (R152, R153). -/
def execPhaseBEnd (l : LineId) (sense : Bool) (s : State) : Out := .next (s.phaseBEnd l sense)

end Sys2Proof.Machine
end

