-- ==== Sys2Proof/Machine/Setup.lean ====
section
/-! DEFINITION. The configuration items (R174), CONFIG_WRITE (R175), CONFIG_READ (R176), END_SETUP and
SETUP_WINDOW_EXPIRY (R177), the entry into OPERATING (R178), DEVICE_RESET and RSTN_RISE (R172, R173). -/

namespace Sys2Proof.Machine

/-! ## Items -/

/-- An item of the table with its index (R174). -/
inductive Item where
  | quota (p : Port)
  | lineKind (l : LineId)
  | lineCeiling (l : LineId)
  | linePolarity (l : LineId)
  | lineFallback (l : LineId)
  | linePreemptible (l : LineId)
  | lineInitialMode (l : LineId)
  | source
  | prescale
  | holdLevel
  | holdTimeout
  | arbitration
  | chEdge (c : Channel)
  | chHoldoff (c : Channel)
  | tallyBind (t : TallyId)
  | tallyLevel (t : TallyId)
deriving DecidableEq, Repr

/-- An item of the whole part takes index 0 (R174). -/
def wholeItem (x : Item) (index : Byte) : Option Item := if index = 0#8 then some x else none

/-- The item of a code and an index; none for an unknown code or an index out of range (R174). -/
def Item.ofCode (code index : Byte) : Option Item :=
  match code.toNat with
  | 0x01 => (byteFin 4 index).map .quota
  | 0x10 => (byteFin 16 index).map .lineKind
  | 0x11 => (byteFin 16 index).map .lineCeiling
  | 0x12 => (byteFin 16 index).map .linePolarity
  | 0x13 => (byteFin 16 index).map .lineFallback
  | 0x14 => (byteFin 16 index).map .linePreemptible
  | 0x15 => (byteFin 16 index).map .lineInitialMode
  | 0x20 => wholeItem .source index
  | 0x21 => wholeItem .prescale index
  | 0x22 => wholeItem .holdLevel index
  | 0x23 => wholeItem .holdTimeout index
  | 0x24 => wholeItem .arbitration index
  | 0x30 => (byteFin 8 index).map .chEdge
  | 0x31 => (byteFin 8 index).map .chHoldoff
  | 0x40 => (byteFin 8 index).map .tallyBind
  | 0x41 => (byteFin 8 index).map .tallyLevel
  | _ => none

/-- A number as a four-byte value. -/
def natWord (n : Nat) : Word := BitVec.ofNat 32 n

/-- A yes or no as a four-byte value. -/
def flagWord (b : Bool) : Word := if b then 1#32 else 0#32

/-- A channel or none as a four-byte value (R174). -/
def channelWord (c : Option Channel) : Word :=
  match c with
  | some c => natWord c.val
  | none => 0xFF#32

/-- TB_SOURCE's channel; none for INTERNAL. -/
def TickSource.channel? : TickSource → Option Channel
  | .internal => none
  | .pace c => some c

/-- The value an item holds, as CONFIG_READ gives it (R174, R176). -/
def Item.read (t : Table) : Item → Word
  | .quota p => natWord (t.quota.get p)
  | .lineKind l => (kindCode (t.lines.get l).kind).setWidth 32
  | .lineCeiling l => natWord (t.lines.get l).ceiling.val
  | .linePolarity l => match (t.lines.get l).polarity with
    | .activeHigh => 0#32
    | .activeLow => 1#32
  | .lineFallback l => flagWord (t.lines.get l).fallback
  | .linePreemptible l => flagWord (t.lines.get l).preemptible
  | .lineInitialMode l => (modeCode (t.lines.get l).initialMode).setWidth 32
  | .source => channelWord t.source.channel?
  | .prescale => natWord t.prescale
  | .holdLevel => natWord t.holdLevel.val
  | .holdTimeout => natWord t.holdTimeout
  | .arbitration => match t.arbitration with
    | .oldest => 0#32
    | .newest => 1#32
  | .chEdge c => (selectCode (t.channels.get c).select).setWidth 32
  | .chHoldoff c => (t.channels.get c).holdoff.setWidth 32
  | .tallyBind n => channelWord (t.tallies.get n).binding
  | .tallyLevel n => natWord (t.tallies.get n).level.val

/-! ## Values -/

def wordFin (n : Nat) (v : Word) : Option (Fin n) :=
  if h : v.toNat < n then some ⟨v.toNat, h⟩ else none

/-- A number from `lo` to `hi`. -/
def wordRange (lo hi : Nat) (v : Word) : Option Nat :=
  if lo ≤ v.toNat ∧ v.toNat ≤ hi then some v.toNat else none

/-- A value with two meanings, 0 and 1. -/
def wordPair {α : Type} (zero one : α) (v : Word) : Option α :=
  match v.toNat with
  | 0 => some zero
  | 1 => some one
  | _ => none

/-- A channel 0 to 7, or none for 0xFF (R174). -/
def wordChannel (v : Word) : Option (Option Channel) :=
  if v = 0xFF#32 then some none else (wordFin 8 v).map some

def wordSelect (v : Word) : Option EdgeSelect :=
  match v.toNat with
  | 0 => some .off
  | 1 => some .rise
  | 2 => some .fall
  | 3 => some .both
  | _ => none

def TickSource.ofChannel : Option Channel → TickSource
  | none => .internal
  | some c => .pace c

def Table.setLine (t : Table) (l : LineId) (f : LineConfig → LineConfig) : Table :=
  { t with lines := upd t.lines l f }

def Table.setChannel (t : Table) (c : Channel) (f : ChannelConfig → ChannelConfig) : Table :=
  { t with channels := upd t.channels c f }

def Table.setTally (t : Table) (n : TallyId) (f : TallyConfig → TallyConfig) : Table :=
  { t with tallies := upd t.tallies n f }

/-- The table with an item set; none for a value outside the item's values (R174, R175). -/
def Item.write (t : Table) (v : Word) : Item → Option Table
  | .quota p => (wordRange 0 64 v).map fun n => { t with quota := upd t.quota p fun _ => n }
  | .lineKind l => (wordPair .leased .shared v).map fun k => t.setLine l fun x => { x with kind := k }
  | .lineCeiling l => (wordFin 4 v).map fun k => t.setLine l fun x => { x with ceiling := k }
  | .linePolarity l =>
    (wordPair .activeHigh .activeLow v).map fun k => t.setLine l fun x => { x with polarity := k }
  | .lineFallback l =>
    (wordPair false true v).map fun k => t.setLine l fun x => { x with fallback := k }
  | .linePreemptible l =>
    (wordPair false true v).map fun k => t.setLine l fun x => { x with preemptible := k }
  | .lineInitialMode l =>
    (wordPair .drive .shadow v).map fun k => t.setLine l fun x => { x with initialMode := k }
  | .source => (wordChannel v).map fun c => { t with source := TickSource.ofChannel c }
  | .prescale => (wordRange 1 1000 v).map fun n => { t with prescale := n }
  | .holdLevel => (wordFin 4 v).map fun k => { t with holdLevel := k }
  | .holdTimeout => (wordRange 1 60000 v).map fun n => { t with holdTimeout := n }
  | .arbitration => (wordPair .oldest .newest v).map fun k => { t with arbitration := k }
  | .chEdge c => (wordSelect v).map fun k => t.setChannel c fun x => { x with select := k }
  | .chHoldoff c =>
    (wordRange 0 65535 v).map fun n => t.setChannel c fun x => { x with holdoff := BitVec.ofNat 16 n }
  | .tallyBind n => (wordChannel v).map fun c => t.setTally n fun x => { x with binding := c }
  | .tallyLevel n => (wordFin 4 v).map fun k => t.setTally n fun x => { x with level := k }

/-- The sum of the four quotas. -/
def Table.quotaSum (t : Table) : Nat := (allPorts.map t.quota.get).sum

/-- TB_SOURCE names no channel whose CH_EDGE is OFF. -/
def Table.sourceUsable (t : Table) : Bool :=
  match t.source with
  | .internal => true
  | .pace c => (t.channels.get c).select != .off

/-- The table's consistency (R174). -/
def Table.consistent (t : Table) : Bool := decide (t.quotaSum ≤ 64) && t.sourceUsable

/-! ## CONFIG_WRITE and CONFIG_READ -/

/-- The operands of CONFIG_WRITE: code, index, value, the item, the table as it would stand (R175). -/
structure ItemWrite where
  code  : Byte
  index : Byte
  item  : Item
  table : Table
deriving DecidableEq, Repr

def parseWrite (t : Table) (body : List Byte) : Option ItemWrite :=
  match body with
  | [code, index, v3, v2, v1, v0] =>
    match Item.ofCode code index with
    | some x => (x.write t (word v3 v2 v1 v0)).map fun t' => ⟨code, index, x, t'⟩
    | none => none
  | _ => none

/-- A write of a line's fallback or polarity moves its internal level to the fallback level (R69,
R175). -/
def Item.moved? : Item → Option LineId
  | .lineFallback l => some l
  | .linePolarity l => some l
  | _ => none

/-- The table is replaced, and a line whose fallback or polarity was written moves with it. -/
def State.setTable (x : Item) (t : Table) (s : State) : State :=
  match x.moved? with
  | some l =>
    { s with
      table := t
      plant := s.plant.setLine l fun y => { y with level := (t.lines.get l).fallback } }
  | none => { s with table := t }

def configWriteWork (q : ItemWrite) (s : State) : State × Reply :=
  if q.table.consistent then
    (s.setTable q.item q.table, ⟨.ok, [q.code, q.index] ++ wordBytes (q.item.read q.table)⟩)
  else (s, refuse .badConfig)

/-- CONFIG_WRITE (R175). -/
def execConfigWrite (r : Request) (s : State) : Out :=
  .next (serve 0x09#8 .setupOnly (fun _ => some 0) (fun s => parseWrite s.table r.body)
    configWriteWork r s)

def parseItem (body : List Byte) : Option (Byte × Byte × Item) :=
  match body with
  | [code, index] => (Item.ofCode code index).map fun x => (code, index, x)
  | _ => none

/-- Code, index, value, whether the table is writable (R176). -/
def itemBody (s : State) (q : Byte × Byte × Item) : List Byte :=
  [q.1, q.2.1] ++ wordBytes (q.2.2.read s.table) ++ [flagByte (s.device == .setup)]

/-- CONFIG_READ (R176). -/
def execConfigRead (r : Request) (s : State) : Out :=
  .next (serve 0x08#8 .both noLimit (fun _ => parseItem r.body) (readOnly itemBody) r s)

/-! ## The entry into OPERATING -/

/-- A line at the entry into OPERATING (R86, R178). -/
def LineConfig.entryLine (c : LineConfig) : Line := ⟨c.fallback, c.initialMode, .static, none⟩

/-- TB, LC and the queues at the entry (R178): lines configured, SETUP_CLOSED to every queue, then OFF to
HELD with TC 0 and its TIMEBASE notice. -/
def Plant.enter (t : Table) (cause : CloseCause) (w : Plant) : Plant :=
  ({ w with
      tc := 0#32
      lines := Vector.ofFn fun l => (t.lines.get l).entryLine }.postAll
    noSubject 0#16 (.setupClosed cause)).setTimebase .held .setupClosed

/-- The entry into OPERATING (R178): the window stops and the INTERNAL divider starts (R24, R177). -/
def State.enterOperating (cause : CloseCause) (s : State) : State :=
  { s with
    device := .operating
    window := none
    divider := 0
    plant := s.plant.enter s.table cause }

def endSetupWork (p : Port) (_ : Unit) (s : State) : State × Reply :=
  (s.enterOperating (.request p), ⟨.ok, []⟩)

/-- END_SETUP (R177). -/
def execEndSetup (r : Request) (s : State) : Out :=
  .next (serve 0x0A#8 .setupOnly (fun _ => some 0) (fun _ => parseNothing r.body)
    (endSetupWork r.port) r s)

/-- R177 at a window that RC has brought to its end; with time left, with the window stopped, and while
RSTn is low, there is no such event (DEDUCED, assumption log 6). -/
def State.windowExpiry (s : State) : State :=
  if s.rstnLow = false ∧ s.device = .setup ∧ s.window = some 0 then s.enterOperating .window else s

/-- SETUP_WINDOW_EXPIRY (R177). -/
def execSetupWindowExpiry (s : State) : Out := .next s.windowExpiry

/-! ## Device reset -/

/-- The strap level of a port: twice the level on LVBn plus the level on LVAn (R172). -/
def strapLevel (lva lvb : BitVec 4) (p : Port) : Level :=
  Fin.ofNat 4 ((if lvb.getLsbD p.val then 2 else 0) + (if lva.getLsbD p.val then 1 else 0))

/-- DEVICE_RESET (R172, R173): RSTn goes low, the whole state is discarded and the straps are sampled. -/
def execDeviceReset (lva lvb : BitVec 4) (s : State) : Out :=
  .next (State.inReset (Vector.ofFn (strapLevel lva lvb)) s.pending s.freeCount)

/-- RSTN_RISE (R173). The first samples of the capture inputs are a free value (DESIGN CHOICE, assumption
log 23). With RSTn high there is no such event (DEDUCED, assumption log 6). -/
def execRstnRise (s : State) : Out :=
  .next (if s.rstnLow then
    { s.afterRise (Config.freeInputs s.freeCount) with freeCount := s.freeCount + 1 }
  else s)

end Sys2Proof.Machine
end

