-- ==== Sys2Proof/Machine/Timebase.lean ====
section
/-! DEFINITION. TB_HOLD (R31), TB_START (R34, R35), HOLD_TIMER_EXPIRY (R33). -/

namespace Sys2Proof.Machine

/-- The response body shared by TB_HOLD and TB_START: timebase state, TC, a count (R164). -/
def timebaseBody (w : Plant) (n : Nat) : List Byte :=
  [timebaseCode w.timebase] ++ wordBytes w.tc ++ [natByte n]

/-- R31's table: in RUNNING the timeline stops, in HELD when no pulse is in flight, else in HOLDING
with the hold timer started; in the other states nothing changes. -/
def Plant.hold (p : Port) (timeout : Nat) (w : Plant) : Plant × Status :=
  if w.timebase = .running then
    if w.inFlight = 0 then (w.setTimebase .held (.request p), .ok)
    else
      ({ w with holdTimer := some (timeout * Config.xinPerMs) }.setTimebase .holding (.request p),
        .accepted)
  else (w, .ok)

def holdWork (p : Port) (_ : Unit) (s : State) : State × Reply :=
  let (w, st) := s.plant.hold p s.table.holdTimeout
  ({ s with plant := w }, ⟨st, timebaseBody w w.inFlight⟩)

/-- TB_HOLD (R31). -/
def execTbHold (r : Request) (s : State) : Out :=
  .next (serve 0x10#8 .operatingOnly (fun s => some s.table.holdLevel)
    (fun _ => parseNothing r.body) (holdWork r.port) r s)

/-- R34: from HELD or HOLDING the timebase goes to RUNNING and the START batch is executed; the number
is that of the entries in the batch. -/
def Plant.start (arb : Arbitration) (p : Port) (w : Plant) : Plant × Nat :=
  match w.timebase with
  | .held | .holding =>
    let w1 := { w with holdTimer := none }.setTimebase .running (.request p)
    (w1.releaseDue arb, w1.dueNow.length)
  | .running => (w, 0)
  | .off => (w, 0)

/-- The START batch: the entries at lead 0 when a START takes the timebase out of HELD or HOLDING (R35). -/
def Plant.startBatch (w : Plant) : List Timed :=
  match w.timebase with
  | .held | .holding => w.dueNow
  | .running | .off => []

/-- A boundary that stands when a START is taken in HELD is discarded, so that the first tick comes within
TB_PRESCALE us after it (R24). One that stands in HOLDING may end the last pulse, and its TICK follows the
START, as in the third row of R36 (DESIGN CHOICE, assumption log 8). -/
def State.startDivider (s : State) : Nat :=
  if s.dividing ∧ s.plant.timebase = .held then s.divider % s.table.period else s.divider

def startWork (p : Port) (_ : Unit) (s : State) : State × Reply :=
  let (w, n) := s.plant.start s.table.arbitration p
  (({ s with divider := s.startDivider, plant := w }).clearBatch s.plant.startBatch,
    ⟨.ok, timebaseBody w n⟩)

/-- TB_START (R34). -/
def execTbStart (r : Request) (s : State) : Out :=
  .next (serve 0x11#8 .operatingOnly (fun s => some s.table.holdLevel)
    (fun _ => parseNothing r.body) (startWork r.port) r s)

/-- The cut of one line's pulse by the hold timer (R33). -/
def Plant.cutForTimeout (w : Plant) (l : LineId) : Plant :=
  match (w.line l).state with
  | .pulsing r => w.releasePulse l r (some .timeout)
  | _ => w

/-- R33: every pulse in flight is cut in ascending line order, then the timebase goes to HELD. -/
def Plant.holdExpires (w : Plant) : Plant :=
  { allLines.foldl Plant.cutForTimeout w with holdTimer := none }.setTimebase .held .timeout

/-- R33 at a hold timer that RC has brought to 0; with time left, and outside HOLDING, there is no such
event (DEDUCED, assumption log 6). -/
def State.holdExpiry (s : State) : State :=
  if s.plant.timebase = .holding ∧ s.plant.holdTimer = some 0 then s.onPlant Plant.holdExpires else s

/-- HOLD_TIMER_EXPIRY (R33). -/
def execHoldTimerExpiry (s : State) : Out := .next s.holdExpiry

end Sys2Proof.Machine
end

