-- ==== Sys2Proof/Machine/Clock.lean ====
section
/-! DEFINITION. RC running on with the events that it brings (R24, R33, R116, R152, R177): the events
ahead, the idle step, a stretch of RC, and TICK (R24, R26, R27). -/

namespace Sys2Proof.Machine

/-! ## The events that RC brings -/

/-- The RC events ahead on one line, each with the time left to it: the end of its lease (R116) and of its
probe phase (R152). The sense level read there is a free value (DESIGN CHOICE, assumption log 13). -/
def Line.ahead (rc : Nat) (l : LineId) (x : Line) : List (Nat × Instr) :=
  (x.lease.toList.map fun k => (k.remaining, .lapse l)) ++
  match x.state with
  | .probing r =>
    match r.phase with
    | .a => [(r.time, .phaseAEnd l (Config.freeSense rc l.val))]
    | .b _ => [(r.time, .phaseBEnd l (Config.freeSense rc l.val))]
  | _ => []

/-- The RC events ahead, each with the time left to it: the divider's next boundary where it is a tick
(R24), the end of the setup window (R177), of the hold timer (R33), of leases and of probe phases. -/
def State.ahead (s : State) : List (Nat × Instr) :=
  (if s.dividing && s.plant.timebase.ticks then [(s.table.period - s.divider, .tick)] else []) ++
  (if s.device = .setup then s.window.toList.map fun n => (n, .setupWindowExpiry) else []) ++
  (if s.plant.timebase = .holding then
    s.plant.holdTimer.toList.map fun n => (n, .holdTimerExpiry) else []) ++
  allLines.flatMap fun l => (s.plant.line l).ahead s.rc l

/-- The commands that RC brings at this moment: the events with no time left to them. -/
def State.due (s : State) : List Instr := (s.ahead.filter fun x => x.1 == 0).map (·.2)

/-- A boundary of the INTERNAL divider that RC has reached (R24, R26, R27). The entries of its batch lose
the note of a move (DESIGN CHOICE, assumption log 25). -/
def State.boundary (s : State) : State :=
  if s.dividing ∧ s.table.period ≤ s.divider then
    ({ s with
      divider := s.divider - s.table.period
      plant := s.plant.tick s.table.arbitration }).clearBatch s.plant.tickBatch
  else s

/-- An RC event at its moment. -/
def State.takeRc (s : State) : Instr → State
  | .tick => s.boundary
  | .setupWindowExpiry => s.windowExpiry
  | .holdTimerExpiry => s.holdExpiry
  | .lapse l => s.lapse l
  | .phaseAEnd l sense => s.phaseAEnd l sense
  | .phaseBEnd l sense => s.phaseBEnd l sense
  | _ => s

/-! ## RC running on -/

/-- What the part does when no command waits: the RC events of this moment join the queue in a free order;
where there is none, one XIN period of RC passes first. While RSTn is low RC stands (DEDUCED and DESIGN
CHOICE, assumption log 7, 19). -/
def State.idle (s : State) : State :=
  if s.rstnLow then s
  else
    let s1 := if s.due = [] then s.runRc 1 else s
    let (cs, f) := shuffle s1.due s1.freeCount
    { s1 with pending := cs, freeCount := f }

/-- Every RC event of this moment is taken, in a free order (DESIGN CHOICE, assumption log 8). -/
def State.takeDue (s : State) : State :=
  let (cs, f) := shuffle s.due s.freeCount
  cs.foldl State.takeRc { s with freeCount := f }

/-- How far RC runs on within `n` XIN periods before it meets an event, and one period at least. -/
def State.reach (n : Nat) (s : State) : Nat := max 1 ((s.ahead.map (·.1)).foldl min n)

/-- RC runs on from event to event; `fuel` bounds how many. -/
def State.passFor : (fuel n : Nat) → State → State
  | 0, _, s => s
  | _ + 1, 0, s => s
  | k + 1, n + 1, s =>
    let s1 := s.takeDue
    let d := s1.reach (n + 1)
    s1.runRc d |>.passFor k (n + 1 - d)

/-- RC runs on by `n` XIN periods, and every RC event on the way is taken at its moment; those of the last
moment stand there (DESIGN CHOICE, assumption log 8). -/
def State.passed (n : Nat) (s : State) : State := s.passFor n n

/-- TICK (R24, R26, R27): RC runs on to the INTERNAL divider's next boundary, and the boundary is taken
(DESIGN CHOICE, assumption log 8). With a PACE source, and outside OPERATING, the divider gives no boundary
and nothing changes (DEDUCED, assumption log 6). -/
def execTick (s : State) : Out :=
  .next (if s.dividing then (s.passed (s.table.period - s.divider)).boundary else s)

end Sys2Proof.Machine
end

