-- ==== Sys2Proof/Machine/Capture.lean ====
section
/-! DEFINITION. CAPTURE_EDGE (R123 to R126, R129, R130, R51), CAPTURE_READ (R127), SUBSCRIBE (R128). -/

namespace Sys2Proof.Machine

/-! ## Samples and acceptance -/

/-- The level of an input after an edge, true for high. -/
def edgeLevel : Edge → Bool
  | .rise => true
  | .fall => false

/-- Two successive samples differ (R123): the latest one shows the other level and is an earlier one. -/
def CaptureChannel.sees (now : Nat) (dir : Edge) (x : CaptureChannel) : Bool :=
  x.level != edgeLevel dir && decide (x.since < now)

/-- The sample of this moment (R123). -/
def CaptureChannel.sample (now : Nat) (dir : Edge) (x : CaptureChannel) : CaptureChannel :=
  { x with level := edgeLevel dir, since := now }

def State.sample (c : Channel) (dir : Edge) (s : State) : State :=
  { s with channels := upd s.channels c (CaptureChannel.sample s.rc dir) }

/-- The direction matches the edge select (R123). -/
def EdgeSelect.matches : EdgeSelect → Edge → Bool
  | .off, _ => false
  | .rise, .rise => true
  | .rise, .fall => false
  | .fall, .rise => false
  | .fall, .fall => true
  | .both, _ => true

/-- At least holdoff us of RC have passed since the last accepted edge, or none has been (R123, R124). -/
def CaptureChannel.clearOf (holdoff : Half) (now : Nat) (x : CaptureChannel) : Bool :=
  match x.lastAccept with
  | some t => decide (t + holdoff.toNat * Config.xinPerUs ≤ now)
  | none => true

/-- The three conditions of R123, at the moment RC stands at. -/
def State.accepts (s : State) (c : Channel) (dir : Edge) : Bool :=
  (s.table.channels.get c).select.matches dir && s.device == .operating &&
    (s.channels.get c).clearOf (s.table.channels.get c).holdoff s.rc

/-! ## The capture record -/

/-- The window keeps the last four records (R126). -/
def keepLast (n : Nat) (xs : List CaptureRecord) : List CaptureRecord := xs.drop (xs.length - n)

/-- The channel records an accepted edge (R123, R126). -/
def CaptureChannel.record (now : Nat) (dir : Edge) (tc : Word) (x : CaptureChannel) : CaptureChannel :=
  { x with
    lastAccept := some now
    nextSeq := x.nextSeq + 1#8
    window := keepLast Config.windowDepth (x.window ++ [⟨x.nextSeq, dir, tc⟩]) }

/-! ## The claims of an edge on TQ -/

/-- The works of one accepted edge that reach TQ and LC and have no order between them (R51, R125, R136,
R140; DESIGN CHOICE, assumption log 9). -/
inductive Claim where
  | tickBatch
  | advance
  | walk
  | count (t : TallyId) (v : Word)
deriving DecidableEq, Repr

/-- Channel `c` is the pace channel (R25). -/
def Table.paces (t : Table) (c : Channel) : Bool := t.source == .pace c

/-- A pace edge in RUNNING advances TC and the lines before anything else of it (R51, R130). -/
def Plant.paceAdvance (pace : Bool) (w : Plant) : Plant :=
  if pace && w.timebase == .running then w.countTick.advance else w

/-- Some armed EDGE entry waits on `c`. -/
def waitsOn (c : Channel) (snapshot : List Waiting) : Bool :=
  snapshot.any fun x => match x.entry.trigger with
    | .edge c' _ _ => c' == c
    | _ => false

/-- Some armed COUNT entry on `t` is reached at `v`. -/
def someReached (t : TallyId) (v : Word) (snapshot : List Waiting) : Bool :=
  snapshot.any fun x => match x.entry.trigger with
    | .count t' h _ => t' == t && reached v h
    | _ => false

/-- Each tally bound to `c` is raised by one (R140). -/
def raiseBound (tt : Vector TallyConfig 8) (c : Channel) (v : Vector Word 8) : Vector Word 8 :=
  updAll v fun t x => if (tt.get t).binding = some c then x + 1#32 else x

/-- The claims of an edge that have work to do: the tick batch of a pace edge in RUNNING, the advance of
a pace edge in HOLDING (R27), the countdown walk, each bound tally's evaluation. `w` is the plant with
the edge stamped, `vs` the tallies as raised. -/
def claims (table : Table) (c : Channel) (vs : Vector Word 8) (snapshot : List Waiting) (w : Plant) :
    List Claim :=
  (if table.paces c ∧ w.timebase = .running ∧ w.dueNow ≠ [] then [.tickBatch] else []) ++
  (if table.paces c ∧ w.timebase = .holding then [.advance] else []) ++
  (if waitsOn c snapshot then [.walk] else []) ++
  ((List.finRange 8).filter fun t =>
    (table.tallies.get t).binding == some c && someReached t (vs.get t) snapshot).map
      fun t => .count t (vs.get t)

def Plant.claim (arb : Arbitration) (c : Channel) (snapshot : List Waiting) (w : Plant) :
    Claim → Plant
  | .tickBatch => w.releaseDue arb
  | .advance => w.advance
  | .walk => w.walkEdge arb c snapshot
  | .count t v => w.walkCount arb t v snapshot

/-! ## EDGE notices -/

/-- A notice takes place `i` of a queue; what then exceeds 16 notices is lost and sets the flag (R168). -/
def Inbox.insertAt (i : Nat) (n : Notice) (b : Inbox) : Inbox :=
  let q := b.queue.insertIdx i n
  ⟨q.take Config.queueDepth, b.overflow || Config.queueDepth < q.length⟩

/-- The EDGE notice of one port, at a free place among the notices that the same event posted to that
queue, which held `before` of them ahead of it (R129; DESIGN CHOICE, assumption log 10). -/
def Plant.postEdge (p : Port) (before : Nat) (n : Notice) (q : Plant × Nat) : Plant × Nat :=
  let w := q.1
  let (i, f) := freeChoice ((w.inbox p).queue.length + 1 - before) q.2
  ({ w with inboxes := upd w.inboxes p (Inbox.insertAt (before + i) n) }, f)

/-! ## CAPTURE_EDGE -/

/-- The work of an accepted edge (R125). The armed list is read as it stood when the edge was accepted
(R51, R58; DEDUCED, assumption log 11). The entries of a tick batch lose the note of a move (DESIGN CHOICE,
assumption log 25). -/
def State.acceptEdge (c : Channel) (dir : Edge) (s : State) : State :=
  let snapshot := s.plant.armed
  let w1 := s.plant.paceAdvance (s.table.paces c)
  let ch := s.channels.get c
  let vs := raiseBound s.table.tallies c s.tallies
  let (order, f1) := shuffle (claims s.table c vs snapshot w1) s.freeCount
  let w2 := order.foldl (Plant.claim s.table.arbitration c snapshot) w1
  let notice : Notice := ⟨natByte c.val, 0#16, w1.tc, .edge ch.nextSeq dir⟩
  let (w3, f2) := (allPorts.filter fun p => (s.port p).mask.getLsbD c.val).foldl
    (fun q p => Plant.postEdge p (s.plant.inbox p).queue.length notice q) (w2, f1)
  ({ s with
    channels := upd s.channels c (CaptureChannel.record s.rc dir w1.tc)
    tallies := vs
    plant := w3
    freeCount := f2 }).clearBatch (if s.table.paces c then s.plant.tickBatch else [])

/-- CAPTURE_EDGE (R123, R125): the input changes `after` XIN periods of RC after the step before, and the
RC events on the way are taken (DESIGN CHOICE, assumption log 8). An input that shows that level already, and
a second change within one XIN period, give no edge. While RSTn is low the capture inputs are ignored
(R173). -/
def execCaptureEdge (c : Channel) (dir : Edge) (after : Nat) (s : State) : Out :=
  .next (if s.rstnLow then s
    else
      let s1 := s.passed after
      if (s1.channels.get c).sees s1.rc dir then
        if s1.accepts c dir then (s1.sample c dir).acceptEdge c dir else s1.sample c dir
      else s1)

/-! ## CAPTURE_READ and SUBSCRIBE -/

def CaptureRecord.bytes (x : CaptureRecord) : List Byte :=
  [x.seq, edgeCode x.dir] ++ wordBytes x.tc

/-- Edge select, holdoff, count, the records oldest first (R127, R164). -/
def windowBody (s : State) (c : Channel) : List Byte :=
  [selectCode (s.table.channels.get c).select] ++ halfBytes (s.table.channels.get c).holdoff ++
    [natByte (s.channels.get c).window.length] ++
    (s.channels.get c).window.flatMap CaptureRecord.bytes

/-- CAPTURE_READ (R127). -/
def execCaptureRead (r : Request) (s : State) : Out :=
  .next (serve 0x50#8 .both noLimit (fun _ => parseNumber 8 r.body) (readOnly windowBody) r s)

def subscribeWork (p : Port) (m : Byte) (s : State) : State × Reply :=
  (s.setPort p fun x => { x with mask := m }, ⟨.ok, [(s.port p).mask, m]⟩)

/-- SUBSCRIBE (R128). -/
def execSubscribe (r : Request) (s : State) : Out :=
  .next (serve 0x05#8 .both noLimit (fun _ => parseMask r.body) (subscribeWork r.port) r s)

end Sys2Proof.Machine
end

