-- ==== Sys2Proof/Machine/Entries.lean ====
section
/-! DEFINITION. SCHEDULE (R43 to R48), CANCEL (R60, R61, R64), ENTRY_MOVE (R63, R64), ENTRY_READ (R65). -/

namespace Sys2Proof.Machine

/-! ## SCHEDULE -/

/-- The right to the line a new entry names (R45 step 6); a MARK names none and passes. -/
def entryRefusal (s : State) (e : Entry) : Option Status :=
  match e.line? with
  | some l => s.actRefusal e.owner e.level l
  | none => none

/-- Steps 6 to 9 of R45 and the lateness test of R46, in order; none where the entry is accepted. -/
def scheduleRefusal (s : State) (e : Entry) (due : Word) : Option Status :=
  match entryRefusal s e with
  | some st => some st
  | none =>
    if s.plant.hasTag e.owner e.tag then some .dupTag
    else if s.table.quota.get e.owner ≤ s.plant.liveCount e.owner then some .quotaFull
    else if s.plant.free = 0 then some .poolFull
    else if e.trigger = .atDue ∧ isLate s.plant.tc due ∧ e.latePolicy = .drop then some .late
    else none

/-- The late mark and the due of an AT placement: under LATE_RUN a late due becomes TC (R46, R63). -/
def placeDue (tc due : Word) (e : Entry) : Timed :=
  if isLate tc due then ⟨{ e with lateMark := true }, tc⟩ else ⟨{ e with lateMark := false }, due⟩

/-- The placement of an accepted entry by its trigger (R47). -/
def State.postEntry (s : State) (e : Entry) (due : Word) : Plant :=
  match e.trigger with
  | .atDue => s.plant.place s.table.arbitration (placeDue s.plant.tc due e)
  | .edge _ n _ => s.plant.arm ⟨e, some n.toNat⟩
  | .count t h o =>
    if reached (s.tallies.get t) h then s.plant.place s.table.arbitration ⟨e, s.plant.tc + o⟩
    else s.plant.arm ⟨e, none⟩

/-- The late mark as the placement set it (R48). -/
def placedLate (tc due : Word) (e : Entry) : Bool := e.trigger == .atDue && isLate tc due

def scheduleWork (q : Entry × Word) (s : State) : State × Reply :=
  match scheduleRefusal s q.1 q.2 with
  | some st => (s, refuse st)
  | none =>
    let w := s.postEntry q.1 q.2
    ({ s with plant := w }.clearMoved q.1.owner q.1.tag,
      ⟨.ok, [entryStateCode (w.stateOf q.1.owner q.1.tag), natByte w.free,
        flagByte (placedLate s.plant.tc q.2 q.1)]⟩)

/-- SCHEDULE (R43). -/
def execSchedule (r : Request) (s : State) : Out :=
  .next (serve 0x20#8 .operatingOnly noLimit (fun s => parseSchedule s r) scheduleWork r s)

/-! ## CANCEL -/

/-- The pulse of a PULSING entry of `p` with tag `tag` on line `l`, if the line's pulse record refers to
it, is taken from the line at `level` (R81). -/
def Plant.takePulseOf (p : Port) (f : Half → Bool) (level : LineId → Bool) (w : Plant) : Plant :=
  { w with
    lines := updAll w.lines fun l x =>
      match x.state with
      | .pulsing r => if r.owner == p && f r.tag then x.rest (level l) .static else x
      | _ => x }

/-- CANCEL of one entry that is found (R60): it leaves its list, a pulse of it is cut to inactive, and
the last pulse in HOLDING brings HELD. -/
def Plant.cancel (p : Port) (tag : Half) (w : Plant) : Plant :=
  ((w.takePulseOf p (· == tag) fun _ => false).drop (Entry.isKey p tag)).settleHold

/-- CANCEL with tag 0 (R61): every entry of `p`. -/
def Plant.cancelAll (p : Port) (w : Plant) : Plant :=
  ((w.takePulseOf p (fun _ => true) fun _ => false).drop fun e => e.owner == p).settleHold

/-- A tag that is found answers the state it is found in (R60). A CANCEL that comes together with an
ENTRY_MOVE taken before it answers NO_TAG, by the last row of R64, to which R14 refers. It does where RC has
not run on between them and the entry is still PENDING where the move put it; of an entry that the move
itself or a batch behind it has executed at this moment, it cuts the pulse and removes the repeat, by the
rows of R62 and by R81 (DESIGN CHOICE, assumption log 25). -/
def cancelWork (p : Port) (tag : Half) (s : State) : State × Reply :=
  if tag = 0#16 then
    (s.onPlant (Plant.cancelAll p), ⟨.ok, [natByte (s.plant.liveCount p)]⟩)
  else if s.plant.hasTag p tag && !s.justMoved p tag then
    (s.onPlant (Plant.cancel p tag), ⟨.ok, [entryStateCode (s.plant.stateOf p tag)]⟩)
  else (s, refuse .noTag)

/-- CANCEL (R60, R61, R64). -/
def execCancel (r : Request) (s : State) : Out :=
  .next (serve 0x21#8 .operatingOnly noLimit (fun _ => parseTag r.body) (cancelWork r.port) r s)

/-! ## ENTRY_MOVE -/

/-- A PENDING entry leaves the timeline list to be re-inserted or removed (R63). -/
def Plant.dropPending (p : Port) (tag : Half) (w : Plant) : Plant :=
  { w with timeline := w.timeline.filter fun x => !x.entry.isKey p tag }

/-- The move of a PENDING entry (R63). One that waits where the move has put it is noted for a CANCEL of
this moment (R64; DESIGN CHOICE, assumption log 25). -/
def movePending (x : Timed) (due : Word) (s : State) : State × Reply :=
  let e := x.entry
  let w := s.plant.dropPending e.owner e.tag
  if isLate s.plant.tc due ∧ e.latePolicy = .drop then
    ({ s with plant := w.post e.owner e.subject e.tag (.late due) }, refuse .late)
  else
    let t := placeDue s.plant.tc due e
    let w1 := w.place s.table.arbitration t
    let s1 : State := { s with plant := w1 }
    (if w.AtOnce t then s1.clearMoved e.owner e.tag else s1.markMoved e.owner e.tag,
      ⟨.ok, [entryStateCode (w1.stateOf e.owner e.tag), flagByte (isLate s.plant.tc due)]⟩)

/-- The move by the state in which it finds the entry (R63, R64). -/
def moveWork (p : Port) (q : Half × Word) (s : State) : State × Reply :=
  match s.plant.findPending p q.1 with
  | some x => movePending x q.2 s
  | none => if s.plant.hasTag p q.1 then (s, refuse .busy) else (s, refuse .noTag)

/-- ENTRY_MOVE (R63). -/
def execEntryMove (r : Request) (s : State) : Out :=
  .next (serve 0x22#8 .operatingOnly noLimit (fun _ => parseMove r.body) (moveWork r.port) r s)

/-! ## ENTRY_READ -/

/-- A live entry as ENTRY_READ shows it: the record, its state, edges left and due where present. -/
structure EntryView where
  entry     : Entry
  state     : EntryState
  edgesLeft : Option Nat
  due       : Option Word
deriving DecidableEq, Repr

/-- The entry of a name, wherever it stands (R14, R65). -/
def Plant.viewEntry (p : Port) (tag : Half) (w : Plant) : Option EntryView :=
  match w.findArmed p tag with
  | some x => some ⟨x.entry, .armed, x.edgesLeft, none⟩
  | none =>
    match w.findPending p tag with
    | some x => some ⟨x.entry, .pending, none, some x.due⟩
    | none =>
      match w.findPulsing p tag with
      | some x => some ⟨x.entry, .pulsing, none, some x.due⟩
      | none => none

def triggerCode : Trigger → Byte
  | .atDue => 0#8
  | .edge .. => 1#8
  | .count .. => 2#8

/-- The trigger part of the SCHEDULE layout; an AT entry shows its due (R164; DEDUCED, assumption log
14). -/
def triggerPart (due : Word) : Trigger → List Byte
  | .atDue => wordBytes due
  | .edge c n o => [natByte c.val, n] ++ wordBytes o
  | .count t h o => [natByte t.val] ++ wordBytes h ++ wordBytes o

/-- The action part of the SCHEDULE layout. -/
def actionPart : Action → List Byte
  | .onLine _ (.pulse width) => halfBytes width
  | .onLine _ (.wave v) => halfBytes v.period ++ halfBytes v.duty ++ [v.shapeByte]
  | _ => []

/-- Notify in bit 0, LATE_DROP in bit 1 (R164). -/
def policyByte (e : Entry) : Byte :=
  natByte ((if e.notify then 1 else 0) + (if e.latePolicy = .drop then 2 else 0))

/-- The entry in the SCHEDULE body layout (R164). -/
def entryBody (e : Entry) (due : Word) : List Byte :=
  halfBytes e.tag ++ [actionCode e.action.kind, e.subject, triggerCode e.trigger, e.repeatCount,
    policyByte e] ++ wordBytes (e.step.getD 0#32) ++ triggerPart due e.trigger ++ actionPart e.action

/-- The ENTRY_READ body (R164): absent fields are zeros with their presence bit 0. -/
def viewBody (tc : Word) (v : EntryView) : List Byte :=
  entryBody v.entry (v.due.getD 0#32) ++
    [levelByte v.entry.level, entryStateCode v.state, flagByte v.entry.lateMark] ++
    halfBytes (leftHalf v.entry.left) ++
    [natByte ((if v.edgesLeft.isSome then 1 else 0) + (if v.due.isSome then 2 else 0)),
      natByte (v.edgesLeft.getD 0)] ++
    (match v.due with
      | some d => wordBytes d ++ wordBytes (lead tc d)
      | none => wordBytes 0#32 ++ wordBytes 0#32)

def entryReadWork (p : Port) (tag : Half) (s : State) : State × Reply :=
  match s.plant.viewEntry p tag with
  | some v => (s, ⟨.ok, viewBody s.plant.tc v⟩)
  | none => (s, refuse .noTag)

/-- ENTRY_READ (R65). -/
def execEntryRead (r : Request) (s : State) : Out :=
  .next (serve 0x23#8 .operatingOnly noLimit (fun _ => parseLiveTag r.body)
    (entryReadWork r.port) r s)

end Sys2Proof.Machine
end

