-- ==== Sys2Proof/Machine/Ports.lean ====
section
/-! DEFINITION. NOP (R165), IDENTIFY (R166), STATUS (R167), NOTICE_READ (R170), PORT_RESET (R171),
UNDECODED_REQUEST (R160, R163) and TRANSACTION_BEGIN (R159, R172). -/

namespace Sys2Proof.Machine

/-- NOP (R165). -/
def execNop (r : Request) (s : State) : Out :=
  .next (serve 0x00#8 .both noLimit (fun _ => parseNothing r.body) (readOnly fun _ _ => []) r s)

/-- Family code, revision, port number, strap level (R166). -/
def identifyBody (p : Port) (s : State) (_ : Unit) : List Byte :=
  halfBytes Config.familyCode ++ [Config.revision, portByte p, levelByte (s.port p).strap]

/-- IDENTIFY (R166). -/
def execIdentify (r : Request) (s : State) : Out :=
  .next (serve 0x01#8 .both noLimit (fun _ => parseNothing r.body)
    (readOnly (identifyBody r.port)) r s)

def deviceByte (d : DeviceState) : Byte :=
  match d with
  | .setup => 0#8
  | .operating => 1#8

/-- The 10 bytes of STATUS (R167). -/
def statusBody (p : Port) (s : State) (_ : Unit) : List Byte :=
  [deviceByte s.device, timebaseCode s.plant.timebase] ++ wordBytes s.plant.tc ++
    [natByte s.plant.used, natByte (s.plant.liveCount p), natByte (s.table.quota.get p),
      natByte (s.plant.leaseCount p)]

/-- STATUS (R167). -/
def execStatus (r : Request) (s : State) : Out :=
  .next (serve 0x02#8 .both noLimit (fun _ => parseNothing r.body)
    (readOnly (statusBody r.port)) r s)

/-! ## NOTICE_READ -/

/-- Count, overflow flag before, the records oldest first (R170). -/
def noticesBody (b : Inbox) : List Byte :=
  [natByte (b.queue.take Config.readDepth).length, flagByte b.overflow] ++
    (b.queue.take Config.readDepth).flatMap Notice.bytes

/-- Up to four notices leave the head and the flag is cleared (R170). -/
def Inbox.readOff (b : Inbox) : Inbox := ⟨b.queue.drop Config.readDepth, false⟩

def noticeReadWork (p : Port) (_ : Unit) (s : State) : State × Reply :=
  (s.onPlant fun w => { w with inboxes := upd w.inboxes p Inbox.readOff },
    ⟨.ok, noticesBody (s.plant.inbox p)⟩)

/-- NOTICE_READ (R170). -/
def execNoticeRead (r : Request) (s : State) : Out :=
  .next (serve 0x03#8 .both noLimit (fun _ => parseNothing r.body) (noticeReadWork r.port) r s)

/-! ## PORT_RESET -/

/-- Step 3 of R171 on one line: a lease of `p` ends by the port-reset cause (R113, R117). -/
def Line.endLeaseOf (p : Port) (fallback : Bool) (x : Line) : Line :=
  if x.heldBy p then x.vacate fallback else x

/-- Step 4 of R171 on one line: a probe that `p` requested is aborted at the saved level (R156). -/
def Line.abortProbeOf (p : Port) (x : Line) : Line :=
  match x.state with
  | .probing r => if r.requester = p then x.rest r.saved .static else x
  | _ => x

/-- Steps 1 to 5 of R171 on TB, TQ, LC and the queue. -/
def Plant.resetPort (p : Port) (fallback : LineId → Bool) (w : Plant) : Plant :=
  let w1 := { w with inboxes := upd w.inboxes p fun _ => ⟨[], false⟩ }
  let w2 := (w1.takePulseOf p (fun _ => true) fallback).drop fun e => e.owner == p
  let w3 := { w2 with lines := updAll w2.lines fun l => Line.endLeaseOf p (fallback l) }
  let w4 := { w3 with lines := updAll w3.lines fun _ => Line.abortProbeOf p }
  w4.settleHold

def portResetWork (p : Port) (_ : Unit) (s : State) : State × Reply :=
  ((s.onPlant (Plant.resetPort p s.fallback)).setPort p fun x => { x with mask := 0#8 },
    ⟨.ok, [natByte (s.plant.liveCount p), natByte (s.plant.leaseCount p)]⟩)

/-- PORT_RESET (R171). -/
def execPortReset (r : Request) (s : State) : Out :=
  .next (serve 0x04#8 .both noLimit (fun _ => parseNothing r.body) (portResetWork r.port) r s)

/-! ## Transactions -/

/-- UNDECODED_REQUEST (R160, R163): the rest of the transaction's bits are shifted in, and at the rise of
CSn_n the whole bytes fail framing, the CRC or the KIND, and the slot takes the status. Bytes that spell
a request, and bits other than those shifted in already, are no such event (DEDUCED, assumption log 6). -/
def execUndecodedRequest (p : Port) (wire : Wire) (s : State) : Out :=
  let bits := wire.bytes.flatMap byteBits ++ wire.tail
  let b := (s.port p).shift
  let b' := b.clockIn (bits.drop b.size)
  .next (if s.hears p bits then
    match undecodedStatus b'.kept b'.count with
    | some st => s.respond p (b'.kept.headD 0#8) b'.count (refuse st)
    | none => s
  else s)

/-- TRANSACTION_BEGIN (R159): the record in the slot is the one shifted out, and the first bits are
shifted in. While RSTn is low CSn_n is ignored (R172), and a transaction in progress has no second fall
(DEDUCED, assumption log 6). -/
def execTransactionBegin (fall : Fall) (s : State) : Out :=
  .next (if s.rstnLow || (s.port fall.port).txn.isSome then s
    else s.setPort fall.port fun x =>
      { x with txn := some x.slot.bytes, shift := ShiftBuffer.empty.clockIn fall.bits })

end Sys2Proof.Machine
end

