-- ==== Sys2Proof/Machine/Tallies.lean ====
section
/-! DEFINITION. TALLY_READ and TALLY_ADD (R142), TALLY_SWAP and TALLY_CAS (R143), with the level test of
R141 and the evaluation of R146. -/

namespace Sys2Proof.Machine

/-- The named tally's write level; a body that names no tally has none and passes (R141, R163 step 5). -/
def tallyLimit (body : List Byte) (s : State) : Option Level :=
  match body with
  | b :: _ => (byteFin 8 b).map fun t => (s.table.tallies.get t).level
  | [] => none

/-- A change of tally `t` to `v`, with its evaluation (R144, R146). -/
def State.changeTally (t : TallyId) (v : Word) (s : State) : State :=
  { s with
    tallies := upd s.tallies t fun _ => v
    plant := s.plant.walkCount s.table.arbitration t v s.plant.armed }

/-- TALLY_BIND as a byte, 0xFF for none (R174). -/
def bindByte (b : Option Channel) : Byte :=
  match b with
  | some c => natByte c.val
  | none => 0xFF#8

/-- Value, binding, write level (R164). -/
def tallyBody (s : State) (t : TallyId) : List Byte :=
  wordBytes (s.tallies.get t) ++
    [bindByte (s.table.tallies.get t).binding, levelByte (s.table.tallies.get t).level]

/-- TALLY_READ (R142). -/
def execTallyRead (r : Request) (s : State) : Out :=
  .next (serve 0x60#8 .both noLimit (fun _ => parseNumber 8 r.body) (readOnly tallyBody) r s)

def addWork (q : TallyId × Word) (s : State) : State × Reply :=
  (s.changeTally q.1 (s.tallies.get q.1 + q.2), ⟨.ok, wordBytes (s.tallies.get q.1)⟩)

/-- TALLY_ADD (R142). -/
def execTallyAdd (r : Request) (s : State) : Out :=
  .next (serve 0x61#8 .both (tallyLimit r.body) (fun _ => parseTallyValue r.body) addWork r s)

def swapWork (q : TallyId × Word) (s : State) : State × Reply :=
  (s.changeTally q.1 q.2, ⟨.ok, wordBytes (s.tallies.get q.1)⟩)

/-- TALLY_SWAP (R143). -/
def execTallySwap (r : Request) (s : State) : Out :=
  .next (serve 0x62#8 .both (tallyLimit r.body) (fun _ => parseTallyValue r.body) swapWork r s)

def casWork (q : TallyId × Word × Word) (s : State) : State × Reply :=
  if s.tallies.get q.1 = q.2.1 then
    (s.changeTally q.1 q.2.2, ⟨.ok, wordBytes (s.tallies.get q.1) ++ [flagByte true]⟩)
  else (s, ⟨.ok, wordBytes (s.tallies.get q.1) ++ [flagByte false]⟩)

/-- TALLY_CAS (R143). -/
def execTallyCas (r : Request) (s : State) : Out :=
  .next (serve 0x63#8 .both (tallyLimit r.body) (fun _ => parseCas r.body) casWork r s)

end Sys2Proof.Machine
end

