-- ==== Sys2Proof/Machine/Dispatch.lean ====
section
/-! DEFINITION. The effect of every command of spec/opcode_table.json on everything but the queue. -/

namespace Sys2Proof.Machine

def exec (i : Instr) (s : State) : Host.Outcome State Fault Refusal :=
  match i with
  | .nop r => Sys2Proof.Machine.execNop r s
  | .identify r => Sys2Proof.Machine.execIdentify r s
  | .status r => Sys2Proof.Machine.execStatus r s
  | .noticeRead r => Sys2Proof.Machine.execNoticeRead r s
  | .portReset r => Sys2Proof.Machine.execPortReset r s
  | .subscribe r => Sys2Proof.Machine.execSubscribe r s
  | .configRead r => Sys2Proof.Machine.execConfigRead r s
  | .configWrite r => Sys2Proof.Machine.execConfigWrite r s
  | .endSetup r => Sys2Proof.Machine.execEndSetup r s
  | .tbHold r => Sys2Proof.Machine.execTbHold r s
  | .tbStart r => Sys2Proof.Machine.execTbStart r s
  | .schedule r => Sys2Proof.Machine.execSchedule r s
  | .cancel r => Sys2Proof.Machine.execCancel r s
  | .entryMove r => Sys2Proof.Machine.execEntryMove r s
  | .entryRead r => Sys2Proof.Machine.execEntryRead r s
  | .lineMode r => Sys2Proof.Machine.execLineMode r s
  | .lineRead r sense => Sys2Proof.Machine.execLineRead r sense s
  | .waveRestart r => Sys2Proof.Machine.execWaveRestart r s
  | .lineProbe r => Sys2Proof.Machine.execLineProbe r s
  | .leaseTake r => Sys2Proof.Machine.execLeaseTake r s
  | .leaseRenew r => Sys2Proof.Machine.execLeaseRenew r s
  | .leaseRelease r => Sys2Proof.Machine.execLeaseRelease r s
  | .leaseRead r => Sys2Proof.Machine.execLeaseRead r s
  | .captureRead r => Sys2Proof.Machine.execCaptureRead r s
  | .tallyRead r => Sys2Proof.Machine.execTallyRead r s
  | .tallyAdd r => Sys2Proof.Machine.execTallyAdd r s
  | .tallySwap r => Sys2Proof.Machine.execTallySwap r s
  | .tallyCas r => Sys2Proof.Machine.execTallyCas r s
  | .undecodedRequest p wire => Sys2Proof.Machine.execUndecodedRequest p wire s
  | .deviceReset lva lvb => Sys2Proof.Machine.execDeviceReset lva lvb s
  | .rstnRise => Sys2Proof.Machine.execRstnRise s
  | .tick => Sys2Proof.Machine.execTick s
  | .captureEdge c dir after => Sys2Proof.Machine.execCaptureEdge c dir after s
  | .pulseEnd l => Sys2Proof.Machine.execPulseEnd l s
  | .periodEnd l => Sys2Proof.Machine.execPeriodEnd l s
  | .holdTimerExpiry => Sys2Proof.Machine.execHoldTimerExpiry s
  | .lapse l => Sys2Proof.Machine.execLapse l s
  | .phaseAEnd l sense => Sys2Proof.Machine.execPhaseAEnd l sense s
  | .phaseBEnd l sense => Sys2Proof.Machine.execPhaseBEnd l sense s
  | .setupWindowExpiry => Sys2Proof.Machine.execSetupWindowExpiry s
  | .transactionBegin fall => Sys2Proof.Machine.execTransactionBegin fall s

end Sys2Proof.Machine
end

