-- ==== Sys2Proof/WellFormed.lean ====
section
/-! DEFINITION. Which terms of `Instr` stand for something that can happen on the part's pins: a
request body fits the record (R160, R164), the bytes of an UNDECODED_REQUEST spell no request, and a
partly shifted byte has fewer than eight bits (R159). -/

namespace Sys2Proof

/-- The body of a request is at most 32 bytes (R164); a record with a greater LEN is refused at framing
and is an UNDECODED_REQUEST (R160). -/
abbrev Request.wf (r : Request) : Prop := r.body.length ≤ Config.maxBody ∧ r.tail.length < 8

/-- Well-formed commands. -/
def Instr.wf (i : Instr) : Bool :=
  match i with
  | .undecodedRequest _ wire =>
    (undecodedStatus (wire.bytes.take Config.shiftDepth) wire.bytes.length).isSome &&
      decide (wire.tail.length < 8)
  | _ =>
    match i.record? with
    | some (_, r) => decide r.wf
    | none => true

end Sys2Proof
end

