-- ==== Sys2Proof/Safety.lean ====
section
/-! DEFINITION. The vocabulary of the statements: when a request is taken and what an answer is (R162,
R163), the columns of the request summary table (spec/10, section 10.5), and the invariants that the
manual states of the whole part. -/

namespace Sys2Proof.Machine

/-! ## Requests -/

/-- The request of KIND `kind` is taken and passes the checks that name no table row (R163 steps 1, 2 and
the header bits of step 6). -/
structure Taken (kind : Byte) (r : Request) (s : State) : Prop where
  heard : s.hears r.port (Request.bits kind r) = true
  fits  : r.body.length ≤ Config.maxBody
  clean : Request.headClean r = true

/-- The state once the request is answered with a status and a body (R162). -/
def State.answer (r : Request) (kind : Byte) (st : Status) (body : List Byte) (s : State) : State :=
  s.respond r.port kind (Request.count r) ⟨st, body⟩

/-- The states column. -/
def allowedIn : Instr → Allowed
  | .configWrite _ | .endSetup _ => .setupOnly
  | .tbHold _ | .tbStart _ | .schedule _ | .cancel _ | .entryMove _ | .entryRead _ | .lineMode _
  | .waveRestart _ | .lineProbe _ | .leaseTake _ | .leaseRenew _ | .leaseRelease _
  | .leaseRead _ => .operatingOnly
  | _ => .both

/-- The level limits of step 5 of R163. -/
def levelLimit (i : Instr) (s : State) : Option Level :=
  match i with
  | .configWrite _ | .endSetup _ => some 0
  | .tbHold _ | .tbStart _ => some s.table.holdLevel
  | .tallyAdd r | .tallySwap r | .tallyCas r =>
    match r.body with
    | b :: _ => if h : b.toNat < 8 then some (s.table.tallies.get ⟨b.toNat, h⟩).level else none
    | [] => none
  | _ => none

/-- The effective level passes the limit. -/
def withinLimit (i : Instr) (r : Request) (s : State) : Bool :=
  match levelLimit i s with
  | some v => s.effective r ≤ v
  | none => true

/-- The body length of a request's layout (R164); none for SCHEDULE, whose length varies. -/
def bodyLength : Instr → Option Nat
  | .nop _ | .identify _ | .status _ | .noticeRead _ | .portReset _ | .endSetup _ | .tbHold _
  | .tbStart _ => some 0
  | .subscribe _ | .lineRead _ _ | .waveRestart _ | .lineProbe _ | .leaseRenew _ | .leaseRelease _
  | .leaseRead _ | .captureRead _ | .tallyRead _ => some 1
  | .configRead _ | .cancel _ | .entryRead _ | .lineMode _ => some 2
  | .leaseTake _ => some 3
  | .tallyAdd _ | .tallySwap _ => some 5
  | .configWrite _ | .entryMove _ => some 6
  | .tallyCas _ => some 9
  | _ => none

/-- What R44 asks of a SCHEDULE body beside its state: the fields by their places in the layout of R164,
the trigger part at byte 11, the action part behind it. -/
def ScheduleInRange (table : Table) (body : List Byte) : Prop :=
  let at_ : Nat → Byte := fun k => body.getD k 0#8
  let halfAt : Nat → Half := fun k => half (at_ k) (at_ (k + 1))
  let wordAt : Nat → Word := fun k => word (at_ k) (at_ (k + 1)) (at_ (k + 2)) (at_ (k + 3))
  let action := (at_ 2).toNat
  let trigger := (at_ 4).toNat
  let part := 11 + if trigger = 0 then 4 else if trigger = 1 then 6 else 9
  action ≤ 6 ∧ trigger ≤ 2 ∧
    body.length = part + (if action = 3 then 2 else if action = 4 then 5 else 0) ∧
    halfAt 0 ≠ 0#16 ∧ (at_ 6).toNat < 4 ∧
    (action = 6 → at_ 3 = 0xFF#8) ∧ (action ≠ 6 → (at_ 3).toNat < 16) ∧
    (action = 3 → halfAt part ≠ 0#16) ∧ (action = 4 → (at_ (part + 4)).toNat < 4) ∧
    (trigger = 1 → at_ 12 ≠ 0#8 ∧ (wordAt 13).toNat < 2 ^ 31 ∧
      ∃ c : Channel, at_ 11 = natByte c.val ∧ (table.channels.get c).select ≠ .off) ∧
    (trigger = 2 → (at_ 11).toNat < 8 ∧ (wordAt 16).toNat < 2 ^ 31) ∧
    (at_ 5 ≠ 1#8 → 1 ≤ (wordAt 7).toNat ∧
      (wordAt 7).toNat ≤ (if trigger = 1 then 255 else 2 ^ 31 - 1) ∧
      (trigger = 0 → action = 3 → (halfAt part).toNat < (wordAt 7).toNat))

/-- The operand ranges of each request's chapter, its LEN included (R163 step 6, R164). -/
def OperandsInRange (i : Instr) (s : State) : Prop :=
  match i with
  | .nop r | .identify r | .status r | .noticeRead r | .portReset r | .endSetup r | .tbHold r
  | .tbStart r => r.body = []
  | .subscribe r => ∃ m, r.body = [m]
  | .configRead r => ∃ code index x, r.body = [code, index] ∧ Item.ofCode code index = some x
  | .configWrite r => ∃ code index v3 v2 v1 v0 x, r.body = [code, index, v3, v2, v1, v0] ∧
      Item.ofCode code index = some x ∧ (x.write s.table (word v3 v2 v1 v0)).isSome = true
  | .schedule r => ScheduleInRange s.table r.body
  | .cancel r => ∃ a b, r.body = [a, b]
  | .entryMove r => ∃ a b due, r.body = [a, b] ++ wordBytes due ∧ half a b ≠ 0#16
  | .entryRead r => ∃ a b, r.body = [a, b] ∧ half a b ≠ 0#16
  | .lineMode r => ∃ a m, r.body = [a, m] ∧ a.toNat < 16 ∧ m.toNat ≤ 1
  | .lineRead r _ | .waveRestart r | .lineProbe r | .leaseRelease r | .leaseRead r =>
    ∃ a, r.body = [a] ∧ a.toNat < 16
  | .leaseTake r => ∃ a term, r.body = [a] ++ halfBytes term ∧ a.toNat < 16 ∧
      10 ≤ term.toNat ∧ term.toNat ≤ 60000
  | .leaseRenew r => ∃ a, r.body = [a] ∧ (a.toNat < 16 ∨ a = 0xFF#8)
  | .captureRead r | .tallyRead r => ∃ a, r.body = [a] ∧ a.toNat < 8
  | .tallyAdd r | .tallySwap r => ∃ a v, r.body = [a] ++ wordBytes v ∧ a.toNat < 8
  | .tallyCas r => ∃ a v x, r.body = [a] ++ wordBytes v ++ wordBytes x ∧ a.toNat < 8
  | .undecodedRequest _ _ | .deviceReset _ _ | .rstnRise | .tick | .captureEdge _ _ _
  | .pulseEnd _ | .periodEnd _ | .holdTimerExpiry | .lapse _ | .phaseAEnd _ _ | .phaseBEnd _ _
  | .setupWindowExpiry | .transactionBegin _ => True

/-! ## The plant -/

/-- The lines that are PULSING. -/
def Plant.pulsingOn (w : Plant) (l : LineId) : Prop := (w.line l).isPulsing = true

/-- The name of an entry (R2). -/
def Entry.name (e : Entry) : Port × Half := (e.owner, e.tag)

/-- What a tick's advance makes of one line: the pulse countdown (R77) and the generator's count with its
period end (R90, R91, R92, R93). -/
def Line.advanced (x : Line) : Line :=
  match x.state with
  | .static => x
  | .probing _ => x
  | .pulsing r =>
    if r.remaining ≤ 1 then x.rest false .static
    else { x with state := .pulsing { r with remaining := r.remaining - 1 } }
  | .waving g =>
    if g.wave.period = 0#16 then x
    else
      let g' := match g.next with
        | some n => n
        | none => match g.load with
          | some ld => Generator.fresh ld.wave
          | none => { g with counter := 0, direction := .up }
      x.rest g'.output (.waving g')

/-- What a winner makes of its line: the clearing and then the action (R74, R76, R93, R95, R96, R99,
R100). -/
def Line.applied (e : Entry) (a : LineAction) (x : Line) : Line :=
  match a with
  | .set => x.rest true .static
  | .clear => x.rest false .static
  | .toggle => x.rest (!x.quietLevel) .static
  | .waveStop => x.rest false .static
  | .pulse width => x.rest true (.pulsing ⟨e.owner, e.tag, width.toNat⟩)
  | .wave v =>
    match x.state with
    | .waving g =>
      if g.wave.period = 0#16 then
        x.rest (Generator.fresh v).output (.waving (Generator.fresh v))
      else { x with state := .waving { g with load := some ⟨v, e.owner, e.tag, e.notify⟩ } }
    | _ => x.rest (Generator.fresh v).output (.waving (Generator.fresh v))

/-- The queue after a list of posts, in order (R168). -/
def Inbox.postList (ns : List Notice) (b : Inbox) : Inbox := ns.foldl (fun b n => b.post n) b

/-- What no work of a batch, an advance or a walk changes: the modes and leases of the lines; and queues
grow by posts alone. -/
structure Plant.Keeps (w w' : Plant) : Prop where
  mode  : ∀ l, (w'.line l).mode = (w.line l).mode
  lease : ∀ l, (w'.line l).lease = (w.line l).lease
  inbox : ∀ p, ∃ ns, w'.inbox p = (w.inbox p).postList ns

/-- A TIMEBASE notice that stands at TC `tc` (R37). -/
def timebaseNotice (tc : Word) (old new : Timebase) (cause : TimebaseCause) : Notice :=
  ⟨noSubject, 0#16, tc, .timebase old new cause⟩

/-! ## Invariants -/

/-- R168: a queue holds at most 16 notices. -/
def QueuesBounded (s : State) : Prop := ∀ p, (s.plant.inbox p).queue.length ≤ 16

/-- R174: the four quotas sum to at most 64, and a source that names a channel names one whose CH_EDGE is
not OFF. -/
def TableConsistent (s : State) : Prop :=
  s.table.quota.get 0 + s.table.quota.get 1 + s.table.quota.get 2 + s.table.quota.get 3 ≤ 64 ∧
    ∀ c, s.table.source = .pace c → (s.table.channels.get c).select ≠ .off

/-- The sequence numbers of a window, oldest first, run up to the channel's next one, modulo 256. -/
def CaptureChannel.consecutive (x : CaptureChannel) : Prop :=
  ∀ i, (h : i < x.window.length) →
    (x.window[i]).seq + BitVec.ofNat 8 (x.window.length - i) = x.nextSeq

/-- R126: a window holds at most 4 records with consecutive sequence numbers. -/
def WindowsConsecutive (s : State) : Prop :=
  ∀ c, (s.channels.get c).window.length ≤ 4 ∧ (s.channels.get c).consecutive

/-- R105, R106: only a LEASED line has a lease, its level lies between the holder's strap level and the
line's ceiling, its term in 10 to 60000 ms, its remaining time within the term; no lease exists in SETUP
or while RSTn is low. -/
def LeasesLegal (s : State) : Prop :=
  ∀ l k, (s.plant.line l).lease = some k →
    s.rstnLow = false ∧ s.device = .operating ∧ (s.table.lines.get l).kind = .leased ∧
      k.level ≤ (s.table.lines.get l).ceiling ∧ (s.port k.holder).strap ≤ k.level ∧
      10 ≤ k.term.toNat ∧ k.term.toNat ≤ 60000 ∧ k.remaining ≤ k.term.toNat * Config.xinPerMs

/-- R71, R173: while RSTn is low the device is in SETUP with the default table, and in SETUP the pool and
the queues are empty, TC is 0, the timebase is OFF, and every line is STATIC without a holder at its
fallback level. -/
def SetupQuiet (s : State) : Prop :=
  (s.rstnLow = true → s.device = .setup ∧ s.table = Table.default) ∧
    (s.device = .setup →
      s.plant.live = [] ∧ s.plant.tc = 0#32 ∧ s.plant.timebase = .off ∧ s.plant.holdTimer = none ∧
        (∀ l, s.plant.line l = ⟨(s.table.lines.get l).fallback, .drive, .static, none⟩) ∧
        ∀ p, s.plant.inbox p = ⟨[], false⟩)

/-- R27, R32, R33: a pulse is in flight only in RUNNING and HOLDING, one is in flight throughout HOLDING,
and the hold timer runs exactly in HOLDING. -/
def HoldFollowsPulses (w : Plant) : Prop :=
  (w.timebase = .off ∨ w.timebase = .held → ∀ l, ¬ w.pulsingOn l) ∧
    (w.timebase = .holding → ∃ l, w.pulsingOn l) ∧
    (w.holdTimer.isSome = true ↔ w.timebase = .holding)

/-- While RSTn is low the device is in SETUP (R173), and in SETUP the pool is empty (R20) and the timebase
OFF (R30). -/
def SetupEmpty (s : State) : Prop :=
  (s.rstnLow = true → s.device = .setup) ∧
    (s.device = .setup → s.plant.live = [] ∧ s.plant.timebase = .off)

/-- R2, R13, R16: no two live entries share owner and tag, no tag is 0, no port owns more entries than
its quota, and the pool holds at most 64. -/
def PoolWithinShares (s : State) : Prop :=
  (s.plant.live.map Entry.name).Nodup ∧ (∀ e ∈ s.plant.live, e.tag ≠ 0#16) ∧
    (∀ p, s.plant.liveCount p ≤ s.table.quota.get p) ∧ s.plant.used ≤ 64

/-- R106: every live entry that names a LEASED line is owned by the line's lease holder. -/
def EntriesUnderLease (s : State) : Prop :=
  ∀ e ∈ s.plant.live, ∀ l, e.line? = some l → (s.table.lines.get l).kind = .leased →
    (s.plant.line l).heldBy e.owner = true

/-- R88, R90, R91, R93: the counter of a generator lies in its range, and one whose P is 0 holds no
load. -/
def Generator.legal (g : Generator) : Prop :=
  (g.wave.period = 0#16 → g.counter = 0 ∧ g.direction = .up ∧ g.load = none) ∧
    (g.wave.period ≠ 0#16 → g.wave.align = .left →
      g.direction = .up ∧ g.counter < g.wave.period.toNat) ∧
    (g.wave.period ≠ 0#16 → g.wave.align = .centre →
      (g.direction = .up ∧ g.counter < g.wave.period.toNat) ∨
        (g.direction = .down ∧ 0 < g.counter ∧ g.counter ≤ g.wave.period.toNat))

/-- Every generator is legal, and every probe runs on a line in DRIVE with at most 200 us left (R88,
R150, R151, R152). -/
def LinesLegal (s : State) : Prop :=
  ∀ l, (∀ g, (s.plant.line l).state = .waving g → g.legal) ∧
    ∀ r, (s.plant.line l).state = .probing r →
      (s.plant.line l).mode = .drive ∧ r.time ≤ Config.probePhase

/-! ## The schedule as a whole -/

/-- Executions left lie within the repeat count, unlimited exactly for 0 (R7). -/
def Left.within (repeatCount : Byte) : Left → Prop
  | .unlimited => repeatCount = 0#8
  | .count n => repeatCount ≠ 0#8 ∧ n ≤ repeatCount.toNat

/-- An offset is below 2^31 (R6). -/
def Trigger.offsetOk : Trigger → Prop
  | .atDue => True
  | .edge _ _ o => o.toNat < 2 ^ 31
  | .count _ _ o => o.toNat < 2 ^ 31

/-- A width is not 0 (R5). -/
def Action.widthOk : Action → Prop
  | .onLine _ (.pulse width) => width ≠ 0#16
  | _ => True

/-- The fields of a live entry keep the ranges that SCHEDULE tested (R5, R6, R7). -/
def Entry.legal (e : Entry) : Prop :=
  e.left.within e.repeatCount ∧ e.trigger.offsetOk ∧ e.action.widthOk ∧
    (e.repeatCount ≠ 1#8 → ∃ v, e.step = some v ∧ stepInRange e.trigger v = true ∧
      pulseFits e.trigger e.action v = true)

/-- R41: ordered by lead, every lead below 2^31, no lead 0 in RUNNING. -/
def TimelineOrdered (w : Plant) : Prop :=
  w.timeline.Pairwise (fun x y => (lead w.tc x.due).toNat ≤ (lead w.tc y.due).toNat) ∧
    (∀ x ∈ w.timeline, (lead w.tc x.due).toNat < 2 ^ 31) ∧
    (w.timebase = .running → ∀ x ∈ w.timeline, lead w.tc x.due ≠ 0#32)

/-- The pulse record of line `l` refers to this PULSING entry, and of an AT entry at most the width has
gone since its due (R57, R72). -/
def PulseRec.refersTo (tc : Word) (l : LineId) (r : PulseRec) (x : Timed) : Prop :=
  x.entry.name = (r.owner, r.tag) ∧
    ∃ width, x.entry.action = .onLine l (.pulse width) ∧
      1 ≤ r.remaining ∧ r.remaining ≤ width.toNat ∧
      (x.entry.trigger = .atDue → (tc - x.due).toNat + r.remaining ≤ width.toNat)

/-- R72: a PULSING line refers to one PULSING entry, and every PULSING entry is referred to. -/
def PulsesReferred (w : Plant) : Prop :=
  (∀ l r, (w.line l).state = .pulsing r → ∃ x ∈ w.pulsing, r.refersTo w.tc l x) ∧
    ∀ x ∈ w.pulsing, ∃ l r, (w.line l).state = .pulsing r ∧ r.refersTo w.tc l x

/-- The schedule is sound: names and shares (R13, R16), leases and their entries (R105, R106), ranges (R5
to R7), the order of the timeline list (R41), pulses and their entries (R72), the hold and its pulses
(R32). -/
def ScheduleSound (s : State) : Prop :=
  SetupEmpty s ∧ PoolWithinShares s ∧ LeasesLegal s ∧ EntriesUnderLease s ∧
    (∀ e ∈ s.plant.live, e.legal) ∧ TimelineOrdered s.plant ∧ PulsesReferred s.plant ∧
    HoldFollowsPulses s.plant

end Sys2Proof.Machine
end

