-- ==== Sys2Proof/Certificates/Slice0/Obligations.lean ====
section
/-! DEFINITION. The statements for the provers, in the order of OBLIGATIONS.json. -/

open Sys2Proof Sys2Proof.Machine

/-! ## The queue of commands, reset, transactions -/

/-- A step takes the command at the front of the queue and is `exec` of it with the queue's rest. -/
def Obligations.StepTakesFrontCommand : Prop :=
  ∀ (c : Instr) (cs : List Instr) (s : State), s.pending = c :: cs →
    step s = exec c { s with pending := cs }

/-- On an empty queue the RC events of this moment join the queue in some order, and where there is none
one XIN period of RC passes first; with RSTn low nothing happens. RC that runs on counts the setup window,
the hold timer, each lease and each probe phase down (R33, R107, R152, R177) and leaves levels, modes,
pulses, generators, lists, TC, timebase and queues. A longer stretch of RC runs from one moment with an event
due to the next, takes every event at its moment, and no later CANCEL comes together with an ENTRY_MOVE
before it. When RC runs on, and what it meets first, is the model's choice (DEDUCED and DESIGN CHOICE,
assumption log 7, 8, 19 and 25). -/
def Obligations.EmptyQueueLetsRcRun : Prop :=
  (∀ s : State, s.pending = [] →
    (s.rstnLow = true → step s = .next s) ∧
    (s.rstnLow = false → ∃ (s1 : State) (cs : List Instr) (f : Nat),
      (s.due = [] → s1 = s.runRc 1) ∧ (s.due ≠ [] → s1 = s) ∧ cs.Perm s1.due ∧
      step s = .next { s1 with pending := cs, freeCount := f })) ∧
  (∀ s : State,
    (.tick ∈ s.due ↔ s.dividing = true ∧
      (s.plant.timebase = .running ∨ s.plant.timebase = .holding) ∧ s.table.period ≤ s.divider) ∧
    (.setupWindowExpiry ∈ s.due ↔ s.device = .setup ∧ s.window = some 0) ∧
    (.holdTimerExpiry ∈ s.due ↔ s.plant.timebase = .holding ∧ s.plant.holdTimer = some 0) ∧
    ∀ l,
      (.lapse l ∈ s.due ↔ ∃ k, (s.plant.line l).lease = some k ∧ k.remaining = 0) ∧
      ((∃ b, .phaseAEnd l b ∈ s.due) ↔
        ∃ k, (s.plant.line l).state = .probing k ∧ k.phase = .a ∧ k.time = 0) ∧
      ((∃ b, .phaseBEnd l b ∈ s.due) ↔
        ∃ k a, (s.plant.line l).state = .probing k ∧ k.phase = .b a ∧ k.time = 0)) ∧
  (∀ (s : State) (n : Nat),
    (s.runRc n).rc = s.rc + n ∧ (s.runRc n).window = s.window.map (· - n) ∧
    (s.runRc n).plant.holdTimer = s.plant.holdTimer.map (· - n) ∧
    (∀ l, (s.runRc n).plant.line l =
      ⟨(s.plant.line l).level, (s.plant.line l).mode,
        match (s.plant.line l).state with
        | .probing k => .probing { k with time := k.time - n }
        | .static => .static
        | .pulsing k => .pulsing k
        | .waving g => .waving g,
        (s.plant.line l).lease.map fun k => { k with remaining := k.remaining - n }⟩) ∧
    (s.dividing = false → (s.runRc n).divider = s.divider) ∧
    (n = 0 → (s.runRc n).moved = s.moved) ∧ (0 < n → (s.runRc n).moved = []) ∧
    { s.runRc n with
      rc := s.rc, window := s.window, divider := s.divider, moved := s.moved,
      plant := { (s.runRc n).plant with
        holdTimer := s.plant.holdTimer, lines := s.plant.lines } } = s) ∧
  (∀ (s : State) (n : Nat),
    (s.passed n).rc = s.rc + n ∧ (s.passed n).rstnLow = s.rstnLow ∧ (s.passed n).table = s.table ∧
    (s.passed n).ports = s.ports ∧ (s.passed n).channels = s.channels ∧
    (s.passed n).tallies = s.tallies ∧ (s.passed n).pending = s.pending ∧
    (n = 0 → s.passed n = s) ∧ (0 < n → (s.passed n).moved = []) ∧
    (0 < n → ∃ (cs : List Instr) (f d : Nat) (s1 : State), cs.Perm s.due ∧
      s1 = cs.foldl State.takeRc { s with freeCount := f } ∧ 0 < d ∧ d ≤ n ∧
      (∀ m, 0 < m → m < d → (s1.runRc m).due = []) ∧ (d = n ∨ (s1.runRc d).due ≠ []) ∧
      s.passed n = (s1.runRc d).passed (n - d))) ∧
  ∀ (s : State) (l : LineId) (b : Bool),
    (s.table.period ≤ s.divider → exec .tick s = .next (s.takeRc .tick)) ∧
    exec .setupWindowExpiry s = .next (s.takeRc .setupWindowExpiry) ∧
    exec .holdTimerExpiry s = .next (s.takeRc .holdTimerExpiry) ∧
    exec (.lapse l) s = .next (s.takeRc (.lapse l)) ∧
    exec (.phaseAEnd l b) s = .next (s.takeRc (.phaseAEnd l b)) ∧
    exec (.phaseBEnd l b) s = .next (s.takeRc (.phaseBEnd l b))

/-- The summary of R173 at the state right after reset, no move noted (DESIGN CHOICE, assumption log 25), and
every invariant of the statements below. -/
def Obligations.ResetStateIsClear : Prop :=
  State.reset.device = .setup ∧ State.reset.rstnLow = false ∧
    State.reset.window = some (2000 * Config.xinPerMs) ∧ State.reset.table = Table.default ∧
    State.reset.plant.timebase = .off ∧ State.reset.plant.tc = 0#32 ∧
    State.reset.plant.timeline = [] ∧ State.reset.plant.armed = [] ∧
    State.reset.plant.pulsing = [] ∧ State.reset.moved = [] ∧
    (∀ l, (State.reset.plant.line l).lease = none) ∧ (∀ n, State.reset.tallies.get n = 0#32) ∧
    (∀ c, (State.reset.channels.get c).window = []) ∧
    (∀ p, State.reset.plant.inbox p = ⟨[], false⟩) ∧
    (∀ p, (State.reset.port p).slot = ⟨.noRequest, 0, false, false, 0#8, []⟩) ∧
    QueuesBounded State.reset ∧ TableConsistent State.reset ∧ WindowsConsecutive State.reset ∧
    LinesLegal State.reset ∧ SetupQuiet State.reset ∧ ScheduleSound State.reset

/-- DEVICE_RESET in any state and RSTN_RISE on a part in reset; the model's own in it: RSTN_RISE with RSTn
high changes nothing (DEDUCED, assumption log 6), RC counts from 0 at the rise (DEDUCED, assumption log
19), the queue of commands stays (DESIGN CHOICE, assumption log 21), the first sample of the capture
inputs is a free value (DESIGN CHOICE, assumption log 23), no move is noted (DESIGN CHOICE, assumption log
25). -/
def Obligations.DeviceResetDiscardsState : Prop :=
  (∀ s : State,
    (s.rstnLow = true → ∃ (inputs : BitVec 8) (f : Nat), exec .rstnRise s = .next
      { s with
        freeCount := f
        rstnLow := false
        device := .setup
        table := Table.default
        window := some (2000 * Config.xinPerMs)
        rc := 0
        channels := Vector.ofFn fun c =>
          { s.channels.get c with level := inputs.getLsbD c.val, since := 0 } }) ∧
    (s.rstnLow = false → exec .rstnRise s = .next s)) ∧
  ∀ (lva lvb : BitVec 4) (s : State), ∃ t, exec (.deviceReset lva lvb) s = .next t ∧
    t.rstnLow = true ∧ t.device = .setup ∧ t.table = Table.default ∧ t.window = none ∧
    t.plant.timebase = .off ∧ t.plant.tc = 0#32 ∧ t.plant.holdTimer = none ∧ t.divider = 0 ∧
    t.plant.live = [] ∧ t.moved = [] ∧
    (∀ l, t.plant.line l = ⟨false, .drive, .static, none⟩) ∧
    (∀ n, t.tallies.get n = 0#32) ∧ (∀ c, t.channels.get c = ⟨none, 0#8, [], false, 0⟩) ∧
    (∀ p, t.plant.inbox p = ⟨[], false⟩) ∧
    (∀ p, (t.port p).slot = ⟨.noRequest, 0, false, false, 0#8, []⟩ ∧ (t.port p).mask = 0#8 ∧
      (t.port p).shift = ⟨[], 0, []⟩ ∧ (t.port p).txn = none) ∧
    (∀ p, (t.port p).strap.val =
      2 * (if lvb.getLsbD p.val then 1 else 0) + (if lva.getLsbD p.val then 1 else 0)) ∧
    (∀ l, t.pin l = .highZ) ∧ (∀ p, t.ntfLow p = false) ∧ t.pending = s.pending

/-- Every well-formed request is read back from the bytes of its transaction. -/
def Obligations.TransactionsRoundTrip : Prop :=
  ∀ (i : Instr) (p : Port) (bytes : List Byte) (tail : List Bool), i.wf = true →
    i.wireBytes = some (p, bytes, tail) → decodeTransaction p bytes tail i.sense = i

/-- The framing of R160 and step 3 of R163, on any bytes, and the check values of R160. -/
def Obligations.FramingFollowsCounts : Prop :=
  (∀ bytes : List Byte,
    (bytes.length < 3 →
      undecodedStatus (bytes.take 36) bytes.length = some .frameShort) ∧
    ∀ kind head len rest, bytes = kind :: head :: len :: rest →
      (bytes.length < 4 + len.toNat →
        undecodedStatus (bytes.take 36) bytes.length = some .frameShort) ∧
      (4 + len.toNat ≤ bytes.length →
        (32 < len.toNat → undecodedStatus (bytes.take 36) bytes.length = some .badCheck) ∧
        (len.toNat ≤ 32 →
          rest[len.toNat]? ≠ some (crc8 (kind :: head :: len :: rest.take len.toNat)) →
            undecodedStatus (bytes.take 36) bytes.length = some .badCheck) ∧
        (len.toNat ≤ 32 →
          rest[len.toNat]? = some (crc8 (kind :: head :: len :: rest.take len.toNat)) →
            (Instr.ofKind kind ⟨0, head, rest.take len.toNat, [], []⟩ false = none →
              undecodedStatus (bytes.take 36) bytes.length = some .badKind) ∧
            (∀ p tail b i, Instr.ofKind kind
                ⟨p, head, rest.take len.toNat, bytes.drop (4 + len.toNat), tail⟩ b = some i →
              decodeTransaction p bytes tail b = i)))) ∧
  ∀ (p : Port) (tail : List Bool) (b : Bool),
    decodeTransaction p [0x00#8, 0x00#8, 0x00#8, 0x00#8] tail b = .nop ⟨p, 0x00#8, [], [], tail⟩ ∧
    decodeTransaction p [0x01#8, 0x00#8, 0x00#8, 0x6B#8] tail b =
      .identify ⟨p, 0x00#8, [], [], tail⟩ ∧
    ∀ n, decodeTransaction p (List.replicate (4 + n) 0x00#8) tail b =
      .nop ⟨p, 0x00#8, [], List.replicate n 0x00#8, tail⟩

/-- UNDECODED_REQUEST: the slot takes the status, the KIND echo is the first byte or 0, nothing else of
the part changes. -/
def Obligations.UndecodedRequestAnswered : Prop :=
  ∀ (p : Port) (bytes : List Byte) (tail : List Bool) (st : Status) (s : State), tail.length < 8 →
    s.hears p (bytes.flatMap byteBits ++ tail) = true →
    undecodedStatus (bytes.take 36) bytes.length = some st →
      exec (.undecodedRequest p ⟨bytes, tail⟩) s =
        .next (s.respond p (bytes.headD 0x00#8) bytes.length ⟨st, []⟩)

/-- TRANSACTION_BEGIN: the record in the slot is the one the transaction shifts out, and its first bits go
into the shift buffer, which keeps 36 whole bytes and the bits of a byte begun. No request is taken while
RSTn is low, without a fall of CSn_n before the rise, or against the bits already shifted in (DEDUCED,
assumption log 5, 6). -/
def Obligations.TransactionsBeginAtFall : Prop :=
  (∀ (p : Port) (bits : List Bool) (s : State),
    (s.rstnLow = false → (s.port p).txn = none →
      exec (.transactionBegin ⟨p, bits⟩) s = .next (s.setPort p fun x =>
        { x with txn := some x.slot.bytes, shift := ShiftBuffer.empty.clockIn bits })) ∧
    (s.rstnLow = true ∨ (s.port p).txn.isSome = true →
      exec (.transactionBegin ⟨p, bits⟩) s = .next s)) ∧
  (∀ (bytes : List Byte) (tail : List Bool), tail.length < 8 →
    ShiftBuffer.empty.clockIn (bytes.flatMap byteBits ++ tail) =
      ⟨bytes.take 36, bytes.length, tail⟩) ∧
  (∀ (b : Byte) (k : Nat), k < 8 → (byteBits b)[k]? = some (b.getLsbD (7 - k))) ∧
  ∀ (i : Instr) (kind : Byte) (r : Request) (s : State), i.record? = some (kind, r) →
    s.rstnLow = true ∨ (s.port r.port).txn = none ∨
      (∀ n, (s.port r.port).shift ≠
        ShiftBuffer.empty.clockIn ((Request.bits kind r).take n)) → exec i s = .next s

/-- What an answer puts in the slot, what the transaction clocked out, and what it leaves alone. -/
def Obligations.AnswerFillsSlot : Prop :=
  ∀ (r : Request) (kind : Byte) (st : Status) (body : List Byte) (s : State),
    ((s.answer r kind st body).port r.port).slot =
        ⟨st, (s.plant.inbox r.port).queue.length, (s.plant.inbox r.port).overflow,
          s.device == .operating, kind, body⟩ ∧
      ((s.answer r kind st body).port r.port).txn = none ∧
      ((s.answer r kind st body).port r.port).shift = ⟨[], 0, []⟩ ∧
      ((s.answer r kind st body).port r.port).strap = (s.port r.port).strap ∧
      ((s.answer r kind st body).port r.port).mask = (s.port r.port).mask ∧
      (∀ q, q ≠ r.port → (s.answer r kind st body).port q = s.port q) ∧
      { s.answer r kind st body with ports := s.ports } = s ∧
      ∀ record, (s.port r.port).txn = some record →
        ((s.answer r kind st body).port r.port).sent.length =
            4 + r.body.length + r.filler.length ∧
        ∀ k, k < 4 + r.body.length + r.filler.length →
          ((s.answer r kind st body).port r.port).sent[k]? =
            some (if k < record.length then record.getD k 0x00#8 else 0x00#8)

/-- The response record, the notice records and the SCHEDULE body as bytes, with every code and field place
of the tables of R164, and the CRC-8 of R160. That an AT trigger shows the entry's due as it stands is the
model's (DEDUCED, assumption log 14). -/
def Obligations.RecordLayouts : Prop :=
  (∀ r : Response, r.queued ≤ 16 →
    r.bytes = [statusCode r.status, r.flags, r.kind, natByte r.body.length] ++ r.body ++
      [crc8 ([statusCode r.status, r.flags, r.kind, natByte r.body.length] ++ r.body)] ∧
    r.flags.toNat =
      r.queued + (if r.overflow then 32 else 0) + (if r.operating then 64 else 0)) ∧
  ([.ok, .accepted, .noRequest, .badCheck, .frameShort, .badKind, .badField, .wrongState, .noRight,
      .notHolder, .lineTaken, .notLeasable, .poolFull, .quotaFull, .dupTag, .noTag, .late, .busy,
      .badConfig, .lineState] : List Status).map statusCode =
    [0x00#8, 0x01#8, 0x02#8, 0x10#8, 0x11#8, 0x12#8, 0x13#8, 0x20#8, 0x21#8, 0x22#8, 0x23#8, 0x24#8,
      0x30#8, 0x31#8, 0x32#8, 0x33#8, 0x34#8, 0x35#8, 0x36#8, 0x37#8] ∧
  (crc8 [] = 0#8 ∧ ∀ (bs : List Byte) (b : Byte), crc8 (bs ++ [b]) =
    (fun c : Byte => if c.msb then (c <<< 1) ^^^ 0x07#8 else c <<< 1)^[8] (crc8 bs ^^^ b)) ∧
  ([.set, .clear, .toggle, .pulse, .wave, .waveStop, .mark] : List ActionKind).map actionCode =
    [0#8, 1#8, 2#8, 3#8, 4#8, 5#8, 6#8] ∧
  ([.none, .started, .staged] : List WaveOutcome).map outcomeCode = [0#8, 1#8, 2#8] ∧
  ([.follows, .stuckHigh, .stuckLow, .inverted] : List ProbeResult).map probeResultCode =
    [0#8, 1#8, 2#8, 3#8] ∧
  ([.off, .held, .running, .holding] : List Timebase).map timebaseCode = [0#8, 1#8, 2#8, 3#8] ∧
  (leftByte .unlimited = 0xFF#8 ∧ ∀ k, leftByte (.count k) = natByte k) ∧
  (leftHalf .unlimited = 0xFFFF#16 ∧ ∀ k, leftHalf (.count k) = BitVec.ofNat 16 k) ∧
  ([.armed, .pending, .pulsing, .done] : List EntryState).map entryStateCode =
    [0#8, 1#8, 2#8, 3#8] ∧
  ([.leased, .shared] : List LineKind).map kindCode = [0#8, 1#8] ∧
  ([.drive, .shadow] : List Mode).map modeCode = [0#8, 1#8] ∧
  ([.up, .down] : List Direction).map directionCode = [0#8, 1#8] ∧
  ([.off, .rise, .fall, .both] : List EdgeSelect).map selectCode = [0#8, 1#8, 2#8, 3#8] ∧
  ([.rise, .fall] : List Edge).map edgeCode = [1#8, 2#8] ∧
  ([false, true].map flagByte = [0#8, 1#8] ∧ ∀ k, (natByte k).toNat = k % 256) ∧
  ((∀ p, portByte p = natByte p.val) ∧ (∀ v, levelByte v = natByte v.val) ∧
    ∀ l, lineByte l = natByte l.val) ∧
  (∀ (h : Half) (w : Word),
    halfBytes h = [h.extractLsb' 8 8, h.extractLsb' 0 8] ∧
    wordBytes w = [w.extractLsb' 24 8, w.extractLsb' 16 8, w.extractLsb' 8 8, w.extractLsb' 0 8]) ∧
  (∀ (b3 b2 b1 b0 : Byte), half b1 b0 = b1 ++ b0 ∧ word b3 b2 b1 b0 = b3 ++ b2 ++ b1 ++ b0) ∧
  (∀ (u : Wave) (b : Byte),
    u.shapeByte.toNat =
      (if u.align = .centre then 1 else 0) + (if u.start = .inactiveFirst then 2 else 0) ∧
    parseShape b = if b.toNat < 4 then
        some (if b.getLsbD 0 then .centre else .left,
          if b.getLsbD 1 then .inactiveFirst else .activeFirst)
      else none) ∧
  (∀ (e : Entry) (due step : Word) (act ln trg flags : Byte) (trigger action : List Byte),
    (∀ l, e.line? = some l → ln = natByte l.val) → (e.line? = none → ln = 0xFF#8) →
    (match e.action with
      | .onLine _ .set => act = 0#8 ∧ action = []
      | .onLine _ .clear => act = 1#8 ∧ action = []
      | .onLine _ .toggle => act = 2#8 ∧ action = []
      | .onLine _ (.pulse width) => act = 3#8 ∧ action = halfBytes width
      | .onLine _ (.wave u) => act = 4#8 ∧
          action = halfBytes u.period ++ halfBytes u.duty ++ [u.shapeByte]
      | .onLine _ .waveStop => act = 5#8 ∧ action = []
      | .mark => act = 6#8 ∧ action = []) →
    (match e.trigger with
      | .atDue => trg = 0#8 ∧ trigger = wordBytes due
      | .edge c n offset => trg = 1#8 ∧ trigger = [natByte c.val, n] ++ wordBytes offset
      | .count t threshold offset => trg = 2#8 ∧
          trigger = [natByte t.val] ++ wordBytes threshold ++ wordBytes offset) →
    flags.toNat = (if e.notify then 1 else 0) + (if e.latePolicy = .drop then 2 else 0) →
    (match e.step with | some v => step = v | none => step = 0#32) →
      entryBody e due = halfBytes e.tag ++ [act, ln, trg, e.repeatCount, flags] ++ wordBytes step ++
        trigger ++ action) ∧
  ∀ (n : Notice) (code d0 d1 d2 d3 : Byte),
    (match n.detail with
      | .done a late o left =>
        code = 1#8 ∧ d1 = (if late then 1#8 else 0#8) ∧
          d0 = actionCode a ∧ d2 = outcomeCode o ∧ d3 = leftByte left
      | .superseded p v late left =>
        code = 2#8 ∧ d0 = natByte p.val ∧ d1 = natByte v.val ∧ d2 = (if late then 1#8 else 0#8) ∧
          d3 = leftByte left
      | .late due => code = 3#8 ∧ [d0, d1, d2, d3] = wordBytes due
      | .pulseCut c remaining =>
        code = 4#8 ∧ [d2, d3] = halfBytes (BitVec.ofNat 16 remaining) ∧
          (match c with
            | .overtaken p => d0 = 1#8 ∧ d1 = natByte p.val
            | .timeout => d0 = 2#8 ∧ d1 = 0xFF#8)
      | .waveApplied c period =>
        code = 5#8 ∧ d1 = 0#8 ∧ [d2, d3] = halfBytes period ∧
          d0 = (match c with | .periodEnd => 1#8 | .restart => 2#8 | .zeroPeriod => 3#8)
      | .leaseLost c removed =>
        code = 6#8 ∧ d3 = natByte removed ∧
          (match c with
            | .lapsed => d0 = 1#8 ∧ d1 = 0xFF#8 ∧ d2 = 0xFF#8
            | .taken p v => d0 = 2#8 ∧ d1 = natByte p.val ∧ d2 = natByte v.val)
      | .edge seq dir =>
        code = 7#8 ∧ d0 = seq ∧ d2 = 0#8 ∧ d3 = 0#8 ∧
          d1 = (match dir with | .rise => 1#8 | .fall => 2#8)
      | .probe result a b saved =>
        code = 8#8 ∧ d1 = (if a then 1#8 else 0#8) ∧ d2 = (if b then 1#8 else 0#8) ∧
          d3 = (if saved then 1#8 else 0#8) ∧
          d0 = probeResultCode result
      | .probeAborted phase saved p =>
        code = 8#8 ∧ d0 = 4#8 ∧ d2 = 0xFF#8 ∧
          (match phase with
            | .a => d1 = 0xFF#8 ∧ d3 = natByte ((if saved then 1 else 0) + 16 * p.val)
            | .b a => d1 = (if a then 1#8 else 0#8) ∧
                d3 = natByte ((if saved then 1 else 0) + 2 + 16 * p.val))
      | .timebase old new c =>
        code = 9#8 ∧ d0 = timebaseCode old ∧ d1 = timebaseCode new ∧
          (match c with
            | .request p => d2 = 1#8 ∧ d3 = natByte p.val
            | .pulsesDone => d2 = 2#8 ∧ d3 = 0xFF#8
            | .timeout => d2 = 3#8 ∧ d3 = 0xFF#8
            | .setupClosed => d2 = 4#8 ∧ d3 = 0xFF#8)
      | .setupClosed c =>
        code = 10#8 ∧ d2 = 0#8 ∧ d3 = 0#8 ∧
          (match c with
            | .request p => d0 = 1#8 ∧ d1 = natByte p.val
            | .window => d0 = 2#8 ∧ d1 = 0xFF#8)) →
    n.bytes = [code, n.subject] ++ halfBytes n.tag ++ wordBytes n.tc ++ [d0, d1, d2, d3]

/-! ## The general checks -/

/-- Steps 4, 5 and 6 of R163 for every request, in their order. -/
def Obligations.GeneralChecksInOrder : Prop :=
  ∀ (i : Instr) (kind : Byte) (r : Request) (s : State), i.record? = some (kind, r) →
    s.hears r.port (Request.bits kind r) = true → r.body.length ≤ 32 →
    ((allowedIn i).admits s.device = false →
      exec i s = .next (s.answer r kind .wrongState [])) ∧
    ((allowedIn i).admits s.device = true →
      (withinLimit i r s = false → exec i s = .next (s.answer r kind .noRight [])) ∧
      (withinLimit i r s = true →
        (Request.headClean r = false → exec i s = .next (s.answer r kind .badField [])) ∧
        (∀ n, bodyLength i = some n → r.body.length ≠ n →
          exec i s = .next (s.answer r kind .badField []))))

/-- Step 6 of R163 by the operands of every request: out of range BAD_FIELD, in range another status. -/
def Obligations.OperandsOutOfRange : Prop :=
  ∀ (i : Instr) (kind : Byte) (r : Request) (s : State), i.record? = some (kind, r) →
    Taken kind r s → (allowedIn i).admits s.device = true → withinLimit i r s = true →
    (¬ OperandsInRange i s → exec i s = .next (s.answer r kind .badField [])) ∧
    (OperandsInRange i s → ∃ t, exec i s = .next t ∧
      (t.port r.port).slot.status ≠ .badField ∧ (t.port r.port).slot.kind = kind)

/-- A request whose status is neither OK nor ACCEPTED changes nothing but the slot; the LATE of
ENTRY_MOVE is no refusal. -/
def Obligations.RefusalChangesSlotOnly : Prop :=
  ∀ (i : Instr) (kind : Byte) (r : Request) (s : State), i.record? = some (kind, r) →
    s.hears r.port (Request.bits kind r) = true → ∃ t, exec i s = .next t ∧
      ((t.port r.port).slot.status ≠ .ok → (t.port r.port).slot.status ≠ .accepted →
        (∀ q, i = .entryMove q → (t.port r.port).slot.status ≠ .late) →
          t = s.answer r kind (t.port r.port).slot.status [])

/-- The right to act of R67, and the three line requests that ask for it. -/
def Obligations.RightToActTested : Prop :=
  ∀ (r : Request) (s : State) (l : LineId),
    ((s.table.lines.get l).kind = .leased →
      ((∃ k, (s.plant.line l).lease = some k ∧ k.holder = r.port) →
        s.actRefusal r.port (s.effective r) l = none) ∧
      ((∀ k, (s.plant.line l).lease = some k → k.holder ≠ r.port) →
        s.actRefusal r.port (s.effective r) l = some .notHolder)) ∧
    ((s.table.lines.get l).kind = .shared →
      (s.effective r ≤ (s.table.lines.get l).ceiling →
        s.actRefusal r.port (s.effective r) l = none) ∧
      ((s.table.lines.get l).ceiling < s.effective r →
        s.actRefusal r.port (s.effective r) l = some .noRight)) ∧
    ∀ st, s.actRefusal r.port (s.effective r) l = some st → s.device = .operating →
      (∀ m, Taken 0x30#8 r s → r.body = [lineByte l, modeCode m] →
        exec (.lineMode r) s = .next (s.answer r 0x30#8 st [])) ∧
      (r.body = [lineByte l] →
        (Taken 0x32#8 r s → exec (.waveRestart r) s = .next (s.answer r 0x32#8 st [])) ∧
        (Taken 0x33#8 r s → exec (.lineProbe r) s = .next (s.answer r 0x33#8 st [])))

/-! ## Ports -/

/-- NOP, IDENTIFY and STATUS: their bodies, any other LEN refused, nothing changed but the slot; and what
STATUS reports in SETUP. -/
def Obligations.PortReadsReport : Prop :=
  ∀ (r : Request) (s : State),
    (Taken 0x00#8 r s →
      (r.body = [] → exec (.nop r) s = .next (s.answer r 0x00#8 .ok [])) ∧
      (r.body ≠ [] → exec (.nop r) s = .next (s.answer r 0x00#8 .badField []))) ∧
    (Taken 0x01#8 r s →
      (r.body = [] → exec (.identify r) s = .next (s.answer r 0x01#8 .ok
        [0x4A#8, 0x16#8, 2#8, natByte r.port.val, natByte (s.port r.port).strap.val])) ∧
      (r.body ≠ [] → exec (.identify r) s = .next (s.answer r 0x01#8 .badField []))) ∧
    (Taken 0x02#8 r s →
      (r.body = [] →
        exec (.status r) s = .next (s.answer r 0x02#8 .ok
          ([if s.device = .operating then 1#8 else 0#8, timebaseCode s.plant.timebase] ++
            wordBytes s.plant.tc ++
            [natByte (s.plant.armed.length + s.plant.timeline.length + s.plant.pulsing.length),
              natByte ((s.plant.live.filter fun e => e.owner == r.port).length),
              natByte (s.table.quota.get r.port),
              natByte ((allLines.filter fun l => (s.plant.line l).heldBy r.port).length)])) ∧
        (SetupQuiet s → s.device = .setup →
          exec (.status r) s = .next (s.answer r 0x02#8 .ok
            [0#8, 0#8, 0#8, 0#8, 0#8, 0#8, 0#8, 0#8, natByte (s.table.quota.get r.port), 0#8]))) ∧
      (r.body ≠ [] → exec (.status r) s = .next (s.answer r 0x02#8 .badField [])))

/-- NOTICE_READ and SUBSCRIBE: what each changes of its port, and what it returns. -/
def Obligations.NoticeReadAndSubscribe : Prop :=
  (∀ (r : Request) (s : State), Taken 0x03#8 r s → r.body = [] →
    exec (.noticeRead r) s = .next ((s.onPlant fun w => { w with
        inboxes := upd w.inboxes r.port fun b => ⟨b.queue.drop 4, false⟩ }).answer r 0x03#8 .ok
      ([natByte (min 4 (s.plant.inbox r.port).queue.length),
          if (s.plant.inbox r.port).overflow then 1#8 else 0#8] ++
        ((s.plant.inbox r.port).queue.take 4).flatMap Notice.bytes))) ∧
  ∀ (r : Request) (s : State) (m : Byte), Taken 0x05#8 r s → r.body = [m] →
    exec (.subscribe r) s = .next ((s.setPort r.port fun x => { x with mask := m }).answer r
      0x05#8 .ok [(s.port r.port).mask, m])

/-- PORT_RESET: the five steps. -/
def Obligations.PortResetClearsPort : Prop :=
  ∀ (r : Request) (s : State), Taken 0x04#8 r s → r.body = [] →
    ∃ w : Plant,
      exec (.portReset r) s = .next
        (({ s with plant := w }.setPort r.port fun x => { x with mask := 0#8 }).answer r 0x04#8 .ok
          [natByte ((s.plant.live.filter fun (e : Entry) => e.owner == r.port).length),
            natByte ((allLines.filter fun l => (s.plant.line l).heldBy r.port).length)]) ∧
      w.tc = s.plant.tc ∧
      w.armed = s.plant.armed.filter (fun x => x.entry.owner != r.port) ∧
      w.timeline = s.plant.timeline.filter (fun x => x.entry.owner != r.port) ∧
      w.pulsing = s.plant.pulsing.filter (fun x => x.entry.owner != r.port) ∧
      (∀ l, (s.plant.line l).heldBy r.port = true →
        w.line l = ⟨(s.table.lines.get l).fallback, (s.plant.line l).mode, .static, none⟩) ∧
      (∀ l, (s.plant.line l).heldBy r.port = false →
        (∀ k, (s.plant.line l).state = .pulsing k → k.owner = r.port →
          w.line l = (s.plant.line l).rest (s.table.lines.get l).fallback .static) ∧
        (∀ k, (s.plant.line l).state = .probing k → k.requester = r.port →
          w.line l = (s.plant.line l).rest k.saved .static) ∧
        ((∀ k, (s.plant.line l).state = .pulsing k → k.owner ≠ r.port) →
          (∀ k, (s.plant.line l).state = .probing k → k.requester ≠ r.port) →
            w.line l = s.plant.line l)) ∧
      (s.plant.timebase = .holding → (∀ l, ¬ w.pulsingOn l) →
        w.timebase = .held ∧ w.holdTimer = none ∧
        ∀ p, w.inbox p = (if p = r.port then ⟨[], false⟩ else s.plant.inbox p).post
          (timebaseNotice s.plant.tc .holding .held .pulsesDone)) ∧
      (s.plant.timebase ≠ .holding ∨ (∃ l, w.pulsingOn l) →
        w.timebase = s.plant.timebase ∧ w.holdTimer = s.plant.holdTimer ∧
        ∀ p, w.inbox p = if p = r.port then ⟨[], false⟩ else s.plant.inbox p)

/-- A notice posted to a queue (R168), NTFn (R169), SDOn (R159) and the line pins through their polarity
(R68, R70). That SDOn is released while CSn_n is low without a transaction begun, as after a rise of RSTn,
is the model's (DESIGN CHOICE, assumption log 26). -/
def Obligations.OutputsFollowState : Prop :=
  (∀ (n : Notice) (b : Inbox),
    (b.queue.length < 16 → b.post n = ⟨b.queue ++ [n], b.overflow⟩) ∧
    (16 ≤ b.queue.length → b.post n = ⟨b.queue, true⟩)) ∧
  (∀ (s : State) (p : Port), s.ntfLow p = true ↔ (s.plant.inbox p).queue ≠ []) ∧
  (∀ (s : State) (p : Port),
    (s.rstnLow = true ∨ (s.port p).txn = none → s.sdo p = none) ∧
    ∀ record, s.rstnLow = false → (s.port p).txn = some record → (s.port p).shift.part.length < 8 →
      s.sdo p = some ((record.flatMap byteBits).getD
        (8 * (s.port p).shift.count + (s.port p).shift.part.length) false)) ∧
  (∀ b : Bool, Polarity.activeHigh.through b = b ∧ Polarity.activeLow.through b = !b) ∧
  ∀ (s : State) (l : LineId),
    (s.rstnLow = true → s.pin l = .highZ) ∧
    (s.rstnLow = false →
      s.pin l = if (s.table.lines.get l).polarity.through
          (if s.device = .operating ∧ (s.plant.line l).mode = .drive then (s.plant.line l).level
            else (s.table.lines.get l).fallback) then .high else .low)

/-! ## Setup -/

/-- The items of R174: the code and index of each, its values, and its default. -/
def Obligations.ConfigItemsAsListed : Prop :=
  (∀ (code index : Byte) (x : Item), Item.ofCode code index = some x ↔
    match x with
    | .quota p => code = 0x01#8 ∧ index = natByte p.val
    | .lineKind l => code = 0x10#8 ∧ index = natByte l.val
    | .lineCeiling l => code = 0x11#8 ∧ index = natByte l.val
    | .linePolarity l => code = 0x12#8 ∧ index = natByte l.val
    | .lineFallback l => code = 0x13#8 ∧ index = natByte l.val
    | .linePreemptible l => code = 0x14#8 ∧ index = natByte l.val
    | .lineInitialMode l => code = 0x15#8 ∧ index = natByte l.val
    | .source => code = 0x20#8 ∧ index = 0#8
    | .prescale => code = 0x21#8 ∧ index = 0#8
    | .holdLevel => code = 0x22#8 ∧ index = 0#8
    | .holdTimeout => code = 0x23#8 ∧ index = 0#8
    | .arbitration => code = 0x24#8 ∧ index = 0#8
    | .chEdge c => code = 0x30#8 ∧ index = natByte c.val
    | .chHoldoff c => code = 0x31#8 ∧ index = natByte c.val
    | .tallyBind n => code = 0x40#8 ∧ index = natByte n.val
    | .tallyLevel n => code = 0x41#8 ∧ index = natByte n.val) ∧
  (∀ (x : Item) (t t' : Table) (v : Word), x.write t v = some t' →
    match x with
    | .quota p => (t'.quota.get p) = v.toNat
    | .lineKind l => (t'.lines.get l).kind = if v = 0#32 then .leased else .shared
    | .lineCeiling l => (t'.lines.get l).ceiling.val = v.toNat
    | .linePolarity l => (t'.lines.get l).polarity = if v = 0#32 then .activeHigh else .activeLow
    | .lineFallback l => (t'.lines.get l).fallback = (v == 1#32)
    | .linePreemptible l => (t'.lines.get l).preemptible = (v == 1#32)
    | .lineInitialMode l => (t'.lines.get l).initialMode = if v = 0#32 then .drive else .shadow
    | .source => (v = 0xFF#32 → t'.source = .internal) ∧
        ∀ c : Channel, v.toNat = c.val → t'.source = .pace c
    | .prescale => t'.prescale = v.toNat
    | .holdLevel => t'.holdLevel.val = v.toNat
    | .holdTimeout => t'.holdTimeout = v.toNat
    | .arbitration => t'.arbitration = if v = 0#32 then .oldest else .newest
    | .chEdge c => (t'.channels.get c).select =
        if v = 0#32 then .off else if v = 1#32 then .rise else if v = 2#32 then .fall else .both
    | .chHoldoff c => (t'.channels.get c).holdoff.toNat = v.toNat
    | .tallyBind n => (v = 0xFF#32 → (t'.tallies.get n).binding = none) ∧
        ∀ c : Channel, v.toNat = c.val → (t'.tallies.get n).binding = some c
    | .tallyLevel n => (t'.tallies.get n).level.val = v.toNat) ∧
  (∀ (x : Item) (t : Table) (v : Word), (x.write t v).isSome = true ↔
    match x with
    | .quota _ => v.toNat ≤ 64
    | .lineCeiling _ | .holdLevel | .chEdge _ | .tallyLevel _ => v.toNat ≤ 3
    | .source | .tallyBind _ => v.toNat ≤ 7 ∨ v = 0xFF#32
    | .prescale => 1 ≤ v.toNat ∧ v.toNat ≤ 1000
    | .holdTimeout => 1 ≤ v.toNat ∧ v.toNat ≤ 60000
    | .chHoldoff _ => v.toNat ≤ 65535
    | _ => v.toNat ≤ 1) ∧
  ∀ x : Item, x.read Table.default =
    match x with
    | .quota _ => 16#32
    | .lineCeiling _ | .tallyLevel _ => 3#32
    | .source | .tallyBind _ => 0xFF#32
    | .prescale => 10#32
    | .holdLevel => 1#32
    | .holdTimeout => 100#32
    | _ => 0#32

/-- CONFIG_WRITE: a write in range is made where the table stays consistent, and refused with BAD_CONFIG
where it would not. -/
def Obligations.ConfigWriteKeepsConsistency : Prop :=
  ∀ (r : Request) (s : State) (code index v3 v2 v1 v0 : Byte) (x : Item) (t' : Table), Taken 0x09#8 r s →
    s.device = .setup → s.effective r = 0 → r.body = [code, index, v3, v2, v1, v0] →
    Item.ofCode code index = some x → x.write s.table (word v3 v2 v1 v0) = some t' →
      x.read t' = word v3 v2 v1 v0 ∧ (∀ y, y ≠ x → y.read t' = y.read s.table) ∧
      (t'.quota.get 0 + t'.quota.get 1 + t'.quota.get 2 + t'.quota.get 3 ≤ 64 ∧
          (∀ c, t'.source = .pace c → (t'.channels.get c).select ≠ .off) →
        exec (.configWrite r) s = .next ((match x with
          | .lineFallback l | .linePolarity l =>
            { s with table := t' }.onPlant fun w => w.setLine l fun y =>
              { y with level := (t'.lines.get l).fallback }
          | _ => { s with table := t' }).answer r 0x09#8 .ok [code, index, v3, v2, v1, v0])) ∧
      (64 < t'.quota.get 0 + t'.quota.get 1 + t'.quota.get 2 + t'.quota.get 3 ∨
          (∃ c, t'.source = .pace c ∧ (t'.channels.get c).select = .off) →
        exec (.configWrite r) s = .next (s.answer r 0x09#8 .badConfig []))

/-- END_SETUP from a level-0 port and SETUP_WINDOW_EXPIRY at the end of the window enter OPERATING: the
lines, TB, the window, the two notices of every queue, and everything else unchanged. That an expiry before
the end of the window, or without one, is no event is the model's (DEDUCED, assumption log 6). -/
def Obligations.EntryIntoOperating : Prop :=
  (∀ (r : Request) (s : State), Taken 0x0A#8 r s → r.body = [] → s.device = .setup →
    s.effective r = 0 →
      exec (.endSetup r) s =
        .next ((s.enterOperating (.request r.port)).answer r 0x0A#8 .ok [])) ∧
  (∀ s : State,
    (s.rstnLow = false → s.device = .setup → s.window = some 0 →
      exec .setupWindowExpiry s = .next (s.enterOperating .window)) ∧
    (s.rstnLow = true ∨ s.device = .operating ∨ s.window ≠ some 0 →
      exec .setupWindowExpiry s = .next s)) ∧
  ∀ (s : State) (cause : CloseCause), s.plant.timebase = .off →
    (s.enterOperating cause).device = .operating ∧ (s.enterOperating cause).window = none ∧
      (s.enterOperating cause).divider = 0 ∧
      (s.enterOperating cause).plant.timebase = .held ∧
      (s.enterOperating cause).plant.tc = 0#32 ∧
      (∀ l, (s.enterOperating cause).plant.line l =
        ⟨(s.table.lines.get l).fallback, (s.table.lines.get l).initialMode, .static, none⟩) ∧
      (∀ p, s.plant.inbox p = ⟨[], false⟩ → (s.enterOperating cause).plant.inbox p =
        ⟨[⟨0xFF#8, 0#16, 0#32, .setupClosed cause⟩,
          timebaseNotice 0#32 .off .held .setupClosed], false⟩) ∧
      (s.enterOperating cause).plant.armed = s.plant.armed ∧
      (s.enterOperating cause).plant.timeline = s.plant.timeline ∧
      (s.enterOperating cause).plant.pulsing = s.plant.pulsing ∧
      (s.enterOperating cause).plant.holdTimer = s.plant.holdTimer ∧
      { s.enterOperating cause with
        device := s.device, window := s.window, divider := s.divider, plant := s.plant } = s

/-! ## Timebase -/

/-- TB_HOLD: the four rows of the table of R31. -/
def Obligations.HoldStopsTimeline : Prop :=
  ∀ (r : Request) (s : State), Taken 0x10#8 r s → r.body = [] → s.device = .operating →
    s.effective r ≤ s.table.holdLevel →
    (s.plant.timebase = .running → s.plant.inFlight = 0 →
      exec (.tbHold r) s = .next ((s.onPlant fun w => { w with timebase := .held }.postAll 0xFF#8
          0#16 (.timebase .running .held (.request r.port))).answer r 0x10#8 .ok
        ([1#8] ++ wordBytes s.plant.tc ++ [0#8]))) ∧
    (s.plant.timebase = .running → s.plant.inFlight ≠ 0 →
      exec (.tbHold r) s = .next ((s.onPlant fun w => { w with
          timebase := .holding
          holdTimer := some (s.table.holdTimeout * Config.xinPerMs) }.postAll 0xFF#8 0#16
            (.timebase .running .holding (.request r.port))).answer r 0x10#8 .accepted
        ([3#8] ++ wordBytes s.plant.tc ++ [natByte s.plant.inFlight]))) ∧
    (s.plant.timebase = .holding →
      exec (.tbHold r) s = .next (s.answer r 0x10#8 .ok
        ([3#8] ++ wordBytes s.plant.tc ++ [natByte s.plant.inFlight]))) ∧
    (s.plant.timebase = .held →
      exec (.tbHold r) s = .next (s.answer r 0x10#8 .ok
        ([1#8] ++ wordBytes s.plant.tc ++ [natByte s.plant.inFlight])))

/-- TB_START: from HELD and HOLDING the START batch is executed after the notice, from RUNNING nothing
changes. A boundary that stands in the divider is discarded in HELD (R24); that it stays for its TICK in
HOLDING is the model's (DESIGN CHOICE, assumption log 8), and so is the note of an ENTRY_MOVE that the
entries of the batch lose (DESIGN CHOICE, assumption log 25). -/
def Obligations.StartRunsBatch : Prop :=
  ∀ (r : Request) (s : State) (batch : List Timed) (w : Plant) (d : Nat), Taken 0x11#8 r s →
    r.body = [] → s.device = .operating → s.effective r ≤ s.table.holdLevel →
    (s.plant.timebase = .running →
      exec (.tbStart r) s = .next (s.answer r 0x11#8 .ok
        ([2#8] ++ wordBytes s.plant.tc ++ [0#8]))) ∧
    (s.plant.timebase = .held ∨ s.plant.timebase = .holding →
      batch = s.plant.timeline.filter (fun x => x.due == s.plant.tc) →
      (s.plant.timebase = .held → s.dividing = true → d = s.divider % (s.table.prescale * 16)) →
      (s.plant.timebase = .holding ∨ s.dividing = false → d = s.divider) →
      w = ({ s.plant with
          timebase := .running
          holdTimer := none
          timeline := s.plant.timeline.filter fun x => x.due != s.plant.tc }.postAll 0xFF#8 0#16
            (.timebase s.plant.timebase .running (.request r.port))).runBatch
              s.table.arbitration batch →
      exec (.tbStart r) s = .next (({ s with
          divider := d
          plant := w
          moved := s.moved.filter fun q => !batch.any fun x => x.entry.name == q }).answer r 0x11#8 .ok
        ([2#8] ++ wordBytes s.plant.tc ++ [natByte batch.length])))

/-- TICK: what moves in each timebase state and what does not; in RUNNING the batch of the entries at
lead 0 follows the advance. That a TICK runs RC on to its boundary, with the RC events on the way, and that
a boundary met in RUNNING or HOLDING stays in the divider until its TICK, is the model's (DESIGN CHOICE,
assumption log 8); one met in HELD leaves nothing behind (R24). The note of an ENTRY_MOVE that the entries of
the batch lose is the model's too (DESIGN CHOICE, assumption log 25), and so is that a TICK without a
boundary to come, with a PACE source or outside OPERATING, changes nothing (DEDUCED, assumption log 6). -/
def Obligations.TickByTimebaseState : Prop :=
  (∀ (s : State) (n : Nat), s.dividing = true →
    (s.plant.timebase = .running ∨ s.plant.timebase = .holding →
      (s.runRc n).divider = s.divider + n) ∧
    (s.plant.timebase = .held ∨ s.plant.timebase = .off →
      (s.runRc n).divider = (s.divider + n) % (s.table.prescale * 16))) ∧
  (∀ s : State, s.device = .setup ∨ (∃ c, s.table.source = .pace c) → exec .tick s = .next s) ∧
  ∀ s s' : State, s.dividing = true → s' = s.passed (s.table.period - s.divider) → ∃ t,
    exec .tick s = .next t ∧
    { t with divider := s'.divider, plant := s'.plant, moved := s'.moved } = s' ∧
    (s'.divider < s.table.period → t = s') ∧
    (s.plant.timebase = .running → s.divider ≤ s.table.period →
      s'.plant.timebase = .running ∧ s'.divider = s.table.period ∧ s'.plant.tc = s.plant.tc) ∧
    (s.table.period ≤ s'.divider →
      t.divider = s'.divider - s.table.period ∧ s'.plant.Keeps t.plant ∧
      (s'.plant.timebase = .running →
        t.plant.tc = s'.plant.tc + 1#32 ∧ t.plant.timebase = .running ∧
          t.plant.holdTimer = s'.plant.holdTimer ∧
          ∀ w, w = s'.plant.countTick.advance →
            t.plant = { w with
              timeline := w.timeline.filter fun x => x.due != s'.plant.tc + 1#32 }.runBatch
                s.table.arbitration (w.timeline.filter fun x => x.due == s'.plant.tc + 1#32) ∧
            t.moved = s'.moved.filter fun q =>
              !w.timeline.any fun x => x.due == s'.plant.tc + 1#32 && x.entry.name == q) ∧
      (s'.plant.timebase ≠ .running → t.moved = s'.moved) ∧
      (s'.plant.timebase = .holding → t.plant.tc = s'.plant.tc) ∧
      (s'.plant.timebase = .held ∨ s'.plant.timebase = .off → t.plant = s'.plant))

/-- TICK, line by line: the advance, on every line in HOLDING and on every line without a due entry in
RUNNING, with what it does to the entry of a pulse that ends and to a load (R77, R92); and the output rule
and the counts of a generator (R89, R90, R91). The state at the boundary is the model's (DESIGN CHOICE,
assumption log 8), and so is the place of the move to HELD, at the turn of the line whose pulse end was the
last and before the lines behind it (DEDUCED, assumption log 15). -/
def Obligations.TickAdvancesLines : Prop :=
  (∀ s s' : State, s.dividing = true → s' = s.passed (s.table.period - s.divider) →
    s.table.period ≤ s'.divider → ∃ t, exec .tick s = .next t ∧
    (s'.plant.timebase = .holding →
      t.plant = s'.plant.advance ∧ ∀ l, t.plant.line l = (s'.plant.line l).advanced) ∧
    (s'.plant.timebase = .running →
      ∀ l, (∀ x ∈ (s'.plant.countTick.advance).dueNow, x.entry.line? ≠ some l) →
        t.plant.line l = (s'.plant.line l).advanced)) ∧
  (∀ w : Plant, w.advance = (List.finRange 16).foldl Plant.advanceLine w ∧
    (∀ l, w.advance.line l = (w.line l).advanced) ∧
    ∀ l, ((w.line l).state = .static → w.advanceLine l = w) ∧
      (∀ k, (w.line l).state = .probing k → w.advanceLine l = w) ∧
      (∀ k, (w.line l).state = .pulsing k → 2 ≤ k.remaining → w.advanceLine l =
        w.setLine l fun x => { x with state := .pulsing { k with remaining := k.remaining - 1 } }) ∧
      (∀ k x, (w.line l).state = .pulsing k → k.remaining = 1 →
        w.findPulsing k.owner k.tag = some x → w.advanceLine l =
          (({ w with
            pulsing := w.pulsing.filter
              fun y => !(y.entry.owner == k.owner && y.entry.tag == k.tag) }.setLine l
                (Line.rest false .static)).finish (.done .none) x).settleHold) ∧
      ∀ g, (w.line l).state = .waving g →
        (g.wave.period = 0#16 → w.advanceLine l = w) ∧
        (g.wave.period ≠ 0#16 →
          (∀ g', g.next = some g' →
            w.advanceLine l = w.setLine l (Line.rest g'.output (.waving g'))) ∧
          (∀ g', g.next = none → g.load = none → g' = { g with counter := 0, direction := .up } →
            w.advanceLine l = w.setLine l (Line.rest g'.output (.waving g'))) ∧
          (∀ g' ld, g.next = none → g.load = some ld → g' = ⟨ld.wave, 0, .up, none⟩ →
            w.advanceLine l = (w.setLine l (Line.rest g'.output (.waving g'))).postIf ld.notify
              ld.owner (lineByte l) ld.tag (.waveApplied .periodEnd ld.wave.period)))) ∧
  ∀ g : Generator,
    (g.output = if g.counter < g.wave.duty.toNat then g.wave.start == .activeFirst
      else g.wave.start == .inactiveFirst) ∧
    (g.legal → g.wave.period ≠ 0#16 →
      (g.wave.align = .left → g.counter + 1 < g.wave.period.toNat →
        g.next = some { g with counter := g.counter + 1 }) ∧
      (g.wave.align = .left → g.counter + 1 = g.wave.period.toNat → g.next = none) ∧
      (g.wave.align = .centre → g.direction = .up → g.counter + 1 < g.wave.period.toNat →
        g.next = some { g with counter := g.counter + 1 }) ∧
      (g.wave.align = .centre → g.direction = .up → g.counter + 1 = g.wave.period.toNat →
        g.next = some { g with counter := g.counter + 1, direction := .down }) ∧
      (g.wave.align = .centre → g.direction = .down → 1 < g.counter →
        g.next = some { g with counter := g.counter - 1 }) ∧
      (g.wave.align = .centre → g.direction = .down → g.counter = 1 → g.next = none))

/-- HOLD_TIMER_EXPIRY in HOLDING at the end of the timer: every pulse is cut in ascending line order, each
cut with its PULSE_CUT and the completion of its entry, and the timebase goes to HELD after the cuts. That
an expiry before that, or outside HOLDING, is no event is the model's (DEDUCED, assumption log 6). -/
def Obligations.HoldExpiryCutsPulses : Prop :=
  (∀ s : State, s.plant.timebase = .holding → s.plant.holdTimer = some 0 →
    ∃ t, exec .holdTimerExpiry s = .next t ∧ { t with plant := s.plant } = s ∧
      t.plant = { (List.finRange 16).foldl Plant.cutForTimeout s.plant with
        timebase := .held, holdTimer := none }.postAll 0xFF#8 0#16
          (.timebase .holding .held .timeout) ∧
      t.plant.timebase = .held ∧ t.plant.holdTimer = none ∧ t.plant.tc = s.plant.tc ∧
      (∀ l, t.plant.line l =
        if (s.plant.line l).isPulsing then (s.plant.line l).rest false .static
        else s.plant.line l) ∧
      ∀ p, ∃ ns, t.plant.inbox p =
        ((s.plant.inbox p).postList ns).post (timebaseNotice s.plant.tc .holding .held .timeout)) ∧
  (∀ s : State, s.plant.timebase ≠ .holding ∨ s.plant.holdTimer ≠ some 0 →
    exec .holdTimerExpiry s = .next s) ∧
  ∀ (w : Plant) (l : LineId),
    ((∀ k, (w.line l).state ≠ .pulsing k) → w.cutForTimeout l = w) ∧
    ∀ k x, (w.line l).state = .pulsing k → w.findPulsing k.owner k.tag = some x →
      w.cutForTimeout l =
        (({ w with
          pulsing := w.pulsing.filter
            fun y => !(y.entry.owner == k.owner && y.entry.tag == k.tag) }.setLine l
              (Line.rest false .static)).postIf x.entry.notify k.owner (lineByte l) k.tag
                (.pulseCut .timeout k.remaining)).finish (.done .none) x

/-! ## Batches -/

/-- The winner of a line: lowest level, then ARBITRATION. -/
def Obligations.WinnerIsLowestLevel : Prop :=
  ∀ (arb : Arbitration) (l : LineId) (batch : List Timed),
    ((∀ x ∈ batch, x.entry.line? ≠ some l) → winner arb l batch = none) ∧
    ((∃ x ∈ batch, x.entry.line? = some l) →
      ∃ v before after, winner arb l batch = some v ∧ batch = before ++ v :: after ∧
        v.entry.line? = some l ∧
        (∀ x ∈ batch, x.entry.line? = some l → v.entry.level ≤ x.entry.level) ∧
        (arb = .oldest →
          ∀ x ∈ before, x.entry.line? = some l → v.entry.level < x.entry.level) ∧
        (arb = .newest →
          ∀ x ∈ after, x.entry.line? = some l → v.entry.level < x.entry.level))

/-- A batch reaches a line through its winner alone, whose action finds the line as the batch found it. It
changes no count, timebase state, hold timer, mode or lease, and to queues it only posts. -/
def Obligations.BatchAppliesWinners : Prop :=
  ∀ (arb : Arbitration) (batch : List Timed) (w : Plant),
    w.Keeps (w.runBatch arb batch) ∧ (w.runBatch arb batch).tc = w.tc ∧
      (w.runBatch arb batch).timebase = w.timebase ∧
      (w.runBatch arb batch).holdTimer = w.holdTimer ∧
      ((batch.map fun x => x.entry.name).Nodup → ∀ l,
        ((∀ x ∈ batch, x.entry.line? ≠ some l) → (w.runBatch arb batch).line l = w.line l) ∧
        ∀ v a, winner arb l batch = some v → v.entry.action = .onLine l a →
          (w.runBatch arb batch).line l = (w.line l).applied v.entry a)

/-- The work of a batch on its entries and notices (R53, R54, R55), one entry after another: a MARK and a
winner that is no PULSE complete, a PULSE winner joins the PULSING entries, a superseded entry completes as
superseded; and the clearing of the winner's line (R74, R80), where an overtaken pulse posts PULSE_CUT and
completes. -/
def Obligations.BatchActsOnEntries : Prop :=
  ∀ (arb : Arbitration) (batch : List Timed) (w : Plant),
    w.runBatch arb batch = batch.foldl (Plant.runOne arb batch) w ∧
    (∀ x, x.entry.action = .mark → w.runOne arb batch x = w.finish (.done .none) x) ∧
    (∀ x l a v, x.entry.action = .onLine l a → winner arb l batch = some v →
      (v.entry.name ≠ x.entry.name → w.runOne arb batch x = w.finish (.superseded v.entry) x) ∧
      (v.entry.name = x.entry.name → ∀ c, c = w.clearLine l x.entry.owner →
        match a with
        | .set => w.runOne arb batch x =
            (c.setLine l fun y => { y with level := true, state := .static }).finish (.done .none) x
        | .clear => w.runOne arb batch x =
            (c.setLine l fun y => { y with level := false, state := .static }).finish (.done .none) x
        | .toggle => w.runOne arb batch x =
            (c.setLine l fun y => { y with level := !y.level, state := .static }).finish
              (.done .none) x
        | .waveStop => w.runOne arb batch x =
            (c.setLine l fun y => { y with level := false, state := .static }).finish (.done .none) x
        | .pulse width => w.runOne arb batch x =
            { c.setLine l fun y => { y with
                level := true
                state := .pulsing ⟨x.entry.owner, x.entry.tag, width.toNat⟩ } with
              pulsing := c.pulsing ++ [x] }
        | .wave u =>
          ((∀ g, (w.line l).state ≠ .waving g) → w.runOne arb batch x =
            (c.setLine l (Line.rest (Generator.output ⟨u, 0, .up, none⟩)
              (.waving ⟨u, 0, .up, none⟩))).finish (.done .started) x) ∧
          ∀ g, (w.line l).state = .waving g →
            (g.wave.period ≠ 0#16 → w.runOne arb batch x =
              (w.setLine l fun y => { y with
                state := .waving { g with
                  load := some ⟨u, x.entry.owner, x.entry.tag, x.entry.notify⟩ } }).finish
                    (.done .staged) x) ∧
            (g.wave.period = 0#16 → w.runOne arb batch x =
              ((w.setLine l (Line.rest (Generator.output ⟨u, 0, .up, none⟩)
                (.waving ⟨u, 0, .up, none⟩))).postIf x.entry.notify x.entry.owner (lineByte l)
                  x.entry.tag (.waveApplied .zeroPeriod u.period)).finish (.done .staged) x))) ∧
    ∀ l p,
      ((w.line l).state = .static → w.clearLine l p = w) ∧
      (∀ g, (w.line l).state = .waving g →
        w.clearLine l p = w.setLine l fun y => { y with state := .static }) ∧
      ∀ k x, (w.line l).state = .pulsing k → w.findPulsing k.owner k.tag = some x →
        w.clearLine l p =
          (({ w with
            pulsing := w.pulsing.filter
              fun y => !(y.entry.owner == k.owner && y.entry.tag == k.tag) }.setLine l
                (Line.rest false .static)).postIf x.entry.notify k.owner (lineByte l) k.tag
                  (.pulseCut (.overtaken p) k.remaining)).finish (.done .none) x

/-- A completion (R56) of an entry that executed and of one that was superseded (R53): the notice, one
execution fewer, the late mark clear, then the repeat (R57, R58) or the removal. -/
def Obligations.CompletionRepeatsOrRemoves : Prop :=
  ∀ (how : Finish) (x : Timed) (w : Plant) (e : Entry),
    e = { x.entry with
      lateMark := false
      left := match x.entry.left with
        | .unlimited => .unlimited
        | .count n => .count (n - 1) } →
    (∀ p, (w.finish how x).inbox p =
      if x.entry.notify = true ∧ p = x.entry.owner then
        (w.inbox p).post ⟨x.entry.subject, x.entry.tag, w.tc,
          match how with
          | .done o => .done x.entry.action.kind x.entry.lateMark o e.left
          | .superseded v => .superseded v.owner v.level x.entry.lateMark e.left⟩
      else w.inbox p) ∧
    (w.finish how x).lines = w.lines ∧ (w.finish how x).pulsing = w.pulsing ∧
    (w.finish how x).tc = w.tc ∧ (w.finish how x).timebase = w.timebase ∧
    (w.finish how x).holdTimer = w.holdTimer ∧
    (∀ n, x.entry.left = .count n → n ≤ 1 →
      (w.finish how x).timeline = w.timeline ∧ (w.finish how x).armed = w.armed) ∧
    ((x.entry.left = .unlimited ∨ ∃ n, x.entry.left = .count (n + 2)) →
      ∀ step, x.entry.step = some step →
        match x.entry.trigger with
        | .atDue =>
          (w.finish how x).timeline = insertTimed w.tc ⟨e, x.due + step⟩ w.timeline ∧
            (w.finish how x).armed = w.armed
        | .edge _ _ _ =>
          (w.finish how x).timeline = w.timeline ∧
            (w.finish how x).armed = w.armed ++ [⟨e, some step.toNat⟩]
        | .count n h off =>
          (w.finish how x).timeline = w.timeline ∧
            (w.finish how x).armed =
              w.armed ++ [⟨{ e with trigger := .count n (h + step) off }, none⟩])

/-! ## Entries -/

/-- The SCHEDULE body layout read back: what `entryBody` lays out, `parseSchedule` reads. -/
def Obligations.ScheduleBodyRoundTrip : Prop :=
  ∀ (s : State) (r : Request) (e : Entry) (due : Word),
    e.owner = r.port → e.level = s.effective r → e.tag ≠ 0#16 → e.lateMark = false →
    e.left = (if e.repeatCount = 0#8 then .unlimited else .count e.repeatCount.toNat) →
    (e.repeatCount = 1#8 → e.step = none) → e.legal → channelUsable s.table e.trigger = true →
    (∀ c n o, e.trigger = .edge c n o → n ≠ 0#8) →
    (e.trigger ≠ .atDue → due = 0#32) → r.body = entryBody e due →
      parseSchedule s r = some (e, due)

/-- The checks of R45 and R46 in their order. -/
def Obligations.ScheduleChecksInOrder : Prop :=
  ∀ (r : Request) (s : State) (e : Entry) (due : Word), Taken 0x20#8 r s → s.device = .operating →
    parseSchedule s r = some (e, due) →
    (∀ l st, e.line? = some l → s.actRefusal r.port (s.effective r) l = some st →
      exec (.schedule r) s = .next (s.answer r 0x20#8 st [])) ∧
    ((∀ l, e.line? = some l → s.actRefusal r.port (s.effective r) l = none) →
      (s.plant.hasTag r.port e.tag = true →
        exec (.schedule r) s = .next (s.answer r 0x20#8 .dupTag [])) ∧
      (s.plant.hasTag r.port e.tag = false →
        (s.table.quota.get r.port ≤ s.plant.liveCount r.port →
          exec (.schedule r) s = .next (s.answer r 0x20#8 .quotaFull [])) ∧
        (s.plant.liveCount r.port < s.table.quota.get r.port →
          (64 ≤ s.plant.used →
            exec (.schedule r) s = .next (s.answer r 0x20#8 .poolFull [])) ∧
          (s.plant.used < 64 → e.trigger = .atDue → 2 ^ 31 ≤ (due - s.plant.tc).toNat →
            e.latePolicy = .drop →
              exec (.schedule r) s = .next (s.answer r 0x20#8 .late [])))))

/-- A placement (R47, R50): at lead 0 while RUNNING a batch of one, else an insertion behind every entry
whose lead is not greater (R42). -/
def Obligations.PlacementByLead : Prop :=
  ∀ (arb : Arbitration) (x : Timed) (w : Plant),
    (w.timebase = .running → x.due = w.tc → w.place arb x = w.runBatch arb [x]) ∧
    (w.timebase ≠ .running ∨ x.due ≠ w.tc →
      w.timeline.Pairwise (fun y z => (lead w.tc y.due).toNat ≤ (lead w.tc z.due).toNat) →
      ∃ before after, w.timeline = before ++ after ∧
        w.place arb x = { w with timeline := before ++ x :: after } ∧
        (∀ y ∈ before, (lead w.tc y.due).toNat ≤ (lead w.tc x.due).toNat) ∧
        ∀ y ∈ after, (lead w.tc x.due).toNat < (lead w.tc y.due).toNat)

/-- SCHEDULE accepted: the placement by trigger (R46, R47) and the response (R48). That the new entry is
none that an ENTRY_MOVE has placed anew at this moment of RC is the model's (DESIGN CHOICE, assumption log
25). -/
def Obligations.SchedulePlacesByTrigger : Prop :=
  ∀ (r : Request) (s : State) (e : Entry) (due : Word), Taken 0x20#8 r s → s.device = .operating →
    parseSchedule s r = some (e, due) →
    (∀ l, e.line? = some l → s.actRefusal r.port (s.effective r) l = none) →
    s.plant.hasTag r.port e.tag = false → s.plant.liveCount r.port < s.table.quota.get r.port →
    s.plant.used < 64 →
    (e.trigger = .atDue → e.latePolicy = .drop → (due - s.plant.tc).toNat < 2 ^ 31) →
    ∃ (w : Plant) (late : Bool),
      exec (.schedule r) s = .next (({ s with
          plant := w, moved := s.moved.filter (· != (r.port, e.tag)) }).answer r 0x20#8 .ok
        [entryStateCode (w.stateOf r.port e.tag), natByte (64 - w.used), flagByte late]) ∧
      (e.trigger = .atDue →
        ((due - s.plant.tc).toNat < 2 ^ 31 →
          late = false ∧ w = s.plant.place s.table.arbitration ⟨e, due⟩) ∧
        (2 ^ 31 ≤ (due - s.plant.tc).toNat →
          late = true ∧
            w = s.plant.place s.table.arbitration ⟨{ e with lateMark := true }, s.plant.tc⟩)) ∧
      (∀ c n o, e.trigger = .edge c n o →
        late = false ∧ w = { s.plant with armed := s.plant.armed ++ [⟨e, some n.toNat⟩] }) ∧
      ∀ n h o, e.trigger = .count n h o → late = false ∧
        (2 ^ 31 ≤ (s.tallies.get n - h).toNat →
          w = { s.plant with armed := s.plant.armed ++ [⟨e, none⟩] }) ∧
        ((s.tallies.get n - h).toNat < 2 ^ 31 →
          w = s.plant.place s.table.arbitration ⟨e, s.plant.tc + o⟩)

/-- CANCEL of one tag and of tag 0: which entries leave, what becomes of their pulses, and the move to
HELD. A CANCEL of one tag that comes together with an ENTRY_MOVE taken before it answers NO_TAG (R64); that
it does where RC has not run on between them and no batch has executed the entry since, is the model's
(DESIGN CHOICE, assumption log 25). An entry found PULSING or ARMED is removed whatever came before (R62,
R81). -/
def Obligations.CancelRemovesEntries : Prop :=
  ∀ (r : Request) (s : State) (tag : Half), Taken 0x21#8 r s → s.device = .operating →
    r.body = halfBytes tag →
    let gone : Entry → Bool := fun e => e.owner == r.port && (tag == 0#16 || e.tag == tag)
    (tag ≠ 0#16 → s.plant.hasTag r.port tag = false ∨
        ((r.port, tag) ∈ s.moved ∧ s.plant.findPending r.port tag ≠ none) →
      exec (.cancel r) s = .next (s.answer r 0x21#8 .noTag [])) ∧
    (tag = 0#16 ∨ (s.plant.hasTag r.port tag = true ∧
        ((r.port, tag) ∉ s.moved ∨ s.plant.findPending r.port tag = none)) →
      ∃ (w : Plant) (found : Byte),
        exec (.cancel r) s = .next (({ s with plant := w }).answer r 0x21#8 .ok [found]) ∧
        (tag = 0#16 → found = natByte (s.plant.live.filter gone).length) ∧
        (tag ≠ 0#16 → found = entryStateCode (s.plant.stateOf r.port tag)) ∧
        w.tc = s.plant.tc ∧
        w.armed = s.plant.armed.filter (fun x => !gone x.entry) ∧
        w.timeline = s.plant.timeline.filter (fun x => !gone x.entry) ∧
        w.pulsing = s.plant.pulsing.filter (fun x => !gone x.entry) ∧
        (∀ l k, (s.plant.line l).state = .pulsing k → k.owner = r.port →
          tag = 0#16 ∨ k.tag = tag → w.line l = (s.plant.line l).rest false .static) ∧
        (∀ l, (∀ k, (s.plant.line l).state = .pulsing k →
            ¬ (k.owner = r.port ∧ (tag = 0#16 ∨ k.tag = tag))) →
          w.line l = s.plant.line l) ∧
        (s.plant.timebase = .holding → (∀ l, ¬ w.pulsingOn l) →
          w.timebase = .held ∧ w.holdTimer = none ∧
          ∀ p, w.inbox p = (s.plant.inbox p).post
            (timebaseNotice s.plant.tc .holding .held .pulsesDone)) ∧
        (s.plant.timebase ≠ .holding ∨ (∃ l, w.pulsingOn l) →
          w.timebase = s.plant.timebase ∧ w.holdTimer = s.plant.holdTimer ∧
            w.inboxes = s.plant.inboxes))

/-- ENTRY_MOVE: the three outcomes for a PENDING entry, and its refusals. An entry that waits where the move
has put it is noted for a CANCEL that comes together with the move, one that the move has executed at once is
not (R62, R64; DESIGN CHOICE, assumption log 25). -/
def Obligations.MoveReplacesPending : Prop :=
  ∀ (r : Request) (s : State) (tag : Half) (due : Word), Taken 0x22#8 r s → s.device = .operating →
    tag ≠ 0#16 → r.body = halfBytes tag ++ wordBytes due →
    (s.plant.hasTag r.port tag = false →
      exec (.entryMove r) s = .next (s.answer r 0x22#8 .noTag [])) ∧
    (s.plant.hasTag r.port tag = true → s.plant.findPending r.port tag = none →
      exec (.entryMove r) s = .next (s.answer r 0x22#8 .busy [])) ∧
    ∀ x w w', s.plant.findPending r.port tag = some x →
      w = { s.plant with
        timeline := s.plant.timeline.filter
          fun y => !(y.entry.owner == r.port && y.entry.tag == tag) } →
      ((due - s.plant.tc).toNat < 2 ^ 31 →
        w' = w.place s.table.arbitration ⟨{ x.entry with lateMark := false }, due⟩ →
        exec (.entryMove r) s = .next (({ s with
            plant := w'
            moved := if s.plant.timebase = Timebase.running ∧ due = s.plant.tc then
                s.moved.filter (· != (r.port, tag))
              else s.moved.insert (r.port, tag) }).answer r 0x22#8 .ok
          [entryStateCode (w'.stateOf r.port tag), 0#8])) ∧
      (2 ^ 31 ≤ (due - s.plant.tc).toNat → x.entry.latePolicy = .run →
        w' = w.place s.table.arbitration ⟨{ x.entry with lateMark := true }, s.plant.tc⟩ →
        exec (.entryMove r) s = .next (({ s with
            plant := w'
            moved := if s.plant.timebase = Timebase.running then s.moved.filter (· != (r.port, tag))
              else s.moved.insert (r.port, tag) }).answer r 0x22#8 .ok
          [entryStateCode (w'.stateOf r.port tag), 1#8])) ∧
      (2 ^ 31 ≤ (due - s.plant.tc).toNat → x.entry.latePolicy = .drop →
        w' = w.post r.port x.entry.subject tag (.late due) →
        exec (.entryMove r) s = .next (({ s with plant := w' }).answer r 0x22#8 .late []))

/-- ENTRY_READ of an ARMED, a PENDING and a PULSING entry. -/
def Obligations.EntryReadShowsFields : Prop :=
  ∀ (r : Request) (s : State) (tag : Half), Taken 0x23#8 r s → s.device = .operating → tag ≠ 0#16 →
    r.body = halfBytes tag →
    (s.plant.hasTag r.port tag = false →
      exec (.entryRead r) s = .next (s.answer r 0x23#8 .noTag [])) ∧
    (∀ x, s.plant.findArmed r.port tag = some x →
      exec (.entryRead r) s = .next (s.answer r 0x23#8 .ok
        (entryBody x.entry 0#32 ++ [levelByte x.entry.level, 0#8, flagByte x.entry.lateMark] ++
          halfBytes (leftHalf x.entry.left) ++
          [if x.edgesLeft.isSome then 1#8 else 0#8, natByte (x.edgesLeft.getD 0)] ++
          wordBytes 0#32 ++ wordBytes 0#32))) ∧
    (∀ x, s.plant.findArmed r.port tag = none → s.plant.findPending r.port tag = some x →
      exec (.entryRead r) s = .next (s.answer r 0x23#8 .ok
        (entryBody x.entry x.due ++ [levelByte x.entry.level, 1#8, flagByte x.entry.lateMark] ++
          halfBytes (leftHalf x.entry.left) ++ [2#8, 0#8] ++
          wordBytes x.due ++ wordBytes (x.due - s.plant.tc)))) ∧
    (∀ x, s.plant.findArmed r.port tag = none → s.plant.findPending r.port tag = none →
      s.plant.findPulsing r.port tag = some x →
      exec (.entryRead r) s = .next (s.answer r 0x23#8 .ok
        (entryBody x.entry x.due ++ [levelByte x.entry.level, 2#8, flagByte x.entry.lateMark] ++
          halfBytes (leftHalf x.entry.left) ++ [2#8, 0#8] ++
          wordBytes x.due ++ wordBytes (x.due - s.plant.tc))))

/-! ## Lines -/

/-- LINE_MODE. -/
def Obligations.LineModeMovesPin : Prop :=
  ∀ (r : Request) (s : State) (l : LineId) (m : Mode), Taken 0x30#8 r s → s.device = .operating →
    r.body = [lineByte l, modeCode m] → s.actRefusal r.port (s.effective r) l = none →
    ((∃ k, (s.plant.line l).state = .probing k) →
      exec (.lineMode r) s = .next (s.answer r 0x30#8 .busy [])) ∧
    ((∀ k, (s.plant.line l).state ≠ .probing k) → ∀ shown : Bool,
      (m = .drive → shown = (s.plant.line l).level) →
      (m = .shadow → shown = (s.table.lines.get l).fallback) →
      exec (.lineMode r) s = .next
        ((s.onPlant fun w => w.setLine l fun x => { x with mode := m }).answer r 0x30#8 .ok
          [modeCode m, flagByte (s.plant.line l).level,
            flagByte ((s.table.lines.get l).polarity.through shown)]))

/-- LINE_READ, field by field. -/
def Obligations.LineReadShowsLine : Prop :=
  ∀ (r : Request) (s : State) (l : LineId) (sense : Bool), Taken 0x31#8 r s → r.body = [lineByte l] →
    exec (.lineRead r sense) s = .next (s.answer r 0x31#8 .ok
      ([kindCode (s.table.lines.get l).kind, modeCode (s.plant.line l).mode] ++
        (match (s.plant.line l).lease with
          | some k => [portByte k.holder, levelByte k.level] ++
              halfBytes (BitVec.ofNat 16 (max 1 ((k.remaining + 15999) / 16000)))
          | none => [0xFF#8, 0#8, 0#8, 0#8]) ++
        [flagByte (s.plant.line l).level, flagByte (s.pinHigh l), flagByte sense] ++
        (match (s.plant.line l).state with
          | .static => 0#8 :: List.replicate 12 0#8
          | .pulsing k => [1#8] ++ halfBytes (BitVec.ofNat 16 k.remaining) ++ [portByte k.owner] ++
              List.replicate 9 0#8
          | .waving g => [2#8, 0#8, 0#8, 0#8] ++ halfBytes (BitVec.ofNat 16 g.counter) ++
              [directionCode g.direction] ++ halfBytes g.wave.period ++ halfBytes g.wave.duty ++
              [g.wave.shapeByte, flagByte g.load.isSome]
          | .probing _ => 3#8 :: List.replicate 12 0#8)))

/-- WAVE_RESTART: with and without a pending load, and on a line that is not WAVING. -/
def Obligations.RestartAppliesLoad : Prop :=
  ∀ (r : Request) (s : State) (l : LineId), Taken 0x32#8 r s → s.device = .operating →
    r.body = [lineByte l] → s.actRefusal r.port (s.effective r) l = none →
    ((∀ g, (s.plant.line l).state ≠ .waving g) →
      exec (.waveRestart r) s = .next (s.answer r 0x32#8 .lineState [])) ∧
    ∀ g g' w, (s.plant.line l).state = .waving g →
      w = s.plant.setLine l (Line.rest g'.output (.waving g')) →
      (g.load = none → g' = { g with counter := 0, direction := .up } →
        exec (.waveRestart r) s = .next (({ s with plant := w }).answer r 0x32#8 .ok
          ([0#8, 0#8, 0#8] ++ halfBytes g.wave.period ++ halfBytes g.wave.duty ++
            [g.wave.shapeByte, flagByte g'.output, 0#8]))) ∧
      (∀ ld, g.load = some ld → g' = ⟨ld.wave, 0, .up, none⟩ →
        exec (.waveRestart r) s = .next ((s.onPlant fun _ => w.postIf ld.notify ld.owner
            (lineByte l) ld.tag (.waveApplied .restart ld.wave.period)).answer r 0x32#8 .ok
          ([0#8, 0#8, 0#8] ++ halfBytes ld.wave.period ++ halfBytes ld.wave.duty ++
            [ld.wave.shapeByte, flagByte g'.output, 1#8])))

/-- PULSE_END and PERIOD_END at the ticks that bring them, and the move to HELD with the last pulse
(R32). That they change nothing where no tick brings them, with more of the pulse or the period left, on a
line that is not PULSING or not WAVING, and in HELD and OFF, is the model's (DESIGN CHOICE, assumption log
12). -/
def Obligations.PulseAndPeriodEnds : Prop :=
  (∀ (s : State) (l : LineId), s.plant.timebase = .running ∨ s.plant.timebase = .holding →
    (∀ k x w, (s.plant.line l).state = .pulsing k → k.remaining = 1 →
      s.plant.findPulsing k.owner k.tag = some x →
      w = ({ s.plant with
        pulsing := s.plant.pulsing.filter
          fun y => !(y.entry.owner == k.owner && y.entry.tag == k.tag) }.setLine l
            (Line.rest false .static)).finish (.done .none) x →
      exec (.pulseEnd l) s = .next { s with plant := w.settleHold }) ∧
    (∀ g g' w, (s.plant.line l).state = .waving g → g.wave.period ≠ 0#16 → g.next = none →
      w = s.plant.setLine l (Line.rest g'.output (.waving g')) →
      (g.load = none → g' = { g with counter := 0, direction := .up } →
        exec (.periodEnd l) s = .next { s with plant := w }) ∧
      (∀ ld, g.load = some ld → g' = ⟨ld.wave, 0, .up, none⟩ →
        exec (.periodEnd l) s = .next (s.onPlant fun _ => w.postIf ld.notify ld.owner (lineByte l)
          ld.tag (.waveApplied .periodEnd ld.wave.period))))) ∧
  (∀ (s : State) (l : LineId),
    (s.plant.timebase = .held ∨ s.plant.timebase = .off ∨
        (∀ k, (s.plant.line l).state = .pulsing k → 2 ≤ k.remaining) →
      exec (.pulseEnd l) s = .next s) ∧
    (s.plant.timebase = .held ∨ s.plant.timebase = .off ∨
        (∀ g, (s.plant.line l).state = .waving g → g.wave.period = 0#16 ∨ g.next ≠ none) →
      exec (.periodEnd l) s = .next s)) ∧
  ∀ w : Plant,
    (w.timebase = .holding → (∀ l, ¬ w.pulsingOn l) →
      w.settleHold = { w with
        timebase := .held
        holdTimer := none
        inboxes := updAll w.inboxes fun _ =>
          Inbox.post (timebaseNotice w.tc .holding .held .pulsesDone) }) ∧
    (w.timebase ≠ .holding ∨ (∃ l, w.pulsingOn l) → w.settleHold = w)

/-! ## Probes -/

/-- LINE_PROBE. -/
def Obligations.ProbeStartsPhaseA : Prop :=
  ∀ (r : Request) (s : State) (l : LineId), Taken 0x33#8 r s → s.device = .operating →
    r.body = [lineByte l] → s.actRefusal r.port (s.effective r) l = none →
    ((s.plant.line l).state = .static → (s.plant.line l).mode = .drive →
      exec (.lineProbe r) s = .next
        ((s.onPlant fun w => w.setLine l fun x => { x with
            level := true
            state := .probing ⟨r.port, x.level, .a, 200 * Config.xinPerUs⟩ }).answer r
          0x33#8 .accepted [lineByte l, flagByte (s.plant.line l).level])) ∧
    ((s.plant.line l).state ≠ .static ∨ (s.plant.line l).mode = .shadow →
      exec (.lineProbe r) s = .next (s.answer r 0x33#8 .lineState []))

/-- PHASE_A_END and PHASE_B_END at the end of their phase, with the classification of R153, and the abort by
a winner (R154). That the end of a phase that has time left, or is not there, is no event is the model's
(DEDUCED, assumption log 6). -/
def Obligations.ProbePhasesEnd : Prop :=
  (∀ (s : State) (l : LineId) (k : ProbeRec) (sense : Bool), (s.plant.line l).state = .probing k →
    k.time = 0 →
    (k.phase = .a →
      exec (.phaseAEnd l sense) s = .next (s.onPlant fun w =>
        w.setLine l fun x => { x with
          level := false
          state := .probing ⟨k.requester, k.saved, .b sense, 200 * Config.xinPerUs⟩ })) ∧
    (∀ a result, k.phase = .b a →
      (a = true → sense = true → result = .stuckHigh) →
      (a = false → sense = false → result = .stuckLow) →
      (a = true → sense = false → (s.table.lines.get l).polarity = .activeHigh →
        result = .follows) →
      (a = true → sense = false → (s.table.lines.get l).polarity = .activeLow →
        result = .inverted) →
      (a = false → sense = true → (s.table.lines.get l).polarity = .activeHigh →
        result = .inverted) →
      (a = false → sense = true → (s.table.lines.get l).polarity = .activeLow →
        result = .follows) →
      exec (.phaseBEnd l sense) s = .next (s.onPlant fun w =>
        (w.setLine l fun x => { x with level := k.saved, state := .static }).post k.requester
          (lineByte l) 0#16 (.probe result a sense k.saved)))) ∧
  (∀ (s : State) (l : LineId) (sense : Bool),
    ((∀ k, (s.plant.line l).state = .probing k → k.phase = .a → k.time ≠ 0) →
      exec (.phaseAEnd l sense) s = .next s) ∧
    ((∀ k a, (s.plant.line l).state = .probing k → k.phase = .b a → k.time ≠ 0) →
      exec (.phaseBEnd l sense) s = .next s)) ∧
  ∀ (w : Plant) (l : LineId) (k : ProbeRec) (p : Port), (w.line l).state = .probing k →
    w.clearLine l p =
      (w.setLine l fun x => { x with level := k.saved, state := .static }).post
        k.requester (lineByte l) 0#16 (.probeAborted k.phase k.saved p)

/-! ## Leases -/

/-- The end of a lease on one line (R113, R114): the line and the entries. -/
def Obligations.LeaseEndVacatesLine : Prop :=
  ∀ (w : Plant) (p : Port) (l : LineId) (level : Bool),
    (∀ m, (w.vacate p l level).line m =
      if m = l then ⟨level, (w.line l).mode, .static, none⟩ else w.line m) ∧
    (w.vacate p l level).armed = w.armed.filter
      (fun x => !(x.entry.owner == p && x.entry.line? == some l)) ∧
    (w.vacate p l level).timeline = w.timeline.filter
      (fun x => !(x.entry.owner == p && x.entry.line? == some l)) ∧
    (w.vacate p l level).pulsing = w.pulsing.filter
      (fun x => !(x.entry.owner == p && x.entry.line? == some l)) ∧
    { w.vacate p l level with
      lines := w.lines, armed := w.armed, timeline := w.timeline, pulsing := w.pulsing } = w

/-- LEASE_TAKE: its refusals, a new lease, a renewal. -/
def Obligations.TakeGrantsOrRenews : Prop :=
  ∀ (r : Request) (s : State) (l : LineId) (term : Half), Taken 0x40#8 r s → s.device = .operating →
    10 ≤ term.toNat → term.toNat ≤ 60000 → r.body = [lineByte l] ++ halfBytes term →
    ((s.table.lines.get l).kind = .shared →
      exec (.leaseTake r) s = .next (s.answer r 0x40#8 .notLeasable [])) ∧
    ((s.table.lines.get l).kind = .leased →
      ((s.table.lines.get l).ceiling < s.effective r →
        exec (.leaseTake r) s = .next (s.answer r 0x40#8 .noRight [])) ∧
      (s.effective r ≤ (s.table.lines.get l).ceiling →
        ((s.plant.line l).lease = none →
          exec (.leaseTake r) s = .next ((s.onPlant fun w => w.setLine l fun x => { x with
              lease := some ⟨r.port, s.effective r, term, term.toNat * 16000⟩ }).answer r
            0x40#8 .ok ([0#8, levelByte (s.effective r)] ++ halfBytes term ++ [0xFF#8, 0#8]))) ∧
        (∀ k, (s.plant.line l).lease = some k → k.holder = r.port →
          exec (.leaseTake r) s = .next ((s.onPlant fun w => w.setLine l fun x => { x with
              lease := some ⟨r.port, s.effective r, term, term.toNat * 16000⟩ }).answer r
            0x40#8 .ok ([1#8, levelByte (s.effective r)] ++ halfBytes term ++ [0xFF#8, 0#8]))) ∧
        (∀ k, (s.plant.line l).lease = some k → k.holder ≠ r.port →
          ((s.table.lines.get l).preemptible = false ∨ k.level ≤ s.effective r) →
          exec (.leaseTake r) s = .next (s.answer r 0x40#8 .lineTaken []))))

/-- LEASE_TAKE that preempts (R109, with R113 to R115). -/
def Obligations.PreemptionTakesLine : Prop :=
  ∀ (r : Request) (s : State) (l : LineId) (term : Half) (k new : Lease) (level : Bool)
    (w : Plant) (removed : Nat),
    Taken 0x40#8 r s → s.device = .operating → 10 ≤ term.toNat → term.toNat ≤ 60000 →
    r.body = [lineByte l] ++ halfBytes term → (s.table.lines.get l).kind = .leased →
    s.effective r ≤ (s.table.lines.get l).ceiling → (s.plant.line l).lease = some k →
    k.holder ≠ r.port → (s.table.lines.get l).preemptible = true → s.effective r < k.level →
    new = ⟨r.port, s.effective r, term, term.toNat * 16000⟩ →
    level = (match (s.plant.line l).state with
      | .static => (s.plant.line l).level
      | .pulsing _ => false
      | .waving _ => (s.plant.line l).level
      | .probing q => q.saved) →
    removed =
      (s.plant.live.filter fun e => e.owner == k.holder && e.line? == some l).length →
    w = ((s.plant.vacate k.holder l level).setLine l fun x => { x with lease := some new }).post
      k.holder (lineByte l) 0#16 (.leaseLost (.taken r.port (s.effective r)) removed) →
      exec (.leaseTake r) s = .next (({ s with plant := w.settleHold }).answer r 0x40#8 .ok
        ([2#8, levelByte (s.effective r)] ++ halfBytes term ++
          [portByte k.holder, natByte removed]))

/-- LEASE_RENEW of one line, of a number that is no line, and of all. -/
def Obligations.RenewRestartsTerm : Prop :=
  ∀ (r : Request) (s : State), Taken 0x41#8 r s →
    (s.device = .setup → exec (.leaseRenew r) s = .next (s.answer r 0x41#8 .wrongState [])) ∧
    (s.device = .operating →
      (∀ l, r.body = [lineByte l] →
        (∀ k, (s.plant.line l).lease = some k → k.holder = r.port →
          exec (.leaseRenew r) s = .next
            ((s.onPlant fun w => w.setLine l fun x => { x with
                lease := some { k with remaining := k.term.toNat * 16000 } }).answer r 0x41#8 .ok
              ([lineByte l, levelByte k.level] ++ halfBytes k.term))) ∧
        ((∀ k, (s.plant.line l).lease = some k → k.holder ≠ r.port) →
          exec (.leaseRenew r) s = .next (s.answer r 0x41#8 .notHolder []))) ∧
      (∀ b, r.body = [b] → 16 ≤ b.toNat → b.toNat ≤ 254 →
        exec (.leaseRenew r) s = .next (s.answer r 0x41#8 .badField [])) ∧
      (r.body = [0xFF#8] → ∃ w : Plant,
        exec (.leaseRenew r) s = .next (({ s with plant := w }).answer r 0x41#8 .ok
          [natByte (allLines.filter fun l => (s.plant.line l).heldBy r.port).length]) ∧
        { w with lines := s.plant.lines } = s.plant ∧
        ∀ l, w.line l = { s.plant.line l with
          lease := (s.plant.line l).lease.map fun k =>
            if k.holder = r.port then { k with remaining := k.term.toNat * 16000 } else k }))

/-- LEASE_RELEASE, and LAPSE of a lease with no time left, with its notice; the move to HELD comes after
both. A lease with time left, a renewed or a new one among them, continues (R118), and that a LAPSE then is
no event, as on a line without a holder, is the model's (DEDUCED, assumption log 6). -/
def Obligations.ReleaseAndLapseEndLease : Prop :=
  (∀ (r : Request) (s : State) (l : LineId), Taken 0x42#8 r s → s.device = .operating →
    r.body = [lineByte l] →
    ((∃ k, (s.plant.line l).lease = some k ∧ k.holder = r.port) →
      exec (.leaseRelease r) s = .next ((s.onPlant fun w =>
          (w.vacate r.port l (s.table.lines.get l).fallback).settleHold).answer r 0x42#8 .ok
        [lineByte l,
          natByte (s.plant.live.filter fun e => e.owner == r.port && e.line? == some l).length])) ∧
    ((∀ k, (s.plant.line l).lease = some k → k.holder ≠ r.port) →
      exec (.leaseRelease r) s = .next (s.answer r 0x42#8 .notHolder []))) ∧
  ∀ (s : State) (l : LineId),
    ((∀ k, (s.plant.line l).lease = some k → k.remaining ≠ 0) →
      exec (.lapse l) s = .next s) ∧
    ∀ (k : Lease) (removed : Nat), (s.plant.line l).lease = some k → k.remaining = 0 →
      removed =
        (s.plant.live.filter fun e => e.owner == k.holder && e.line? == some l).length →
      exec (.lapse l) s = .next (s.onPlant fun w =>
        ((w.vacate k.holder l (s.table.lines.get l).fallback).post k.holder (lineByte l) 0#16
          (.leaseLost .lapsed removed)).settleHold)

/-! ## Capture and tallies -/

/-- CAPTURE_EDGE with RSTn low, where the capture inputs are ignored (R173); without an edge, where the
latest sample shows the level already or is of this XIN period; and with an edge that is not accepted, which
moves the sample and RC alone. That RC runs on by the operand `after`, with the RC events on the way, is the
model's (DESIGN CHOICE, assumption log 8). -/
def Obligations.EdgeIgnoredUnlessAccepted : Prop :=
  (∀ (s : State) (c : Channel) (dir : Edge) (after : Nat), s.rstnLow = true →
    exec (.captureEdge c dir after) s = .next s) ∧
  ∀ (s s' : State) (c : Channel) (dir : Edge) (after : Nat), s.rstnLow = false →
    s' = s.passed after →
    ((s'.channels.get c).level = (dir == .rise) ∨ s'.rc ≤ (s'.channels.get c).since →
      exec (.captureEdge c dir after) s = .next s') ∧
    ((s'.channels.get c).level ≠ (dir == .rise) → (s'.channels.get c).since < s'.rc →
      ((s'.table.channels.get c).select = .off ∨
        ((s'.table.channels.get c).select = .rise ∧ dir = .fall) ∨
        ((s'.table.channels.get c).select = .fall ∧ dir = .rise) ∨ s'.device = .setup ∨
        (∃ t, (s'.channels.get c).lastAccept = some t ∧
          s'.rc < t + (s'.table.channels.get c).holdoff.toNat * 16)) →
      exec (.captureEdge c dir after) s = .next { s' with
        channels := upd s'.channels c fun x => { x with level := dir == .rise, since := s'.rc } })

/-- CAPTURE_EDGE accepted: the sample, the record, the tallies and TC, then the works of the edge in some
order (R51, R125, R132, R140): `w` is the part once a pace edge in RUNNING has counted and advanced the
lines, `works` the claims that have work to do. Their order is a free value (DESIGN CHOICE, assumption log
9), the place of the EDGE notice among those of the same edge another (DESIGN CHOICE, assumption log 10).
The works go over the armed list as it stood when the edge was taken, whatever the advance or an earlier
work arms again (DEDUCED, assumption log 11). The entries of the batch lose the note of an ENTRY_MOVE (DESIGN
CHOICE, assumption log 25). That RC runs on by the operand `after`, with the RC events on
the way, to `s'`, is the model's (DESIGN CHOICE, assumption log 8). -/
def Obligations.AcceptedEdgeIsRecorded : Prop :=
  (∀ (s s' : State) (c : Channel) (dir : Edge) (after : Nat) (w : Plant), s.rstnLow = false →
    s' = s.passed after → s'.device = .operating →
    ((s'.table.channels.get c).select = .both ∨
      ((s'.table.channels.get c).select = .rise ∧ dir = .rise) ∨
      ((s'.table.channels.get c).select = .fall ∧ dir = .fall)) →
    (s'.channels.get c).level ≠ (dir == .rise) → (s'.channels.get c).since < s'.rc →
    (∀ t, (s'.channels.get c).lastAccept = some t →
      t + (s'.table.channels.get c).holdoff.toNat * 16 ≤ s'.rc) →
    w = (if s'.table.source = .pace c ∧ s'.plant.timebase = .running then
      { s'.plant with tc := s'.plant.tc + 1#32 }.advance else s'.plant) →
    ∃ (t : State) (works : List Claim) (done : Plant), exec (.captureEdge c dir after) s = .next t ∧
      { t with
        channels := s'.channels, tallies := s'.tallies, plant := s'.plant, moved := s'.moved,
        freeCount := s'.freeCount } = s' ∧
      t.moved = (if s'.table.source = .pace c ∧ s'.plant.timebase = .running then
        s'.moved.filter fun q => !w.timeline.any fun x => x.due == w.tc && x.entry.name == q
        else s'.moved) ∧
      (∀ d, d ≠ c → t.channels.get d = s'.channels.get d) ∧
      (t.channels.get c).level = (dir == .rise) ∧ (t.channels.get c).since = s'.rc ∧
      (t.channels.get c).lastAccept = some s'.rc ∧
      (t.channels.get c).nextSeq = (s'.channels.get c).nextSeq + 1#8 ∧
      (∃ dropped, (s'.channels.get c).window ++ [⟨(s'.channels.get c).nextSeq, dir, w.tc⟩] =
          dropped ++ (t.channels.get c).window ∧
        ((s'.channels.get c).window.length ≤ 3 → dropped = []) ∧
        (4 ≤ (s'.channels.get c).window.length → (t.channels.get c).window.length = 4)) ∧
      (∀ n, t.tallies.get n = if (s'.table.tallies.get n).binding = some c then
        s'.tallies.get n + 1#32 else s'.tallies.get n) ∧
      works.Nodup ∧
      (∀ k, k ∈ works ↔ match k with
        | .tickBatch => s'.table.source = .pace c ∧ s'.plant.timebase = .running ∧
            ∃ x ∈ w.timeline, x.due = w.tc
        | .advance => s'.table.source = .pace c ∧ s'.plant.timebase = .holding
        | .walk => ∃ x ∈ s'.plant.armed, ∃ n o, x.entry.trigger = .edge c n o
        | .count n v => (s'.table.tallies.get n).binding = some c ∧ v = s'.tallies.get n + 1#32 ∧
            ∃ x ∈ s'.plant.armed, ∃ h o, x.entry.trigger = .count n h o ∧ (v - h).toNat < 2 ^ 31) ∧
      done = works.foldl (Plant.claim s'.table.arbitration c s'.plant.armed) w ∧
      { t.plant with inboxes := done.inboxes } = done ∧
      ∀ p,
        ((s'.port p).mask.getLsbD c.val = false → t.plant.inbox p = done.inbox p) ∧
        ((s'.port p).mask.getLsbD c.val = true → ∃ before behind,
          (done.inbox p).queue = before ++ behind ∧
          (s'.plant.inbox p).queue.length ≤ before.length ∧
          t.plant.inbox p =
            ⟨(before ++ ⟨natByte c.val, 0#16, w.tc, .edge (s'.channels.get c).nextSeq dir⟩ ::
                behind).take 16,
              (done.inbox p).overflow || decide (16 ≤ (done.inbox p).queue.length)⟩)) ∧
  ∀ (arb : Arbitration) (c : Channel) (armed : List Waiting) (w : Plant) (n : TallyId) (v : Word),
    w.claim arb c armed .tickBatch =
      { w with timeline := w.timeline.filter fun x => x.due != w.tc }.runBatch arb
        (w.timeline.filter fun x => x.due == w.tc) ∧
    w.claim arb c armed .advance = w.advance ∧
    w.claim arb c armed .walk = w.walkEdge arb c armed ∧
    w.claim arb c armed (.count n v) = w.walkCount arb n v armed

/-- The walks of the armed list, one entry after another: an edge lowers counts and releases at 0 (R132,
R133, R135), a tally change releases what it reached (R145, R146). A released entry at offset 0 in RUNNING
is executed at once as a batch of one, every other waits at TC plus its offset. That the walk goes over the
list as it stood is the model's (DEDUCED, assumption log 11). -/
def Obligations.WalksReleaseArmedEntries : Prop :=
  (∀ (arb : Arbitration) (c : Channel) (n : TallyId) (v : Word) (w : Plant),
    w.walkEdge arb c [] = w ∧ w.walkCount arb n v [] = w ∧
    ∀ (x : Waiting) (xs : List Waiting) (w' : Plant),
      w' = { w with
        armed := w.armed.filter
          fun y => !(y.entry.owner == x.entry.owner && y.entry.tag == x.entry.tag) } →
      ((∀ k o, x.entry.trigger ≠ .edge c k o) →
        w.walkEdge arb c (x :: xs) = w.walkEdge arb c xs) ∧
      (∀ k o, x.entry.trigger = .edge c k o →
        (2 ≤ x.edgesLeft.getD 0 → w.walkEdge arb c (x :: xs) =
          { w with
            armed := w.armed.map fun (y : Waiting) =>
              if y.entry.name = x.entry.name then
                { y with edgesLeft := some (x.edgesLeft.getD 0 - 1) }
              else y }.walkEdge arb c xs) ∧
        (x.edgesLeft.getD 0 ≤ 1 →
          (w.timebase = .running → o = 0#32 → w.walkEdge arb c (x :: xs) =
            (w'.runBatch arb [⟨x.entry, w.tc⟩]).walkEdge arb c xs) ∧
          (w.timebase ≠ .running ∨ o ≠ 0#32 → w.walkEdge arb c (x :: xs) =
            { w' with timeline := insertTimed w.tc ⟨x.entry, w.tc + o⟩ w.timeline }.walkEdge
              arb c xs))) ∧
      ((∀ h o, x.entry.trigger = .count n h o → 2 ^ 31 ≤ (v - h).toNat) →
        w.walkCount arb n v (x :: xs) = w.walkCount arb n v xs) ∧
      ∀ h o, x.entry.trigger = .count n h o → (v - h).toNat < 2 ^ 31 →
        (w.timebase = .running → o = 0#32 → w.walkCount arb n v (x :: xs) =
          (w'.runBatch arb [⟨x.entry, w.tc⟩]).walkCount arb n v xs) ∧
        (w.timebase ≠ .running ∨ o ≠ 0#32 → w.walkCount arb n v (x :: xs) =
          { w' with timeline := insertTimed w.tc ⟨x.entry, w.tc + o⟩ w.timeline }.walkCount
            arb n v xs)) ∧
  ∀ (arb : Arbitration) (c : Channel) (n : TallyId) (v : Word) (w : Plant)
    (onEdge ends reached : Waiting → Bool) (off : Waiting → Word),
    w.timebase ≠ .running → (w.armed.map fun x => x.entry.name).Nodup →
    (∀ x, onEdge x = true ↔ ∃ k o, x.entry.trigger = .edge c k o) →
    (∀ x, ends x = true ↔ onEdge x = true ∧ x.edgesLeft.getD 0 ≤ 1) →
    (∀ x, reached x = true ↔
      ∃ h o, x.entry.trigger = .count n h o ∧ (v - h).toNat < 2 ^ 31) →
    (∀ x d k o, x.entry.trigger = .edge d k o → off x = o) →
    (∀ x m h o, x.entry.trigger = .count m h o → off x = o) →
    w.walkEdge arb c w.armed = { w with
      armed := (w.armed.filter fun x => !ends x).map fun x =>
        if onEdge x then { x with edgesLeft := some (x.edgesLeft.getD 0 - 1) } else x
      timeline := (w.armed.filter ends).foldl
        (fun tl x => insertTimed w.tc ⟨x.entry, w.tc + off x⟩ tl) w.timeline } ∧
    w.walkCount arb n v w.armed = { w with
      armed := w.armed.filter fun x => !reached x
      timeline := (w.armed.filter reached).foldl
        (fun tl x => insertTimed w.tc ⟨x.entry, w.tc + off x⟩ tl) w.timeline }

/-- CONFIG_READ, LEASE_READ and CAPTURE_READ: their bodies, nothing changed but the slot. -/
def Obligations.ReadsReportState : Prop :=
  (∀ (r : Request) (s : State) (code index : Byte), Taken 0x08#8 r s → r.body = [code, index] →
    (∀ x, Item.ofCode code index = some x →
      exec (.configRead r) s = .next (s.answer r 0x08#8 .ok
        ([code, index] ++ wordBytes (x.read s.table) ++
          [if s.device = .setup then 1#8 else 0#8]))) ∧
    (Item.ofCode code index = none →
      exec (.configRead r) s = .next (s.answer r 0x08#8 .badField []))) ∧
  (∀ (r : Request) (s : State) (l : LineId), Taken 0x43#8 r s → s.device = .operating →
    r.body = [lineByte l] →
      exec (.leaseRead r) s = .next (s.answer r 0x43#8 .ok
        ([kindCode (s.table.lines.get l).kind, levelByte (s.table.lines.get l).ceiling,
            flagByte (s.table.lines.get l).preemptible] ++
          match (s.plant.line l).lease with
          | some k => [portByte k.holder, levelByte k.level] ++ halfBytes k.term ++
              halfBytes (BitVec.ofNat 16 (max 1 ((k.remaining + 15999) / 16000)))
          | none => [0xFF#8, 0#8, 0#8, 0#8, 0#8, 0#8]))) ∧
  ∀ (r : Request) (s : State) (c : Channel), Taken 0x50#8 r s → r.body = [natByte c.val] →
    exec (.captureRead r) s = .next (s.answer r 0x50#8 .ok
      ([selectCode (s.table.channels.get c).select] ++
        halfBytes (s.table.channels.get c).holdoff ++
        [natByte (s.channels.get c).window.length] ++
        (s.channels.get c).window.flatMap fun x => [x.seq, edgeCode x.dir] ++ wordBytes x.tc))

/-- TALLY_READ, TALLY_ADD, TALLY_SWAP and TALLY_CAS: the value, the evaluation against it, the old value
returned. -/
def Obligations.TallyRequestsAct : Prop :=
  ∀ (r : Request) (s : State) (n : TallyId) (v x : Word) (changed : Word → State),
    (∀ y, changed y = { s with
      tallies := upd s.tallies n fun _ => y
      plant := s.plant.walkCount s.table.arbitration n y s.plant.armed }) →
    (Taken 0x60#8 r s → r.body = [natByte n.val] →
      exec (.tallyRead r) s = .next (s.answer r 0x60#8 .ok
        (wordBytes (s.tallies.get n) ++
          [match (s.table.tallies.get n).binding with
            | some c => natByte c.val
            | none => 0xFF#8,
            levelByte (s.table.tallies.get n).level]))) ∧
    (s.effective r ≤ (s.table.tallies.get n).level →
      (r.body = [natByte n.val] ++ wordBytes v →
        (Taken 0x61#8 r s →
          exec (.tallyAdd r) s = .next ((changed (s.tallies.get n + v)).answer r 0x61#8 .ok
            (wordBytes (s.tallies.get n)))) ∧
        (Taken 0x62#8 r s →
          exec (.tallySwap r) s = .next ((changed v).answer r 0x62#8 .ok
            (wordBytes (s.tallies.get n))))) ∧
      (Taken 0x63#8 r s → r.body = [natByte n.val] ++ wordBytes v ++ wordBytes x →
        (s.tallies.get n = v →
          exec (.tallyCas r) s = .next ((changed x).answer r 0x63#8 .ok
            (wordBytes (s.tallies.get n) ++ [1#8]))) ∧
        (s.tallies.get n ≠ v →
          exec (.tallyCas r) s = .next (s.answer r 0x63#8 .ok
            (wordBytes (s.tallies.get n) ++ [0#8])))))

/-! ## Invariants -/

/-- R168, R126 and R174 at every step. -/
def Obligations.QueuesTableWindowsStayLegal : Prop :=
  (∀ s t, QueuesBounded s → step s = .next t → QueuesBounded t) ∧
    ∀ s t, TableConsistent s → WindowsConsecutive s → step s = .next t →
      TableConsistent t ∧ WindowsConsecutive t

/-- R88, R105 and R150 at every step. -/
def Obligations.LinesAndLeasesStayLegal : Prop :=
  ∀ s t, LinesLegal s → LeasesLegal s → step s = .next t → LinesLegal t ∧ LeasesLegal t

/-- R71 and R173 at every step. -/
def Obligations.SetupStaysQuiet : Prop :=
  ∀ s t, SetupQuiet s → step s = .next t → SetupQuiet t

/-- R27, R32 and R33 at every step. -/
def Obligations.HoldKeepsPulses : Prop :=
  ∀ s t, SetupEmpty s → HoldFollowsPulses s.plant → step s = .next t →
    SetupEmpty t ∧ HoldFollowsPulses t.plant

/-- R13 and R16 at every step. -/
def Obligations.PoolStaysWithinShares : Prop :=
  ∀ s t, SetupEmpty s → PoolWithinShares s → step s = .next t →
    SetupEmpty t ∧ PoolWithinShares t

/-- R106 at every step. -/
def Obligations.EntriesStayUnderLease : Prop :=
  ∀ s t, SetupEmpty s → LeasesLegal s → EntriesUnderLease s → step s = .next t →
    SetupEmpty t ∧ LeasesLegal t ∧ EntriesUnderLease t

/-- R41 and R72 at every step, with all that they rest on. -/
def Obligations.ScheduleStaysSound : Prop :=
  ∀ s t, ScheduleSound s → step s = .next t → ScheduleSound t
end

