-- ==== Sys2Proof/Laws/State.lean ====
section
/-! SUPPORT. One lemma per field per named update, true by `rfl` (for `postIf`, by its two cases), so that
no proof unfolds a record update. -/

namespace Sys2Proof.Machine

/-! ## `Plant.setLine` -/

@[simp] theorem Plant.setLine_tc (w : Plant) (l : LineId) (f : Line → Line) :
    (w.setLine l f).tc = w.tc := rfl

@[simp] theorem Plant.setLine_timebase (w : Plant) (l : LineId) (f : Line → Line) :
    (w.setLine l f).timebase = w.timebase := rfl

@[simp] theorem Plant.setLine_holdTimer (w : Plant) (l : LineId) (f : Line → Line) :
    (w.setLine l f).holdTimer = w.holdTimer := rfl

@[simp] theorem Plant.setLine_timeline (w : Plant) (l : LineId) (f : Line → Line) :
    (w.setLine l f).timeline = w.timeline := rfl

@[simp] theorem Plant.setLine_armed (w : Plant) (l : LineId) (f : Line → Line) :
    (w.setLine l f).armed = w.armed := rfl

@[simp] theorem Plant.setLine_pulsing (w : Plant) (l : LineId) (f : Line → Line) :
    (w.setLine l f).pulsing = w.pulsing := rfl

@[simp] theorem Plant.setLine_lines (w : Plant) (l : LineId) (f : Line → Line) :
    (w.setLine l f).lines = upd w.lines l f := rfl

@[simp] theorem Plant.setLine_inboxes (w : Plant) (l : LineId) (f : Line → Line) :
    (w.setLine l f).inboxes = w.inboxes := rfl

/-! ## `Plant.post` -/

@[simp] theorem Plant.post_tc (w : Plant) (p : Port) (b : Byte) (t : Half) (d : Detail) :
    (w.post p b t d).tc = w.tc := rfl

@[simp] theorem Plant.post_timebase (w : Plant) (p : Port) (b : Byte) (t : Half) (d : Detail) :
    (w.post p b t d).timebase = w.timebase := rfl

@[simp] theorem Plant.post_holdTimer (w : Plant) (p : Port) (b : Byte) (t : Half) (d : Detail) :
    (w.post p b t d).holdTimer = w.holdTimer := rfl

@[simp] theorem Plant.post_timeline (w : Plant) (p : Port) (b : Byte) (t : Half) (d : Detail) :
    (w.post p b t d).timeline = w.timeline := rfl

@[simp] theorem Plant.post_armed (w : Plant) (p : Port) (b : Byte) (t : Half) (d : Detail) :
    (w.post p b t d).armed = w.armed := rfl

@[simp] theorem Plant.post_pulsing (w : Plant) (p : Port) (b : Byte) (t : Half) (d : Detail) :
    (w.post p b t d).pulsing = w.pulsing := rfl

@[simp] theorem Plant.post_lines (w : Plant) (p : Port) (b : Byte) (t : Half) (d : Detail) :
    (w.post p b t d).lines = w.lines := rfl

@[simp] theorem Plant.post_inboxes (w : Plant) (p : Port) (b : Byte) (t : Half) (d : Detail) :
    (w.post p b t d).inboxes = upd w.inboxes p (Inbox.post ⟨b, t, w.tc, d⟩) := rfl

/-! ## `Plant.postIf` -/

@[simp] theorem Plant.postIf_tc (w : Plant) (c : Bool) (p : Port) (b : Byte) (t : Half) (d : Detail) :
    (w.postIf c p b t d).tc = w.tc := by
  unfold Plant.postIf; split <;> rfl

@[simp] theorem Plant.postIf_timebase (w : Plant) (c : Bool) (p : Port) (b : Byte) (t : Half) (d : Detail) :
    (w.postIf c p b t d).timebase = w.timebase := by
  unfold Plant.postIf; split <;> rfl

@[simp] theorem Plant.postIf_holdTimer (w : Plant) (c : Bool) (p : Port) (b : Byte) (t : Half) (d : Detail) :
    (w.postIf c p b t d).holdTimer = w.holdTimer := by
  unfold Plant.postIf; split <;> rfl

@[simp] theorem Plant.postIf_timeline (w : Plant) (c : Bool) (p : Port) (b : Byte) (t : Half) (d : Detail) :
    (w.postIf c p b t d).timeline = w.timeline := by
  unfold Plant.postIf; split <;> rfl

@[simp] theorem Plant.postIf_armed (w : Plant) (c : Bool) (p : Port) (b : Byte) (t : Half) (d : Detail) :
    (w.postIf c p b t d).armed = w.armed := by
  unfold Plant.postIf; split <;> rfl

@[simp] theorem Plant.postIf_pulsing (w : Plant) (c : Bool) (p : Port) (b : Byte) (t : Half) (d : Detail) :
    (w.postIf c p b t d).pulsing = w.pulsing := by
  unfold Plant.postIf; split <;> rfl

@[simp] theorem Plant.postIf_lines (w : Plant) (c : Bool) (p : Port) (b : Byte) (t : Half) (d : Detail) :
    (w.postIf c p b t d).lines = w.lines := by
  unfold Plant.postIf; split <;> rfl

/-! ## `Plant.postAll` -/

@[simp] theorem Plant.postAll_tc (w : Plant) (b : Byte) (t : Half) (d : Detail) :
    (w.postAll b t d).tc = w.tc := rfl

@[simp] theorem Plant.postAll_timebase (w : Plant) (b : Byte) (t : Half) (d : Detail) :
    (w.postAll b t d).timebase = w.timebase := rfl

@[simp] theorem Plant.postAll_holdTimer (w : Plant) (b : Byte) (t : Half) (d : Detail) :
    (w.postAll b t d).holdTimer = w.holdTimer := rfl

@[simp] theorem Plant.postAll_timeline (w : Plant) (b : Byte) (t : Half) (d : Detail) :
    (w.postAll b t d).timeline = w.timeline := rfl

@[simp] theorem Plant.postAll_armed (w : Plant) (b : Byte) (t : Half) (d : Detail) :
    (w.postAll b t d).armed = w.armed := rfl

@[simp] theorem Plant.postAll_pulsing (w : Plant) (b : Byte) (t : Half) (d : Detail) :
    (w.postAll b t d).pulsing = w.pulsing := rfl

@[simp] theorem Plant.postAll_lines (w : Plant) (b : Byte) (t : Half) (d : Detail) :
    (w.postAll b t d).lines = w.lines := rfl

@[simp] theorem Plant.postAll_inboxes (w : Plant) (b : Byte) (t : Half) (d : Detail) :
    (w.postAll b t d).inboxes = updAll w.inboxes fun _ => Inbox.post ⟨b, t, w.tc, d⟩ := rfl

/-! ## `Plant.insert` -/

@[simp] theorem Plant.insert_tc (w : Plant) (x : Timed) :
    (w.insert x).tc = w.tc := rfl

@[simp] theorem Plant.insert_timebase (w : Plant) (x : Timed) :
    (w.insert x).timebase = w.timebase := rfl

@[simp] theorem Plant.insert_holdTimer (w : Plant) (x : Timed) :
    (w.insert x).holdTimer = w.holdTimer := rfl

@[simp] theorem Plant.insert_timeline (w : Plant) (x : Timed) :
    (w.insert x).timeline = insertTimed w.tc x w.timeline := rfl

@[simp] theorem Plant.insert_armed (w : Plant) (x : Timed) :
    (w.insert x).armed = w.armed := rfl

@[simp] theorem Plant.insert_pulsing (w : Plant) (x : Timed) :
    (w.insert x).pulsing = w.pulsing := rfl

@[simp] theorem Plant.insert_lines (w : Plant) (x : Timed) :
    (w.insert x).lines = w.lines := rfl

@[simp] theorem Plant.insert_inboxes (w : Plant) (x : Timed) :
    (w.insert x).inboxes = w.inboxes := rfl

/-! ## `Plant.arm` -/

@[simp] theorem Plant.arm_tc (w : Plant) (x : Waiting) :
    (w.arm x).tc = w.tc := rfl

@[simp] theorem Plant.arm_timebase (w : Plant) (x : Waiting) :
    (w.arm x).timebase = w.timebase := rfl

@[simp] theorem Plant.arm_holdTimer (w : Plant) (x : Waiting) :
    (w.arm x).holdTimer = w.holdTimer := rfl

@[simp] theorem Plant.arm_timeline (w : Plant) (x : Waiting) :
    (w.arm x).timeline = w.timeline := rfl

@[simp] theorem Plant.arm_armed (w : Plant) (x : Waiting) :
    (w.arm x).armed = w.armed ++ [x] := rfl

@[simp] theorem Plant.arm_pulsing (w : Plant) (x : Waiting) :
    (w.arm x).pulsing = w.pulsing := rfl

@[simp] theorem Plant.arm_lines (w : Plant) (x : Waiting) :
    (w.arm x).lines = w.lines := rfl

@[simp] theorem Plant.arm_inboxes (w : Plant) (x : Waiting) :
    (w.arm x).inboxes = w.inboxes := rfl

/-! ## `Plant.drop` -/

@[simp] theorem Plant.drop_tc (w : Plant) (f : Entry → Bool) :
    (w.drop f).tc = w.tc := rfl

@[simp] theorem Plant.drop_timebase (w : Plant) (f : Entry → Bool) :
    (w.drop f).timebase = w.timebase := rfl

@[simp] theorem Plant.drop_holdTimer (w : Plant) (f : Entry → Bool) :
    (w.drop f).holdTimer = w.holdTimer := rfl

@[simp] theorem Plant.drop_timeline (w : Plant) (f : Entry → Bool) :
    (w.drop f).timeline = w.timeline.filter fun x => !f x.entry := rfl

@[simp] theorem Plant.drop_armed (w : Plant) (f : Entry → Bool) :
    (w.drop f).armed = w.armed.filter fun x => !f x.entry := rfl

@[simp] theorem Plant.drop_pulsing (w : Plant) (f : Entry → Bool) :
    (w.drop f).pulsing = w.pulsing.filter fun x => !f x.entry := rfl

@[simp] theorem Plant.drop_lines (w : Plant) (f : Entry → Bool) :
    (w.drop f).lines = w.lines := rfl

@[simp] theorem Plant.drop_inboxes (w : Plant) (f : Entry → Bool) :
    (w.drop f).inboxes = w.inboxes := rfl

/-! ## `Plant.dropPulsing` -/

@[simp] theorem Plant.dropPulsing_tc (w : Plant) (p : Port) (t : Half) :
    (w.dropPulsing p t).tc = w.tc := rfl

@[simp] theorem Plant.dropPulsing_timebase (w : Plant) (p : Port) (t : Half) :
    (w.dropPulsing p t).timebase = w.timebase := rfl

@[simp] theorem Plant.dropPulsing_holdTimer (w : Plant) (p : Port) (t : Half) :
    (w.dropPulsing p t).holdTimer = w.holdTimer := rfl

@[simp] theorem Plant.dropPulsing_timeline (w : Plant) (p : Port) (t : Half) :
    (w.dropPulsing p t).timeline = w.timeline := rfl

@[simp] theorem Plant.dropPulsing_armed (w : Plant) (p : Port) (t : Half) :
    (w.dropPulsing p t).armed = w.armed := rfl

@[simp] theorem Plant.dropPulsing_pulsing (w : Plant) (p : Port) (t : Half) :
    (w.dropPulsing p t).pulsing = w.pulsing.filter fun x => !x.entry.isKey p t := rfl

@[simp] theorem Plant.dropPulsing_lines (w : Plant) (p : Port) (t : Half) :
    (w.dropPulsing p t).lines = w.lines := rfl

@[simp] theorem Plant.dropPulsing_inboxes (w : Plant) (p : Port) (t : Half) :
    (w.dropPulsing p t).inboxes = w.inboxes := rfl

/-! ## `Plant.dropArmed` -/

@[simp] theorem Plant.dropArmed_tc (w : Plant) (p : Port) (t : Half) :
    (w.dropArmed p t).tc = w.tc := rfl

@[simp] theorem Plant.dropArmed_timebase (w : Plant) (p : Port) (t : Half) :
    (w.dropArmed p t).timebase = w.timebase := rfl

@[simp] theorem Plant.dropArmed_holdTimer (w : Plant) (p : Port) (t : Half) :
    (w.dropArmed p t).holdTimer = w.holdTimer := rfl

@[simp] theorem Plant.dropArmed_timeline (w : Plant) (p : Port) (t : Half) :
    (w.dropArmed p t).timeline = w.timeline := rfl

@[simp] theorem Plant.dropArmed_armed (w : Plant) (p : Port) (t : Half) :
    (w.dropArmed p t).armed = w.armed.filter fun x => !x.entry.isKey p t := rfl

@[simp] theorem Plant.dropArmed_pulsing (w : Plant) (p : Port) (t : Half) :
    (w.dropArmed p t).pulsing = w.pulsing := rfl

@[simp] theorem Plant.dropArmed_lines (w : Plant) (p : Port) (t : Half) :
    (w.dropArmed p t).lines = w.lines := rfl

@[simp] theorem Plant.dropArmed_inboxes (w : Plant) (p : Port) (t : Half) :
    (w.dropArmed p t).inboxes = w.inboxes := rfl

/-! ## `Plant.dropPending` -/

@[simp] theorem Plant.dropPending_tc (w : Plant) (p : Port) (t : Half) :
    (w.dropPending p t).tc = w.tc := rfl

@[simp] theorem Plant.dropPending_timebase (w : Plant) (p : Port) (t : Half) :
    (w.dropPending p t).timebase = w.timebase := rfl

@[simp] theorem Plant.dropPending_holdTimer (w : Plant) (p : Port) (t : Half) :
    (w.dropPending p t).holdTimer = w.holdTimer := rfl

@[simp] theorem Plant.dropPending_timeline (w : Plant) (p : Port) (t : Half) :
    (w.dropPending p t).timeline = w.timeline.filter fun x => !x.entry.isKey p t := rfl

@[simp] theorem Plant.dropPending_armed (w : Plant) (p : Port) (t : Half) :
    (w.dropPending p t).armed = w.armed := rfl

@[simp] theorem Plant.dropPending_pulsing (w : Plant) (p : Port) (t : Half) :
    (w.dropPending p t).pulsing = w.pulsing := rfl

@[simp] theorem Plant.dropPending_lines (w : Plant) (p : Port) (t : Half) :
    (w.dropPending p t).lines = w.lines := rfl

@[simp] theorem Plant.dropPending_inboxes (w : Plant) (p : Port) (t : Half) :
    (w.dropPending p t).inboxes = w.inboxes := rfl

/-! ## `Plant.setTimebase` -/

@[simp] theorem Plant.setTimebase_tc (w : Plant) (n : Timebase) (c : TimebaseCause) :
    (w.setTimebase n c).tc = w.tc := rfl

@[simp] theorem Plant.setTimebase_timebase (w : Plant) (n : Timebase) (c : TimebaseCause) :
    (w.setTimebase n c).timebase = n := rfl

@[simp] theorem Plant.setTimebase_holdTimer (w : Plant) (n : Timebase) (c : TimebaseCause) :
    (w.setTimebase n c).holdTimer = w.holdTimer := rfl

@[simp] theorem Plant.setTimebase_timeline (w : Plant) (n : Timebase) (c : TimebaseCause) :
    (w.setTimebase n c).timeline = w.timeline := rfl

@[simp] theorem Plant.setTimebase_armed (w : Plant) (n : Timebase) (c : TimebaseCause) :
    (w.setTimebase n c).armed = w.armed := rfl

@[simp] theorem Plant.setTimebase_pulsing (w : Plant) (n : Timebase) (c : TimebaseCause) :
    (w.setTimebase n c).pulsing = w.pulsing := rfl

@[simp] theorem Plant.setTimebase_lines (w : Plant) (n : Timebase) (c : TimebaseCause) :
    (w.setTimebase n c).lines = w.lines := rfl

@[simp] theorem Plant.setTimebase_inboxes (w : Plant) (n : Timebase) (c : TimebaseCause) :
    (w.setTimebase n c).inboxes = updAll w.inboxes fun _ =>
      Inbox.post (timebaseNotice w.tc w.timebase n c) := rfl

/-! ## `Plant.countTick` -/

@[simp] theorem Plant.countTick_tc (w : Plant) :
    (w.countTick).tc = w.tc + 1#32 := rfl

@[simp] theorem Plant.countTick_timebase (w : Plant) :
    (w.countTick).timebase = w.timebase := rfl

@[simp] theorem Plant.countTick_holdTimer (w : Plant) :
    (w.countTick).holdTimer = w.holdTimer := rfl

@[simp] theorem Plant.countTick_timeline (w : Plant) :
    (w.countTick).timeline = w.timeline := rfl

@[simp] theorem Plant.countTick_armed (w : Plant) :
    (w.countTick).armed = w.armed := rfl

@[simp] theorem Plant.countTick_pulsing (w : Plant) :
    (w.countTick).pulsing = w.pulsing := rfl

@[simp] theorem Plant.countTick_lines (w : Plant) :
    (w.countTick).lines = w.lines := rfl

@[simp] theorem Plant.countTick_inboxes (w : Plant) :
    (w.countTick).inboxes = w.inboxes := rfl

/-! ## `Plant.showGenerator` -/

@[simp] theorem Plant.showGenerator_tc (w : Plant) (l : LineId) (g : Generator) :
    (w.showGenerator l g).tc = w.tc := rfl

@[simp] theorem Plant.showGenerator_timebase (w : Plant) (l : LineId) (g : Generator) :
    (w.showGenerator l g).timebase = w.timebase := rfl

@[simp] theorem Plant.showGenerator_holdTimer (w : Plant) (l : LineId) (g : Generator) :
    (w.showGenerator l g).holdTimer = w.holdTimer := rfl

@[simp] theorem Plant.showGenerator_timeline (w : Plant) (l : LineId) (g : Generator) :
    (w.showGenerator l g).timeline = w.timeline := rfl

@[simp] theorem Plant.showGenerator_armed (w : Plant) (l : LineId) (g : Generator) :
    (w.showGenerator l g).armed = w.armed := rfl

@[simp] theorem Plant.showGenerator_pulsing (w : Plant) (l : LineId) (g : Generator) :
    (w.showGenerator l g).pulsing = w.pulsing := rfl

@[simp] theorem Plant.showGenerator_lines (w : Plant) (l : LineId) (g : Generator) :
    (w.showGenerator l g).lines = upd w.lines l (Line.rest g.output (.waving g)) := rfl

@[simp] theorem Plant.showGenerator_inboxes (w : Plant) (l : LineId) (g : Generator) :
    (w.showGenerator l g).inboxes = w.inboxes := rfl

/-! ## `Plant.setLease` -/

@[simp] theorem Plant.setLease_tc (w : Plant) (l : LineId) (k : Option Lease) :
    (w.setLease l k).tc = w.tc := rfl

@[simp] theorem Plant.setLease_timebase (w : Plant) (l : LineId) (k : Option Lease) :
    (w.setLease l k).timebase = w.timebase := rfl

@[simp] theorem Plant.setLease_holdTimer (w : Plant) (l : LineId) (k : Option Lease) :
    (w.setLease l k).holdTimer = w.holdTimer := rfl

@[simp] theorem Plant.setLease_timeline (w : Plant) (l : LineId) (k : Option Lease) :
    (w.setLease l k).timeline = w.timeline := rfl

@[simp] theorem Plant.setLease_armed (w : Plant) (l : LineId) (k : Option Lease) :
    (w.setLease l k).armed = w.armed := rfl

@[simp] theorem Plant.setLease_pulsing (w : Plant) (l : LineId) (k : Option Lease) :
    (w.setLease l k).pulsing = w.pulsing := rfl

@[simp] theorem Plant.setLease_lines (w : Plant) (l : LineId) (k : Option Lease) :
    (w.setLease l k).lines = upd w.lines l fun x => { x with lease := k } := rfl

@[simp] theorem Plant.setLease_inboxes (w : Plant) (l : LineId) (k : Option Lease) :
    (w.setLease l k).inboxes = w.inboxes := rfl

/-! ## `Plant.vacate` -/

@[simp] theorem Plant.vacate_tc (w : Plant) (p : Port) (l : LineId) (b : Bool) :
    (w.vacate p l b).tc = w.tc := rfl

@[simp] theorem Plant.vacate_timebase (w : Plant) (p : Port) (l : LineId) (b : Bool) :
    (w.vacate p l b).timebase = w.timebase := rfl

@[simp] theorem Plant.vacate_holdTimer (w : Plant) (p : Port) (l : LineId) (b : Bool) :
    (w.vacate p l b).holdTimer = w.holdTimer := rfl

@[simp] theorem Plant.vacate_timeline (w : Plant) (p : Port) (l : LineId) (b : Bool) :
    (w.vacate p l b).timeline = w.timeline.filter fun x => !ownedOn p l x.entry := rfl

@[simp] theorem Plant.vacate_armed (w : Plant) (p : Port) (l : LineId) (b : Bool) :
    (w.vacate p l b).armed = w.armed.filter fun x => !ownedOn p l x.entry := rfl

@[simp] theorem Plant.vacate_pulsing (w : Plant) (p : Port) (l : LineId) (b : Bool) :
    (w.vacate p l b).pulsing = w.pulsing.filter fun x => !ownedOn p l x.entry := rfl

@[simp] theorem Plant.vacate_lines (w : Plant) (p : Port) (l : LineId) (b : Bool) :
    (w.vacate p l b).lines = upd w.lines l (Line.vacate b) := rfl

@[simp] theorem Plant.vacate_inboxes (w : Plant) (p : Port) (l : LineId) (b : Bool) :
    (w.vacate p l b).inboxes = w.inboxes := rfl

/-! ## `State.setPort` -/

@[simp] theorem State.setPort_pending (s : State) (p : Port) (f : PortState → PortState) :
    (s.setPort p f).pending = s.pending := rfl

@[simp] theorem State.setPort_rstnLow (s : State) (p : Port) (f : PortState → PortState) :
    (s.setPort p f).rstnLow = s.rstnLow := rfl

@[simp] theorem State.setPort_device (s : State) (p : Port) (f : PortState → PortState) :
    (s.setPort p f).device = s.device := rfl

@[simp] theorem State.setPort_window (s : State) (p : Port) (f : PortState → PortState) :
    (s.setPort p f).window = s.window := rfl

@[simp] theorem State.setPort_table (s : State) (p : Port) (f : PortState → PortState) :
    (s.setPort p f).table = s.table := rfl

@[simp] theorem State.setPort_rc (s : State) (p : Port) (f : PortState → PortState) :
    (s.setPort p f).rc = s.rc := rfl

@[simp] theorem State.setPort_divider (s : State) (p : Port) (f : PortState → PortState) :
    (s.setPort p f).divider = s.divider := rfl

@[simp] theorem State.setPort_ports (s : State) (p : Port) (f : PortState → PortState) :
    (s.setPort p f).ports = upd s.ports p f := rfl

@[simp] theorem State.setPort_channels (s : State) (p : Port) (f : PortState → PortState) :
    (s.setPort p f).channels = s.channels := rfl

@[simp] theorem State.setPort_tallies (s : State) (p : Port) (f : PortState → PortState) :
    (s.setPort p f).tallies = s.tallies := rfl

@[simp] theorem State.setPort_plant (s : State) (p : Port) (f : PortState → PortState) :
    (s.setPort p f).plant = s.plant := rfl

@[simp] theorem State.setPort_moved (s : State) (p : Port) (f : PortState → PortState) :
    (s.setPort p f).moved = s.moved := rfl

@[simp] theorem State.setPort_freeCount (s : State) (p : Port) (f : PortState → PortState) :
    (s.setPort p f).freeCount = s.freeCount := rfl

/-! ## `State.onPlant` -/

@[simp] theorem State.onPlant_pending (s : State) (f : Plant → Plant) :
    (s.onPlant f).pending = s.pending := rfl

@[simp] theorem State.onPlant_rstnLow (s : State) (f : Plant → Plant) :
    (s.onPlant f).rstnLow = s.rstnLow := rfl

@[simp] theorem State.onPlant_device (s : State) (f : Plant → Plant) :
    (s.onPlant f).device = s.device := rfl

@[simp] theorem State.onPlant_window (s : State) (f : Plant → Plant) :
    (s.onPlant f).window = s.window := rfl

@[simp] theorem State.onPlant_table (s : State) (f : Plant → Plant) :
    (s.onPlant f).table = s.table := rfl

@[simp] theorem State.onPlant_rc (s : State) (f : Plant → Plant) :
    (s.onPlant f).rc = s.rc := rfl

@[simp] theorem State.onPlant_divider (s : State) (f : Plant → Plant) :
    (s.onPlant f).divider = s.divider := rfl

@[simp] theorem State.onPlant_ports (s : State) (f : Plant → Plant) :
    (s.onPlant f).ports = s.ports := rfl

@[simp] theorem State.onPlant_channels (s : State) (f : Plant → Plant) :
    (s.onPlant f).channels = s.channels := rfl

@[simp] theorem State.onPlant_tallies (s : State) (f : Plant → Plant) :
    (s.onPlant f).tallies = s.tallies := rfl

@[simp] theorem State.onPlant_plant (s : State) (f : Plant → Plant) :
    (s.onPlant f).plant = f s.plant := rfl

@[simp] theorem State.onPlant_moved (s : State) (f : Plant → Plant) :
    (s.onPlant f).moved = s.moved := rfl

@[simp] theorem State.onPlant_freeCount (s : State) (f : Plant → Plant) :
    (s.onPlant f).freeCount = s.freeCount := rfl

/-! ## `State.runRc` -/

@[simp] theorem State.runRc_pending (s : State) (n : Nat) :
    (s.runRc n).pending = s.pending := rfl

@[simp] theorem State.runRc_rstnLow (s : State) (n : Nat) :
    (s.runRc n).rstnLow = s.rstnLow := rfl

@[simp] theorem State.runRc_device (s : State) (n : Nat) :
    (s.runRc n).device = s.device := rfl

@[simp] theorem State.runRc_window (s : State) (n : Nat) :
    (s.runRc n).window = s.window.map (· - n) := rfl

@[simp] theorem State.runRc_table (s : State) (n : Nat) :
    (s.runRc n).table = s.table := rfl

@[simp] theorem State.runRc_rc (s : State) (n : Nat) :
    (s.runRc n).rc = s.rc + n := rfl

@[simp] theorem State.runRc_divider (s : State) (n : Nat) :
    (s.runRc n).divider = s.dividerAfter n := rfl

@[simp] theorem State.runRc_ports (s : State) (n : Nat) :
    (s.runRc n).ports = s.ports := rfl

@[simp] theorem State.runRc_channels (s : State) (n : Nat) :
    (s.runRc n).channels = s.channels := rfl

@[simp] theorem State.runRc_tallies (s : State) (n : Nat) :
    (s.runRc n).tallies = s.tallies := rfl

@[simp] theorem State.runRc_plant (s : State) (n : Nat) :
    (s.runRc n).plant = { s.plant with
      holdTimer := s.plant.holdTimer.map (· - n)
      lines := updAll s.plant.lines fun _ => Line.run n } := rfl

@[simp] theorem State.runRc_moved (s : State) (n : Nat) :
    (s.runRc n).moved = if n = 0 then s.moved else [] := rfl

@[simp] theorem State.runRc_freeCount (s : State) (n : Nat) :
    (s.runRc n).freeCount = s.freeCount := rfl

/-! ## `State.respond` -/

@[simp] theorem State.respond_pending (s : State) (p : Port) (k : Byte) (n : Nat) (rep : Reply) :
    (s.respond p k n rep).pending = s.pending := rfl

@[simp] theorem State.respond_rstnLow (s : State) (p : Port) (k : Byte) (n : Nat) (rep : Reply) :
    (s.respond p k n rep).rstnLow = s.rstnLow := rfl

@[simp] theorem State.respond_device (s : State) (p : Port) (k : Byte) (n : Nat) (rep : Reply) :
    (s.respond p k n rep).device = s.device := rfl

@[simp] theorem State.respond_window (s : State) (p : Port) (k : Byte) (n : Nat) (rep : Reply) :
    (s.respond p k n rep).window = s.window := rfl

@[simp] theorem State.respond_table (s : State) (p : Port) (k : Byte) (n : Nat) (rep : Reply) :
    (s.respond p k n rep).table = s.table := rfl

@[simp] theorem State.respond_rc (s : State) (p : Port) (k : Byte) (n : Nat) (rep : Reply) :
    (s.respond p k n rep).rc = s.rc := rfl

@[simp] theorem State.respond_divider (s : State) (p : Port) (k : Byte) (n : Nat) (rep : Reply) :
    (s.respond p k n rep).divider = s.divider := rfl

@[simp] theorem State.respond_ports (s : State) (p : Port) (k : Byte) (n : Nat) (rep : Reply) :
    (s.respond p k n rep).ports = upd s.ports p fun x => { x with
      slot := s.response p k rep
      txn := none
      shift := ShiftBuffer.empty
      sent := shiftOut (x.txn.getD []) n } := rfl

@[simp] theorem State.respond_channels (s : State) (p : Port) (k : Byte) (n : Nat) (rep : Reply) :
    (s.respond p k n rep).channels = s.channels := rfl

@[simp] theorem State.respond_tallies (s : State) (p : Port) (k : Byte) (n : Nat) (rep : Reply) :
    (s.respond p k n rep).tallies = s.tallies := rfl

@[simp] theorem State.respond_plant (s : State) (p : Port) (k : Byte) (n : Nat) (rep : Reply) :
    (s.respond p k n rep).plant = s.plant := rfl

@[simp] theorem State.respond_moved (s : State) (p : Port) (k : Byte) (n : Nat) (rep : Reply) :
    (s.respond p k n rep).moved = s.moved := rfl

@[simp] theorem State.respond_freeCount (s : State) (p : Port) (k : Byte) (n : Nat) (rep : Reply) :
    (s.respond p k n rep).freeCount = s.freeCount := rfl

/-! ## `State.enterOperating` -/

@[simp] theorem State.enterOperating_pending (s : State) (c : CloseCause) :
    (s.enterOperating c).pending = s.pending := rfl

@[simp] theorem State.enterOperating_rstnLow (s : State) (c : CloseCause) :
    (s.enterOperating c).rstnLow = s.rstnLow := rfl

@[simp] theorem State.enterOperating_device (s : State) (c : CloseCause) :
    (s.enterOperating c).device = .operating := rfl

@[simp] theorem State.enterOperating_window (s : State) (c : CloseCause) :
    (s.enterOperating c).window = none := rfl

@[simp] theorem State.enterOperating_table (s : State) (c : CloseCause) :
    (s.enterOperating c).table = s.table := rfl

@[simp] theorem State.enterOperating_rc (s : State) (c : CloseCause) :
    (s.enterOperating c).rc = s.rc := rfl

@[simp] theorem State.enterOperating_divider (s : State) (c : CloseCause) :
    (s.enterOperating c).divider = 0 := rfl

@[simp] theorem State.enterOperating_ports (s : State) (c : CloseCause) :
    (s.enterOperating c).ports = s.ports := rfl

@[simp] theorem State.enterOperating_channels (s : State) (c : CloseCause) :
    (s.enterOperating c).channels = s.channels := rfl

@[simp] theorem State.enterOperating_tallies (s : State) (c : CloseCause) :
    (s.enterOperating c).tallies = s.tallies := rfl

@[simp] theorem State.enterOperating_plant (s : State) (c : CloseCause) :
    (s.enterOperating c).plant = s.plant.enter s.table c := rfl

@[simp] theorem State.enterOperating_moved (s : State) (c : CloseCause) :
    (s.enterOperating c).moved = s.moved := rfl

@[simp] theorem State.enterOperating_freeCount (s : State) (c : CloseCause) :
    (s.enterOperating c).freeCount = s.freeCount := rfl

/-! ## `State.markMoved` -/

@[simp] theorem State.markMoved_pending (s : State) (p : Port) (tag : Half) :
    (s.markMoved p tag).pending = s.pending := rfl

@[simp] theorem State.markMoved_rstnLow (s : State) (p : Port) (tag : Half) :
    (s.markMoved p tag).rstnLow = s.rstnLow := rfl

@[simp] theorem State.markMoved_device (s : State) (p : Port) (tag : Half) :
    (s.markMoved p tag).device = s.device := rfl

@[simp] theorem State.markMoved_window (s : State) (p : Port) (tag : Half) :
    (s.markMoved p tag).window = s.window := rfl

@[simp] theorem State.markMoved_table (s : State) (p : Port) (tag : Half) :
    (s.markMoved p tag).table = s.table := rfl

@[simp] theorem State.markMoved_rc (s : State) (p : Port) (tag : Half) :
    (s.markMoved p tag).rc = s.rc := rfl

@[simp] theorem State.markMoved_divider (s : State) (p : Port) (tag : Half) :
    (s.markMoved p tag).divider = s.divider := rfl

@[simp] theorem State.markMoved_ports (s : State) (p : Port) (tag : Half) :
    (s.markMoved p tag).ports = s.ports := rfl

@[simp] theorem State.markMoved_channels (s : State) (p : Port) (tag : Half) :
    (s.markMoved p tag).channels = s.channels := rfl

@[simp] theorem State.markMoved_tallies (s : State) (p : Port) (tag : Half) :
    (s.markMoved p tag).tallies = s.tallies := rfl

@[simp] theorem State.markMoved_plant (s : State) (p : Port) (tag : Half) :
    (s.markMoved p tag).plant = s.plant := rfl

@[simp] theorem State.markMoved_moved (s : State) (p : Port) (tag : Half) :
    (s.markMoved p tag).moved = s.moved.insert (p, tag) := rfl

@[simp] theorem State.markMoved_freeCount (s : State) (p : Port) (tag : Half) :
    (s.markMoved p tag).freeCount = s.freeCount := rfl

/-! ## `State.clearMoved` -/

@[simp] theorem State.clearMoved_pending (s : State) (p : Port) (tag : Half) :
    (s.clearMoved p tag).pending = s.pending := rfl

@[simp] theorem State.clearMoved_rstnLow (s : State) (p : Port) (tag : Half) :
    (s.clearMoved p tag).rstnLow = s.rstnLow := rfl

@[simp] theorem State.clearMoved_device (s : State) (p : Port) (tag : Half) :
    (s.clearMoved p tag).device = s.device := rfl

@[simp] theorem State.clearMoved_window (s : State) (p : Port) (tag : Half) :
    (s.clearMoved p tag).window = s.window := rfl

@[simp] theorem State.clearMoved_table (s : State) (p : Port) (tag : Half) :
    (s.clearMoved p tag).table = s.table := rfl

@[simp] theorem State.clearMoved_rc (s : State) (p : Port) (tag : Half) :
    (s.clearMoved p tag).rc = s.rc := rfl

@[simp] theorem State.clearMoved_divider (s : State) (p : Port) (tag : Half) :
    (s.clearMoved p tag).divider = s.divider := rfl

@[simp] theorem State.clearMoved_ports (s : State) (p : Port) (tag : Half) :
    (s.clearMoved p tag).ports = s.ports := rfl

@[simp] theorem State.clearMoved_channels (s : State) (p : Port) (tag : Half) :
    (s.clearMoved p tag).channels = s.channels := rfl

@[simp] theorem State.clearMoved_tallies (s : State) (p : Port) (tag : Half) :
    (s.clearMoved p tag).tallies = s.tallies := rfl

@[simp] theorem State.clearMoved_plant (s : State) (p : Port) (tag : Half) :
    (s.clearMoved p tag).plant = s.plant := rfl

@[simp] theorem State.clearMoved_moved (s : State) (p : Port) (tag : Half) :
    (s.clearMoved p tag).moved = s.moved.filter (· != (p, tag)) := rfl

@[simp] theorem State.clearMoved_freeCount (s : State) (p : Port) (tag : Half) :
    (s.clearMoved p tag).freeCount = s.freeCount := rfl

/-! ## `State.clearBatch` -/

@[simp] theorem State.clearBatch_pending (s : State) (b : List Timed) :
    (s.clearBatch b).pending = s.pending := rfl

@[simp] theorem State.clearBatch_rstnLow (s : State) (b : List Timed) :
    (s.clearBatch b).rstnLow = s.rstnLow := rfl

@[simp] theorem State.clearBatch_device (s : State) (b : List Timed) :
    (s.clearBatch b).device = s.device := rfl

@[simp] theorem State.clearBatch_window (s : State) (b : List Timed) :
    (s.clearBatch b).window = s.window := rfl

@[simp] theorem State.clearBatch_table (s : State) (b : List Timed) :
    (s.clearBatch b).table = s.table := rfl

@[simp] theorem State.clearBatch_rc (s : State) (b : List Timed) :
    (s.clearBatch b).rc = s.rc := rfl

@[simp] theorem State.clearBatch_divider (s : State) (b : List Timed) :
    (s.clearBatch b).divider = s.divider := rfl

@[simp] theorem State.clearBatch_ports (s : State) (b : List Timed) :
    (s.clearBatch b).ports = s.ports := rfl

@[simp] theorem State.clearBatch_channels (s : State) (b : List Timed) :
    (s.clearBatch b).channels = s.channels := rfl

@[simp] theorem State.clearBatch_tallies (s : State) (b : List Timed) :
    (s.clearBatch b).tallies = s.tallies := rfl

@[simp] theorem State.clearBatch_plant (s : State) (b : List Timed) :
    (s.clearBatch b).plant = s.plant := rfl

@[simp] theorem State.clearBatch_moved (s : State) (b : List Timed) :
    (s.clearBatch b).moved = s.moved.filter fun q => !b.any fun x => x.entry.isKey q.1 q.2 := rfl

@[simp] theorem State.clearBatch_freeCount (s : State) (b : List Timed) :
    (s.clearBatch b).freeCount = s.freeCount := rfl

/-! ## `State.sample` -/

@[simp] theorem State.sample_pending (s : State) (c : Channel) (dir : Edge) :
    (s.sample c dir).pending = s.pending := rfl

@[simp] theorem State.sample_rstnLow (s : State) (c : Channel) (dir : Edge) :
    (s.sample c dir).rstnLow = s.rstnLow := rfl

@[simp] theorem State.sample_device (s : State) (c : Channel) (dir : Edge) :
    (s.sample c dir).device = s.device := rfl

@[simp] theorem State.sample_window (s : State) (c : Channel) (dir : Edge) :
    (s.sample c dir).window = s.window := rfl

@[simp] theorem State.sample_table (s : State) (c : Channel) (dir : Edge) :
    (s.sample c dir).table = s.table := rfl

@[simp] theorem State.sample_rc (s : State) (c : Channel) (dir : Edge) :
    (s.sample c dir).rc = s.rc := rfl

@[simp] theorem State.sample_divider (s : State) (c : Channel) (dir : Edge) :
    (s.sample c dir).divider = s.divider := rfl

@[simp] theorem State.sample_ports (s : State) (c : Channel) (dir : Edge) :
    (s.sample c dir).ports = s.ports := rfl

@[simp] theorem State.sample_tallies (s : State) (c : Channel) (dir : Edge) :
    (s.sample c dir).tallies = s.tallies := rfl

@[simp] theorem State.sample_plant (s : State) (c : Channel) (dir : Edge) :
    (s.sample c dir).plant = s.plant := rfl

@[simp] theorem State.sample_moved (s : State) (c : Channel) (dir : Edge) :
    (s.sample c dir).moved = s.moved := rfl

@[simp] theorem State.sample_freeCount (s : State) (c : Channel) (dir : Edge) :
    (s.sample c dir).freeCount = s.freeCount := rfl

@[simp] theorem State.sample_channels (s : State) (c : Channel) (dir : Edge) :
    (s.sample c dir).channels = upd s.channels c fun x =>
      { x with level := edgeLevel dir, since := s.rc } := rfl

/-! ## `State.afterRise` -/

@[simp] theorem State.afterRise_pending (s : State) (inputs : BitVec 8) :
    (s.afterRise inputs).pending = s.pending := rfl

@[simp] theorem State.afterRise_divider (s : State) (inputs : BitVec 8) :
    (s.afterRise inputs).divider = s.divider := rfl

@[simp] theorem State.afterRise_ports (s : State) (inputs : BitVec 8) :
    (s.afterRise inputs).ports = s.ports := rfl

@[simp] theorem State.afterRise_tallies (s : State) (inputs : BitVec 8) :
    (s.afterRise inputs).tallies = s.tallies := rfl

@[simp] theorem State.afterRise_plant (s : State) (inputs : BitVec 8) :
    (s.afterRise inputs).plant = s.plant := rfl

@[simp] theorem State.afterRise_moved (s : State) (inputs : BitVec 8) :
    (s.afterRise inputs).moved = s.moved := rfl

@[simp] theorem State.afterRise_freeCount (s : State) (inputs : BitVec 8) :
    (s.afterRise inputs).freeCount = s.freeCount := rfl

@[simp] theorem State.afterRise_rstnLow (s : State) (inputs : BitVec 8) :
    (s.afterRise inputs).rstnLow = false := rfl

@[simp] theorem State.afterRise_device (s : State) (inputs : BitVec 8) :
    (s.afterRise inputs).device = .setup := rfl

@[simp] theorem State.afterRise_window (s : State) (inputs : BitVec 8) :
    (s.afterRise inputs).window = some Config.setupWindow := rfl

@[simp] theorem State.afterRise_table (s : State) (inputs : BitVec 8) :
    (s.afterRise inputs).table = Table.default := rfl

@[simp] theorem State.afterRise_rc (s : State) (inputs : BitVec 8) :
    (s.afterRise inputs).rc = 0 := rfl

@[simp] theorem State.afterRise_channels (s : State) (inputs : BitVec 8) :
    (s.afterRise inputs).channels = Vector.ofFn fun c =>
      { s.channels.get c with level := inputs.getLsbD c.val, since := 0 } := rfl

end Sys2Proof.Machine
end

