-- ==== Sys2Proof/Laws/Ops.lean ====
section
/-! SUPPORT. What each shared operation can do, said once: register files, queues, insertion, pulses in
flight, the move to HELD, the reference clock, free orders. -/

namespace Sys2Proof.Machine

/-! ## Register files -/

theorem upd_get {α : Type} {n : Nat} (v : Vector α n) (i j : Fin n) (f : α → α) :
    (upd v i f).get j = if j = i then f (v.get i) else v.get j := by
  grind [upd, Vector.get]

@[simp] theorem upd_get_self {α : Type} {n : Nat} (v : Vector α n) (i : Fin n) (f : α → α) :
    (upd v i f).get i = f (v.get i) := by
  simp [upd_get]

theorem upd_get_ne {α : Type} {n : Nat} (v : Vector α n) {i j : Fin n} (f : α → α) (h : j ≠ i) :
    (upd v i f).get j = v.get j := by
  simp [upd_get, h]

@[simp] theorem updAll_get {α : Type} {n : Nat} (v : Vector α n) (f : Fin n → α → α) (i : Fin n) :
    (updAll v f).get i = f i (v.get i) := by
  simp [updAll, Vector.get]

theorem get_ext {α : Type} {n : Nat} {v v' : Vector α n} (h : ∀ i, v.get i = v'.get i) : v = v' := by
  ext i hi
  exact h ⟨i, hi⟩

@[simp] theorem ofFn_get {α : Type} {n : Nat} (f : Fin n → α) (i : Fin n) :
    (Vector.ofFn f).get i = f i := by
  simp [Vector.get]
  rfl

@[simp] theorem replicate_get {α : Type} {n : Nat} (a : α) (i : Fin n) :
    (Vector.replicate n a).get i = a := by
  simp [Vector.get]

@[simp] theorem map_get {α β : Type} {n : Nat} (v : Vector α n) (f : α → β) (i : Fin n) :
    (v.map f).get i = f (v.get i) := by
  simp [Vector.get]

theorem upd_upd {α : Type} {n : Nat} (v : Vector α n) (i : Fin n) (f g : α → α) :
    upd (upd v i f) i g = upd v i fun x => g (f x) := by
  apply get_ext; intro j; simp only [upd_get]; split <;> simp

theorem upd_id {α : Type} {n : Nat} (v : Vector α n) (i : Fin n) (f : α → α) (h : f (v.get i) = v.get i) :
    upd v i f = v := by
  apply get_ext; intro j; simp only [upd_get]; split
  · next e => rw [e, h]
  · rfl

/-! ## Lines -/

theorem Plant.line_setLine (w : Plant) (l m : LineId) (f : Line → Line) :
    (w.setLine l f).line m = if m = l then f (w.line l) else w.line m := upd_get ..

@[simp] theorem Plant.line_setLine_self (w : Plant) (l : LineId) (f : Line → Line) :
    (w.setLine l f).line l = f (w.line l) := by simp [Plant.line_setLine]

theorem Plant.line_of_lines {w w' : Plant} (h : w'.lines = w.lines) (l : LineId) :
    w'.line l = w.line l := by simp [Plant.line, h]

/-- Every line changed by its number. -/
theorem Plant.line_updAll (w : Plant) (f : LineId → Line → Line) (l : LineId) :
    { w with lines := updAll w.lines f }.line l = f l (w.line l) := by
  unfold Plant.line
  rw [updAll_get]

@[simp] theorem Plant.line_drop (w : Plant) (f : Entry → Bool) (l : LineId) :
    (w.drop f).line l = w.line l := Plant.line_of_lines (Plant.drop_lines w f) l

/-- R81 on one line. -/
theorem Plant.line_takePulseOf (w : Plant) (p : Port) (f : Half → Bool) (level : LineId → Bool)
    (l : LineId) :
    (w.takePulseOf p f level).line l =
      match (w.line l).state with
      | .pulsing r =>
        if r.owner == p && f r.tag then (w.line l).rest (level l) .static else w.line l
      | _ => w.line l := by
  unfold Plant.takePulseOf
  refine (Plant.line_updAll w _ l).trans ?_
  cases (w.line l).state <;> rfl

@[simp] theorem mem_allLines (l : LineId) : l ∈ allLines := List.mem_finRange l

@[simp] theorem mem_allPorts (p : Port) : p ∈ allPorts := List.mem_finRange p

theorem nodup_allLines : allLines.Nodup := List.nodup_finRange 16

@[simp] theorem Line.rest_mode (b : Bool) (st : LineState) (x : Line) : (x.rest b st).mode = x.mode := rfl

@[simp] theorem Line.rest_lease (b : Bool) (st : LineState) (x : Line) : (x.rest b st).lease = x.lease :=
  rfl

@[simp] theorem Line.rest_level (b : Bool) (st : LineState) (x : Line) : (x.rest b st).level = b := rfl

@[simp] theorem Line.rest_state (b : Bool) (st : LineState) (x : Line) : (x.rest b st).state = st := rfl

/-! ## Queues -/

theorem Inbox.post_eq (n : Notice) (b : Inbox) :
    b.post n = if b.queue.length < 16 then ⟨b.queue ++ [n], b.overflow⟩ else ⟨b.queue, true⟩ := by
  unfold Inbox.post Config.queueDepth; split <;> rfl

theorem Inbox.post_bounded (n : Notice) {b : Inbox} (h : b.queue.length ≤ 16) :
    (b.post n).queue.length ≤ 16 := by
  rw [Inbox.post_eq]; split
  · simp; omega
  · exact h

theorem Plant.inbox_post (w : Plant) (p q : Port) (b : Byte) (t : Half) (d : Detail) :
    (w.post p b t d).inbox q = if q = p then (w.inbox p).post ⟨b, t, w.tc, d⟩ else w.inbox q :=
  upd_get ..

theorem Plant.inbox_postIf (w : Plant) (c : Bool) (p q : Port) (b : Byte) (t : Half) (d : Detail) :
    (w.postIf c p b t d).inbox q =
      if c = true ∧ q = p then (w.inbox p).post ⟨b, t, w.tc, d⟩ else w.inbox q := by
  unfold Plant.postIf
  by_cases h : c = true
  · simp only [h, if_true, Plant.inbox_post]; simp
  · simp [h]

@[simp] theorem Plant.inbox_postAll (w : Plant) (q : Port) (b : Byte) (t : Half) (d : Detail) :
    (w.postAll b t d).inbox q = (w.inbox q).post ⟨b, t, w.tc, d⟩ := updAll_get ..

theorem Plant.inbox_of_inboxes {w w' : Plant} (h : w'.inboxes = w.inboxes) (p : Port) :
    w'.inbox p = w.inbox p := by simp [Plant.inbox, h]

theorem Inbox.postList_append (ns ms : List Notice) (b : Inbox) :
    b.postList (ns ++ ms) = (b.postList ns).postList ms := List.foldl_append ..

/-! ## Leads -/

/-- Lead 0 is a due at TC (R28). -/
theorem lead_eq_zero (tc due : Word) : lead tc due = 0#32 ↔ due = tc := by
  unfold lead; constructor <;> intro h <;> bv_omega

theorem lead_beq_zero (tc due : Word) : (lead tc due == 0#32) = (due == tc) := by
  rw [Bool.eq_iff_iff, beq_iff_eq, beq_iff_eq, lead_eq_zero]

theorem lead_bne_zero (tc due : Word) : (lead tc due != 0#32) = (due != tc) := by
  unfold bne; rw [lead_beq_zero]

theorem isLate_iff (tc due : Word) : isLate tc due = true ↔ 2 ^ 31 ≤ (due - tc).toNat :=
  decide_eq_true_iff

theorem not_isLate_iff (tc due : Word) : isLate tc due = false ↔ (due - tc).toNat < 2 ^ 31 :=
  decide_eq_false_iff_not.trans not_le

theorem reached_iff (v h : Word) : reached v h = true ↔ (v - h).toNat < 2 ^ 31 :=
  decide_eq_true_iff

theorem not_reached_iff (v h : Word) : reached v h = false ↔ 2 ^ 31 ≤ (v - h).toNat :=
  decide_eq_false_iff_not.trans not_lt

/-! ## Insertion -/

theorem insertTimed_perm (tc : Word) (x : Timed) (xs : List Timed) :
    (insertTimed tc x xs).Perm (x :: xs) := by
  induction xs with
  | nil => exact List.Perm.refl _
  | cons y ys ih =>
    unfold insertTimed
    split
    · exact List.Perm.refl _
    · exact (List.Perm.cons y ih).trans (List.Perm.swap x y ys)

@[simp] theorem mem_insertTimed {tc : Word} {x y : Timed} {xs : List Timed} :
    y ∈ insertTimed tc x xs ↔ y = x ∨ y ∈ xs := by
  rw [(insertTimed_perm tc x xs).mem_iff, List.mem_cons]

/-- R42: behind every entry whose lead is not greater, before every entry whose lead is. -/
theorem insertTimed_split (tc : Word) (x : Timed) (xs : List Timed)
    (h : xs.Pairwise fun y z => (lead tc y.due).toNat ≤ (lead tc z.due).toNat) :
    ∃ before after, xs = before ++ after ∧ insertTimed tc x xs = before ++ x :: after ∧
      (∀ y ∈ before, (lead tc y.due).toNat ≤ (lead tc x.due).toNat) ∧
      ∀ y ∈ after, (lead tc x.due).toNat < (lead tc y.due).toNat := by
  induction xs with
  | nil => exact ⟨[], [], rfl, rfl, by simp, by simp⟩
  | cons y ys ih =>
    rw [List.pairwise_cons] at h
    unfold insertTimed
    split
    · next hlt =>
      have hlt' := BitVec.lt_def.mp hlt
      refine ⟨[], y :: ys, rfl, rfl, by simp, ?_⟩
      intro z hz
      rcases List.mem_cons.mp hz with rfl | hz
      · exact hlt'
      · exact Nat.lt_of_lt_of_le hlt' (h.1 z hz)
    · next hlt =>
      obtain ⟨bf, af, e1, e2, h1, h2⟩ := ih h.2
      refine ⟨y :: bf, af, by rw [e1]; rfl, by rw [e2]; rfl, ?_, h2⟩
      intro z hz
      rcases List.mem_cons.mp hz with rfl | hz
      · exact Nat.le_of_not_lt fun hc => hlt (BitVec.lt_def.mpr hc)
      · exact h1 z hz

/-! ## Pulses in flight and the move to HELD -/

theorem Plant.inFlight_eq_zero (w : Plant) : w.inFlight = 0 ↔ ∀ l, ¬ w.pulsingOn l := by
  simp [Plant.inFlight, Plant.pulsingOn, List.filter_eq_nil_iff]

/-- All that `settleHold` can do (R32). -/
theorem Plant.settleHold_cases (w : Plant) :
    (w.timebase = .holding ∧ (∀ l, ¬ w.pulsingOn l) ∧
      w.settleHold = { w with holdTimer := none }.setTimebase .held .pulsesDone) ∨
    ((w.timebase ≠ .holding ∨ ∃ l, w.pulsingOn l) ∧ w.settleHold = w) := by
  unfold Plant.settleHold
  by_cases h : w.timebase = .holding ∧ w.inFlight = 0
  · rw [if_pos h]; exact .inl ⟨h.1, (w.inFlight_eq_zero).mp h.2, rfl⟩
  · rw [if_neg h]
    refine .inr ⟨?_, rfl⟩
    by_cases ht : w.timebase = .holding
    · right
      by_contra hc
      exact h ⟨ht, (w.inFlight_eq_zero).mpr fun l hl => hc ⟨l, hl⟩⟩
    · exact .inl ht

@[simp] theorem Plant.settleHold_lines (w : Plant) : w.settleHold.lines = w.lines := by
  unfold Plant.settleHold; split <;> rfl

@[simp] theorem Plant.settleHold_tc (w : Plant) : w.settleHold.tc = w.tc := by
  unfold Plant.settleHold; split <;> rfl

@[simp] theorem Plant.settleHold_timeline (w : Plant) : w.settleHold.timeline = w.timeline := by
  unfold Plant.settleHold; split <;> rfl

@[simp] theorem Plant.settleHold_armed (w : Plant) : w.settleHold.armed = w.armed := by
  unfold Plant.settleHold; split <;> rfl

@[simp] theorem Plant.settleHold_pulsing (w : Plant) : w.settleHold.pulsing = w.pulsing := by
  unfold Plant.settleHold; split <;> rfl

@[simp] theorem Plant.settleHold_line (w : Plant) (l : LineId) : w.settleHold.line l = w.line l :=
  Plant.line_of_lines w.settleHold_lines l

theorem Plant.settleHold_pulsingOn (w : Plant) (l : LineId) :
    w.settleHold.pulsingOn l ↔ w.pulsingOn l := by
  unfold Plant.pulsingOn; rw [Plant.settleHold_line]

/-- With no pulse left in HOLDING, HELD and its notice to every port (R32). -/
theorem Plant.settleHold_held {w : Plant} (h : w.timebase = .holding) (hn : ∀ l, ¬ w.pulsingOn l) :
    w.settleHold.timebase = .held ∧ w.settleHold.holdTimer = none ∧
      ∀ p, w.settleHold.inbox p =
        (w.inbox p).post (timebaseNotice w.tc .holding .held .pulsesDone) := by
  rcases w.settleHold_cases with ⟨_, _, e⟩ | ⟨hc, _⟩
  · rw [e]
    refine ⟨rfl, rfl, fun p => ?_⟩
    unfold Plant.setTimebase
    rw [Plant.inbox_postAll, h]
    rfl
  · rcases hc with hc | ⟨l, hl⟩
    · exact absurd h hc
    · exact absurd hl (hn l)

/-- Outside HOLDING, and while a pulse is in flight, nothing moves (R32). -/
theorem Plant.settleHold_same {w : Plant} (h : w.timebase ≠ .holding ∨ ∃ l, w.pulsingOn l) :
    w.settleHold = w := by
  rcases w.settleHold_cases with ⟨h1, h2, _⟩ | ⟨_, e⟩
  · rcases h with h | ⟨l, hl⟩
    · exact absurd h1 h
    · exact absurd hl (h2 l)
  · exact e

/-- Outside HOLDING nothing moves. -/
theorem Plant.settleHold_of_ne {w : Plant} (h : w.timebase ≠ .holding) : w.settleHold = w := by
  unfold Plant.settleHold; rw [if_neg fun hc => h hc.1]

/-! ## Reference clock -/

@[simp] theorem Line.run_level (n : Nat) (x : Line) : (x.run n).level = x.level := rfl

@[simp] theorem Line.run_mode (n : Nat) (x : Line) : (x.run n).mode = x.mode := rfl

@[simp] theorem Line.run_lease (n : Nat) (x : Line) : (x.run n).lease = x.lease.map (Lease.run n) := rfl

@[simp] theorem Line.run_state (n : Nat) (x : Line) : (x.run n).state = x.state.run n := rfl

@[simp] theorem State.runRc_line (s : State) (n : Nat) (l : LineId) :
    (s.runRc n).plant.line l = (s.plant.line l).run n := updAll_get ..

@[simp] theorem Line.run_isPulsing (n : Nat) (x : Line) : (x.run n).isPulsing = x.isPulsing := by
  unfold Line.isPulsing Line.run LineState.run
  cases x.state <;> rfl

@[simp] theorem Line.run_heldBy (n : Nat) (x : Line) (p : Port) : (x.run n).heldBy p = x.heldBy p := by
  unfold Line.heldBy Line.run
  cases x.lease <;> rfl

/-! ## Free orders -/

theorem freeChoice_lt {n : Nat} (h : 0 < n) (f : Nat) : (freeChoice n f).1 < n := by
  unfold freeChoice
  split
  · exact h
  · exact Nat.mod_lt _ h

theorem perm_eraseIdx {α : Type} {xs : List α} {i : Nat} (h : i < xs.length) :
    (xs[i] :: xs.eraseIdx i).Perm xs := by
  induction xs generalizing i with
  | nil => simp at h
  | cons x xs ih =>
    cases i with
    | zero => exact List.Perm.refl _
    | succ j =>
      have hj : j < xs.length := by simpa using h
      simpa using (List.Perm.swap x xs[j] (xs.eraseIdx j)).trans (List.Perm.cons x (ih hj))

theorem freeOrderOf_perm {α : Type} (k : Nat) (xs : List α) (f : Nat) :
    (freeOrderOf k xs f).1.Perm xs := by
  induction k generalizing xs f with
  | zero => exact List.Perm.refl _
  | succ k ih =>
    cases xs with
    | nil => exact List.Perm.refl _
    | cons x xs =>
      have hlt := freeChoice_lt (n := (x :: xs).length) (by simp) f
      have := (ih ((x :: xs).eraseIdx (freeChoice (x :: xs).length f).1)
        (freeChoice (x :: xs).length f).2).cons (x :: xs)[(freeChoice (x :: xs).length f).1]
      have h2 := this.trans (perm_eraseIdx hlt)
      have e : (x :: xs).getD (freeChoice (x :: xs).length f).1 x =
          (x :: xs)[(freeChoice (x :: xs).length f).1] := by
        rw [List.getD_eq_getElem?_getD, List.getElem?_eq_getElem hlt]; rfl
      unfold freeOrderOf
      simp only [e]
      exact h2

/-- A free order is an order of the same list. -/
theorem shuffle_perm {α : Type} (xs : List α) (f : Nat) : (shuffle xs f).1.Perm xs :=
  freeOrderOf_perm ..

end Sys2Proof.Machine
end

