-- ==== Sys2Proof/Laws/Batch.lean ====
section
/-! SUPPORT. What the work of a batch, an advance and a walk can do: to lines (their modes and leases
stay, their states change by R74 and R77), to queues (posts alone), to the timebase. -/

namespace Sys2Proof.Machine

/-! ## Keeping modes and leases, posting to queues -/

theorem Plant.Keeps.refl (w : Plant) : w.Keeps w :=
  ⟨fun _ => rfl, fun _ => rfl, fun _ => ⟨[], rfl⟩⟩

theorem Plant.Keeps.trans {w w' w'' : Plant} (h : w.Keeps w') (k : w'.Keeps w'') : w.Keeps w'' where
  mode l := (k.mode l).trans (h.mode l)
  lease l := (k.lease l).trans (h.lease l)
  inbox p := by
    obtain ⟨ns, hn⟩ := h.inbox p
    obtain ⟨ms, hm⟩ := k.inbox p
    exact ⟨ns ++ ms, by rw [hm, hn, Inbox.postList_append]⟩

/-- Nothing but the entry lists and the timebase is touched. -/
theorem Plant.Keeps.of_lists {w w' : Plant} (hl : w'.lines = w.lines) (hi : w'.inboxes = w.inboxes) :
    w.Keeps w' :=
  ⟨fun l => by rw [Plant.line_of_lines hl], fun l => by rw [Plant.line_of_lines hl],
    fun p => ⟨[], by rw [Plant.inbox_of_inboxes hi]; rfl⟩⟩

/-- A change of a line's level and state. -/
theorem Plant.keeps_setLine (w : Plant) (l : LineId) (f : Line → Line)
    (hm : ∀ x, (f x).mode = x.mode) (hl : ∀ x, (f x).lease = x.lease) : w.Keeps (w.setLine l f) where
  mode m := by rw [Plant.line_setLine]; split <;> simp [*]
  lease m := by rw [Plant.line_setLine]; split <;> simp [*]
  inbox p := ⟨[], rfl⟩

theorem Plant.keeps_post (w : Plant) (p : Port) (b : Byte) (t : Half) (d : Detail) :
    w.Keeps (w.post p b t d) where
  mode _ := rfl
  lease _ := rfl
  inbox q := by
    rw [Plant.inbox_post]
    split
    · next e => exact ⟨[⟨b, t, w.tc, d⟩], by rw [e]; rfl⟩
    · exact ⟨[], rfl⟩

theorem Plant.keeps_postIf (w : Plant) (c : Bool) (p : Port) (b : Byte) (t : Half) (d : Detail) :
    w.Keeps (w.postIf c p b t d) := by
  unfold Plant.postIf
  split
  · exact w.keeps_post p b t d
  · exact .refl w

theorem Plant.keeps_postAll (w : Plant) (b : Byte) (t : Half) (d : Detail) :
    w.Keeps (w.postAll b t d) where
  mode _ := rfl
  lease _ := rfl
  inbox q := ⟨[⟨b, t, w.tc, d⟩], by rw [Plant.inbox_postAll]; rfl⟩

theorem Plant.keeps_setTimebase (w : Plant) (n : Timebase) (c : TimebaseCause) :
    w.Keeps (w.setTimebase n c) := by
  have h : w.Keeps { w with timebase := n } := .of_lists rfl rfl
  exact h.trans (Plant.keeps_postAll ..)

theorem Plant.keeps_settleHold (w : Plant) : w.Keeps w.settleHold := by
  rcases w.settleHold_cases with ⟨_, _, e⟩ | ⟨_, e⟩ <;> rw [e]
  · have h : w.Keeps { w with holdTimer := none } := .of_lists rfl rfl
    exact h.trans (Plant.keeps_setTimebase ..)
  · exact .refl w

/-! ## Steady work: the timebase stays as well -/

/-- The count, the timebase state and the hold timer stay too. -/
structure Plant.Steady (w w' : Plant) : Prop extends w.Keeps w' where
  tc        : w'.tc = w.tc
  timebase  : w'.timebase = w.timebase
  holdTimer : w'.holdTimer = w.holdTimer

theorem Plant.Steady.refl (w : Plant) : w.Steady w := ⟨.refl w, rfl, rfl, rfl⟩

theorem Plant.Steady.trans {w w' w'' : Plant} (h : w.Steady w') (k : w'.Steady w'') : w.Steady w'' :=
  ⟨h.toKeeps.trans k.toKeeps, k.tc.trans h.tc, k.timebase.trans h.timebase,
    k.holdTimer.trans h.holdTimer⟩

theorem Plant.Steady.foldl {α : Type} {f : Plant → α → Plant} (h : ∀ (w : Plant) (x : α), w.Steady (f w x))
    (xs : List α) (w : Plant) : w.Steady (xs.foldl f w) := by
  induction xs generalizing w with
  | nil => exact .refl w
  | cons x xs ih => exact (h w x).trans (ih _)

theorem Plant.steady_lists {w w' : Plant} (hl : w'.lines = w.lines) (hi : w'.inboxes = w.inboxes)
    (ht : w'.tc = w.tc) (hb : w'.timebase = w.timebase) (hh : w'.holdTimer = w.holdTimer) :
    w.Steady w' := ⟨.of_lists hl hi, ht, hb, hh⟩

theorem Plant.steady_setLine (w : Plant) (l : LineId) (f : Line → Line)
    (hm : ∀ x, (f x).mode = x.mode) (hl : ∀ x, (f x).lease = x.lease) : w.Steady (w.setLine l f) :=
  ⟨w.keeps_setLine l f hm hl, rfl, rfl, rfl⟩

theorem Plant.steady_rest (w : Plant) (l : LineId) (b : Bool) (st : LineState) :
    w.Steady (w.setLine l (Line.rest b st)) := w.steady_setLine l _ (fun _ => rfl) fun _ => rfl

theorem Plant.steady_postIf (w : Plant) (c : Bool) (p : Port) (b : Byte) (t : Half) (d : Detail) :
    w.Steady (w.postIf c p b t d) := ⟨w.keeps_postIf .., by simp, by simp, by simp⟩

theorem Plant.steady_post (w : Plant) (p : Port) (b : Byte) (t : Half) (d : Detail) :
    w.Steady (w.post p b t d) := ⟨w.keeps_post .., rfl, rfl, rfl⟩

theorem Plant.steady_again (x : Timed) (w : Plant) : w.Steady (w.again x) := by
  unfold Plant.again
  split <;> exact Plant.steady_lists rfl rfl rfl rfl rfl

theorem Plant.steady_finish (how : Finish) (x : Timed) (w : Plant) : w.Steady (w.finish how x) := by
  have h := w.steady_postIf x.entry.notify x.entry.owner x.entry.subject x.entry.tag
    (how.detail x.entry)
  unfold Plant.finish
  dsimp only
  split
  · exact h.trans (Plant.steady_again ..)
  · exact h

@[simp] theorem Plant.again_lines (x : Timed) (w : Plant) : (w.again x).lines = w.lines := by
  unfold Plant.again; split <;> rfl

@[simp] theorem Plant.again_pulsing (x : Timed) (w : Plant) : (w.again x).pulsing = w.pulsing := by
  unfold Plant.again; split <;> rfl

/-- A completion changes nothing of any line (R56). -/
@[simp] theorem Plant.finish_lines (how : Finish) (x : Timed) (w : Plant) :
    (w.finish how x).lines = w.lines := by
  unfold Plant.finish
  dsimp only
  split <;> simp

@[simp] theorem Plant.finish_pulsing (how : Finish) (x : Timed) (w : Plant) :
    (w.finish how x).pulsing = w.pulsing := by
  unfold Plant.finish
  dsimp only
  split <;> simp

theorem Plant.steady_releasePulse (l : LineId) (r : PulseRec) (cut : Option CutCause) (w : Plant) :
    w.Steady (w.releasePulse l r cut) := by
  unfold Plant.releasePulse
  refine (w.steady_rest l false .static).trans ?_
  dsimp only
  split
  · exact .refl _
  · have h : (w.setLine l (Line.rest false .static)).Steady
        ((w.setLine l (Line.rest false .static)).dropPulsing r.owner r.tag) :=
      Plant.steady_lists rfl rfl rfl rfl rfl
    refine h.trans ?_
    split
    · exact (Plant.steady_postIf ..).trans (Plant.steady_finish ..)
    · exact Plant.steady_finish ..

/-- A pulse leaves its line inactive and STATIC, and no other line moves (R77, R80). -/
theorem Plant.releasePulse_lines (l : LineId) (r : PulseRec) (cut : Option CutCause) (w : Plant) :
    (w.releasePulse l r cut).lines = upd w.lines l (Line.rest false .static) := by
  unfold Plant.releasePulse
  dsimp only
  split
  · rfl
  · split <;> simp

theorem Plant.line_releasePulse (l m : LineId) (r : PulseRec) (cut : Option CutCause) (w : Plant) :
    (w.releasePulse l r cut).line m =
      if m = l then (w.line l).rest false .static else w.line m := by
  unfold Plant.line
  rw [Plant.releasePulse_lines, upd_get]

theorem Plant.steady_showGenerator (l : LineId) (g : Generator) (w : Plant) :
    w.Steady (w.showGenerator l g) := w.steady_rest ..

theorem Plant.steady_applyLoad (l : LineId) (ld : Load) (c : ApplyCause) (w : Plant) :
    w.Steady (w.applyLoad l ld c) :=
  (w.steady_showGenerator l _).trans (Plant.steady_postIf ..)

theorem Plant.applyLoad_lines (l : LineId) (ld : Load) (c : ApplyCause) (w : Plant) :
    (w.applyLoad l ld c).lines =
      upd w.lines l (Line.rest (Generator.fresh ld.wave).output
        (.waving (Generator.fresh ld.wave))) := by
  unfold Plant.applyLoad; simp

theorem Plant.line_applyLoad (l m : LineId) (ld : Load) (c : ApplyCause) (w : Plant) :
    (w.applyLoad l ld c).line m =
      if m = l then (w.line l).rest (Generator.fresh ld.wave).output
        (.waving (Generator.fresh ld.wave)) else w.line m := by
  unfold Plant.line
  rw [Plant.applyLoad_lines, upd_get]

theorem Plant.line_showGenerator (l m : LineId) (g : Generator) (w : Plant) :
    (w.showGenerator l g).line m = if m = l then (w.line l).rest g.output (.waving g) else w.line m :=
  Plant.line_setLine ..

theorem Plant.steady_rewind (l : LineId) (g : Generator) (c : ApplyCause) (w : Plant) :
    w.Steady (w.rewind l g c) := by
  unfold Plant.rewind
  split
  · exact Plant.steady_applyLoad ..
  · exact Plant.steady_showGenerator ..

theorem Plant.steady_countGenerator (l : LineId) (g : Generator) (w : Plant) :
    w.Steady (w.countGenerator l g) := by
  unfold Plant.countGenerator
  split
  · exact .refl w
  · split
    · exact Plant.steady_showGenerator ..
    · exact Plant.steady_rewind ..

theorem Plant.steady_stage (l : LineId) (g : Generator) (ld : Load) (w : Plant) :
    w.Steady (w.stage l g ld) := by
  unfold Plant.stage
  split
  · exact Plant.steady_applyLoad ..
  · exact w.steady_setLine l _ (fun _ => rfl) fun _ => rfl

theorem Plant.steady_clearLine (l : LineId) (p : Port) (w : Plant) : w.Steady (w.clearLine l p) := by
  unfold Plant.clearLine
  split
  · exact .refl w
  · exact Plant.steady_releasePulse ..
  · exact w.steady_setLine l _ (fun _ => rfl) fun _ => rfl
  · exact (w.steady_rest ..).trans (Plant.steady_post ..)

/-- The first part of R74 on the lines: the winner's line is STATIC at its quiet level. -/
theorem Plant.clearLine_lines (l : LineId) (p : Port) (w : Plant) :
    (w.clearLine l p).lines = upd w.lines l fun x => x.rest (w.line l).quietLevel .static := by
  unfold Plant.clearLine
  have hq : ∀ b, (w.line l).quietLevel = b → ∀ f : Line → Line,
      f (w.line l) = (w.line l).rest b .static →
      upd w.lines l f = upd w.lines l fun x => x.rest (w.line l).quietLevel .static := by
    intro b hb f hf
    apply get_ext
    intro j
    simp only [upd_get]
    split
    · change f (w.line l) = (w.line l).rest _ _
      rw [hf, hb]
    · rfl
  split
  · next h =>
    refine ((upd_id w.lines l _ ?_)).symm
    change (w.line l).rest _ _ = w.line l
    unfold Line.rest Line.quietLevel
    rw [h]
    cases hx : w.line l
    simp_all
  · next r h =>
    rw [Plant.releasePulse_lines]
    exact hq false (by unfold Line.quietLevel; rw [h]) _ rfl
  · next g h =>
    exact hq (w.line l).level (by unfold Line.quietLevel; rw [h]) (fun x => { x with state := .static }) rfl
  · next r h =>
    exact hq r.saved (by unfold Line.quietLevel; rw [h]) _ rfl

theorem Plant.steady_applyWinner (x : Timed) (l : LineId) (a : LineAction) (w : Plant) :
    w.Steady (w.applyWinner x l a).1 := by
  unfold Plant.applyWinner
  split
  · exact (w.steady_clearLine ..).trans (Plant.steady_rest ..)
  · exact (w.steady_clearLine ..).trans (Plant.steady_rest ..)
  · exact (w.steady_clearLine ..).trans (Plant.steady_setLine _ _ _ (fun _ => rfl) fun _ => rfl)
  · exact (w.steady_clearLine ..).trans (Plant.steady_rest ..)
  · exact ((w.steady_clearLine ..).trans (Plant.steady_rest ..)).trans
      (Plant.steady_lists rfl rfl rfl rfl rfl)
  · split
    · exact Plant.steady_stage ..
    · exact (w.steady_clearLine ..).trans (Plant.steady_showGenerator ..)

/-- Both parts of R74 on the lines: the winner's line takes the action, no other line moves. -/
theorem Plant.applyWinner_line (x : Timed) (l m : LineId) (a : LineAction) (w : Plant) :
    (w.applyWinner x l a).1.line m = if m = l then (w.line l).applied x.entry a else w.line m := by
  have hc : ∀ m, (w.clearLine l x.entry.owner).line m =
      if m = l then (w.line l).rest (w.line l).quietLevel .static else w.line m := by
    intro m
    unfold Plant.line
    rw [Plant.clearLine_lines, upd_get]
    rfl
  have hcl := hc l
  rw [if_pos rfl] at hcl
  cases a with
  | set =>
    simp only [Plant.applyWinner, Plant.line_setLine, hcl, hc]
    split <;> rfl
  | clear =>
    simp only [Plant.applyWinner, Plant.line_setLine, hcl, hc]
    split <;> rfl
  | toggle =>
    simp only [Plant.applyWinner, Plant.line_setLine, hcl, hc]
    split <;> rfl
  | waveStop =>
    simp only [Plant.applyWinner, Plant.line_setLine, hcl, hc]
    split <;> rfl
  | pulse width =>
    change ((w.clearLine l x.entry.owner).setLine l _).line m = _
    simp only [Plant.line_setLine, hcl, hc]
    split <;> rfl
  | wave v =>
    simp only [Plant.applyWinner, Line.applied]
    split
    · next g hg =>
      simp only [Plant.stage]
      by_cases hp : g.wave.period = 0#16
      · simp only [hp, if_true]
        refine (Plant.line_applyLoad ..).trans ?_
        simp [hg, hp]
      · simp [hp, Plant.line_setLine, hg]
    · next hn =>
      change ((w.clearLine l x.entry.owner).setLine l _).line m = _
      simp only [Plant.line_setLine, hcl, hc]
      split
      · rfl
      · rfl

/-! ## Batches -/

theorem Entry.sameKey_iff (e f : Entry) : e.sameKey f = true ↔ e.name = f.name := by
  simp [Entry.sameKey, Entry.isKey, Entry.name]

theorem Entry.onLine_iff (l : LineId) (e : Entry) : e.onLine l = true ↔ e.line? = some l := by
  simp [Entry.onLine]

/-- What the fold of `prefer` finds: the least level, and among equals the setting's choice (R52). -/
theorem foldl_prefer (arb : Arbitration) (x : Timed) (xs : List Timed) :
    ∃ before after, x :: xs = before ++ xs.foldl (prefer arb) x :: after ∧
      (∀ y ∈ x :: xs, (xs.foldl (prefer arb) x).entry.level ≤ y.entry.level) ∧
      (arb = .oldest → ∀ y ∈ before, (xs.foldl (prefer arb) x).entry.level < y.entry.level) ∧
      (arb = .newest → ∀ y ∈ after, (xs.foldl (prefer arb) x).entry.level < y.entry.level) := by
  induction xs using List.reverseRecOn with
  | nil => exact ⟨[], [], rfl, by simp, by simp, by simp⟩
  | append_singleton ys z ih =>
    obtain ⟨bf, af, e, h1, h2, h3⟩ := ih
    rw [List.foldl_append]
    generalize ys.foldl (prefer arb) x = v at *
    simp only [List.foldl_cons, List.foldl_nil]
    unfold prefer
    have hmem : ∀ y, y ∈ x :: (ys ++ [z]) ↔ y ∈ x :: ys ∨ y = z := by simp [or_assoc]
    split
    · next hlt =>
      refine ⟨x :: ys, [], by simp, ?_, ?_, by simp⟩
      · intro y hy; rcases (hmem y).mp hy with hy | rfl
        · exact le_of_lt (lt_of_lt_of_le hlt (h1 y hy))
        · exact le_refl _
      · intro _ y hy; exact lt_of_lt_of_le hlt (h1 y hy)
    · next hlt =>
      split
      · next heq =>
        refine ⟨x :: ys, [], by simp, ?_, ?_, by simp⟩
        · intro y hy; rcases (hmem y).mp hy with hy | rfl
          · rw [heq.1]; exact h1 y hy
          · exact le_refl _
        · intro ha; rw [heq.2] at ha; cases ha
      · next hne =>
        have hvz : v.entry.level ≤ z.entry.level := not_lt.mp hlt
        refine ⟨bf, af ++ [z], by rw [← List.cons_append, e]; simp, ?_, h2, ?_⟩
        · intro y hy; rcases (hmem y).mp hy with hy | rfl
          · exact h1 y hy
          · exact hvz
        · intro ha y hy
          rw [List.mem_append, List.mem_singleton] at hy
          rcases hy with hy | rfl
          · exact h3 ha y hy
          · exact lt_of_le_of_ne hvz fun hc => hne ⟨hc.symm, ha⟩

/-- A winner is of its batch and names the line (R52). -/
theorem winner_mem {arb : Arbitration} {l : LineId} {batch : List Timed} {v : Timed}
    (h : winner arb l batch = some v) : v ∈ batch ∧ v.entry.line? = some l := by
  unfold winner at h
  split at h
  · cases h
  · next x xs hf =>
    cases h
    obtain ⟨bf, af, e, -⟩ := foldl_prefer arb x xs
    have : xs.foldl (prefer arb) x ∈ x :: xs := by rw [e]; simp
    rw [← hf, List.mem_filter, Entry.onLine_iff] at this
    exact this

/-- The line effect of one entry's work: a winner's action on its line, nothing else (R53, R54). -/
theorem Plant.runOne_line (arb : Arbitration) (batch : List Timed) (w : Plant) (x : Timed)
    (m : LineId) :
    (w.runOne arb batch x).line m =
      match x.entry.action with
      | .onLine l a =>
        if m = l ∧ ((winner arb l batch).getD x).entry.sameKey x.entry = true then
          (w.line l).applied x.entry a
        else w.line m
      | .mark => w.line m := by
  unfold Plant.runOne
  split
  · next h => rw [h]; exact Plant.line_of_lines (Plant.finish_lines ..) m
  · next l a h =>
    rw [h]
    dsimp only
    split
    · next hk =>
      have ha : ∀ o', ((w.applyWinner x l a).1.finish o' x).line m = (w.applyWinner x l a).1.line m :=
        fun o' => Plant.line_of_lines (Plant.finish_lines ..) m
      split <;> (try rw [ha]) <;> rw [Plant.applyWinner_line] <;> simp [hk]
    · next hk =>
      rw [if_neg (fun hc => hk hc.2)]
      exact Plant.line_of_lines (Plant.finish_lines ..) m

theorem Plant.steady_runOne (arb : Arbitration) (batch : List Timed) (w : Plant) (x : Timed) :
    w.Steady (w.runOne arb batch x) := by
  unfold Plant.runOne
  split
  · exact Plant.steady_finish ..
  · next l a _ =>
    dsimp only
    split
    · split
      · exact Plant.steady_applyWinner ..
      · exact (Plant.steady_applyWinner x l a w).trans (Plant.steady_finish ..)
    · exact Plant.steady_finish ..

/-- A batch changes no count, timebase state, hold timer, mode or lease, and only posts. -/
theorem Plant.steady_runBatch (arb : Arbitration) (batch : List Timed) (w : Plant) :
    w.Steady (w.runBatch arb batch) :=
  Plant.Steady.foldl (fun w x => Plant.steady_runOne arb batch w x) batch w

theorem Plant.steady_releaseDue (arb : Arbitration) (w : Plant) : w.Steady (w.releaseDue arb) :=
  have h : w.Steady { w with timeline := w.timeline.filter fun x => lead w.tc x.due != 0#32 } :=
    Plant.steady_lists rfl rfl rfl rfl rfl
  h.trans (Plant.steady_runBatch ..)

/-- A line that no entry of the batch names is not touched. -/
theorem Plant.runBatch_line_of_none {arb : Arbitration} {batch : List Timed} {l : LineId}
    (h : ∀ x ∈ batch, x.entry.line? ≠ some l) (w : Plant) :
    (w.runBatch arb batch).line l = w.line l := by
  have key : ∀ (ys : List Timed) (w : Plant), (∀ x ∈ ys, x ∈ batch) →
      (ys.foldl (Plant.runOne arb batch) w).line l = w.line l := by
    intro ys
    induction ys with
    | nil => intros; rfl
    | cons y ys ih =>
      intro w hy
      rw [List.foldl_cons, ih _ fun x hx => hy x (List.mem_cons_of_mem _ hx), Plant.runOne_line]
      split
      · next m a ha =>
        rw [if_neg]
        rintro ⟨rfl, -⟩
        exact h y (hy y List.mem_cons_self) (by simp [Entry.line?, ha])
      · rfl
  exact key batch w fun _ h => h

theorem Plant.releaseDue_line_of_none {arb : Arbitration} {w : Plant} {l : LineId}
    (h : ∀ x ∈ w.dueNow, x.entry.line? ≠ some l) : (w.releaseDue arb).line l = w.line l := by
  unfold Plant.releaseDue
  rw [Plant.runBatch_line_of_none h]
  rfl

theorem Plant.steady_place (arb : Arbitration) (x : Timed) (w : Plant) : w.Steady (w.place arb x) := by
  unfold Plant.place
  split
  · exact Plant.steady_runBatch ..
  · exact Plant.steady_lists rfl rfl rfl rfl rfl

theorem Plant.steady_release (arb : Arbitration) (x : Waiting) (o : Word) (w : Plant) :
    w.Steady (w.release arb x o) :=
  have h : w.Steady (w.dropArmed x.entry.owner x.entry.tag) := Plant.steady_lists rfl rfl rfl rfl rfl
  h.trans (Plant.steady_place ..)

theorem Plant.steady_countDown (arb : Arbitration) (x : Waiting) (o : Word) (w : Plant) :
    w.Steady (w.countDown arb x o) := by
  unfold Plant.countDown
  dsimp only
  split
  · exact Plant.steady_release ..
  · exact Plant.steady_lists rfl rfl rfl rfl rfl

theorem Plant.steady_walkEdge (arb : Arbitration) (c : Channel) (xs : List Waiting) (w : Plant) :
    w.Steady (w.walkEdge arb c xs) := by
  refine Plant.Steady.foldl (fun w x => ?_) xs w
  split
  · split
    · exact Plant.steady_countDown ..
    · exact .refl w
  · exact .refl w

theorem Plant.steady_walkCount (arb : Arbitration) (t : TallyId) (v : Word) (xs : List Waiting)
    (w : Plant) : w.Steady (w.walkCount arb t v xs) := by
  refine Plant.Steady.foldl (fun w x => ?_) xs w
  split
  · split
    · exact Plant.steady_release ..
    · exact .refl w
  · exact .refl w

/-! ## The advance -/

theorem Plant.Keeps.foldl {α : Type} {f : Plant → α → Plant} (h : ∀ (w : Plant) (x : α), w.Keeps (f w x))
    (xs : List α) (w : Plant) : w.Keeps (xs.foldl f w) := by
  induction xs generalizing w with
  | nil => exact .refl w
  | cons x xs ih => exact (h w x).trans (ih _)

theorem Plant.keeps_advanceLine (w : Plant) (l : LineId) : w.Keeps (w.advanceLine l) := by
  unfold Plant.advanceLine
  split
  · split
    · exact (Plant.steady_releasePulse ..).toKeeps.trans (Plant.keeps_settleHold _)
    · exact w.keeps_setLine l _ (fun _ => rfl) fun _ => rfl
  · exact (Plant.steady_countGenerator ..).toKeeps
  · exact .refl w
  · exact .refl w

theorem Plant.keeps_advance (w : Plant) : w.Keeps w.advance :=
  Plant.Keeps.foldl Plant.keeps_advanceLine allLines w

@[simp] theorem Plant.advanceLine_tc (w : Plant) (l : LineId) : (w.advanceLine l).tc = w.tc := by
  unfold Plant.advanceLine
  split
  · split
    · unfold Plant.endPulse
      rw [Plant.settleHold_tc]
      exact (Plant.steady_releasePulse ..).tc
    · rfl
  · exact (Plant.steady_countGenerator ..).tc
  · rfl
  · rfl

@[simp] theorem Plant.advance_tc (w : Plant) : w.advance.tc = w.tc := by
  unfold Plant.advance
  induction allLines generalizing w with
  | nil => rfl
  | cons l ls ih => rw [List.foldl_cons, ih, Plant.advanceLine_tc]

/-- Outside HOLDING an advance leaves the timebase as it stands. -/
theorem Plant.steady_advanceLine {w : Plant} (h : w.timebase ≠ .holding) (l : LineId) :
    w.Steady (w.advanceLine l) := by
  unfold Plant.advanceLine
  split
  · split
    · unfold Plant.endPulse
      have hs := Plant.steady_releasePulse l (by assumption) none w
      rw [Plant.settleHold_of_ne (by rw [hs.timebase]; exact h)]
      exact hs
    · exact w.steady_setLine l _ (fun _ => rfl) fun _ => rfl
  · exact Plant.steady_countGenerator ..
  · exact .refl w
  · exact .refl w

theorem Plant.steady_advance {w : Plant} (h : w.timebase ≠ .holding) : w.Steady w.advance := by
  unfold Plant.advance
  induction allLines generalizing w with
  | nil => exact .refl w
  | cons l ls ih =>
    have h1 := Plant.steady_advanceLine h l
    exact h1.trans (ih (by rw [h1.timebase]; exact h))

/-- The advance of one line touches that line alone, and takes it where R77 and R90 to R93 say. -/
theorem Plant.advanceLine_line (w : Plant) (l m : LineId) :
    (w.advanceLine l).line m = if m = l then (w.line l).advanced else w.line m := by
  unfold Plant.advanceLine Line.advanced
  split
  · next r h =>
    simp only [h]
    by_cases hr : r.remaining ≤ 1
    · simp only [hr, if_true]
      rw [Plant.endPulse, Plant.line_of_lines (Plant.settleHold_lines _), Plant.line_releasePulse]
    · simp only [hr, if_false]
      rw [Plant.line_setLine]
  · next g h =>
    simp only [h, Plant.countGenerator]
    by_cases hp : g.wave.period = 0#16
    · simp only [hp, if_true]
      split
      · next e => rw [e]
      · rfl
    · simp only [hp, if_false]
      cases hn : g.next with
      | some g' => simp only [Plant.line_showGenerator]
      | none =>
        cases hl : g.load with
        | some ld => simp only [Plant.rewind, hl, Plant.line_applyLoad]
        | none => simp only [Plant.rewind, hl, Plant.line_showGenerator]
  · next h =>
    simp only [h]
    split
    · next e => rw [e]
    · rfl
  · next h =>
    simp only [h]
    split
    · next e => rw [e]
    · rfl

/-- The advance takes every line where R77 and R90 to R93 say. -/
theorem Plant.advance_line (w : Plant) (l : LineId) : w.advance.line l = (w.line l).advanced := by
  unfold Plant.advance
  have key : ∀ (ls : List LineId) (w : Plant), ls.Nodup →
      (ls.foldl Plant.advanceLine w).line l =
        if l ∈ ls then (w.line l).advanced else w.line l := by
    intro ls
    induction ls with
    | nil => intro w _; simp
    | cons k ks ih =>
      intro w hnd
      rw [List.nodup_cons] at hnd
      rw [List.foldl_cons, ih _ hnd.2, Plant.advanceLine_line]
      by_cases e : l = k
      · subst e; simp [hnd.1]
      · simp [e]
  rw [key _ _ nodup_allLines, if_pos (mem_allLines l)]

/-! ## The notes of moves that a batch takes (R62, R64) -/

@[simp] theorem State.clearBatch_nil (s : State) : s.clearBatch [] = s := by
  unfold State.clearBatch
  simp only [List.any_nil, Bool.not_false, List.filter_true]

/-- A batch takes the notes of its own entries alone. -/
theorem State.clearBatch_filter (s : State) (xs : List Timed) (f : Timed → Bool) :
    (s.clearBatch (xs.filter f)).moved =
      s.moved.filter fun q => !xs.any fun x => f x && x.entry.name == q := by
  rw [State.clearBatch_moved]
  congr 1
  funext q
  rw [List.any_filter]
  rfl

theorem Plant.tickBatch_of_running {w : Plant} (h : w.timebase = .running) : w.tickBatch =
    w.countTick.advance.timeline.filter fun x => x.due == w.tc + 1#32 := by
  unfold Plant.tickBatch
  rw [h]
  simp only [Plant.dueNow, Plant.advance_tc, Plant.countTick_tc, lead_beq_zero]

theorem Plant.tickBatch_of_ne {w : Plant} (h : w.timebase ≠ .running) : w.tickBatch = [] := by
  unfold Plant.tickBatch
  generalize w.countTick.advance.dueNow = batch
  revert h
  cases w.timebase <;> intro h
  · rfl
  · rfl
  · exact absurd rfl h
  · rfl

theorem Plant.startBatch_of_stopped {w : Plant} (h : w.timebase = .held ∨ w.timebase = .holding) :
    w.startBatch = w.timeline.filter fun x => x.due == w.tc := by
  unfold Plant.startBatch
  rcases h with h | h <;> rw [h] <;> simp only [Plant.dueNow, lead_beq_zero]

theorem Plant.startBatch_of_running {w : Plant} (h : w.timebase = .running) : w.startBatch = [] := by
  unfold Plant.startBatch
  rw [h]

end Sys2Proof.Machine
end

