-- ==== Sys2Proof/Laws/Capture.lean ====
section
/-! SUPPORT. What an accepted edge can do: which works its claims are (R51, R125), that each keeps modes
and leases and posts alone, where an EDGE notice stands in a queue (R129); the release of an armed entry
(R132, R146), the work of a winner (R54, R74) and the end of a pulse on its entry (R33, R77, R80). -/

namespace Sys2Proof.Machine

/-! ## Claims -/

theorem Table.paces_iff (t : Table) (c : Channel) : t.paces c = true ↔ t.source = .pace c := by
  simp [Table.paces]

theorem Plant.dueNow_ne_nil (w : Plant) : w.dueNow ≠ [] ↔ ∃ x ∈ w.timeline, x.due = w.tc := by
  unfold Plant.dueNow
  rw [Ne, List.filter_eq_nil_iff]
  simp [lead_beq_zero]

theorem waitsOn_iff (c : Channel) (armed : List Waiting) :
    waitsOn c armed = true ↔ ∃ x ∈ armed, ∃ n o, x.entry.trigger = .edge c n o := by
  unfold waitsOn
  rw [List.any_eq_true]
  refine exists_congr fun x => and_congr_right fun _ => ?_
  split
  · next h => simp [h]
  · next h => exact ⟨fun e => (Bool.false_ne_true e).elim, fun ⟨_, _, e⟩ => (h _ _ _ e).elim⟩

theorem someReached_iff (t : TallyId) (v : Word) (armed : List Waiting) :
    someReached t v armed = true ↔
      ∃ x ∈ armed, ∃ h o, x.entry.trigger = .count t h o ∧ (v - h).toNat < 2 ^ 31 := by
  unfold someReached
  rw [List.any_eq_true]
  refine exists_congr fun x => and_congr_right fun _ => ?_
  split
  · next h => simp [h, reached]
  · next h => exact ⟨fun e => (Bool.false_ne_true e).elim, fun ⟨_, _, e, _⟩ => (h _ _ _ e).elim⟩

theorem mem_claims (table : Table) (c : Channel) (vs : Vector Word 8) (armed : List Waiting)
    (w : Plant) (k : Claim) : k ∈ claims table c vs armed w ↔ match k with
      | .tickBatch => table.source = .pace c ∧ w.timebase = .running ∧
          ∃ x ∈ w.timeline, x.due = w.tc
      | .advance => table.source = .pace c ∧ w.timebase = .holding
      | .walk => ∃ x ∈ armed, ∃ n o, x.entry.trigger = .edge c n o
      | .count n v => (table.tallies.get n).binding = some c ∧ v = vs.get n ∧
          ∃ x ∈ armed, ∃ h o, x.entry.trigger = .count n h o ∧ (v - h).toNat < 2 ^ 31 := by
  unfold claims
  cases k <;> simp only [List.mem_append, List.mem_map, List.mem_filter, List.mem_finRange, true_and,
    Table.paces_iff, Plant.dueNow_ne_nil, waitsOn_iff]
  case count t v =>
    simp only [Bool.and_eq_true, beq_iff_eq, someReached_iff, Claim.count.injEq]
    refine (or_iff_right ?_).trans ⟨?_, ?_⟩
    · rintro ((h | h) | h) <;> split at h <;> simp at h
    · rintro ⟨a, ⟨h1, h2⟩, rfl, rfl⟩; exact ⟨h1, rfl, h2⟩
    · rintro ⟨h1, rfl, h2⟩; exact ⟨t, ⟨h1, h2⟩, rfl, rfl⟩
  all_goals split <;> split <;> split <;> simp_all

theorem nodup_claims (table : Table) (c : Channel) (vs : Vector Word 8) (armed : List Waiting)
    (w : Plant) : (claims table c vs armed w).Nodup := by
  unfold claims
  rw [List.nodup_append]
  refine ⟨?_, List.Nodup.map_on ?_ ((List.nodup_finRange 8).filter _), ?_⟩
  · split <;> split <;> split <;> simp
  · intro x _ y _ h; simp at h; exact h.1
  · intro a ha b hb e
    subst e
    rw [List.mem_map] at hb
    obtain ⟨t, -, rfl⟩ := hb
    revert ha
    split <;> split <;> split <;> simp

theorem Plant.keeps_claim (arb : Arbitration) (c : Channel) (armed : List Waiting) (w : Plant)
    (k : Claim) : w.Keeps (w.claim arb c armed k) := by
  cases k
  · exact (Plant.steady_releaseDue ..).toKeeps
  · exact Plant.keeps_advance ..
  · exact (Plant.steady_walkEdge ..).toKeeps
  · exact (Plant.steady_walkCount ..).toKeeps

/-! ## Places in a queue -/

/-- Posts alone never shorten a queue. -/
theorem Plant.Keeps.queue_le {w w' : Plant} (h : w.Keeps w') (p : Port) :
    (w.inbox p).queue.length ≤ (w'.inbox p).queue.length := by
  obtain ⟨ns, hns⟩ := h.inbox p
  rw [hns]
  generalize w.inbox p = b
  clear hns
  induction ns generalizing b with
  | nil => exact Nat.le_refl _
  | cons n ns ih =>
    refine Nat.le_trans ?_ (ih (b.post n))
    rw [Inbox.post_eq]
    split <;> simp

theorem insertIdx_split {α : Type} (x : α) : ∀ (i : Nat) (xs : List α), i ≤ xs.length →
    xs.insertIdx i x = xs.take i ++ x :: xs.drop i
  | 0, xs, _ => by simp
  | _ + 1, [], h => by simp at h
  | i + 1, y :: ys, h => by simp at h; simp [insertIdx_split x i ys h]

/-- A notice at place `i` of a queue: what stands before it, what stands behind it, what is lost. -/
theorem Inbox.insertAt_split (n : Notice) (b : Inbox) {i lo : Nat} (hlo : lo ≤ i)
    (hi : i ≤ b.queue.length) :
    ∃ before behind, b.queue = before ++ behind ∧ lo ≤ before.length ∧ b.insertAt i n =
      ⟨(before ++ n :: behind).take 16, b.overflow || decide (16 ≤ b.queue.length)⟩ := by
  refine ⟨b.queue.take i, b.queue.drop i, (List.take_append_drop _ _).symm,
    by rw [List.length_take]; omega, ?_⟩
  unfold Inbox.insertAt
  simp only [insertIdx_split n i b.queue hi, Config.queueDepth]
  congr 1
  simp
  congr 2
  rw [eq_iff_iff]
  omega

/-! ## Releases, winners, pulses -/

/-- The release of an armed entry (R132, R146): executed at once at offset 0 in RUNNING, else inserted. -/
theorem Plant.release_placed (arb : Arbitration) (x : Waiting) (o : Word) (w : Plant) :
    (w.timebase = .running → o = 0#32 → w.release arb x o =
      (w.dropArmed x.entry.owner x.entry.tag).runBatch arb [⟨x.entry, w.tc⟩]) ∧
    (w.timebase ≠ .running ∨ o ≠ 0#32 → w.release arb x o =
      (w.dropArmed x.entry.owner x.entry.tag).insert ⟨x.entry, w.tc + o⟩) := by
  have hz : w.tc + o = w.tc ↔ o = 0#32 := ⟨fun h => by bv_omega, fun h => by simp [h]⟩
  unfold Plant.release Plant.place
  refine ⟨fun h ho => ?_, fun h => ?_⟩
  · refine (if_pos ⟨h, (lead_eq_zero _ _).mpr (hz.mpr ho)⟩).trans ?_
    rw [hz.mpr ho]
  · refine if_neg ?_
    rintro ⟨a, b⟩
    rcases h with h | h
    · exact h a
    · exact h (hz.mp ((lead_eq_zero _ _).mp b))

/-- The work of a line's winner: it is applied, and completes unless it is a PULSE (R54). -/
theorem Plant.runOne_winner {arb : Arbitration} {batch : List Timed} {w : Plant} {x v : Timed}
    {l : LineId} {a : LineAction} (hx : x.entry.action = .onLine l a)
    (hv : winner arb l batch = some v) (hn : v.entry.name = x.entry.name) :
    w.runOne arb batch x = match (generalizing := false) a with
      | .pulse _ => (w.applyWinner x l a).1
      | _ => (w.applyWinner x l a).1.finish (.done (w.applyWinner x l a).2) x := by
  unfold Plant.runOne
  simp only [hx, hv, Option.getD_some]
  rw [if_pos ((Entry.sameKey_iff _ _).mpr hn)]
  all_goals cases a <;> rfl

/-- A pulse leaves its line and its entry completes, a cut with its notice before it. -/
theorem Plant.releasePulse_found {w : Plant} {l : LineId} {k : PulseRec} {x : Timed}
    (hx : w.findPulsing k.owner k.tag = some x) (cut : Option CutCause) :
    w.releasePulse l k cut = Plant.finish (.done .none) x (match cut with
      | some c => ((w.setLine l (Line.rest false .static)).dropPulsing k.owner k.tag).postIf
          x.entry.notify k.owner (lineByte l) k.tag (.pulseCut c k.remaining)
      | none => (w.setLine l (Line.rest false .static)).dropPulsing k.owner k.tag) := by
  unfold Plant.releasePulse
  simp only [hx]
  all_goals cases cut <;> rfl

end Sys2Proof.Machine
end

