-- ==== Sys2Proof/Laws/Clock.lean ====
section
/-! SUPPORT. What RC running on can do: which events are due, the frame of one event, RC up to the next
event and a stretch of RC, each said once (R24, R33, R116, R118, R152, R177). -/

namespace Sys2Proof.Machine

/-! ## Events due -/

theorem State.mem_due (s : State) (c : Instr) : c ∈ s.due ↔ (0, c) ∈ s.ahead := by
  unfold State.due
  simp only [List.mem_map, List.mem_filter, beq_iff_eq, Prod.exists]
  exact ⟨fun ⟨_, _, ⟨h, rfl⟩, rfl⟩ => h, fun h => ⟨0, c, ⟨h, rfl⟩, rfl⟩⟩

/-- Every event ahead, with its time. -/
theorem State.mem_ahead (s : State) (t : Nat) (c : Instr) : (t, c) ∈ s.ahead ↔
    (c = .tick ∧ s.dividing = true ∧ s.plant.timebase.ticks = true ∧ t = s.table.period - s.divider) ∨
    (c = .setupWindowExpiry ∧ s.device = .setup ∧ s.window = some t) ∨
    (c = .holdTimerExpiry ∧ s.plant.timebase = .holding ∧ s.plant.holdTimer = some t) ∨
    (∃ l k, c = .lapse l ∧ (s.plant.line l).lease = some k ∧ t = k.remaining) ∨
    (∃ l k, c = .phaseAEnd l (Config.freeSense s.rc l.val) ∧ (s.plant.line l).state = .probing k ∧
      k.phase = .a ∧ t = k.time) ∨
    ∃ l k a, c = .phaseBEnd l (Config.freeSense s.rc l.val) ∧ (s.plant.line l).state = .probing k ∧
      k.phase = .b a ∧ t = k.time := by
  have hl : ∀ l, (t, c) ∈ (s.plant.line l).ahead s.rc l ↔
      (∃ k, c = .lapse l ∧ (s.plant.line l).lease = some k ∧ t = k.remaining) ∨
      (∃ k, c = .phaseAEnd l (Config.freeSense s.rc l.val) ∧ (s.plant.line l).state = .probing k ∧
        k.phase = .a ∧ t = k.time) ∨
      ∃ k a, c = .phaseBEnd l (Config.freeSense s.rc l.val) ∧ (s.plant.line l).state = .probing k ∧
        k.phase = .b a ∧ t = k.time := by
    intro l
    unfold Line.ahead
    rw [List.mem_append]
    refine or_congr ?_ ?_
    · cases (s.plant.line l).lease <;> simp [and_comm]
    · split
      · next r hr => rw [hr]; split <;> rename_i hp <;> simp [hp, and_comm]
      · next hr => simp only [List.not_mem_nil, false_iff, not_or, not_exists, not_and]
                   exact ⟨fun k _ h => absurd h (hr k), fun k _ _ h => absurd h (hr k)⟩
  unfold State.ahead
  simp only [List.mem_append, List.mem_flatMap, mem_allLines, true_and, hl, exists_or, or_assoc]
  refine or_congr ?_ (or_congr ?_ (or_congr ?_ Iff.rfl))
  · cases s.dividing <;> cases s.plant.timebase.ticks <;> simp [and_comm]
  · cases s.device <;> cases s.window <;> simp [and_comm, eq_comm]
  · by_cases h : s.plant.timebase = .holding <;> cases s.plant.holdTimer <;>
      simp [h, and_comm, eq_comm]

/-! ## One event -/

/-- All that an event of RC can change. -/
theorem State.takeRc_cases (s : State) (c : Instr) : ∃ device window divider plant moved,
    moved.Sublist s.moved ∧ s.takeRc c = { s with
      device := device, window := window, divider := divider, plant := plant, moved := moved } := by
  cases c
  case tick =>
    rw [State.takeRc]; unfold State.boundary
    split
    · exact ⟨_, _, _, _, _, List.filter_sublist, rfl⟩
    · exact ⟨_, _, _, _, _, List.Sublist.refl _, rfl⟩
  case setupWindowExpiry =>
    rw [State.takeRc]; unfold State.windowExpiry; split <;> exact ⟨_, _, _, _, _, List.Sublist.refl _, rfl⟩
  case holdTimerExpiry =>
    rw [State.takeRc]; unfold State.holdExpiry; split <;> exact ⟨_, _, _, _, _, List.Sublist.refl _, rfl⟩
  case lapse l =>
    rw [State.takeRc]; unfold State.lapse
    split
    · split <;> exact ⟨_, _, _, _, _, List.Sublist.refl _, rfl⟩
    · exact ⟨_, _, _, _, _, List.Sublist.refl _, rfl⟩
  case phaseAEnd l b =>
    rw [State.takeRc]; unfold State.phaseAEnd
    split
    · split
      · split <;> exact ⟨_, _, _, _, _, List.Sublist.refl _, rfl⟩
      · exact ⟨_, _, _, _, _, List.Sublist.refl _, rfl⟩
    · exact ⟨_, _, _, _, _, List.Sublist.refl _, rfl⟩
  case phaseBEnd l b =>
    rw [State.takeRc]; unfold State.phaseBEnd
    split
    · split
      · exact ⟨_, _, _, _, _, List.Sublist.refl _, rfl⟩
      · split <;> exact ⟨_, _, _, _, _, List.Sublist.refl _, rfl⟩
    · exact ⟨_, _, _, _, _, List.Sublist.refl _, rfl⟩
  all_goals exact ⟨s.device, s.window, s.divider, s.plant, s.moved, List.Sublist.refl _, rfl⟩

@[simp] theorem State.takeRc_pending (s : State) (c : Instr) :
    (s.takeRc c).pending = s.pending := by
  obtain ⟨_, _, _, _, _, _, h⟩ := s.takeRc_cases c; rw [h]

@[simp] theorem State.takeRc_rstnLow (s : State) (c : Instr) :
    (s.takeRc c).rstnLow = s.rstnLow := by
  obtain ⟨_, _, _, _, _, _, h⟩ := s.takeRc_cases c; rw [h]

@[simp] theorem State.takeRc_table (s : State) (c : Instr) :
    (s.takeRc c).table = s.table := by
  obtain ⟨_, _, _, _, _, _, h⟩ := s.takeRc_cases c; rw [h]

@[simp] theorem State.takeRc_rc (s : State) (c : Instr) :
    (s.takeRc c).rc = s.rc := by
  obtain ⟨_, _, _, _, _, _, h⟩ := s.takeRc_cases c; rw [h]

@[simp] theorem State.takeRc_ports (s : State) (c : Instr) :
    (s.takeRc c).ports = s.ports := by
  obtain ⟨_, _, _, _, _, _, h⟩ := s.takeRc_cases c; rw [h]

@[simp] theorem State.takeRc_channels (s : State) (c : Instr) :
    (s.takeRc c).channels = s.channels := by
  obtain ⟨_, _, _, _, _, _, h⟩ := s.takeRc_cases c; rw [h]

@[simp] theorem State.takeRc_tallies (s : State) (c : Instr) :
    (s.takeRc c).tallies = s.tallies := by
  obtain ⟨_, _, _, _, _, _, h⟩ := s.takeRc_cases c; rw [h]

/-- An event of RC notes no move. -/
theorem State.takeRc_moved (s : State) (c : Instr) : (s.takeRc c).moved.Sublist s.moved := by
  obtain ⟨_, _, _, _, _, hm, h⟩ := s.takeRc_cases c; rw [h]; exact hm

@[simp] theorem State.takeRc_freeCount (s : State) (c : Instr) :
    (s.takeRc c).freeCount = s.freeCount := by
  obtain ⟨_, _, _, _, _, _, h⟩ := s.takeRc_cases c; rw [h]

/-- A lease with time left goes on, whatever LAPSE stands in the queue (R118). -/
theorem State.lapse_of_remaining {s : State} {l : LineId}
    (h : ∀ k, (s.plant.line l).lease = some k → k.remaining ≠ 0) : s.lapse l = s := by
  unfold State.lapse
  split
  · next k hk => exact if_neg (h k hk)
  · rfl

/-- Each command of an RC event is that event; a TICK where its boundary stands. -/
theorem State.exec_takeRc (s : State) (l : LineId) (b : Bool) :
    (s.table.period ≤ s.divider → exec .tick s = .next (s.takeRc .tick)) ∧
    exec .setupWindowExpiry s = .next (s.takeRc .setupWindowExpiry) ∧
    exec .holdTimerExpiry s = .next (s.takeRc .holdTimerExpiry) ∧
    exec (.lapse l) s = .next (s.takeRc (.lapse l)) ∧
    exec (.phaseAEnd l b) s = .next (s.takeRc (.phaseAEnd l b)) ∧
    exec (.phaseBEnd l b) s = .next (s.takeRc (.phaseBEnd l b)) := by
  refine ⟨fun h => ?_, rfl, rfl, rfl, rfl, rfl⟩
  change Host.Outcome.next _ = _
  rw [Nat.sub_eq_zero_of_le h]
  congr 1
  split
  · rfl
  · next hd => exact (if_neg fun hc => hd hc.1).symm

/-! ## The events of one moment -/

/-- Every property that events of RC and the counter keep. -/
theorem State.takeDue_induction (P : State → Prop) {s : State}
    (free : ∀ f, P { s with freeCount := f }) (take : ∀ c t, c ∈ s.due → P t → P (t.takeRc c)) :
    P s.takeDue := by
  have h : ∀ cs : List Instr, (∀ c ∈ cs, c ∈ s.due) → ∀ t, P t → P (cs.foldl State.takeRc t) := by
    intro cs
    induction cs with
    | nil => exact fun _ _ h => h
    | cons c cs ih =>
      exact fun hc t ht => ih (fun x hx => hc x (List.mem_cons_of_mem _ hx)) _
        (take c t (hc c List.mem_cons_self) ht)
  exact h _ (fun c hc => (shuffle_perm s.due s.freeCount).mem_iff.mp hc) _ (free _)

/-- With nothing due RC has nothing to take. -/
theorem State.takeDue_of_nil {s : State} (h : s.due = []) : s.takeDue = s := by
  unfold State.takeDue; rw [h]; rfl

/-! ## RC up to the next event -/

theorem State.foldl_min_le (ts : List Nat) (n : Nat) :
    ts.foldl min n ≤ n ∧ ∀ t ∈ ts, ts.foldl min n ≤ t := by
  induction ts generalizing n with
  | nil => exact ⟨Nat.le_refl _, fun _ h => nomatch h⟩
  | cons x xs ih =>
    refine ⟨Nat.le_trans (ih _).1 (Nat.min_le_left ..), fun t ht => ?_⟩
    rcases List.mem_cons.mp ht with rfl | ht
    · exact Nat.le_trans (ih _).1 (Nat.min_le_right ..)
    · exact (ih _).2 t ht

theorem State.reach_pos (s : State) (n : Nat) : 0 < s.reach n := Nat.le_max_left ..

theorem State.reach_le (s : State) {n : Nat} (h : 0 < n) : s.reach n ≤ n :=
  Nat.max_le.mpr ⟨h, (State.foldl_min_le ..).1⟩

theorem LineState.run_eq_probing (n : Nat) (st : LineState) (k : ProbeRec) :
    st.run n = .probing k ↔ ∃ r, st = .probing r ∧ k = { r with time := r.time - n } := by
  cases st <;> simp [LineState.run, eq_comm]

/-- No event falls between this moment and the one that RC reaches. -/
theorem State.due_of_lt_reach {s : State} {n m : Nat} (h0 : 0 < m) (h : m < s.reach n) :
    (s.runRc m).due = [] := by
  have hlt : ∀ t c, (t, c) ∈ s.ahead → m < t := fun t c hm => by
    have := (State.foldl_min_le (s.ahead.map (·.1)) n).2 t (List.mem_map.mpr ⟨_, hm, rfl⟩)
    unfold State.reach at h
    omega
  refine List.eq_nil_iff_forall_not_mem.mpr fun c hc => ?_
  rw [State.mem_due, State.mem_ahead] at hc
  simp only [State.runRc_table, State.runRc_device, State.runRc_window, State.runRc_line,
    State.runRc_divider, Line.run_lease, Line.run_state] at hc
  rcases hc with ⟨_, hd, ht, e⟩ | ⟨_, hd, hw⟩ | ⟨_, hd, hw⟩ | ⟨l, k, _, hk, e⟩ |
    ⟨l, k, _, hk, hp, e⟩ | ⟨l, k, a, _, hk, hp, e⟩
  · have hd' : s.dividing = true := hd
    have ht' : s.plant.timebase.ticks = true := ht
    have := hlt _ _ ((s.mem_ahead _ _).mpr (.inl ⟨rfl, hd', ht', rfl⟩))
    unfold State.dividerAfter at e
    rw [if_pos hd', if_pos ht'] at e
    omega
  · obtain ⟨t, hw', e⟩ := Option.map_eq_some_iff.mp hw
    have := hlt _ _ ((s.mem_ahead t _).mpr (.inr (.inl ⟨rfl, hd, hw'⟩)))
    omega
  · obtain ⟨t, hw', e⟩ := Option.map_eq_some_iff.mp (show s.plant.holdTimer.map (· - m) = some 0 from hw)
    have := hlt _ _ ((s.mem_ahead t _).mpr (.inr (.inr (.inl ⟨rfl, hd, hw'⟩))))
    omega
  · obtain ⟨k', hk', e'⟩ := Option.map_eq_some_iff.mp hk
    have := hlt _ _ ((s.mem_ahead k'.remaining _).mpr (.inr (.inr (.inr (.inl ⟨l, k', rfl, hk', rfl⟩)))))
    rw [← e'] at e
    change 0 = k'.remaining - m at e
    omega
  all_goals
    obtain ⟨r, hs, rfl⟩ := (LineState.run_eq_probing ..).mp hk
  · have := hlt _ _ ((s.mem_ahead r.time _).mpr
      (.inr (.inr (.inr (.inr (.inl ⟨l, r, rfl, hs, hp, rfl⟩))))))
    change 0 = r.time - m at e
    omega
  · have := hlt _ _ ((s.mem_ahead r.time _).mpr
      (.inr (.inr (.inr (.inr (.inr ⟨l, r, a, rfl, hs, hp, rfl⟩))))))
    change 0 = r.time - m at e
    omega

/-- What RC has brought to the end of its time is due. -/
theorem State.due_of_ahead {s : State} {t n : Nat} {c : Instr} (hm : (t, c) ∈ s.ahead) (h : t ≤ n) :
    (s.runRc n).due ≠ [] := by
  suffices hc : ∃ c', (0, c') ∈ (s.runRc n).ahead from
    let ⟨c', hc'⟩ := hc
    List.ne_nil_of_mem ((State.mem_due ..).mpr hc')
  rw [State.mem_ahead] at hm
  simp only [State.mem_ahead, State.runRc_table, State.runRc_device, State.runRc_window,
    State.runRc_line, State.runRc_divider, Line.run_lease, Line.run_state]
  rcases hm with ⟨_, hd, ht, e⟩ | ⟨_, hd, hw⟩ | ⟨_, hd, hw⟩ | ⟨l, k, _, hk, e⟩ |
    ⟨l, k, _, hk, hp, e⟩ | ⟨l, k, a, _, hk, hp, e⟩
  · refine ⟨.tick, .inl ⟨rfl, hd, ht, ?_⟩⟩
    unfold State.dividerAfter
    rw [if_pos hd, if_pos ht]
    omega
  · exact ⟨_, .inr (.inl ⟨rfl, hd, by rw [hw, Option.map_some, Nat.sub_eq_zero_of_le h]⟩)⟩
  · refine ⟨_, .inr (.inr (.inl ⟨rfl, hd, ?_⟩))⟩
    change s.plant.holdTimer.map (· - n) = some 0
    rw [hw, Option.map_some, Nat.sub_eq_zero_of_le h]
  · refine ⟨_, .inr (.inr (.inr (.inl ⟨l, k.run n, rfl, by rw [hk]; rfl, ?_⟩)))⟩
    change 0 = k.remaining - n
    omega
  · refine ⟨_, .inr (.inr (.inr (.inr (.inl ⟨l, { k with time := k.time - n }, rfl, by rw [hk]; rfl,
      hp, ?_⟩))))⟩
    change 0 = k.time - n
    omega
  · refine ⟨_, .inr (.inr (.inr (.inr (.inr ⟨l, { k with time := k.time - n }, a, rfl,
      by rw [hk]; rfl, hp, ?_⟩))))⟩
    change 0 = k.time - n
    omega

theorem State.foldl_min_mem (ts : List Nat) (n : Nat) : ts.foldl min n = n ∨ ts.foldl min n ∈ ts := by
  induction ts generalizing n with
  | nil => exact .inl rfl
  | cons x xs ih =>
    rcases ih (min n x) with h | h
    · rw [List.foldl_cons, h]
      rcases Nat.le_total n x with hx | hx
      · exact .inl (Nat.min_eq_left hx)
      · rw [Nat.min_eq_right hx]; exact .inr List.mem_cons_self
    · exact .inr (List.mem_cons_of_mem _ h)

/-- RC reaches the end of the stretch or a moment with an event due. -/
theorem State.due_of_reach (s : State) {n : Nat} (h : 0 < n) :
    s.reach n = n ∨ (s.runRc (s.reach n)).due ≠ [] := by
  rcases State.foldl_min_mem (s.ahead.map (·.1)) n with hm | hm
  · refine .inl ?_
    unfold State.reach
    omega
  · obtain ⟨⟨t, c⟩, hc, e⟩ := List.mem_map.mp hm
    refine .inr (State.due_of_ahead hc ?_)
    unfold State.reach
    have : t = _ := e
    omega

/-! ## A stretch of RC -/

theorem State.passFor_succ (k n : Nat) (s : State) : s.passFor (k + 1) (n + 1) =
    (s.takeDue.runRc (s.takeDue.reach (n + 1))).passFor k (n + 1 - s.takeDue.reach (n + 1)) := by
  rw [State.passFor]

theorem State.passFor_of_le {k n : Nat} (h : n ≤ k) (s : State) : s.passFor k n = s.passed n := by
  have key : ∀ n k j, n ≤ k → n ≤ j → ∀ s : State, s.passFor k n = s.passFor j n := by
    intro n
    induction n using Nat.strongRecOn with
    | _ n ih =>
      intro k j hk hj s
      cases n with
      | zero => cases k <;> cases j <;> rfl
      | succ n =>
        obtain ⟨k, rfl⟩ : ∃ k', k = k' + 1 := ⟨k - 1, by omega⟩
        obtain ⟨j, rfl⟩ : ∃ j', j = j' + 1 := ⟨j - 1, by omega⟩
        have hd := s.takeDue.reach_pos (n + 1)
        rw [State.passFor_succ, State.passFor_succ]
        exact ih _ (by omega) k j (by omega) (by omega) _
  exact key n k n h (Nat.le_refl _) s

@[simp] theorem State.passed_zero (s : State) : s.passed 0 = s := rfl

/-- A stretch of RC, one event after another: those of this moment are taken, RC reaches the next, and the
rest of the stretch follows. -/
theorem State.passed_pos (s : State) {n : Nat} (h : 0 < n) :
    s.passed n = (s.takeDue.runRc (s.takeDue.reach n)).passed (n - s.takeDue.reach n) := by
  obtain ⟨m, rfl⟩ : ∃ m, n = m + 1 := ⟨n - 1, by omega⟩
  have hd := s.takeDue.reach_pos (m + 1)
  rw [State.passed, State.passFor_succ]
  exact State.passFor_of_le (n := m + 1 - s.takeDue.reach (m + 1)) (by omega) _

/-- Every property that RC, its events and the counter keep is kept by a stretch of RC. -/
theorem State.passed_induction (P : State → Prop) (run : ∀ s n, P s → P (s.runRc n))
    (take : ∀ s c, P s → P (s.takeRc c)) (free : ∀ (s : State) f, P s → P { s with freeCount := f })
    (n : Nat) {s : State} (h : P s) : P (s.passed n) := by
  induction n using Nat.strongRecOn generalizing s with
  | _ n ih =>
    rcases Nat.eq_zero_or_pos n with rfl | hn
    · exact h
    · rw [s.passed_pos hn]
      have := s.takeDue.reach_pos n
      exact ih _ (by omega)
        (run _ _ (State.takeDue_induction P (fun f => free _ f h) fun c t _ ht => take t c ht))

@[simp] theorem State.passed_pending (s : State) (n : Nat) : (s.passed n).pending = s.pending :=
  State.passed_induction (fun t => t.pending = s.pending) (fun _ _ h => h)
    (fun _ _ h => (State.takeRc_pending ..).trans h) (fun _ _ h => h) n rfl

@[simp] theorem State.passed_rstnLow (s : State) (n : Nat) : (s.passed n).rstnLow = s.rstnLow :=
  State.passed_induction (fun t => t.rstnLow = s.rstnLow) (fun _ _ h => h)
    (fun _ _ h => (State.takeRc_rstnLow ..).trans h) (fun _ _ h => h) n rfl

@[simp] theorem State.passed_table (s : State) (n : Nat) : (s.passed n).table = s.table :=
  State.passed_induction (fun t => t.table = s.table) (fun _ _ h => h)
    (fun _ _ h => (State.takeRc_table ..).trans h) (fun _ _ h => h) n rfl

@[simp] theorem State.passed_ports (s : State) (n : Nat) : (s.passed n).ports = s.ports :=
  State.passed_induction (fun t => t.ports = s.ports) (fun _ _ h => h)
    (fun _ _ h => (State.takeRc_ports ..).trans h) (fun _ _ h => h) n rfl

@[simp] theorem State.passed_channels (s : State) (n : Nat) : (s.passed n).channels = s.channels :=
  State.passed_induction (fun t => t.channels = s.channels) (fun _ _ h => h)
    (fun _ _ h => (State.takeRc_channels ..).trans h) (fun _ _ h => h) n rfl

@[simp] theorem State.passed_tallies (s : State) (n : Nat) : (s.passed n).tallies = s.tallies :=
  State.passed_induction (fun t => t.tallies = s.tallies) (fun _ _ h => h)
    (fun _ _ h => (State.takeRc_tallies ..).trans h) (fun _ _ h => h) n rfl

@[simp] theorem State.takeDue_rc (s : State) : s.takeDue.rc = s.rc :=
  State.takeDue_induction (fun t => t.rc = s.rc) (fun _ => rfl)
    fun _ _ _ h => (State.takeRc_rc ..).trans h

/-- RC is on by the whole stretch. -/
@[simp] theorem State.passed_rc (s : State) (n : Nat) : (s.passed n).rc = s.rc + n := by
  induction n using Nat.strongRecOn generalizing s with
  | _ n ih =>
    rcases Nat.eq_zero_or_pos n with rfl | hn
    · rfl
    · have h1 := s.takeDue.reach_pos n
      have h2 := s.takeDue.reach_le hn
      rw [s.passed_pos hn, ih _ (by omega), State.runRc_rc, State.takeDue_rc]
      omega

/-- After a stretch of RC no request comes together with an ENTRY_MOVE before it (R64). -/
theorem State.passed_moved (s : State) {n : Nat} (h : 0 < n) : (s.passed n).moved = [] := by
  rw [s.passed_pos h]
  refine State.passed_induction (fun t => t.moved = []) (fun t m ht => ?_)
    (fun t c ht => List.sublist_nil.mp (ht ▸ t.takeRc_moved c)) (fun _ _ ht => ht) _ ?_
  · rw [State.runRc_moved, ht, ite_self]
  · rw [State.runRc_moved, if_neg (Nat.pos_iff_ne_zero.mp (State.reach_pos ..))]

/-- OPERATING stays. -/
theorem State.takeRc_operating {s : State} (h : s.device = .operating) (c : Instr) :
    (s.takeRc c).device = .operating := by
  cases c
  case tick => rw [State.takeRc]; unfold State.boundary; split <;> simp only [State.clearBatch_device, h]
  case setupWindowExpiry =>
    rw [State.takeRc]; unfold State.windowExpiry
    split
    · rfl
    · exact h
  case holdTimerExpiry =>
    rw [State.takeRc]; unfold State.holdExpiry; split <;> simp only [State.onPlant_device, h]
  case lapse l =>
    rw [State.takeRc]; unfold State.lapse
    split
    · split <;> simp only [State.onPlant_device, h]
    · exact h
  case phaseAEnd l b =>
    rw [State.takeRc]; unfold State.phaseAEnd
    split
    · split
      · split <;> simp only [State.onPlant_device, h]
      · exact h
    · exact h
  case phaseBEnd l b =>
    rw [State.takeRc]; unfold State.phaseBEnd
    split
    · split
      · exact h
      · split <;> simp only [State.onPlant_device, h]
    · exact h
  all_goals exact h

theorem State.passed_operating {s : State} (h : s.device = .operating) (n : Nat) :
    (s.passed n).device = .operating :=
  State.passed_induction (fun t => t.device = .operating) (fun _ _ h => h)
    (fun _ c h => State.takeRc_operating h c) (fun _ _ h => h) n h

/-! ## Up to the boundary in RUNNING -/

/-- A LAPSE leaves the count, the divider and RUNNING alone. -/
theorem State.lapse_running {s : State} (l : LineId) (hr : s.plant.timebase = .running) :
    (s.lapse l).divider = s.divider ∧ (s.lapse l).plant.timebase = .running ∧
      (s.lapse l).plant.tc = s.plant.tc := by
  unfold State.lapse
  split
  · split
    · refine ⟨rfl, ?_, ?_⟩
      · rw [State.onPlant_plant, Plant.lapse, Plant.settleHold_of_ne]
        · exact hr
        · change s.plant.timebase ≠ .holding
          rw [hr]; exact nofun
      · rw [State.onPlant_plant, Plant.lapse, Plant.settleHold_tc]
        rfl
    · exact ⟨rfl, hr, rfl⟩
  · exact ⟨rfl, hr, rfl⟩

/-- An event other than a boundary leaves the count, the divider and RUNNING alone. -/
theorem State.takeRc_running {s : State} {c : Instr} (hd : s.device = .operating)
    (hr : s.plant.timebase = .running) (hc : c ≠ .tick) :
    (s.takeRc c).divider = s.divider ∧ (s.takeRc c).plant.timebase = .running ∧
      (s.takeRc c).plant.tc = s.plant.tc := by
  cases c
  case tick => exact absurd rfl hc
  case setupWindowExpiry =>
    rw [State.takeRc]; unfold State.windowExpiry
    rw [if_neg fun h => by rw [hd] at h; exact nomatch h.2.1]
    exact ⟨rfl, hr, rfl⟩
  case holdTimerExpiry =>
    rw [State.takeRc]; unfold State.holdExpiry
    rw [if_neg fun h => by rw [hr] at h; exact nomatch h.1]
    exact ⟨rfl, hr, rfl⟩
  case lapse l => exact State.lapse_running l hr
  case phaseAEnd l b =>
    rw [State.takeRc]; unfold State.phaseAEnd
    split
    · split
      · split <;> exact ⟨rfl, hr, rfl⟩
      · exact ⟨rfl, hr, rfl⟩
    · exact ⟨rfl, hr, rfl⟩
  case phaseBEnd l b =>
    rw [State.takeRc]; unfold State.phaseBEnd
    split
    · split
      · exact ⟨rfl, hr, rfl⟩
      · split <;> exact ⟨rfl, hr, rfl⟩
    · exact ⟨rfl, hr, rfl⟩
  all_goals exact ⟨rfl, hr, rfl⟩

/-- In RUNNING a stretch of RC within the period meets no boundary before its end. -/
theorem State.passed_running (n : Nat) {s : State} (hd : s.dividing = true)
    (hr : s.plant.timebase = .running) (hn : s.divider + n ≤ s.table.period) :
    (s.passed n).plant.timebase = .running ∧ (s.passed n).divider = s.divider + n ∧
      (s.passed n).plant.tc = s.plant.tc := by
  induction n using Nat.strongRecOn generalizing s with
  | _ n ih =>
    rcases Nat.eq_zero_or_pos n with rfl | h0
    · exact ⟨hr, rfl, rfl⟩
    · have ho : s.device = .operating := by
        unfold State.dividing at hd; simp at hd; exact hd.1
      have hdue : ∀ c ∈ s.due, c ≠ .tick := by
        rintro c hc rfl
        rw [State.mem_due, State.mem_ahead] at hc
        rcases hc with ⟨_, _, _, e⟩ | h | h | h | h | h
        · omega
        all_goals simp at h
      have key := State.takeDue_induction (s := s) (fun t => t.device = .operating ∧ t.table = s.table ∧
          t.divider = s.divider ∧ t.plant.timebase = .running ∧ t.plant.tc = s.plant.tc)
        (fun _ => ⟨ho, rfl, rfl, hr, rfl⟩) fun c t hc ⟨a, b, e, f, g⟩ => by
          have := State.takeRc_running a f (hdue c hc)
          exact ⟨State.takeRc_operating a c, (State.takeRc_table ..).trans b, this.1.trans e, this.2.1,
            this.2.2.trans g⟩
      obtain ⟨a, b, e, f, g⟩ := key
      have h1 := s.takeDue.reach_pos n
      have h2 := s.takeDue.reach_le h0
      have hdv : s.takeDue.dividing = true := by
        unfold State.dividing at hd ⊢
        rw [a, b]
        simp at hd ⊢
        exact hd.2
      have hda : s.takeDue.dividerAfter (s.takeDue.reach n) = s.divider + s.takeDue.reach n := by
        unfold State.dividerAfter
        rw [if_pos hdv, if_pos (by rw [f]; rfl), e]
      rw [s.passed_pos h0]
      have := ih (n - s.takeDue.reach n) (by omega) (s := s.takeDue.runRc (s.takeDue.reach n))
        hdv f (by rw [State.runRc_divider, hda, State.runRc_table, b]; omega)
      rw [State.runRc_divider, hda] at this
      exact ⟨this.1, this.2.1.trans (by omega), this.2.2.trans g⟩

end Sys2Proof.Machine
end

