-- ==== Sys2Proof/Laws/Requests.lean ====
section
/-! SUPPORT. What `serve` can do, by the check that fails first (R163), and what an answer is. -/

namespace Sys2Proof.Machine

/-- A request that is not heard changes nothing (R172). -/
theorem serve_unheard {α : Type} {kind : Byte} {allowed : Allowed} {limit : State → Option Level}
    {operands : State → Option α} {work : α → State → State × Reply} {r : Request} {s : State}
    (h : s.hears r.port (Request.bits kind r) = false) : serve kind allowed limit operands work r s = s := by
  simp [serve, h]

/-- A request whose device state is refused (R163 step 4). -/
theorem serve_wrongState {α : Type} {kind : Byte} {allowed : Allowed} {limit : State → Option Level}
    {operands : State → Option α} {work : α → State → State × Reply} {r : Request} {s : State}
    (h : s.hears r.port (Request.bits kind r) = true) (hl : r.body.length ≤ Config.maxBody)
    (ha : allowed.admits s.device = false) :
    serve kind allowed limit operands work r s = s.answer r kind .wrongState [] := by
  have : ¬ Config.maxBody < r.body.length := by omega
  simp [serve, h, gate, this, ha, State.answer, refuse]

/-- A request above its level limit (R163 step 5). -/
theorem serve_noRight {α : Type} {kind : Byte} {allowed : Allowed} {limit : State → Option Level}
    {operands : State → Option α} {work : α → State → State × Reply} {r : Request} {s : State}
    {v : Level} (h : s.hears r.port (Request.bits kind r) = true) (hl : r.body.length ≤ Config.maxBody)
    (ha : allowed.admits s.device = true) (hv : limit s = some v) (hlt : v < s.effective r) :
    serve kind allowed limit operands work r s = s.answer r kind .noRight [] := by
  have : ¬ Config.maxBody < r.body.length := by omega
  simp [serve, h, gate, this, ha, hv, hlt, State.answer, refuse]

/-- The level limit is passed: there is none, or the effective level is within it. -/
def Passes (limit : State → Option Level) (r : Request) (s : State) : Prop :=
  ∀ v, limit s = some v → s.effective r ≤ v

theorem passes_noLimit (r : Request) (s : State) : Passes noLimit r s := by
  intro v h; simp [noLimit] at h

/-- A malformed header or operand (R163 step 6). -/
theorem serve_badField {α : Type} {kind : Byte} {allowed : Allowed} {limit : State → Option Level}
    {operands : State → Option α} {work : α → State → State × Reply} {r : Request} {s : State}
    (h : s.hears r.port (Request.bits kind r) = true) (hl : r.body.length ≤ Config.maxBody)
    (ha : allowed.admits s.device = true) (hp : Passes limit r s)
    (hb : Request.headClean r = false ∨ operands s = none) :
    serve kind allowed limit operands work r s = s.answer r kind .badField [] := by
  have hn : ¬ Config.maxBody < r.body.length := by omega
  have hg : gate.operandGate (operands s) r = (.error .badField : Except Status α) := by
    unfold gate.operandGate
    rcases hb with hb | hb <;> simp [hb]
  unfold serve gate
  cases hv : limit s with
  | none => simp [h, hn, ha, hg, State.answer, refuse]
  | some v =>
    have := not_lt.mpr (hp v hv)
    simp [h, hn, ha, this, hg, State.answer, refuse]

/-- A request that passes the general checks: its work is done and answered (R162). -/
theorem serve_taken {α : Type} {kind : Byte} {allowed : Allowed} {limit : State → Option Level}
    {operands : State → Option α} {work : α → State → State × Reply} {r : Request} {s : State}
    {a : α} (h : Taken kind r s) (ha : allowed.admits s.device = true) (hp : Passes limit r s)
    (ho : operands s = some a) :
    serve kind allowed limit operands work r s =
      (work a s).1.answer r kind (work a s).2.status (work a s).2.body := by
  have hn : ¬ Config.maxBody < r.body.length := by have := h.fits; omega
  have hg : gate.operandGate (operands s) r = (.ok a : Except Status α) := by
    unfold gate.operandGate
    simp [h.clean, ho]
  unfold serve gate
  cases hv : limit s with
  | none => simp [h.heard, hn, ha, hg, State.answer]
  | some v =>
    have := not_lt.mpr (hp v hv)
    simp [h.heard, hn, ha, this, hg, State.answer]

/-- A request that any device state admits and no level limits. -/
theorem serve_both {α : Type} {kind : Byte} {operands : State → Option α}
    {work : α → State → State × Reply} {r : Request} {s : State} {a : α} (h : Taken kind r s)
    (ho : operands s = some a) :
    serve kind .both noLimit operands work r s =
      (work a s).1.answer r kind (work a s).2.status (work a s).2.body :=
  serve_taken h rfl (passes_noLimit r s) ho

/-- A request that OPERATING admits and no level limits. -/
theorem serve_operating {α : Type} {kind : Byte} {operands : State → Option α}
    {work : α → State → State × Reply} {r : Request} {s : State} {a : α} (h : Taken kind r s)
    (hd : s.device = .operating) (ho : operands s = some a) :
    serve kind .operatingOnly noLimit operands work r s =
      (work a s).1.answer r kind (work a s).2.status (work a s).2.body :=
  serve_taken h (by rw [hd]; rfl) (passes_noLimit r s) ho

/-- All that `serve` can do. -/
theorem serve_cases {α : Type} (kind : Byte) (allowed : Allowed) (limit : State → Option Level)
    (operands : State → Option α) (work : α → State → State × Reply) (r : Request) (s : State) :
    serve kind allowed limit operands work r s = s ∨
      (∃ st, serve kind allowed limit operands work r s = s.answer r kind st []) ∨
      ∃ a, operands s = some a ∧ Taken kind r s ∧ allowed.admits s.device = true ∧
        Passes limit r s ∧ serve kind allowed limit operands work r s =
          (work a s).1.answer r kind (work a s).2.status (work a s).2.body := by
  by_cases hl : s.hears r.port (Request.bits kind r) = true
  · by_cases hf : r.body.length ≤ Config.maxBody
    · by_cases ha : allowed.admits s.device = true
      · by_cases hp : Passes limit r s
        · by_cases hb : Request.headClean r = false ∨ operands s = none
          · exact .inr (.inl ⟨_, serve_badField hl hf ha hp hb⟩)
          · rw [not_or] at hb
            obtain ⟨a, ho⟩ := Option.ne_none_iff_exists'.mp hb.2
            have ht : Taken kind r s := ⟨hl, hf, by simpa using hb.1⟩
            exact .inr (.inr ⟨a, ho, ht, ha, hp, serve_taken ht ha hp ho⟩)
        · unfold Passes at hp
          push Not at hp
          obtain ⟨v, hv, hlt⟩ := hp
          exact .inr (.inl ⟨_, serve_noRight hl hf ha hv hlt⟩)
      · exact .inr (.inl ⟨_, serve_wrongState hl hf (by simpa using ha)⟩)
    · refine .inr (.inl ⟨.badCheck, ?_⟩)
      have : Config.maxBody < r.body.length := by omega
      simp [serve, hl, gate, this, State.answer, refuse]
  · exact .inl (serve_unheard (by simpa using hl))

/-! ## Answers -/

theorem State.port_setPort (s : State) (p q : Port) (f : PortState → PortState) :
    (s.setPort p f).port q = if q = p then f (s.port p) else s.port q := upd_get ..

@[simp] theorem State.port_setPort_self (s : State) (p : Port) (f : PortState → PortState) :
    (s.setPort p f).port p = f (s.port p) := by simp [State.port_setPort]

@[simp] theorem State.answer_plant (s : State) (r : Request) (k : Byte) (st : Status) (b : List Byte) :
    (s.answer r k st b).plant = s.plant := rfl

@[simp] theorem State.answer_table (s : State) (r : Request) (k : Byte) (st : Status) (b : List Byte) :
    (s.answer r k st b).table = s.table := rfl

@[simp] theorem State.answer_device (s : State) (r : Request) (k : Byte) (st : Status) (b : List Byte) :
    (s.answer r k st b).device = s.device := rfl

@[simp] theorem State.answer_rstnLow (s : State) (r : Request) (k : Byte) (st : Status) (b : List Byte) :
    (s.answer r k st b).rstnLow = s.rstnLow := rfl

@[simp] theorem State.answer_channels (s : State) (r : Request) (k : Byte) (st : Status)
    (b : List Byte) : (s.answer r k st b).channels = s.channels := rfl

@[simp] theorem State.answer_window (s : State) (r : Request) (k : Byte) (st : Status)
    (b : List Byte) : (s.answer r k st b).window = s.window := rfl

@[simp] theorem State.answer_tallies (s : State) (r : Request) (k : Byte) (st : Status)
    (b : List Byte) : (s.answer r k st b).tallies = s.tallies := rfl

/-- An answer leaves every port's strap level and mask. -/
theorem State.answer_strap (s : State) (r : Request) (k : Byte) (st : Status) (b : List Byte)
    (p : Port) : ((s.answer r k st b).port p).strap = (s.port p).strap := by
  unfold State.answer State.respond
  rw [State.port_setPort]
  split
  · next e => rw [e]
  · rfl

@[simp] theorem State.answer_slot (s : State) (r : Request) (k : Byte) (st : Status) (b : List Byte) :
    ((s.answer r k st b).port r.port).slot =
      ⟨st, (s.plant.inbox r.port).queue.length, (s.plant.inbox r.port).overflow,
        s.device == .operating, k, b⟩ := by
  unfold State.answer State.respond
  rw [State.port_setPort_self]
  rfl

end Sys2Proof.Machine
end

