-- ==== Sys2Proof/Laws/Codec.lean ====
section
/-! SUPPORT. Codes and operands read back: bytes of halves and words, numbers of lines, channels and
tallies, and what each parser makes of the body that spells its operands (R164). -/

namespace Sys2Proof.Machine

theorem half_extract (h : Half) : half (h.extractLsb' 8 8) (h.extractLsb' 0 8) = h := by
  unfold half
  ext i hi
  simp
  grind

theorem word_extract (w : Word) :
    word (w.extractLsb' 24 8) (w.extractLsb' 16 8) (w.extractLsb' 8 8) (w.extractLsb' 0 8) = w := by
  unfold word
  ext i hi
  simp
  grind

theorem wordBytes_word (a b c d : Byte) : wordBytes (word a b c d) = [a, b, c, d] := by
  unfold word wordBytes
  have ha : (a ++ b ++ c ++ d : Word).extractLsb' 24 8 = a := by
    ext i hi; simp; grind
  have hb : (a ++ b ++ c ++ d : Word).extractLsb' 16 8 = b := by
    ext i hi; simp; grind
  have hc : (a ++ b ++ c ++ d : Word).extractLsb' 8 8 = c := by
    ext i hi; simp; grind
  have hd : (a ++ b ++ c ++ d : Word).extractLsb' 0 8 = d := by
    ext i hi; simp; grind
  rw [ha, hb, hc, hd]

@[simp] theorem byteFin_natByte {n : Nat} (i : Fin n) (h : n ≤ 256) :
    byteFin n (natByte i.val) = some i := by
  have : (natByte i.val).toNat = i.val := by
    simp [natByte]; omega
  unfold byteFin
  rw [dif_pos (by omega)]
  simp [this]

@[simp] theorem byteFin_lineByte (l : LineId) : byteFin 16 (lineByte l) = some l :=
  byteFin_natByte l (by omega)

@[simp] theorem parseNumber_lineByte (l : LineId) : parseNumber 16 [lineByte l] = some l :=
  byteFin_lineByte l

theorem parseNumber_natByte {n : Nat} (i : Fin n) (h : n ≤ 256) :
    parseNumber n [natByte i.val] = some i := byteFin_natByte i h

@[simp] theorem parseTag_halfBytes (t : Half) : parseTag (halfBytes t) = some t :=
  congrArg some (half_extract t)

theorem parseLiveTag_halfBytes {t : Half} (h : t ≠ 0#16) : parseLiveTag (halfBytes t) = some t := by
  unfold parseLiveTag
  rw [parseTag_halfBytes]
  exact if_neg h

theorem parseMove_bytes {t : Half} (h : t ≠ 0#16) (due : Word) :
    parseMove (halfBytes t ++ wordBytes due) = some (t, due) := by
  change (if half _ _ = 0#16 then _ else some (half _ _, word _ _ _ _)) = _
  rw [half_extract, word_extract, if_neg h]

@[simp] theorem parseLineMode_bytes (l : LineId) (m : Mode) :
    parseLineMode [lineByte l, modeCode m] = some (l, m) := by
  cases m <;> simp [parseLineMode, modeCode]

theorem parseTake_bytes (l : LineId) {t : Half} (h : 10 ≤ t.toNat) (h' : t.toNat ≤ 60000) :
    parseTake ([lineByte l] ++ halfBytes t) = some (l, t) := by
  change (match byteFin 16 (lineByte l) with
    | some l => if 10 ≤ (half _ _).toNat ∧ (half _ _).toNat ≤ 60000 then some (l, half _ _) else none
    | none => none) = _
  rw [byteFin_lineByte, half_extract]
  exact if_pos ⟨h, h'⟩

@[simp] theorem parseRenew_lineByte (l : LineId) : parseRenew [lineByte l] = some (some l) := by
  have : lineByte l ≠ 0xFF#8 := by revert l; decide
  simp [parseRenew, this]

theorem parseTallyValue_bytes (n : TallyId) (v : Word) :
    parseTallyValue ([natByte n.val] ++ wordBytes v) = some (n, v) := by
  change (byteFin 8 (natByte n.val)).map (fun t => (t, word _ _ _ _)) = _
  rw [byteFin_natByte n (by omega), word_extract]
  rfl

theorem parseCas_bytes (n : TallyId) (v x : Word) :
    parseCas ([natByte n.val] ++ wordBytes v ++ wordBytes x) = some (n, v, x) := by
  change (byteFin 8 (natByte n.val)).map (fun t => (t, word _ _ _ _, word _ _ _ _)) = _
  rw [byteFin_natByte n (by omega), word_extract, word_extract]
  rfl

/-- The level limit of a tally request (R141). -/
theorem tallyLimit_bytes (n : TallyId) (rest : List Byte) (s : State) :
    tallyLimit (natByte n.val :: rest) s = some (s.table.tallies.get n).level := by
  simp [tallyLimit]

end Sys2Proof.Machine
end

