-- ==== Sys2Proof/Laws/Dispatch.lean ====
section
/-! SUPPORT. What every request of `exec` is: one `serve` with the states column, the level limit and
the body length that Safety.lean states for it (R163, R164). -/

namespace Sys2Proof.Machine

/-- A body of another length is no operand of the fixed layouts (R164). -/
theorem parse_of_length {body : List Byte} {n : Nat} (h : body.length ≠ n) (s : State) :
    (n = 0 → parseNothing body = none) ∧
    (n = 1 → parseMask body = none ∧ (∀ m, parseNumber m body = none) ∧ parseRenew body = none) ∧
    (n = 2 → parseTag body = none ∧ parseLiveTag body = none ∧ parseLineMode body = none ∧
      parseItem body = none) ∧
    (n = 3 → parseTake body = none) ∧
    (n = 5 → parseTallyValue body = none) ∧
    (n = 6 → parseMove body = none ∧ parseWrite s.table body = none) ∧
    (n = 9 → parseCas body = none) := by
  have key : parseLiveTag body = match parseTag body with
    | some t => if t = 0#16 then none else some t
    | none => none := rfl
  refine ⟨?_, ?_, ?_, ?_, ?_, ?_, ?_⟩ <;> rintro rfl
  · unfold parseNothing; split <;> simp_all
  · refine ⟨?_, fun m => ?_, ?_⟩
    · unfold parseMask; split <;> simp_all
    · unfold parseNumber; split <;> simp_all
    · unfold parseRenew; split <;> simp_all
  · have ht : parseTag body = none := by unfold parseTag; split <;> simp_all
    refine ⟨ht, by rw [key, ht], ?_, ?_⟩
    · unfold parseLineMode; split <;> simp_all
    · unfold parseItem; split <;> simp_all
  · unfold parseTake; split <;> simp_all
  · unfold parseTallyValue; split <;> simp_all
  · refine ⟨?_, ?_⟩
    · unfold parseMove; split <;> simp_all
    · unfold parseWrite; split <;> simp_all
  · unfold parseCas; split <;> simp_all

/-- The level limit of a tally request, as Safety.lean writes it. -/
theorem tallyLimit_eq (r : Request) (s : State) :
    tallyLimit r.body s = levelLimit (.tallyAdd r) s ∧
      tallyLimit r.body s = levelLimit (.tallySwap r) s ∧
      tallyLimit r.body s = levelLimit (.tallyCas r) s := by
  have h : tallyLimit r.body s = levelLimit (.tallyAdd r) s := by
    change _ = match r.body with
      | b :: _ => if h : b.toNat < 8 then some (s.table.tallies.get ⟨b.toNat, h⟩).level else none
      | [] => none
    cases r.body with
    | nil => rfl
    | cons b t => simp only [tallyLimit, byteFin]; split <;> simp
  exact ⟨h, h, h⟩

/-- A request's meaning is one `serve`. -/
theorem exec_request {i : Instr} {kind : Byte} {r : Request} (h : i.record? = some (kind, r))
    (s : State) :
    ∃ (α : Type) (limit : State → Option Level) (operands : State → Option α)
      (work : α → State → State × Reply),
      exec i s = .next (serve kind (allowedIn i) limit operands work r s) ∧
        limit s = levelLimit i s ∧
        ∀ n, bodyLength i = some n → r.body.length ≠ n → operands s = none := by
  have hlen : ∀ m n, some m = some n → r.body.length ≠ n → r.body.length ≠ m := by
    rintro m n ⟨⟩ hn; exact hn
  cases i <;> simp only [Instr.record?, Option.some.injEq, Prod.mk.injEq, reduceCtorEq] at h
  all_goals
    obtain ⟨rfl, rfl⟩ := h
    refine ⟨_, _, _, _, rfl, ?_, ?_⟩
  all_goals
    first
    | rfl
    | exact (tallyLimit_eq ..).1
    | exact fun n hn hb => (parse_of_length (hlen _ n hn hb) s).1 rfl
    | exact fun n hn hb => ((parse_of_length (hlen _ n hn hb) s).2.1 rfl).1
    | exact fun n hn hb => ((parse_of_length (hlen _ n hn hb) s).2.1 rfl).2.1 _
    | exact fun n hn hb => ((parse_of_length (hlen _ n hn hb) s).2.1 rfl).2.2
    | exact fun n hn hb => ((parse_of_length (hlen _ n hn hb) s).2.2.1 rfl).1
    | exact fun n hn hb => ((parse_of_length (hlen _ n hn hb) s).2.2.1 rfl).2.1
    | exact fun n hn hb => ((parse_of_length (hlen _ n hn hb) s).2.2.1 rfl).2.2.1
    | exact fun n hn hb => ((parse_of_length (hlen _ n hn hb) s).2.2.1 rfl).2.2.2
    | exact fun n hn hb => (parse_of_length (hlen _ n hn hb) s).2.2.2.1 rfl
    | exact fun n hn hb => (parse_of_length (hlen _ n hn hb) s).2.2.2.2.1 rfl
    | exact fun n hn hb => ((parse_of_length (hlen _ n hn hb) s).2.2.2.2.2.1 rfl).1
    | exact fun n hn hb => ((parse_of_length (hlen _ n hn hb) s).2.2.2.2.2.1 rfl).2
    | exact fun n hn hb => (parse_of_length (hlen _ n hn hb) s).2.2.2.2.2.2 rfl
    | exact fun n hn _ => by cases hn

end Sys2Proof.Machine
end

