-- ==== Sys2Proof/Laws/Link.lean ====
section
/-! SUPPORT. What the shift buffer holds: bits shifted in one part after another, whole bytes among them,
and when the bits already there are the first of a transaction's (R159). -/

namespace Sys2Proof.Machine

theorem ShiftBuffer.clockIn_append (xs ys : List Bool) (b : ShiftBuffer) :
    b.clockIn (xs ++ ys) = (b.clockIn xs).clockIn ys := List.foldl_append

theorem bitsByte_byteBits (b : Byte) : bitsByte (byteBits b) = b := by
  revert b; decide +kernel

theorem ShiftBuffer.clockIn_eight (kept : List Byte) (count : Nat) (a b c d e f g h : Bool) :
    ShiftBuffer.clockIn [a, b, c, d, e, f, g, h] ⟨kept, count, []⟩ =
      ⟨(kept ++ [bitsByte [a, b, c, d, e, f, g, h]]).take Config.shiftDepth, count + 1, []⟩ := by
  simp [ShiftBuffer.clockIn, ShiftBuffer.clockBit]

/-- The bits of a whole byte. -/
theorem ShiftBuffer.clockIn_byte (kept : List Byte) (count : Nat) (b : Byte) :
    ShiftBuffer.clockIn (byteBits b) ⟨kept, count, []⟩ =
      ⟨(kept ++ [b]).take Config.shiftDepth, count + 1, []⟩ := by
  conv_rhs => rw [← bitsByte_byteBits b]
  exact ShiftBuffer.clockIn_eight ..

/-- Fewer than eight bits stay a byte begun. -/
theorem ShiftBuffer.clockIn_part (kept : List Byte) (count : Nat) (part bits : List Bool)
    (h : part.length + bits.length < 8) :
    ShiftBuffer.clockIn bits ⟨kept, count, part⟩ = ⟨kept, count, part ++ bits⟩ := by
  induction bits generalizing part with
  | nil => simp [ShiftBuffer.clockIn]
  | cons x xs ih =>
    have hl : part.length < 7 := by simp at h; omega
    change ShiftBuffer.clockIn xs (ShiftBuffer.clockBit ⟨kept, count, part⟩ x) = _
    have : ShiftBuffer.clockBit ⟨kept, count, part⟩ x = ⟨kept, count, part ++ [x]⟩ := if_pos hl
    rw [this, ih _ (by simp at h ⊢; omega), List.append_assoc]
    rfl

/-- The first 36 whole bytes are kept, every one is counted (R159). -/
theorem ShiftBuffer.clockIn_bytes (bytes kept : List Byte) (count : Nat) :
    ShiftBuffer.clockIn (bytes.flatMap byteBits) ⟨kept.take Config.shiftDepth, count, []⟩ =
      ⟨(kept ++ bytes).take Config.shiftDepth, count + bytes.length, []⟩ := by
  induction bytes generalizing kept count with
  | nil => simp [ShiftBuffer.clockIn]
  | cons b bs ih =>
    rw [List.flatMap_cons, ShiftBuffer.clockIn_append, ShiftBuffer.clockIn_byte]
    have : (kept.take Config.shiftDepth ++ [b]).take Config.shiftDepth =
        (kept ++ [b]).take Config.shiftDepth := by
      simp only [List.take_append, List.take_take, List.length_take, Nat.min_self]
      congr 2
      omega
    rw [this, ih]
    simp [Nat.add_assoc, Nat.add_comm]

/-- All the bits of a transaction (R159, R160). -/
theorem ShiftBuffer.clockIn_transaction (bytes : List Byte) (tail : List Bool) (h : tail.length < 8) :
    ShiftBuffer.empty.clockIn (bytes.flatMap byteBits ++ tail) =
      ⟨bytes.take Config.shiftDepth, bytes.length, tail⟩ := by
  rw [ShiftBuffer.clockIn_append]
  have := ShiftBuffer.clockIn_bytes bytes [] 0
  simp only [List.take_nil, List.nil_append, Nat.zero_add] at this
  unfold ShiftBuffer.empty
  rw [this, ShiftBuffer.clockIn_part _ _ _ _ (by simpa using h), List.nil_append]

theorem ShiftBuffer.size_clockBit (b : ShiftBuffer) (x : Bool) (h : b.part.length < 8) :
    (b.clockBit x).size = b.size + 1 ∧ (b.clockBit x).part.length < 8 := by
  unfold ShiftBuffer.clockBit ShiftBuffer.size
  split
  · simp; omega
  · simp; omega

theorem ShiftBuffer.size_clockIn (bits : List Bool) (b : ShiftBuffer) (h : b.part.length < 8) :
    (b.clockIn bits).size = b.size + bits.length := by
  induction bits generalizing b with
  | nil => simp [ShiftBuffer.clockIn]
  | cons x xs ih =>
    have := b.size_clockBit x h
    change ((b.clockBit x).clockIn xs).size = _
    rw [ih _ this.2, this.1, List.length_cons]
    omega

/-- The bits shifted in open a transaction exactly when they are some first part of it. -/
theorem ShiftBuffer.opens_iff (bits : List Bool) (b : ShiftBuffer) :
    b.opens bits = true ↔ ∃ n, b = ShiftBuffer.empty.clockIn (bits.take n) := by
  unfold ShiftBuffer.opens
  rw [Bool.and_eq_true, decide_eq_true_eq, beq_iff_eq]
  refine ⟨fun h => ⟨_, h.2.symm⟩, ?_⟩
  rintro ⟨n, rfl⟩
  have hs : (ShiftBuffer.empty.clockIn (bits.take n)).size = (bits.take n).length := by
    rw [ShiftBuffer.size_clockIn _ _ (by decide)]
    simp [ShiftBuffer.size, ShiftBuffer.empty]
  refine ⟨by rw [hs]; simp, ?_⟩
  rw [hs]
  congr 1
  simp only [List.length_take]
  rcases Nat.le_total n bits.length with h | h
  · rw [Nat.min_eq_left h]
  · rw [Nat.min_eq_right h, List.take_length, List.take_of_length_le h]

/-- The rest of a transaction's bits behind those that open it. -/
theorem ShiftBuffer.clockIn_rest {bits : List Bool} {b : ShiftBuffer} (h : b.opens bits = true) :
    b.clockIn (bits.drop b.size) = ShiftBuffer.empty.clockIn bits := by
  unfold ShiftBuffer.opens at h
  rw [Bool.and_eq_true, decide_eq_true_eq, beq_iff_eq] at h
  conv_lhs => rw [← h.2]
  have : ((ShiftBuffer.empty.clockIn (bits.take b.size)).size) = b.size := by rw [h.2]
  rw [this, ← ShiftBuffer.clockIn_append, List.take_append_drop]

/-- A buffer with nothing in it opens every transaction. -/
theorem ShiftBuffer.opens_empty (bits : List Bool) : ShiftBuffer.empty.opens bits = true :=
  (ShiftBuffer.opens_iff ..).mpr ⟨0, rfl⟩

/-- The bytes of a request record and filler behind them are framed as that request (R160, R164). -/
theorem frame_recordBytes (kind head : Byte) (body filler : List Byte)
    (h : body.length ≤ Config.maxBody) :
    frame ((recordBytes kind head body ++ filler).take Config.shiftDepth)
      (recordBytes kind head body ++ filler).length = .framed kind head body := by
  simp only [Config.maxBody] at h
  have hn : (natByte body.length).toNat = body.length := by simp [natByte]; omega
  have hc : recordBytes kind head body ++ filler = kind :: head :: natByte body.length ::
      (body ++ (crc8 (kind :: head :: natByte body.length :: body) :: filler)) := by
    simp [recordBytes]
  rw [hc]
  have ht : ∀ xs : List Byte,
      (kind :: head :: natByte body.length :: xs).take Config.shiftDepth =
        kind :: head :: natByte body.length :: xs.take 33 := fun _ => rfl
  rw [ht]
  generalize hcc : crc8 (kind :: head :: natByte body.length :: body) = cc
  unfold frame
  simp only [hn]
  rw [if_neg (by simp; omega), if_neg (by simp [Config.maxBody]; omega)]
  have e1 : (body ++ cc :: filler).take 33 = body ++ (cc :: filler).take (33 - body.length) := by
    rw [List.take_append, List.take_of_length_le (by omega)]
  have e2 : ((body ++ cc :: filler).take 33).take body.length = body := by
    rw [e1]; simp
  have e3 : ((body ++ cc :: filler).take 33)[body.length]? = some cc := by
    rw [e1, List.getElem?_append_right (by omega)]
    obtain ⟨m, hm⟩ : ∃ m, 33 - body.length = m + 1 := ⟨32 - body.length, by omega⟩
    simp [hm]
  rw [e2, e3, hcc]
  simp

end Sys2Proof.Machine
end

