-- ==== Sys2Proof/Laws/PerInstr.lean ====
section
/-! SUPPORT. The family `Spelling`: every command that carries a record is the one its KIND code names
(spec/10, section 10.5). -/

namespace Sys2Proof.Laws.Spelling

/-- The KIND code and the record of a request name that request. -/
def Statement (i : Instr) : Prop :=
  ∀ k r, i.record? = some (k, r) → Instr.ofKind k r i.sense = some i

theorem nop (r : Request) : Statement (.nop r) := by
  rintro k q ⟨⟩; rfl

theorem identify (r : Request) : Statement (.identify r) := by
  rintro k q ⟨⟩; rfl

theorem status (r : Request) : Statement (.status r) := by
  rintro k q ⟨⟩; rfl

theorem noticeRead (r : Request) : Statement (.noticeRead r) := by
  rintro k q ⟨⟩; rfl

theorem portReset (r : Request) : Statement (.portReset r) := by
  rintro k q ⟨⟩; rfl

theorem subscribe (r : Request) : Statement (.subscribe r) := by
  rintro k q ⟨⟩; rfl

theorem configRead (r : Request) : Statement (.configRead r) := by
  rintro k q ⟨⟩; rfl

theorem configWrite (r : Request) : Statement (.configWrite r) := by
  rintro k q ⟨⟩; rfl

theorem endSetup (r : Request) : Statement (.endSetup r) := by
  rintro k q ⟨⟩; rfl

theorem tbHold (r : Request) : Statement (.tbHold r) := by
  rintro k q ⟨⟩; rfl

theorem tbStart (r : Request) : Statement (.tbStart r) := by
  rintro k q ⟨⟩; rfl

theorem schedule (r : Request) : Statement (.schedule r) := by
  rintro k q ⟨⟩; rfl

theorem cancel (r : Request) : Statement (.cancel r) := by
  rintro k q ⟨⟩; rfl

theorem entryMove (r : Request) : Statement (.entryMove r) := by
  rintro k q ⟨⟩; rfl

theorem entryRead (r : Request) : Statement (.entryRead r) := by
  rintro k q ⟨⟩; rfl

theorem lineMode (r : Request) : Statement (.lineMode r) := by
  rintro k q ⟨⟩; rfl

theorem lineRead (r : Request) (sense : Bool) : Statement (.lineRead r sense) := by
  rintro k q ⟨⟩; rfl

theorem waveRestart (r : Request) : Statement (.waveRestart r) := by
  rintro k q ⟨⟩; rfl

theorem lineProbe (r : Request) : Statement (.lineProbe r) := by
  rintro k q ⟨⟩; rfl

theorem leaseTake (r : Request) : Statement (.leaseTake r) := by
  rintro k q ⟨⟩; rfl

theorem leaseRenew (r : Request) : Statement (.leaseRenew r) := by
  rintro k q ⟨⟩; rfl

theorem leaseRelease (r : Request) : Statement (.leaseRelease r) := by
  rintro k q ⟨⟩; rfl

theorem leaseRead (r : Request) : Statement (.leaseRead r) := by
  rintro k q ⟨⟩; rfl

theorem captureRead (r : Request) : Statement (.captureRead r) := by
  rintro k q ⟨⟩; rfl

theorem tallyRead (r : Request) : Statement (.tallyRead r) := by
  rintro k q ⟨⟩; rfl

theorem tallyAdd (r : Request) : Statement (.tallyAdd r) := by
  rintro k q ⟨⟩; rfl

theorem tallySwap (r : Request) : Statement (.tallySwap r) := by
  rintro k q ⟨⟩; rfl

theorem tallyCas (r : Request) : Statement (.tallyCas r) := by
  rintro k q ⟨⟩; rfl

theorem undecodedRequest (p : Port) (wire : Wire) :
    Statement (.undecodedRequest p wire) := by
  intro k q h; simp [Instr.record?] at h

theorem deviceReset (lva : BitVec 4) (lvb : BitVec 4) : Statement (.deviceReset lva lvb) := by
  intro k q h; simp [Instr.record?] at h

theorem rstnRise : Statement .rstnRise := by
  intro k q h; simp [Instr.record?] at h

theorem tick : Statement (.tick) := by
  intro k q h; simp [Instr.record?] at h

theorem captureEdge (c : Channel) (dir : Edge) (after : Nat) : Statement (.captureEdge c dir after) := by
  intro k q h; simp [Instr.record?] at h

theorem pulseEnd (l : LineId) : Statement (.pulseEnd l) := by
  intro k q h; simp [Instr.record?] at h

theorem periodEnd (l : LineId) : Statement (.periodEnd l) := by
  intro k q h; simp [Instr.record?] at h

theorem holdTimerExpiry : Statement (.holdTimerExpiry) := by
  intro k q h; simp [Instr.record?] at h

theorem lapse (l : LineId) : Statement (.lapse l) := by
  intro k q h; simp [Instr.record?] at h

theorem phaseAEnd (l : LineId) (sense : Bool) : Statement (.phaseAEnd l sense) := by
  intro k q h; simp [Instr.record?] at h

theorem phaseBEnd (l : LineId) (sense : Bool) : Statement (.phaseBEnd l sense) := by
  intro k q h; simp [Instr.record?] at h

theorem setupWindowExpiry : Statement (.setupWindowExpiry) := by
  intro k q h; simp [Instr.record?] at h

theorem transactionBegin (fall : Fall) : Statement (.transactionBegin fall) := by
  intro k q h; simp [Instr.record?] at h

end Sys2Proof.Laws.Spelling
end

