-- ==== Sys2Proof/Tests/Slice0.lean ====
section
/-! SUPPORT. Tests of the model: check values and framing, ill-formed commands, one reply per request,
one effect per event, and for every statement with hypotheses a state and operands that meet them. -/

namespace Sys2Proof.Tests

open Sys2Proof.Machine

-- One test after the other: tests that wait for each other hold a thread each.
set_option Elab.async false

/-! ## Small states -/

/-- A request with requested level 0 and no filler. -/
def ask (p : Port) (body : List Byte) : Request := ⟨p, 0x00#8, body, [], []⟩

/-- The same at requested level 3. -/
def askLow (p : Port) (body : List Byte) : Request := ⟨p, 0x03#8, body, [], []⟩

/-- SETUP, with a transaction begun on every port. -/
def setup : State :=
  { State.reset with ports := updAll State.reset.ports fun _ x => { x with txn := some x.slot.bytes } }

/-- OPERATING and HELD, line 3 LEASED to port 0, line 5 OPEN with ceiling 2. -/
def held : State :=
  let s := setup.enterOperating .window
  { s with
    table := s.table.setLine 5 fun x => { x with kind := .shared, ceiling := 2 }
    plant := (s.plant.setLease 3 (some (Lease.fresh 0 0 10#16))) }

def under (b : Timebase) (s : State) : State := s.onPlant fun w => { w with timebase := b }

def running : State := under .running held

def onLine (l : LineId) (st : LineState) (s : State) : State :=
  s.onPlant fun w => w.setLine l (Line.rest true st)

/-- A MARK of port 0 that runs once and notifies. -/
def mark (tag : Half) : Entry :=
  ⟨0, tag, 0, .mark, .atDue, 1#8, none, true, .run, false, .count 1⟩

/-- A PULSE of 4 ticks of port 0 on line 3. -/
def pulse (tag : Half) : Entry := { mark tag with action := .onLine 3 (.pulse 4#16) }

/-- A pulse in flight on line 3 with `n` ticks left. -/
def pulsing (n : Nat) (s : State) : State :=
  (onLine 3 (.pulsing ⟨0, 7#16, n⟩) s).onPlant fun w => { w with pulsing := [⟨pulse 7#16, 0#32⟩] }

/-- HOLDING with `n` XIN periods left and a pulse of `k` ticks left. -/
def holdingFor (n k : Nat) : State :=
  (pulsing k running).onPlant fun w => { w with timebase := .holding, holdTimer := some n }

def holding : State := holdingFor 1000 1

def gen (period : Half) (align : Align) (counter : Nat) (d : Direction) (ld : Option Load) : Generator :=
  ⟨⟨period, 1#16, align, .activeFirst⟩, counter, d, ld⟩

/-- A pending load of port 0. -/
def load : Load := ⟨⟨5#16, 2#16, .left, .inactiveFirst⟩, 0, 9#16, true⟩

def withTimeline (xs : List Timed) (s : State) : State := s.onPlant fun w => { w with timeline := xs }

def withArmed (xs : List Waiting) (s : State) : State := s.onPlant fun w => { w with armed := xs }

/-- CH2 with edge select RISE and holdoff 10 us. -/
def seeing (s : State) : State :=
  { s with table := s.table.setChannel 2 fun _ => ⟨.rise, 10#16⟩ }

/-- Line 3 held by port 1 at level 2, preemptible. -/
def taken : State :=
  { held with
    table := held.table.setLine 3 fun x => { x with preemptible := true }
    plant := held.plant.setLease 3 (some (Lease.fresh 1 2 10#16)) }

def next (o : Out) : State :=
  match o with
  | .next t => t
  | _ => State.reset

/-- A transaction begun on port 0. -/
def begun (s : State) : State := next (exec (.transactionBegin ⟨0, []⟩) s)

/-- The status and the body that the slot of a port holds after a command. -/
def reply (p : Port) (o : Out) : Status × List Byte :=
  let x := ((next o).port p).slot
  (x.status, x.body)

/-! ## Finding every value of an option or a line state -/

theorem of_some {α : Type} {o : Option α} {P : α → Prop} {x : α} (h : o = some x) (hp : P x) :
    ∀ k, o = some k → P k := by
  rintro k hk; rw [h] at hk; cases hk; exact hp

theorem taken_of {kind : Byte} {r : Request} {s : State}
    (h : (s.hears r.port (Request.bits kind r) && decide (r.body.length ≤ Config.maxBody) &&
      Request.headClean r) = true) : Taken kind r s := by
  simp only [Bool.and_eq_true, decide_eq_true_eq] at h
  exact ⟨h.1.1, h.1.2, h.2⟩

/-! ## Bytes on the link (R160) -/

theorem test_crc_of_nop : crc8 [0x00#8, 0x00#8, 0x00#8] = 0x00#8 := by decide +kernel

theorem test_crc_of_identify : crc8 [0x01#8, 0x00#8, 0x00#8] = 0x6B#8 := by decide +kernel

/-- PORT_RESET and TB_HOLD, header alone: KIND 04 and 10, check bytes by the polynomial. -/
theorem test_decode_port_and_timebase :
    decodeTransaction 2 [0x04#8, 0x00#8, 0x00#8, 0xAB#8] [] false = .portReset (ask 2 []) ∧
    decodeTransaction 1 [0x10#8, 0x00#8, 0x00#8, 0xA2#8] [] false = .tbHold (ask 1 []) := by
  decide +kernel

/-- One request of each remaining family, from its bytes (spec/10, section 10.5). -/
theorem test_decode_families :
    (decodeTransaction 0 (recordBytes 0x21#8 0x00#8 [0x12#8, 0x34#8]) [] false =
      .cancel (ask 0 [0x12#8, 0x34#8])) ∧
    (decodeTransaction 0 (recordBytes 0x31#8 0x03#8 [0x0F#8]) [] true = .lineRead (askLow 0 [0x0F#8]) true) ∧
    (decodeTransaction 3 (recordBytes 0x42#8 0x00#8 [0x03#8]) [] false = .leaseRelease (ask 3 [0x03#8])) ∧
    (decodeTransaction 3 (recordBytes 0x50#8 0x00#8 [0x07#8]) [] false = .captureRead (ask 3 [0x07#8])) ∧
    (decodeTransaction 3 (recordBytes 0x60#8 0x00#8 [0x07#8]) [] false = .tallyRead (ask 3 [0x07#8])) ∧
    (decodeTransaction 3 (recordBytes 0x08#8 0x00#8 [0x20#8, 0x00#8]) [] false =
      .configRead (ask 3 [0x20#8, 0x00#8])) := by
  decide +kernel

/-- Each way for a transaction to spell no request: too short for a header, for its LEN, a LEN above 32,
a wrong check byte, a KIND that the table lacks. -/
theorem test_framing_refuses :
    undecodedStatus [] 0 = some .frameShort ∧
    undecodedStatus [0x00#8, 0x00#8] 2 = some .frameShort ∧
    undecodedStatus [0x02#8, 0x00#8, 0x01#8, 0x00#8] 4 = some .frameShort ∧
    undecodedStatus ([0x02#8, 0x00#8, 0x21#8] ++ List.replicate 33 0x00#8) 37 = some .badCheck ∧
    undecodedStatus [0x02#8, 0x00#8, 0x00#8, 0x00#8] 4 = some .badCheck ∧
    undecodedStatus (recordBytes 0x06#8 0x00#8 []) 4 = some .badKind ∧
    undecodedStatus (recordBytes 0xFF#8 0x00#8 []) 4 = some .badKind := by
  decide +kernel

/-- The clauses of the framing statement meet: LEN at 32 with the check byte in place, and a transaction
one byte short of it. -/
theorem test_framing_at_its_bounds :
    undecodedStatus (recordBytes 0x20#8 0x00#8 (List.replicate 32 0x00#8)) 36 = none ∧
    undecodedStatus ((recordBytes 0x20#8 0x00#8 (List.replicate 32 0x00#8)).take 35) 35 =
      some .frameShort := by
  decide +kernel

/-! ## Ill-formed commands -/

theorem test_wf_refuses_a_long_body : (Instr.nop (ask 0 (List.replicate 33 0x00#8))).wf = false := by
  decide +kernel

theorem test_wf_takes_a_full_body : (Instr.schedule (ask 0 (List.replicate 32 0x00#8))).wf = true := by
  decide +kernel

theorem test_wf_refuses_undecoded_bytes_that_decode :
    (Instr.undecodedRequest 0 ⟨[0x00#8, 0x00#8, 0x00#8, 0x00#8], []⟩).wf = false := by
  decide +kernel

theorem test_wf_refuses_a_whole_byte_as_tail :
    (Instr.nop ⟨0, 0x00#8, [], [], List.replicate 8 false⟩).wf = false ∧
    (Instr.undecodedRequest 0 ⟨[0x02#8], List.replicate 8 false⟩).wf = false := by
  decide +kernel

/-- TransactionsRoundTrip has instances: a request and bytes that spell none. -/
theorem test_witness_round_trip :
    (Instr.status (ask 1 [])).wf = true ∧
    (Instr.status (ask 1 [])).wireBytes = some (1, recordBytes 0x02#8 0x00#8 [], []) ∧
    (Instr.undecodedRequest 1 ⟨[0x02#8], [true]⟩).wf = true ∧
    (Instr.undecodedRequest 1 ⟨[0x02#8], [true]⟩).wireBytes = some (1, [0x02#8], [true]) := by
  decide +kernel

/-! ## Queue, reset, transactions -/

theorem test_witness_front_command :
    { setup with pending := [.tick, .rstnRise] }.pending = .tick :: [.rstnRise] := rfl

theorem test_witness_empty_queue :
    State.reset.pending = [] ∧ State.reset.rstnLow = false ∧
      (next (exec (.deviceReset 0#4 0#4) State.reset)).pending = [] ∧
      (next (exec (.deviceReset 0#4 0#4) State.reset)).rstnLow = true := by
  decide +kernel

/-- Straps: LVA1 and LVB2 high give P1 level 1 and P2 level 2 (R172). -/
theorem test_device_reset_samples_straps :
    allPorts.map (fun p => ((next (exec (.deviceReset 0b0010#4 0b0100#4) running)).port p).strap) =
      [0, 1, 2, 0] := by
  decide +kernel

/-- After the rise the part is as State.reset has it, but for the first samples, which are free. -/
theorem test_rstn_rise_opens_the_setup_window :
    let low := next (exec (.deviceReset 0#4 0#4) running)
    { next (exec .rstnRise low) with channels := State.reset.channels, freeCount := 0 } = State.reset ∧
    ((low.afterRise 0x04#8).channels.get 2).level = true := by
  decide +kernel

/-- Port 0 in a transaction whose first two bytes and three bits are those of a NOP, of `x` bits. -/
def midway (x : Bool) : State :=
  next (exec (.transactionBegin ⟨0, List.replicate 18 false ++ [x]⟩) State.reset)

theorem test_witness_undecoded :
    setup.hears 0 ([0x00#8].flatMap byteBits ++ [true]) = true ∧
      undecodedStatus ([0x00#8].take 36) [0x00#8].length = some .frameShort ∧
      reply 0 (exec (.undecodedRequest 0 ⟨[0x00#8], [true]⟩) setup) = (.frameShort, []) := by
  decide +kernel

/-- The first response of a port is NONE, and a transaction begins with it in the slot (R161). -/
theorem test_transaction_begin :
    State.reset.rstnLow = false ∧ (State.reset.port 0).txn = none ∧
      ((next (exec (.transactionBegin ⟨0, []⟩) State.reset)).port 0).txn =
        some [0x02#8, 0x00#8, 0x00#8, 0x00#8, 0x2C#8] := by
  decide +kernel

/-- Bits on the way: two whole bytes and three bits stand in the buffer, SDOn shows the bit of the record
that comes next, and the request that opens with them is taken, another is not (R159). -/
theorem test_shift_buffer :
    ((midway false).port 0).shift = ⟨[0x00#8, 0x00#8], 2, [false, false, false]⟩ ∧
    (midway false).sdo 0 = some false ∧ (midway false).sdo 1 = none ∧ State.reset.sdo 0 = none ∧
    (next (exec (.transactionBegin ⟨0, List.replicate 6 false⟩) State.reset)).sdo 0 = some true ∧
    reply 0 (exec (.nop (ask 0 [])) (midway false)) = (.ok, []) ∧
    next (exec (.nop (ask 0 [])) (midway true)) = midway true := by
  decide +kernel

theorem test_witness_not_begun :
    (Instr.nop (ask 0 [])).record? = some (0x00#8, ask 0 []) ∧ (State.reset.port 0).txn = none ∧
      (setup.port 0).txn.isSome = true := by
  decide +kernel

theorem test_witness_other_bits (n : Nat) :
    ((midway true).port 0).shift ≠ ShiftBuffer.empty.clockIn ((Request.bits 0x00#8 (ask 0 [])).take n) := by
  intro h
  have := (ShiftBuffer.opens_iff (Request.bits 0x00#8 (ask 0 [])) ((midway true).port 0).shift).mpr ⟨n, h⟩
  revert this
  decide +kernel

theorem test_witness_answer : (setup.port 1).txn = some [0x02#8, 0x00#8, 0x00#8, 0x00#8, 0x2C#8] := by
  decide +kernel

/-- The notice of the entry into OPERATING by the window, byte by byte (R164). -/
theorem test_notice_bytes :
    (⟨0xFF#8, 0#16, 0#32, .setupClosed .window⟩ : Notice).bytes =
      [10#8, 0xFF#8, 0#8, 0#8, 0#8, 0#8, 0#8, 0#8, 2#8, 0xFF#8, 0#8, 0#8] ∧
    (⟨3#8, 7#16, 9#32, .probeAborted (.b true) true 2⟩ : Notice).bytes =
      [8#8, 3#8, 0#8, 7#8, 0#8, 0#8, 0#8, 9#8, 4#8, 1#8, 0xFF#8, 0x23#8] := by
  decide +kernel

/-! ## General checks (R163) -/

/-- One request for each check, with the checks before it passed. -/
theorem test_witness_general_checks :
    (allowedIn (.tbHold (ask 0 []))).admits setup.device = false ∧
    (allowedIn (.tbHold (askLow 0 []))).admits held.device = true ∧
    withinLimit (.tbHold (askLow 0 [])) (askLow 0 []) held = false ∧
    withinLimit (.tbHold (ask 0 [])) (ask 0 []) held = true ∧
    Request.headClean ⟨0, 0x04#8, [], [], []⟩ = false ∧
    bodyLength (.tbHold (ask 0 [0x00#8])) = some 0 ∧ (ask 0 [0x00#8]).body.length ≠ 0 ∧
    reply 0 (exec (.tbHold (ask 0 [])) setup) = (.wrongState, []) ∧
    reply 0 (exec (.tbHold (askLow 0 [])) held) = (.noRight, []) ∧
    reply 0 (exec (.tbHold ⟨0, 0x04#8, [], [], []⟩) held) = (.badField, []) := by
  decide +kernel

/-- A request that is refused beyond the general checks. -/
theorem test_witness_refusal :
    held.hears 1 (Request.bits 0x42#8 (ask 1 [0x03#8])) = true ∧
    (Instr.leaseRelease (ask 1 [0x03#8])).record? = some (0x42#8, ask 1 [0x03#8]) ∧
    ((next (exec (.leaseRelease (ask 1 [0x03#8])) held)).port 1).slot.status = .notHolder := by
  decide +kernel

/-- The right to act: line 3 LEASED to port 0, line 5 OPEN with ceiling 2. -/
theorem test_witness_right_to_act :
    (held.table.lines.get 3).kind = .leased ∧
    ((held.plant.line 3).lease = some (Lease.fresh 0 0 10#16) ∧ (Lease.fresh 0 0 10#16).holder = 0) ∧
    (∀ k, (held.plant.line 3).lease = some k → k.holder ≠ 1) ∧
    (held.table.lines.get 5).kind = .shared ∧
    held.effective ⟨0, 0x02#8, [], [], []⟩ ≤ (held.table.lines.get 5).ceiling ∧
    (held.table.lines.get 5).ceiling < held.effective (askLow 0 []) ∧
    held.actRefusal 1 (held.effective (ask 1 [])) 3 = some .notHolder ∧ held.device = .operating :=
  ⟨by decide +kernel, by decide +kernel,
    of_some (x := Lease.fresh 0 0 10#16) (by decide +kernel) (by decide +kernel), by decide +kernel,
    by decide +kernel, by decide +kernel, by decide +kernel, by decide +kernel⟩

/-! ## Ports (R165 to R171) -/

theorem test_witness_taken : Taken 0x00#8 (ask 0 []) setup ∧ Taken 0x00#8 (ask 0 []) (midway false) ∧
    Taken 0x10#8 (ask 0 []) held ∧ (ask 0 []).body = [] :=
  ⟨taken_of (by decide +kernel), taken_of (by decide +kernel), taken_of (by decide +kernel), rfl⟩

/-- A transaction that has shifted nothing in yet takes any request of its port that is well formed. -/
theorem test_witness_taken_at_begin {kind : Byte} {r : Request} {s : State}
    (h : s.listening r.port = true) (hs : (s.port r.port).shift = ShiftBuffer.empty)
    (hf : r.body.length ≤ 32) (hc : Request.headClean r = true) : Taken kind r s :=
  ⟨by simp [State.hears, h, hs, ShiftBuffer.opens_empty], hf, hc⟩

/-- Operands at their bounds, and beyond them (R163 step 6). -/
theorem test_operands_out_of_range :
    reply 0 (exec (.lineProbe (ask 0 [16#8])) held) = (.badField, []) ∧
    reply 0 (exec (.lineMode (ask 0 [3#8, 2#8])) held) = (.badField, []) ∧
    reply 0 (exec (.captureRead (ask 0 [8#8])) held) = (.badField, []) ∧
    reply 0 (exec (.tallyAdd (ask 0 [8#8, 0#8, 0#8, 0#8, 1#8])) held) = (.badField, []) ∧
    reply 0 (exec (.entryRead (ask 0 [0#8, 0#8])) held) = (.badField, []) ∧
    reply 0 (exec (.leaseTake (ask 0 [3#8, 0#8, 9#8])) held) = (.badField, []) ∧
    reply 0 (exec (.leaseTake (ask 0 [3#8, 0xEA#8, 0x61#8])) held) = (.badField, []) ∧
    reply 0 (exec (.configWrite (ask 0 [0x21#8, 0#8, 0#8, 0#8, 0#8, 0#8])) setup) = (.badField, []) := by
  decide +kernel

theorem test_witness_operands : OperandsInRange (.lineProbe (ask 0 [15#8])) held ∧
    ¬ OperandsInRange (.lineProbe (ask 0 [16#8])) held ∧
    (allowedIn (.lineProbe (ask 0 [15#8]))).admits held.device = true ∧
    withinLimit (.lineProbe (ask 0 [15#8])) (ask 0 [15#8]) held = true := by
  refine ⟨⟨15#8, rfl, by decide⟩, ?_, by decide +kernel, by decide +kernel⟩
  rintro ⟨a, h, ha⟩
  cases h
  exact absurd ha (by decide)

theorem test_nop : reply 0 (exec (.nop (ask 0 [])) setup) = (.ok, []) ∧
    reply 0 (exec (.nop (ask 0 [0x00#8])) setup) = (.badField, []) := by
  decide +kernel

theorem test_identify :
    reply 1 (exec (.identify (ask 1 [])) setup) = (.ok, [0x4A#8, 0x16#8, 2#8, 1#8, 0#8]) := by
  decide +kernel

theorem test_status :
    reply 0 (exec (.status (ask 0 [])) holding) =
      (.ok, [1#8, 3#8, 0#8, 0#8, 0#8, 0#8, 1#8, 1#8, 16#8, 1#8]) := by
  decide +kernel

theorem test_witness_setup_quiet : SetupQuiet setup ∧ setup.device = .setup := by
  unfold SetupQuiet; decide +kernel

/-- The two notices of the entry into OPERATING leave the queue (R170, R178). -/
theorem test_notice_read :
    reply 0 (exec (.noticeRead (ask 0 [])) held) =
      (.ok, [2#8, 0#8] ++ [10#8, 0xFF#8, 0#8, 0#8, 0#8, 0#8, 0#8, 0#8, 2#8, 0xFF#8, 0#8, 0#8] ++
        [9#8, 0xFF#8, 0#8, 0#8, 0#8, 0#8, 0#8, 0#8, 0#8, 1#8, 4#8, 0xFF#8]) ∧
    (next (exec (.noticeRead (ask 0 [])) held)).ntfLow 0 = false := by
  decide +kernel

theorem test_subscribe :
    reply 0 (exec (.subscribe (ask 0 [0x81#8])) setup) = (.ok, [0x00#8, 0x81#8]) ∧
      ((next (exec (.subscribe (ask 0 [0x81#8])) setup)).port 0).mask = 0x81#8 := by
  decide +kernel

/-- PORT_RESET of the holder of a pulsing line in HOLDING: one entry, one lease, then HELD. -/
theorem test_port_reset :
    reply 0 (exec (.portReset (ask 0 [])) holding) = (.ok, [1#8, 1#8]) ∧
      (next (exec (.portReset (ask 0 [])) holding)).plant.timebase = .held := by
  decide +kernel

/-- Each clause of PORT_RESET on a line and on the timebase has a case. -/
theorem test_witness_port_reset :
    (held.plant.line 3).heldBy 0 = true ∧ (held.plant.line 5).heldBy 0 = false ∧
    ((onLine 5 (.pulsing ⟨0, 7#16, 2⟩) held).plant.line 5).state = .pulsing ⟨0, 7#16, 2⟩ ∧
    ((onLine 5 (.probing ⟨0, false, .a, 5⟩) held).plant.line 5).state = .probing ⟨0, false, .a, 5⟩ ∧
    (held.plant.line 5).state = .static ∧ holding.plant.timebase = .holding ∧
    held.plant.timebase ≠ .holding := by
  decide +kernel

theorem test_witness_outputs :
    (held.plant.inbox 0).queue.length < 16 ∧ (held.plant.inbox 0).queue ≠ [] ∧
    held.rstnLow = false ∧ (next (exec (.deviceReset 0#4 0#4) held)).pin 3 = .highZ := by
  decide +kernel

theorem test_a_full_queue_overflows :
    (⟨List.replicate 16 (timebaseNotice 0#32 .off .held .setupClosed), false⟩ : Inbox).queue.length = 16 ∧
    (Inbox.post (timebaseNotice 0#32 .off .held .setupClosed)
      ⟨List.replicate 16 (timebaseNotice 0#32 .off .held .setupClosed), false⟩).overflow = true := by
  decide +kernel

/-! ## Setup (R174 to R178) -/

/-- Every clause of the item list at its bounds. -/
theorem test_items_at_their_bounds :
    (Item.ofCode 0x01#8 3#8).isSome = true ∧ (Item.ofCode 0x01#8 4#8).isSome = false ∧
    (Item.ofCode 0x15#8 15#8).isSome = true ∧ (Item.ofCode 0x16#8 0#8).isSome = false ∧
    (Item.ofCode 0x24#8 0#8).isSome = true ∧ (Item.ofCode 0x24#8 1#8).isSome = false ∧
    (Item.ofCode 0x41#8 7#8).isSome = true ∧ (Item.ofCode 0x41#8 8#8).isSome = false ∧
    ((Item.quota 0).write Table.default 64#32).isSome = true ∧
    ((Item.quota 0).write Table.default 65#32).isSome = false ∧
    ((Item.prescale).write Table.default 0#32).isSome = false ∧
    ((Item.prescale).write Table.default 1000#32).isSome = true ∧
    ((Item.source).write Table.default 8#32).isSome = false ∧
    ((Item.source).write Table.default 0xFF#32).isSome = true := by
  decide +kernel

/-- A fallback of ACTIVE moves the line; a quota above the sum of 64 is refused (R175). -/
theorem test_config_write :
    reply 0 (exec (.configWrite (ask 0 [0x13#8, 3#8, 0#8, 0#8, 0#8, 1#8])) setup) =
      (.ok, [0x13#8, 3#8, 0#8, 0#8, 0#8, 1#8]) ∧
    ((next (exec (.configWrite (ask 0 [0x13#8, 3#8, 0#8, 0#8, 0#8, 1#8])) setup)).pin 3 = .high) ∧
    reply 0 (exec (.configWrite (ask 0 [0x01#8, 0#8, 0#8, 0#8, 0#8, 17#8])) setup) =
      (.badConfig, []) := by
  decide +kernel

/-- The premises of ConfigWriteKeepsConsistency and of both its clauses: quota 16 keeps the sum at 64, a
pace channel that is OFF does not pass. -/
theorem test_witness_config_write :
    setup.effective (ask 0 [0x01#8, 0#8, 0#8, 0#8, 0#8, 16#8]) = 0 ∧
    Item.ofCode 0x01#8 0#8 = some (.quota 0) ∧
    (Item.quota 0).write setup.table (word 0#8 0#8 0#8 16#8) = some Table.default ∧
    Item.ofCode 0x20#8 0#8 = some .source ∧
    (Item.source).write setup.table (word 0#8 0#8 0#8 2#8) =
      some { Table.default with source := .pace 2 } ∧
    (Table.default.channels.get 2).select = .off ∧ Table.default.consistent = true ∧
    { Table.default with source := .pace 2 }.consistent = false := by
  decide +kernel

theorem test_config_read :
    reply 3 (exec (.configRead (ask 3 [0x23#8, 0#8])) held) =
      (.ok, [0x23#8, 0#8, 0#8, 0#8, 0#8, 100#8, 0#8]) ∧
    Item.ofCode 0x23#8 0#8 = some .holdTimeout ∧ Item.ofCode 0x25#8 0#8 = none := by
  decide +kernel

theorem test_end_setup :
    reply 0 (exec (.endSetup (ask 0 [])) setup) = (.ok, []) ∧ setup.effective (ask 0 []) = 0 ∧
      setup.plant.timebase = .off ∧
      (next (exec (.endSetup (ask 0 [])) setup)).plant.timebase = .held := by
  decide +kernel

/-- At the end of the window, and before it. -/
theorem test_setup_window_expiry :
    let s := State.reset.runRc 32000000
    s.rstnLow = false ∧ s.window = some 0 ∧ s.due = [.setupWindowExpiry] ∧
      (next (exec .setupWindowExpiry s)).device = .operating ∧ (s.plant.inbox 0) = ⟨[], false⟩ ∧
      next (exec .setupWindowExpiry State.reset) = State.reset := by
  decide +kernel

/-! ## Timebase (R24 to R37) -/

/-- The four cases of TB_HOLD. -/
theorem test_tb_hold :
    reply 0 (exec (.tbHold (ask 0 [])) running) = (.ok, [1#8, 0#8, 0#8, 0#8, 0#8, 0#8]) ∧
    reply 0 (exec (.tbHold (ask 0 [])) (pulsing 2 running)) =
      (.accepted, [3#8, 0#8, 0#8, 0#8, 0#8, 1#8]) ∧
    reply 0 (exec (.tbHold (ask 0 [])) holding) = (.ok, [3#8, 0#8, 0#8, 0#8, 0#8, 1#8]) ∧
    reply 0 (exec (.tbHold (ask 0 [])) held) = (.ok, [1#8, 0#8, 0#8, 0#8, 0#8, 0#8]) := by
  decide +kernel

theorem test_witness_tb_hold :
    held.device = .operating ∧ held.effective (ask 0 []) ≤ held.table.holdLevel ∧
    running.plant.inFlight = 0 ∧ (pulsing 2 running).plant.inFlight ≠ 0 := by
  decide +kernel

/-- A START batch of one MARK, and TB_START in RUNNING. -/
theorem test_tb_start :
    reply 0 (exec (.tbStart (ask 0 [])) (withTimeline [⟨mark 4#16, 0#32⟩, ⟨mark 5#16, 9#32⟩] held)) =
      (.ok, [2#8, 0#8, 0#8, 0#8, 0#8, 1#8]) ∧
    reply 0 (exec (.tbStart (ask 0 [])) running) = (.ok, [2#8, 0#8, 0#8, 0#8, 0#8, 0#8]) := by
  decide +kernel

/-- A tick in RUNNING executes the entry that comes to lead 0 (R26, R49); in SETUP and with a PACE source a
TICK is no event. -/
theorem test_tick :
    let paced := { running with table := { running.table with source := .pace 2 } }
    running.dividing = true ∧ next (exec .tick paced) = paced ∧ next (exec .tick setup) = setup ∧
    (next (exec .tick (withTimeline [⟨mark 4#16, 1#32⟩, ⟨mark 5#16, 9#32⟩] running))).plant.timeline =
      [⟨mark 5#16, 9#32⟩] ∧
    (next (exec .tick running)).plant.tc = 1#32 ∧ (next (exec .tick holding)).plant.tc = 0#32 ∧
    (next (exec .tick holding)).plant.timebase = .held := by
  decide +kernel

/-- A line without a due entry, and a generator of each kind of count. -/
theorem test_witness_tick_lines :
    (∀ x ∈ ((running.passed 160).plant.countTick.advance).dueNow, x.entry.line? ≠ some (3 : LineId)) ∧
    (running.passed 160).divider = 160 ∧ (holding.passed 160).divider = 160 ∧
    (holding.passed 160).plant.timebase = .holding ∧ (held.passed 160).divider = 0 ∧
    (gen 4#16 .left 2 .up none).next = some (gen 4#16 .left 3 .up none) ∧
    (gen 4#16 .left 3 .up none).next = none ∧
    (gen 4#16 .centre 2 .up none).next = some (gen 4#16 .centre 3 .up none) ∧
    (gen 4#16 .centre 3 .up none).next = some (gen 4#16 .centre 4 .down none) ∧
    (gen 4#16 .centre 2 .down none).next = some (gen 4#16 .centre 1 .down none) ∧
    (gen 4#16 .centre 1 .down none).next = none := by
  decide +kernel

theorem test_witness_legal_generators :
    (gen 4#16 .left 3 .up none).legal ∧ (gen 4#16 .centre 1 .down none).legal ∧
    (gen 4#16 .centre 3 .up none).legal ∧ (gen 0#16 .left 0 .up none).legal := by
  simp [Generator.legal, gen]

/-- At the end of the hold timer, and before it. -/
theorem test_hold_timer_expiry :
    let s := holdingFor 0 1
    s.plant.timebase = .holding ∧ s.plant.holdTimer = some 0 ∧
    (next (exec .holdTimerExpiry s)).plant.timebase = .held ∧
    (next (exec .holdTimerExpiry s)).pin 3 = .low ∧
    (next (exec .holdTimerExpiry s)).plant.pulsing = [] ∧
    next (exec .holdTimerExpiry holding) = holding := by
  decide +kernel

/-! ## Batches and completions (R52 to R58) -/

/-- Two entries of one level on line 5: the setting decides; a lower level wins over both. -/
theorem test_winner :
    let x : Timed := ⟨{ mark 1#16 with level := 1, action := .onLine 5 .set }, 0#32⟩
    let y : Timed := ⟨{ mark 2#16 with level := 1, action := .onLine 5 .clear }, 0#32⟩
    let z : Timed := ⟨{ mark 3#16 with level := 0, action := .onLine 5 .toggle }, 0#32⟩
    winner .oldest 5 [x, y] = some x ∧ winner .newest 5 [x, y] = some y ∧
      winner .newest 5 [x, z, y] = some z ∧ winner .oldest 4 [x, y] = none ∧
      ([x, z, y].map fun t => t.entry.name).Nodup ∧
      ((running.plant.runBatch .oldest [x, z, y]).line 5).level = true := by
  decide +kernel

/-- The ends and the repeats of a completion have cases. -/
theorem test_completion :
    let again : Entry := { mark 1#16 with left := .unlimited, repeatCount := 0#8, step := some 6#32 }
    (mark 1#16).left = .count 1 ∧
    (running.plant.finish (.done .none) ⟨mark 1#16, 0#32⟩).timeline = [] ∧
    (running.plant.finish (.done .none)
      ⟨{ mark 1#16 with left := .count 2, repeatCount := 2#8, step := some 6#32 }, 0#32⟩).timeline =
        [⟨{ mark 1#16 with left := .count 1, repeatCount := 2#8, step := some 6#32 }, 6#32⟩] ∧
    (running.plant.finish (.done .none)
      ⟨{ again with trigger := .edge 2 1#8 0#32 }, 0#32⟩).armed.map Waiting.edgesLeft = [some 6] ∧
    (running.plant.finish (.done .none)
      ⟨{ again with trigger := .count 1 9#32 0#32 }, 0#32⟩).armed.map (fun x => x.entry.trigger) =
        [.count 1 15#32 0#32] := by
  decide +kernel

/-! ## Entries (R43 to R65) -/

/-- The body of `mark 4` due at 100, with a repeat count of 1, and of a repeating WAVE that an edge releases,
without notify and under LATE_DROP (R164). -/
theorem test_schedule_body :
    entryBody (mark 4#16) 100#32 =
      [0#8, 4#8, 6#8, 0xFF#8, 0#8, 1#8, 1#8, 0#8, 0#8, 0#8, 0#8, 0#8, 0#8, 0#8, 100#8] ∧
    entryBody { mark 0x0102#16 with
        action := .onLine 3 (.wave ⟨0x0304#16, 0x0506#16, .centre, .activeFirst⟩)
        trigger := .edge 2 7#8 0x08090A0B#32
        repeatCount := 9#8
        step := some 0x0C#32
        notify := false
        latePolicy := .drop } 0#32 =
      [1#8, 2#8, 4#8, 3#8, 1#8, 9#8, 2#8, 0#8, 0#8, 0#8, 0x0C#8, 2#8, 7#8, 8#8, 9#8, 0x0A#8, 0x0B#8, 3#8, 4#8,
        5#8, 6#8, 1#8] ∧
    parseSchedule held (ask 0 (entryBody (mark 4#16) 100#32)) = some (mark 4#16, 100#32) ∧
    parseSchedule held (ask 0 (entryBody (pulse 4#16) 100#32)) = some (pulse 4#16, 100#32) := by
  decide +kernel

theorem test_witness_schedule_body :
    (mark 4#16).owner = (ask 0 []).port ∧ (mark 4#16).level = held.effective (ask 0 []) ∧
    (mark 4#16).tag ≠ 0#16 ∧ (mark 4#16).left = .count (mark 4#16).repeatCount.toNat ∧
    (mark 4#16).legal ∧ channelUsable held.table (mark 4#16).trigger = true ∧
    (mark 4#16).lateMark = false ∧ (mark 4#16).step = none ∧ (mark 4#16).trigger = .atDue :=
  ⟨rfl, by decide +kernel, by decide, rfl,
    ⟨⟨by decide, by decide⟩, trivial, trivial, fun h => absurd rfl h⟩, rfl, rfl, rfl, rfl⟩

/-- Accepted PENDING, and each refusal of R45 and R46 in turn. -/
theorem test_schedule :
    reply 0 (exec (.schedule (ask 0 (entryBody (mark 4#16) 100#32))) held) = (.ok, [1#8, 63#8, 0#8]) ∧
    reply 1 (exec (.schedule (ask 1 (entryBody (pulse 4#16) 100#32))) held) = (.notHolder, []) ∧
    reply 0 (exec (.schedule (ask 0 (entryBody (mark 4#16) 100#32)))
      (withTimeline [⟨mark 4#16, 9#32⟩] held)) = (.dupTag, []) ∧
    reply 0 (exec (.schedule (ask 0 (entryBody { mark 4#16 with latePolicy := .drop } 0x80000000#32)))
      held) = (.late, []) ∧
    reply 0 (exec (.schedule (ask 0 (entryBody (mark 4#16) 0x80000000#32))) held) =
      (.ok, [1#8, 63#8, 1#8]) := by
  decide +kernel

/-- A port at its quota of 16, and a pool of 64 entries (R16, R45). -/
theorem test_schedule_shares :
    let full : List Timed := (List.range 16).map fun n => ⟨mark (BitVec.ofNat 16 (n + 8)), 9#32⟩
    let all : List Timed := (List.range 64).map fun n =>
      ⟨{ mark (BitVec.ofNat 16 (n + 8)) with owner := 1 }, 9#32⟩
    held.table.quota.get 0 ≤ (withTimeline full held).plant.liveCount 0 ∧
    reply 0 (exec (.schedule (ask 0 (entryBody (mark 4#16) 100#32))) (withTimeline full held)) =
      (.quotaFull, []) ∧
    64 ≤ (withTimeline all held).plant.used ∧
    reply 0 (exec (.schedule (ask 0 (entryBody (mark 4#16) 100#32))) (withTimeline all held)) =
      (.poolFull, []) := by
  decide +kernel

/-- SCHEDULE by each trigger: an EDGE arms, a COUNT that is reached is placed, one that is not arms. -/
theorem test_schedule_by_trigger :
    let e := { mark 4#16 with trigger := .edge 2 3#8 0#32 }
    let c := { mark 4#16 with trigger := .count 1 0#32 5#32 }
    let d := { mark 4#16 with trigger := .count 1 1#32 5#32 }
    reply 0 (exec (.schedule (ask 0 (entryBody e 0#32))) (seeing held)) = (.ok, [0#8, 63#8, 0#8]) ∧
    reply 0 (exec (.schedule (ask 0 (entryBody c 0#32))) held) = (.ok, [1#8, 63#8, 0#8]) ∧
    reply 0 (exec (.schedule (ask 0 (entryBody d 0#32))) held) = (.ok, [0#8, 63#8, 0#8]) := by
  decide +kernel

/-- The premises of the SCHEDULE statements. -/
theorem test_witness_schedule :
    parseSchedule held (ask 0 (entryBody (pulse 4#16) 100#32)) = some (pulse 4#16, 100#32) ∧
    held.actRefusal 0 (held.effective (ask 0 (entryBody (pulse 4#16) 100#32))) 3 = none ∧
    held.actRefusal 1 (held.effective (ask 1 (entryBody (pulse 4#16) 100#32))) 3 = some .notHolder ∧
    held.plant.hasTag 0 4#16 = false ∧ held.plant.liveCount 0 < held.table.quota.get 0 ∧
    held.plant.used < 64 ∧ (100#32 - held.plant.tc).toNat < 2 ^ 31 := by
  decide +kernel

/-- At once while RUNNING at lead 0, else behind an equal lead and before a greater one (R42, R50). -/
theorem test_placement :
    ([⟨mark 1#16, 5#32⟩, ⟨mark 2#16, 6#32⟩] : List Timed).Pairwise
      (fun y z => (lead 0#32 y.due).toNat ≤ (lead 0#32 z.due).toNat) ∧
    (running.plant.place .oldest ⟨mark 4#16, 0#32⟩).timeline = [] ∧
    ((withTimeline [⟨mark 1#16, 5#32⟩, ⟨mark 2#16, 6#32⟩] held).plant.place .oldest
      ⟨mark 4#16, 5#32⟩).timeline.map (fun x => x.entry.tag) = [1#16, 4#16, 2#16] := by
  decide +kernel

/-- CANCEL of a pulsing entry, of an absent tag, and of tag 0. -/
theorem test_cancel :
    reply 0 (exec (.cancel (ask 0 (halfBytes 7#16))) holding) = (.ok, [2#8]) ∧
    (next (exec (.cancel (ask 0 (halfBytes 7#16))) holding)).plant.timebase = .held ∧
    reply 0 (exec (.cancel (ask 0 (halfBytes 8#16))) holding) = (.noTag, []) ∧
    reply 0 (exec (.cancel (ask 0 (halfBytes 0#16))) holding) = (.ok, [1#8]) ∧
    holding.plant.hasTag 0 7#16 = true ∧ holding.plant.hasTag 0 8#16 = false := by
  decide +kernel

/-- ENTRY_MOVE: moved, late under each policy, of an entry that is not PENDING, of an absent tag. -/
theorem test_entry_move :
    let s := withTimeline [⟨mark 4#16, 9#32⟩, ⟨{ mark 5#16 with latePolicy := .drop }, 9#32⟩] (pulsing 2 held)
    reply 0 (exec (.entryMove (ask 0 (halfBytes 4#16 ++ wordBytes 20#32))) s) = (.ok, [1#8, 0#8]) ∧
    reply 0 (exec (.entryMove (ask 0 (halfBytes 4#16 ++ wordBytes 0xFFFFFFFF#32))) s) =
      (.ok, [1#8, 1#8]) ∧
    reply 0 (exec (.entryMove (ask 0 (halfBytes 5#16 ++ wordBytes 0x80000000#32))) s) = (.late, []) ∧
    reply 0 (exec (.entryMove (ask 0 (halfBytes 7#16 ++ wordBytes 20#32))) s) = (.busy, []) ∧
    reply 0 (exec (.entryMove (ask 0 (halfBytes 8#16 ++ wordBytes 20#32))) s) = (.noTag, []) ∧
    s.plant.findPending 0 4#16 = some ⟨mark 4#16, 9#32⟩ ∧ s.plant.findPending 0 7#16 = none := by
  decide +kernel

/-- The last row of R64: of a CANCEL and an ENTRY_MOVE that come together the second answers NO_TAG, and the
moved entry stays. Once RC has run on, a CANCEL finds the entry (R13, R60); so does one of a new entry. -/
theorem test_cancel_and_move :
    let cancel := .cancel (ask 0 (halfBytes 4#16))
    let move := .entryMove (ask 0 (halfBytes 4#16 ++ wordBytes 20#32))
    let moved := begun (next (exec move (withTimeline [⟨mark 4#16, 9#32⟩] held)))
    let gone := begun (next (exec cancel (withTimeline [⟨mark 4#16, 9#32⟩] held)))
    moved.moved = [(0, 4#16)] ∧ moved.plant.hasTag 0 4#16 = true ∧
    moved.plant.findPending 0 4#16 ≠ none ∧
    reply 0 (exec cancel moved) = (.noTag, []) ∧
    (next (exec cancel moved)).plant.timeline = [⟨mark 4#16, 20#32⟩] ∧
    reply 0 (exec cancel (moved.runRc 1)) = (.ok, [1#8]) ∧ (moved.runRc 1).moved = [] ∧
    reply 0 (exec move gone) = (.noTag, []) ∧ (moved.clearMoved 0 4#16).moved = [] := by
  decide +kernel

/-- An ENTRY_MOVE that executes its entry at once and starts the pulse, a START and a pace edge that execute
the moved entry: a CANCEL of the same moment cuts the pulse and removes the repeat (R62, R81). -/
theorem test_cancel_after_execution :
    let cancel := .cancel (ask 0 (halfBytes 4#16))
    let move := fun due s => begun (next (exec (.entryMove (ask 0 (halfBytes 4#16 ++ wordBytes due))) s))
    let start := fun s => begun (next (exec (.tbStart (ask 0 [])) s))
    let twice := { mark 4#16 with repeatCount := 2#8, step := some 6#32, left := .count 2 }
    let atOnce := move 0#32 (withTimeline [⟨pulse 4#16, 9#32⟩] running)
    let started := start (move 0#32 (withTimeline [⟨pulse 4#16, 9#32⟩] held))
    let again := start (move 0#32 (withTimeline [⟨twice, 9#32⟩] held))
    let paced := { move 1#32 (withTimeline [⟨twice, 9#32⟩] (seeing running)) with rc := 9 }
    let edge := begun (next (exec (.captureEdge 2 .rise 0)
      { paced with table := { paced.table with source := .pace 2 } }))
    atOnce.plant.findPending 0 4#16 = none ∧ (atOnce.plant.line 3).isPulsing = true ∧
    reply 0 (exec cancel atOnce) = (.ok, [2#8]) ∧
    (next (exec cancel atOnce)).plant.line 3 = ⟨false, .drive, .static, (held.plant.line 3).lease⟩ ∧
    started.moved = [] ∧ reply 0 (exec cancel started) = (.ok, [2#8]) ∧
    again.plant.timeline.map Timed.due = [6#32] ∧ reply 0 (exec cancel again) = (.ok, [1#8]) ∧
    paced.moved = [(0, 4#16)] ∧ edge.moved = [] ∧ edge.plant.timeline.map Timed.due = [7#32] ∧
    reply 0 (exec cancel edge) = (.ok, [1#8]) := by
  decide +kernel

/-- ENTRY_READ of an entry of each state, and of none. -/
theorem test_entry_read :
    let s := withArmed [⟨{ mark 5#16 with trigger := .edge 2 3#8 0#32 }, some 3⟩]
      (withTimeline [⟨mark 4#16, 9#32⟩] (pulsing 2 held))
    reply 0 (exec (.entryRead (ask 0 (halfBytes 4#16))) s) =
      (.ok, entryBody (mark 4#16) 9#32 ++ [0#8, 1#8, 0#8, 0#8, 1#8, 2#8, 0#8] ++ wordBytes 9#32 ++
        wordBytes 9#32) ∧
    ((reply 0 (exec (.entryRead (ask 0 (halfBytes 5#16))) s)).2.drop 17 =
      [0#8, 0#8, 0#8, 0#8, 1#8, 1#8, 3#8] ++ wordBytes 0#32 ++ wordBytes 0#32) ∧
    ((reply 0 (exec (.entryRead (ask 0 (halfBytes 7#16))) s)).2.getD 18 0#8 = 2#8) ∧
    reply 0 (exec (.entryRead (ask 0 (halfBytes 6#16))) s) = (.noTag, []) ∧
    s.plant.findArmed 0 7#16 = none ∧ s.plant.findPending 0 7#16 = none ∧
    (s.plant.findPulsing 0 7#16).isSome = true := by
  decide +kernel

/-! ## Lines (R67 to R103) -/

/-- LINE_MODE in both modes, on a line under a probe, and the pin. -/
theorem test_line_mode :
    reply 0 (exec (.lineMode (ask 0 [lineByte 3, modeCode .shadow])) (onLine 3 .static held)) =
      (.ok, [1#8, 1#8, 0#8]) ∧
    reply 0 (exec (.lineMode (ask 0 [lineByte 3, modeCode .drive])) (onLine 3 .static held)) =
      (.ok, [0#8, 1#8, 1#8]) ∧
    reply 0 (exec (.lineMode (ask 0 [lineByte 3, modeCode .shadow]))
      (onLine 3 (.probing ⟨0, false, .a, 5⟩) held)) = (.busy, []) ∧
    held.actRefusal 0 (held.effective (ask 0 [])) 3 = none := by
  decide +kernel

/-- LINE_READ of a pulsing line held by port 0. -/
theorem test_line_read :
    reply 2 (exec (.lineRead (ask 2 [lineByte 3]) true) (pulsing 2 held)) =
      (.ok, [0#8, 0#8, 0#8, 0#8, 0#8, 10#8, 1#8, 1#8, 1#8, 1#8, 0#8, 2#8, 0#8] ++
        List.replicate 9 0#8) := by
  decide +kernel

/-- WAVE_RESTART with and without a pending load, and on a STATIC line. -/
theorem test_wave_restart :
    reply 0 (exec (.waveRestart (ask 0 [lineByte 3])) (onLine 3 (.waving (gen 4#16 .left 2 .up none)) held)) =
      (.ok, [0#8, 0#8, 0#8, 0#8, 4#8, 0#8, 1#8, 0#8, 1#8, 0#8]) ∧
    reply 0 (exec (.waveRestart (ask 0 [lineByte 3]))
      (onLine 3 (.waving (gen 4#16 .left 2 .up (some load))) held)) =
      (.ok, [0#8, 0#8, 0#8, 0#8, 5#8, 0#8, 2#8, 2#8, 0#8, 1#8]) ∧
    reply 0 (exec (.waveRestart (ask 0 [lineByte 3])) held) = (.lineState, []) := by
  decide +kernel

/-- The last tick of a pulse, and a PULSE_END and a PERIOD_END that no tick brings. -/
theorem test_pulse_end :
    let s := under .held (pulsing 1 running)
    let g := onLine 3 (.waving (gen 4#16 .left 2 .up none)) running
    next (exec (.pulseEnd 3) s) = s ∧ next (exec (.pulseEnd 4) holding) = holding ∧
    next (exec (.pulseEnd 3) (pulsing 2 running)) = pulsing 2 running ∧
    next (exec (.periodEnd 3) g) = g ∧ (gen 4#16 .left 2 .up none).next ≠ none ∧
    (next (exec (.pulseEnd 3) holding)).plant.timebase = .held ∧
    holding.plant.findPulsing 0 7#16 = some ⟨pulse 7#16, 0#32⟩ ∧
    (holding.plant.line 3).state = .pulsing ⟨0, 7#16, 1⟩ ∧
    (holding.plant.timebase = .running ∨ holding.plant.timebase = .holding) := by
  decide +kernel

/-- PERIOD_END with and without a pending load. -/
theorem test_period_end :
    (gen 4#16 .left 3 .up none).next = none ∧
    ((next (exec (.periodEnd 3) (onLine 3 (.waving (gen 4#16 .left 3 .up none)) running))).plant.line 3).state =
      .waving (gen 4#16 .left 0 .up none) ∧
    ((next (exec (.periodEnd 3)
      (onLine 3 (.waving (gen 4#16 .left 3 .up (some load))) running))).plant.line 3).state =
      .waving ⟨load.wave, 0, .up, none⟩ := by
  decide +kernel

/-! ## Probes (R150 to R156) -/

theorem test_line_probe :
    reply 0 (exec (.lineProbe (ask 0 [lineByte 3])) held) = (.accepted, [3#8, 0#8]) ∧
    reply 0 (exec (.lineProbe (ask 0 [lineByte 3])) (pulsing 2 held)) = (.lineState, []) ∧
    (held.plant.line 3).state = .static ∧ (held.plant.line 3).mode = .drive := by
  decide +kernel

theorem test_phase_a_end :
    let at_ := fun n => onLine 3 (.probing ⟨0, true, .a, n⟩) held
    ((next (exec (.phaseAEnd 3 true) (at_ 0))).plant.line 3).state = .probing ⟨0, true, .b true, 3200⟩ ∧
    next (exec (.phaseAEnd 3 true) (at_ 5)) = at_ 5 ∧ next (exec (.phaseBEnd 3 true) (at_ 0)) = at_ 0 := by
  decide +kernel

/-- Each result of the two samples under the default polarity (R153). -/
theorem test_phase_b_end :
    let at_ := fun a b => ((next (exec (.phaseBEnd 3 b)
      (onLine 3 (.probing ⟨0, true, .b a, 0⟩) held))).plant.inbox 0).queue.getLast?.map Notice.detail
    at_ true false = some (.probe .follows true false true) ∧
    at_ true true = some (.probe .stuckHigh true true true) ∧
    at_ false false = some (.probe .stuckLow false false true) ∧
    at_ false true = some (.probe .inverted false true true) ∧
    (held.table.lines.get 3).polarity = .activeHigh := by
  decide +kernel

/-- The active-low polarity turns the two last results around (R153). -/
theorem test_phase_b_end_active_low :
    let low := { held with table := held.table.setLine 3 fun x => { x with polarity := .activeLow } }
    let at_ := fun a b => ((next (exec (.phaseBEnd 3 b)
      (onLine 3 (.probing ⟨0, true, .b a, 0⟩) low))).plant.inbox 0).queue.getLast?.map Notice.detail
    at_ true false = some (.probe .inverted true false true) ∧
    at_ false true = some (.probe .follows false true true) := by
  decide +kernel

/-! ## Leases (R105 to R119) -/

/-- A new lease, a renewal, a refusal and an OPEN line. -/
theorem test_lease_take :
    let body := fun l => [lineByte l] ++ halfBytes 500#16
    reply 1 (exec (.leaseTake (ask 1 (body 4))) held) = (.ok, [0#8, 0#8, 1#8, 0xF4#8, 0xFF#8, 0#8]) ∧
    reply 0 (exec (.leaseTake (ask 0 (body 3))) held) = (.ok, [1#8, 0#8, 1#8, 0xF4#8, 0xFF#8, 0#8]) ∧
    reply 1 (exec (.leaseTake (ask 1 (body 3))) held) = (.lineTaken, []) ∧
    reply 1 (exec (.leaseTake (ask 1 (body 5))) held) = (.notLeasable, []) := by
  decide +kernel

theorem test_witness_lease_take :
    10 ≤ (500#16 : Half).toNat ∧ (500#16 : Half).toNat ≤ 60000 ∧
    (held.table.lines.get 5).kind = .shared ∧ (held.table.lines.get 4).kind = .leased ∧
    held.effective (ask 1 []) ≤ (held.table.lines.get 4).ceiling ∧ (held.plant.line 4).lease = none ∧
    (held.table.lines.get 3).preemptible = false ∧
    (held.table.setLine 4 fun x => { x with ceiling := 2 }).lines.get 4 =
      { LineConfig.default with ceiling := 2 } ∧ held.effective (askLow 1 []) = 3 := by
  decide +kernel

/-- Port 0 at level 0 preempts port 1 at level 2 on a pulsing line. -/
theorem test_preemption :
    reply 0 (exec (.leaseTake (ask 0 ([lineByte 3] ++ halfBytes 10#16))) taken) =
      (.ok, [2#8, 0#8, 0#8, 10#8, 1#8, 0#8]) ∧
    (taken.table.lines.get 3).preemptible = true ∧
    (taken.plant.line 3).lease = some (Lease.fresh 1 2 10#16) ∧
    taken.effective (ask 0 []) < (Lease.fresh 1 2 10#16).level ∧
    ((next (exec (.leaseTake (ask 0 ([lineByte 3] ++ halfBytes 10#16))) taken)).plant.inbox 1
      ).queue.getLast?.map Notice.detail = some (.leaseLost (.taken 0 0) 0) := by
  decide +kernel

theorem test_lease_renew :
    reply 0 (exec (.leaseRenew (ask 0 [lineByte 3])) held) = (.ok, [3#8, 0#8, 0#8, 10#8]) ∧
    reply 1 (exec (.leaseRenew (ask 1 [lineByte 3])) held) = (.notHolder, []) ∧
    reply 0 (exec (.leaseRenew (ask 0 [16#8])) held) = (.badField, []) ∧
    reply 0 (exec (.leaseRenew (ask 0 [254#8])) held) = (.badField, []) ∧
    reply 0 (exec (.leaseRenew (ask 0 [0xFF#8])) held) = (.ok, [1#8]) := by
  decide +kernel

theorem test_lease_release :
    reply 0 (exec (.leaseRelease (ask 0 [lineByte 3])) (pulsing 2 held)) = (.ok, [3#8, 1#8]) ∧
    ((next (exec (.leaseRelease (ask 0 [lineByte 3])) (pulsing 2 held))).plant.line 3).state = .static := by
  decide +kernel

theorem test_lease_read :
    reply 2 (exec (.leaseRead (ask 2 [lineByte 3])) held) =
      (.ok, [0#8, 3#8, 0#8, 0#8, 0#8, 0#8, 10#8, 0#8, 10#8]) := by
  decide +kernel

/-- A lease whose term has run out lapses; renewed first, or taken anew, it continues (R118). -/
theorem test_lapse :
    let s := held.runRc 160000
    let renewed := next (exec (.leaseRenew (ask 0 [lineByte 3])) s)
    let taken := next (exec (.leaseTake (ask 0 ([lineByte 3] ++ halfBytes 10#16))) s)
    ((s.plant.line 3).lease.map Lease.remaining) = some 0 ∧ s.due = [.lapse 3] ∧
    ((next (exec (.lapse 3) s)).plant.line 3).lease = none ∧
    ((next (exec (.lapse 3) s)).plant.inbox 0).queue.getLast?.map Notice.detail =
      some (.leaseLost .lapsed 0) ∧
    next (exec (.lapse 3) held) = held ∧ next (exec (.lapse 4) held) = held ∧
    next (exec (.lapse 3) renewed) = renewed ∧ next (exec (.lapse 3) taken) = taken ∧
    (renewed.plant.line 3).lease = some (Lease.fresh 0 0 10#16) := by
  decide +kernel

/-! ## Capture and tallies (R122 to R147) -/

/-- An input that shows the level already, a second change in one XIN period, an edge of the other
direction, one inside the holdoff, and one at its end; RSTn low. -/
theorem test_capture_edge :
    let off := { seeing running with rstnLow := true }
    let seen := next (exec (.captureEdge 2 .rise 1) (seeing running))
    let low := next (exec (.captureEdge 2 .fall 9) seen)
    next (exec (.captureEdge 2 .rise 5) off) = off ∧
    (seen.channels.get 2).window = [⟨0#8, .rise, 0#32⟩] ∧
    next (exec (.captureEdge 2 .fall 7) (seeing running)) = (seeing running).passed 7 ∧
    next (exec (.captureEdge 2 .rise 0) (seeing running)) = (seeing running).passed 0 ∧
    next (exec (.captureEdge 2 .rise 200) seen) = seen.passed 200 ∧
    next (exec (.captureEdge 2 .fall 0) seen) = seen.passed 0 ∧
    low.channels.get 2 = { seen.channels.get 2 with level := false, since := 10 } ∧
    ((next (exec (.captureEdge 2 .rise 150) low)).channels.get 2).nextSeq = 1#8 ∧
    ((next (exec (.captureEdge 2 .rise 151) low)).channels.get 2).nextSeq = 2#8 := by
  decide +kernel

/-- Each way for an edge not to be accepted, and the premises of an accepted one. -/
theorem test_witness_edges :
    let s' := (seeing running).passed 1
    running.rstnLow = false ∧ s'.device = .operating ∧ (running.table.channels.get 2).select = .off ∧
    ((seeing running).table.channels.get 2).select = .rise ∧ (seeing setup).device = .setup ∧
    ((next (exec (.captureEdge 2 .rise 1) (seeing running))).channels.get 2).lastAccept = some 1 ∧
    (s'.channels.get 2).lastAccept = none ∧ (s'.channels.get 2).level = (Edge.fall == .rise) ∧
    (s'.channels.get 2).level ≠ (Edge.rise == .rise) ∧ (s'.channels.get 2).since < s'.rc := by
  decide +kernel

/-- A pace edge counts in RUNNING, and a subscriber is told (R125, R129). -/
theorem test_pace_edge :
    let s := { seeing running with
      table := { (seeing running).table with source := .pace 2 }
      ports := upd running.ports 1 fun x => { x with mask := 0x04#8 } }
    (next (exec (.captureEdge 2 .rise 1) s)).plant.tc = 1#32 ∧ (s.port 1).mask.getLsbD 2 = true ∧
    (s.port 0).mask.getLsbD 2 = false := by
  decide +kernel

/-- A boundary that passes in HELD is discarded, and one that stands at a START in HELD is too: the first
tick after a hold comes at the next boundary (R24). -/
theorem test_held_boundaries_are_discarded :
    let start := fun s => next (exec (.tbStart (ask 0 [])) s)
    (held.runRc 1000).divider = 40 ∧ (start (held.runRc 1000)).due = [] ∧
    (running.runRc 160).due = [.tick] ∧ (held.runRc 160).due = [] ∧
    (start { held with divider := 160 }).divider = 0 ∧
    (start { holdingFor 9 1 with divider := 160 }).divider = 160 ∧
    (next (exec .tick held)).divider = 0 ∧ (next (exec .tick held)).plant.tc = 0#32 := by
  decide +kernel

/-- A stretch of RC through the end of the hold timer: the ticks before it are taken, those behind it are
not made up, and the first tick after the START comes a whole rest of a period later (R24, R33). -/
theorem test_hold_is_not_made_up :
    let s := (holdingFor 1000 50).passed 1500
    let t := next (exec .tick (next (exec (.tbStart (ask 0 [])) s)))
    s.plant.timebase = .held ∧ s.divider = 60 ∧ s.due = [] ∧ s.plant.pulsing = [] ∧
    t.plant.tc = 1#32 ∧ t.rc = 1600 ∧ t.divider = 0 := by
  decide +kernel

/-- The work of a batch on its entries: a PULSE joins the PULSING entries and is overtaken, a rival is
superseded (R53, R54, R80). -/
theorem test_batch_entries :
    let x : Timed := ⟨{ mark 1#16 with level := 1, action := .onLine 3 .set }, 0#32⟩
    let p : Timed := ⟨pulse 8#16, 0#32⟩
    let w := (pulsing 2 running).plant
    ((w.runBatch .oldest [x, p]).pulsing = [p]) ∧
    ((w.runBatch .oldest [x, p]).inbox 0).queue.map Notice.detail =
      [.setupClosed .window, .timebase .off .held .setupClosed,
        .superseded 0 0 false (.count 0), .pulseCut (.overtaken 0) 2,
        .done .pulse false .none (.count 0)] ∧
    w.findPulsing 0 7#16 = some ⟨pulse 7#16, 0#32⟩ ∧
    (winner .oldest 3 [x, p]).map Timed.entry = some (pulse 8#16) ∧
    p.entry.name ≠ x.entry.name := by
  decide +kernel

/-- A WAVE winner on a line that is STATIC, on a WAVING one and on one with P 0; a MARK (R93, R95, R96). -/
theorem test_batch_waves :
    let x : Timed := ⟨{ mark 1#16 with action := .onLine 3 (.wave load.wave) }, 0#32⟩
    let waves : Generator → Plant := fun g => (onLine 3 (.waving g) running).plant
    winner .oldest 3 [x] = some x ∧ x.entry.action = .onLine 3 (.wave load.wave) ∧
    (running.plant.line 3).state = .static ∧
    ((running.plant.runBatch .oldest [x]).line 3).state = .waving (Generator.fresh load.wave) ∧
    (((waves (gen 4#16 .left 2 .up none)).runBatch .oldest [x]).line 3).state =
      .waving (gen 4#16 .left 2 .up (some ⟨load.wave, 0, 1#16, true⟩)) ∧
    (((waves (gen 0#16 .left 0 .up none)).runBatch .oldest [x]).line 3).state =
      .waving (Generator.fresh load.wave) ∧ (mark 1#16).action = .mark := by
  decide +kernel

/-- The pace channel in RUNNING with a due entry, an armed EDGE entry and a bound tally: three claims. -/
theorem test_claims :
    let a : Waiting := ⟨{ mark 1#16 with trigger := .edge 2 1#8 0#32 }, some 1⟩
    let b : Waiting := ⟨{ mark 2#16 with trigger := .count 1 1#32 0#32 }, none⟩
    let s := withArmed [a, b] (withTimeline [⟨mark 3#16, 1#32⟩] (seeing running))
    let t := { s with table := { s.table.setTally 1 fun x => { x with binding := some 2 } with
      source := .pace 2 } }
    claims t.table 2 (raiseBound t.table.tallies 2 t.tallies) t.plant.armed (t.plant.paceAdvance true) =
      [.tickBatch, .walk, .count 1 1#32] ∧
    (t.table.channels.get 2).select = .rise ∧ t.plant.timebase = .running := by
  decide +kernel

/-- The walks lower an edge count, release at its end, and release a COUNT entry that is reached. -/
theorem test_walks :
    let a : Waiting := ⟨{ mark 1#16 with trigger := .edge 2 2#8 3#32 }, some 2⟩
    let b : Waiting := ⟨{ mark 2#16 with trigger := .edge 2 1#8 4#32 }, some 1⟩
    let c : Waiting := ⟨{ mark 3#16 with trigger := .count 1 5#32 6#32 }, none⟩
    let w := (withArmed [a, b, c] held).plant
    w.timebase ≠ .running ∧ (w.armed.map fun x => x.entry.name).Nodup ∧
    (w.walkEdge .oldest 2 w.armed).armed = [{ a with edgesLeft := some 1 }, c] ∧
    (w.walkEdge .oldest 2 w.armed).timeline = [⟨b.entry, 4#32⟩] ∧
    (w.walkCount .oldest 1 5#32 w.armed).timeline = [⟨c.entry, 6#32⟩] ∧
    (w.walkCount .oldest 1 4#32 w.armed).timeline = [] ∧
    ({ w with timebase := .running }.walkEdge .oldest 2
      [⟨{ mark 2#16 with trigger := .edge 2 1#8 0#32 }, some 1⟩]).timeline = [] := by
  decide +kernel

/-- The predicates that WalksReleaseArmedEntries speaks of exist. -/
theorem test_witness_walks (n : TallyId) (v : Word) :
    ∃ (onEdge ends reached : Waiting → Bool) (off : Waiting → Word),
      (∀ x, onEdge x = true ↔ ∃ k o, x.entry.trigger = .edge 2 k o) ∧
      (∀ x, ends x = true ↔ onEdge x = true ∧ x.edgesLeft.getD 0 ≤ 1) ∧
      (∀ x, reached x = true ↔ ∃ h o, x.entry.trigger = .count n h o ∧ (v - h).toNat < 2 ^ 31) ∧
      (∀ x d k o, x.entry.trigger = .edge d k o → off x = o) ∧
      ∀ x m h o, x.entry.trigger = .count m h o → off x = o := by
  refine ⟨fun x => match x.entry.trigger with | .edge c _ _ => c == 2 | _ => false,
    fun x => match x.entry.trigger with
      | .edge c _ _ => c == 2 && decide (x.edgesLeft.getD 0 ≤ 1)
      | _ => false,
    fun x => match x.entry.trigger with
      | .count m h _ => m == n && decide ((v - h).toNat < 2 ^ 31)
      | _ => false,
    fun x => match x.entry.trigger with
      | .edge _ _ o => o
      | .count _ _ o => o
      | .atDue => 0#32, ?_, ?_, ?_, ?_, ?_⟩
  · intro x; cases h : x.entry.trigger <;> simp [h]
  · intro x; cases h : x.entry.trigger <;> simp [h]
  · intro x; cases h : x.entry.trigger <;> simp [h]
  · intro x d k o h; simp [h]
  · intro x m h o e; simp [e]

theorem test_capture_read :
    reply 0 (exec (.captureRead (ask 0 [2#8])) (next (exec (.captureEdge 2 .rise 1) (seeing running)))) =
      (.ok, [1#8, 0#8, 10#8, 1#8, 0#8, 1#8, 0#8, 0#8, 0#8, 0#8]) := by
  decide +kernel

/-- TALLY_READ, TALLY_ADD, TALLY_SWAP, and TALLY_CAS that matches and that does not. -/
theorem test_tallies :
    reply 0 (exec (.tallyRead (ask 0 [1#8])) held) = (.ok, [0#8, 0#8, 0#8, 0#8, 0xFF#8, 3#8]) ∧
    (next (exec (.tallyAdd (ask 0 ([natByte 1] ++ wordBytes 0xFFFFFFFF#32))) held)).tallies.get 1 =
      0xFFFFFFFF#32 ∧
    (next (exec (.tallySwap (ask 0 ([natByte 1] ++ wordBytes 9#32))) held)).tallies.get 1 = 9#32 ∧
    reply 0 (exec (.tallyCas (ask 0 ([natByte 1] ++ wordBytes 0#32 ++ wordBytes 8#32))) held) =
      (.ok, [0#8, 0#8, 0#8, 0#8, 1#8]) ∧
    reply 0 (exec (.tallyCas (ask 0 ([natByte 1] ++ wordBytes 1#32 ++ wordBytes 8#32))) held) =
      (.ok, [0#8, 0#8, 0#8, 0#8, 0#8]) ∧
    held.effective (ask 0 []) ≤ (held.table.tallies.get 1).level := by
  decide +kernel

/-- The states that TallyRequestsAct speaks of exist. -/
theorem test_witness_tallies (s : State) (n : TallyId) :
    ∃ changed : Word → State, ∀ y, changed y = { s with
      tallies := upd s.tallies n fun _ => y
      plant := s.plant.walkCount s.table.arbitration n y s.plant.armed } :=
  ⟨_, fun _ => rfl⟩

/-! ## Invariants -/

/-- A state with a pulse, its entry and a lease, for the premises of the step invariants. -/
def busy : State := pulsing 2 running

theorem busy_state (l : LineId) :
    (busy.plant.line l).state = if l = 3 then .pulsing ⟨0, 7#16, 2⟩ else .static := by
  revert l; decide +kernel

theorem busy_lease (l : LineId) :
    (busy.plant.line l).lease = if l = 3 then some ⟨0, 0, 10#16, 160000⟩ else none := by
  revert l; decide +kernel

theorem busy_live : busy.plant.live = [pulse 7#16] := by decide +kernel

theorem test_witness_step : step busy = .next busy.idle := rfl

/-- An empty queue with no RC event due, and with one. -/
theorem test_witness_rc :
    busy.pending = [] ∧ busy.rstnLow = false ∧ busy.due = [] ∧ (busy.runRc 160).pending = [] ∧
    (busy.runRc 160).due = [.tick] ∧ busy.table.period ≤ (busy.runRc 160).divider := by
  decide +kernel

/-- What RC counts down in 7 periods: the setup window, the hold timer, a lease, a probe phase (R33, R107,
R152, R177); and the reach of a stretch that meets the end of the hold timer. -/
theorem test_rc_counts_down :
    let probing := onLine 3 (.probing ⟨0, true, .a, 100⟩) held
    (setup.runRc 7).window = some (2000 * Config.xinPerMs - 7) ∧
    ((holdingFor 1000 1).runRc 7).plant.holdTimer = some 993 ∧
    ((held.runRc 7).plant.line 3).lease = some ⟨0, 0, 10#16, 160000 - 7⟩ ∧
    ((probing.runRc 7).plant.line 3).state = .probing ⟨0, true, .a, 93⟩ ∧
    (holdingFor 100 1).reach 500 = 100 ∧ ((holdingFor 100 1).runRc 100).due = [.holdTimerExpiry] ∧
    held.reach 500 = 500 := by
  decide +kernel

theorem test_witness_bounded : QueuesBounded busy := by
  unfold QueuesBounded; decide +kernel

theorem test_witness_table : TableConsistent busy := by
  refine ⟨by decide +kernel, fun c h => ?_⟩
  have : busy.table.source = .internal := by decide +kernel
  rw [this] at h; cases h

theorem test_witness_windows : WindowsConsecutive busy := by
  intro c
  have h : (busy.channels.get c).window = [] := by revert c; decide +kernel
  refine ⟨by rw [h]; decide, fun i hi => ?_⟩
  rw [h] at hi; exact absurd hi (by simp)

theorem test_witness_lines : LinesLegal busy := by
  intro l
  rw [busy_state]
  split <;> exact ⟨fun g h => (nomatch h), fun r h => (nomatch h)⟩

theorem test_witness_leases : LeasesLegal busy := by
  intro l k h
  rw [busy_lease] at h
  split at h
  · next e => subst e; cases h; decide +kernel
  · cases h

theorem test_witness_under_lease : EntriesUnderLease busy := by
  intro e he l hl _
  rw [busy_live, List.mem_singleton] at he
  subst he
  cases hl
  decide +kernel

theorem test_witness_pulses : PulsesReferred busy.plant := by
  have hp : busy.plant.pulsing = [⟨pulse 7#16, 0#32⟩] := by decide +kernel
  have hr : PulseRec.refersTo busy.plant.tc 3 ⟨0, 7#16, 2⟩ ⟨pulse 7#16, 0#32⟩ :=
    ⟨rfl, 4#16, rfl, by decide, by decide, fun _ => by decide +kernel⟩
  refine ⟨fun l r h => ?_, fun x hx => ?_⟩
  · rw [busy_state] at h
    split at h
    · next e => subst e; cases h; exact ⟨_, by rw [hp]; exact List.mem_singleton.mpr rfl, hr⟩
    · cases h
  · rw [hp, List.mem_singleton] at hx
    subst hx
    exact ⟨3, _, by rw [busy_state]; rfl, hr⟩

theorem test_witness_sound : ScheduleSound busy := by
  refine ⟨?_, ?_, test_witness_leases, test_witness_under_lease, ?_, ?_, test_witness_pulses, ?_⟩
  · unfold SetupEmpty; decide +kernel
  · unfold PoolWithinShares; decide +kernel
  · intro e he
    rw [busy_live, List.mem_singleton] at he
    subst he
    exact ⟨⟨by decide, by decide⟩, trivial, (by decide : (4#16 : Half) ≠ 0#16), fun h => absurd rfl h⟩
  · unfold TimelineOrdered; decide +kernel
  · unfold HoldFollowsPulses Plant.pulsingOn; decide +kernel

end Sys2Proof.Tests
end

section
/-! PROOF of O58. The pool as a multiset of names (R2). An operation on entries that stand in no list is handed
their names and puts back no others; what takes an entry out of its list to hand it on takes out its name first.
That no name joins the pool is all that tags, shares and slots need (R13, R15, R16). -/

namespace Sys2Proof.Machine

/-! ## Names -/

/-- The names of the entries that a list holds. -/
def namesIn {α : Type} (entry : α → Entry) (xs : List α) : Multiset (Port × Half) :=
  ↑(xs.map fun x => (entry x).name)

/-- The names of the live entries. -/
def Plant.names (w : Plant) : Multiset (Port × Half) := ↑(w.live.map Entry.name)

/-- The names of the armed entries. -/
def Plant.armedNames (w : Plant) : Multiset (Port × Half) := namesIn Waiting.entry w.armed

theorem Plant.names_eq (w : Plant) : w.names =
    w.armedNames + namesIn Timed.entry w.timeline + namesIn Timed.entry w.pulsing := by
  simp [Plant.names, Plant.armedNames, namesIn, Plant.live, Function.comp_def, ← Multiset.coe_add,
    add_assoc]

theorem Plant.names_of_lists {w w' : Plant} (ha : w'.armed = w.armed) (ht : w'.timeline = w.timeline)
    (hp : w'.pulsing = w.pulsing) : w'.names = w.names := by
  simp only [Plant.names, Plant.live, ha, ht, hp]

theorem Plant.live_eq_nil_iff (w : Plant) : w.live = [] ↔ w.names = 0 := by
  simp [Plant.names]

theorem Entry.isKey_iff (p : Port) (tag : Half) (e : Entry) : e.isKey p tag = true ↔ e.name = (p, tag) := by
  simp [Entry.isKey, Entry.name]

theorem Plant.hasTag_iff (p : Port) (tag : Half) (w : Plant) :
    w.hasTag p tag = true ↔ (p, tag) ∈ w.names := by
  simp [Plant.hasTag, Plant.names, List.any_eq_true, Entry.isKey_iff]

@[simp] theorem Entry.completed_name (e : Entry) : e.completed.name = e.name := rfl

@[simp] theorem placeDue_name (tc due : Word) (e : Entry) : (placeDue tc due e).entry.name = e.name := by
  unfold placeDue; split <;> rfl

section Lists
variable {α : Type} (entry : α → Entry)

theorem mem_namesIn {xs : List α} {x : α} (h : x ∈ xs) : (entry x).name ∈ namesIn entry xs :=
  Multiset.mem_coe.mpr (List.mem_map_of_mem h)

theorem namesIn_append (xs ys : List α) :
    namesIn entry (xs ++ ys) = namesIn entry xs + namesIn entry ys := by
  simp [namesIn]

theorem namesIn_perm {xs ys : List α} (h : xs.Perm ys) : namesIn entry xs = namesIn entry ys :=
  Multiset.coe_eq_coe.mpr (h.map _)

theorem namesIn_filter_le (f : α → Bool) (xs : List α) :
    namesIn entry (xs.filter f) ≤ namesIn entry xs :=
  (List.filter_sublist.map _).subperm

/-- A list is what a test picks and what it leaves. -/
theorem namesIn_filter_add (f : α → Bool) (xs : List α) :
    namesIn entry (xs.filter f) + namesIn entry (xs.filter fun x => !f x) = namesIn entry xs := by
  rw [← namesIn_append, namesIn_perm entry (List.filter_append_perm f xs)]

/-- To take the entries of a name out of a list that holds one takes out that name at least. -/
theorem namesIn_drop {xs : List α} {p : Port} {tag : Half} (h : (p, tag) ∈ namesIn entry xs) :
    {(p, tag)} + namesIn entry (xs.filter fun x => !(entry x).isKey p tag) ≤ namesIn entry xs := by
  rw [← namesIn_filter_add entry (fun x => (entry x).isKey p tag) xs]
  refine add_le_add_left (Multiset.singleton_le.mpr ?_) _
  obtain ⟨x, hx, hn⟩ := List.mem_map.mp h
  have hk : (entry x).isKey p tag = true := (Entry.isKey_iff ..).mpr hn
  exact hn ▸ mem_namesIn entry (List.mem_filter.mpr ⟨hx, hk⟩)

/-- The entries of other names stay. -/
theorem mem_namesIn_drop {xs : List α} {p : Port} {tag : Half} {n : Port × Half}
    (h : n ∈ namesIn entry xs) (hn : n ≠ (p, tag)) :
    n ∈ namesIn entry (xs.filter fun x => !(entry x).isKey p tag) := by
  obtain ⟨x, hx, rfl⟩ := List.mem_map.mp h
  refine mem_namesIn entry (List.mem_filter.mpr ⟨hx, ?_⟩)
  simpa [← Entry.isKey_iff] using hn

end Lists

/-! ## The names of a plant after an update -/

@[simp] theorem Plant.names_setLine (w : Plant) (l : LineId) (f : Line → Line) :
    (w.setLine l f).names = w.names := rfl

@[simp] theorem Plant.names_post (w : Plant) (p : Port) (b : Byte) (t : Half) (d : Detail) :
    (w.post p b t d).names = w.names := rfl

@[simp] theorem Plant.names_setTimebase (w : Plant) (n : Timebase) (c : TimebaseCause) :
    (w.setTimebase n c).names = w.names := rfl

@[simp] theorem Plant.names_settleHold (w : Plant) : w.settleHold.names = w.names :=
  Plant.names_of_lists w.settleHold_armed w.settleHold_timeline w.settleHold_pulsing

@[simp] theorem Plant.names_setLease (w : Plant) (l : LineId) (k : Option Lease) :
    (w.setLease l k).names = w.names := rfl

@[simp] theorem Plant.names_arm (x : Waiting) (w : Plant) : (w.arm x).names = {x.entry.name} + w.names := by
  simp only [Plant.names_eq, Plant.armedNames, Plant.arm_armed, Plant.arm_timeline, Plant.arm_pulsing,
    namesIn_append]
  simp only [namesIn, List.map_cons, List.map_nil, Multiset.coe_singleton]
  abel

@[simp] theorem Plant.names_insert (x : Timed) (w : Plant) :
    (w.insert x).names = {x.entry.name} + w.names := by
  have h : namesIn Timed.entry (insertTimed w.tc x w.timeline) =
      {x.entry.name} + namesIn Timed.entry w.timeline := namesIn_perm _ (insertTimed_perm ..)
  simp only [Plant.names_eq, Plant.armedNames, Plant.insert_armed, Plant.insert_timeline,
    Plant.insert_pulsing, h]
  abel

theorem Plant.names_drop_le (f : Entry → Bool) (w : Plant) : (w.drop f).names ≤ w.names := by
  rw [Plant.names_eq, Plant.names_eq]
  exact add_le_add (add_le_add (namesIn_filter_le ..) (namesIn_filter_le ..)) (namesIn_filter_le ..)

theorem Plant.names_vacate_le (p : Port) (l : LineId) (b : Bool) (w : Plant) :
    (w.vacate p l b).names ≤ w.names := Plant.names_drop_le _ (w.setLine l _)

theorem Plant.names_dropArmed {p : Port} {tag : Half} {w : Plant} (h : (p, tag) ∈ w.armedNames) :
    {(p, tag)} + (w.dropArmed p tag).names ≤ w.names := by
  simp only [Plant.names_eq, ← add_assoc]
  exact add_le_add_left (add_le_add_left (namesIn_drop _ h) _) _

theorem Plant.names_dropPending {p : Port} {tag : Half} {w : Plant}
    (h : (p, tag) ∈ namesIn Timed.entry w.timeline) :
    {(p, tag)} + (w.dropPending p tag).names ≤ w.names := by
  simp only [Plant.names_eq, ← add_assoc]
  rw [add_comm {(p, tag)}, add_assoc _ {(p, tag)}]
  exact add_le_add_left (add_le_add_right (namesIn_drop _ h) _) _

theorem Plant.names_dropPulsing {p : Port} {tag : Half} {w : Plant}
    (h : (p, tag) ∈ namesIn Timed.entry w.pulsing) :
    {(p, tag)} + (w.dropPulsing p tag).names ≤ w.names := by
  simp only [Plant.names_eq]
  rw [add_left_comm]
  exact add_le_add_right (namesIn_drop _ h) _

/-! ## What an operation admits -/

/-- From `w` to `w'` no name joins the pool but those of `hand`, and no name leaves the armed list but those
of `gone`. -/
structure Plant.Admits (hand : Multiset (Port × Half)) (gone : Set (Port × Half)) (w w' : Plant) : Prop where
  names : w'.names ≤ hand + w.names
  armed : ∀ n ∉ gone, n ∈ w.armedNames → n ∈ w'.armedNames

/-- No name joins the pool and none leaves the armed list. -/
abbrev Plant.Settles (w w' : Plant) : Prop := Plant.Admits 0 ∅ w w'

namespace Plant.Admits

variable {hand hand' : Multiset (Port × Half)} {gone gone' : Set (Port × Half)} {w w' w'' : Plant}

theorem refl (gone : Set (Port × Half)) (w : Plant) : Plant.Admits 0 gone w w :=
  ⟨(zero_add w.names).ge, fun _ _ h => h⟩

theorem of_lists (ha : w'.armed = w.armed) (ht : w'.timeline = w.timeline)
    (hp : w'.pulsing = w.pulsing) : w.Settles w' :=
  ⟨by rw [Plant.names_of_lists ha ht hp, zero_add], fun n _ h => by rwa [Plant.armedNames, ha]⟩

theorem trans (h : Plant.Admits hand gone w w') (k : Plant.Admits hand' gone' w' w'') :
    Plant.Admits (hand' + hand) (gone ∪ gone') w w'' where
  names := by
    rw [add_assoc]
    exact k.names.trans (add_le_add_right h.names _)
  armed n hn ha := by
    rw [Set.mem_union, not_or] at hn
    exact k.armed n hn.2 (h.armed n hn.1 ha)

theorem weaken (h : Plant.Admits hand gone w w') (hg : gone ⊆ gone') : Plant.Admits hand gone' w w' :=
  ⟨h.names, fun n hn => h.armed n fun hc => hn (hg hc)⟩

/-- Work that settles, and then work that is handed names. -/
theorem after (k : Plant.Admits hand gone w' w'') (h : w.Settles w') : Plant.Admits hand gone w w'' := by
  simpa using h.trans k

/-- Work that is handed names, and then work that settles. -/
theorem andThen (h : Plant.Admits hand gone w w') (k : w'.Settles w'') : Plant.Admits hand gone w w'' := by
  simpa using h.trans k

theorem names_le (h : Plant.Admits 0 gone w w') : w'.names ≤ w.names := by simpa using h.names

/-- Names that were taken out of the pool before they are handed on. -/
theorem of_taken {v : Plant} (hv : hand + v.names ≤ w.names)
    (ha : ∀ n ∉ gone, n ∈ w.armedNames → n ∈ v.armedNames) (h : Plant.Admits hand ∅ v w') :
    Plant.Admits 0 gone w w' :=
  ⟨by simpa using h.names.trans hv, fun n hn hm => h.armed n (Set.notMem_empty n) (ha n hn hm)⟩

/-- A list of works, each handed its own names. -/
theorem foldl {α : Type} {f : Plant → α → Plant} {hands : α → Multiset (Port × Half)}
    (h : ∀ (w : Plant) (x : α), Plant.Admits (hands x) ∅ w (f w x)) (xs : List α) (w : Plant) :
    Plant.Admits (xs.map hands).sum ∅ w (xs.foldl f w) := by
  induction xs generalizing w with
  | nil => exact .refl ∅ w
  | cons x xs ih => simpa [add_comm] using (h w x).trans (ih (f w x))

/-- A list of works that settle. -/
theorem foldl_settles {α : Type} {f : Plant → α → Plant} (h : ∀ (w : Plant) (x : α), w.Settles (f w x))
    (xs : List α) (w : Plant) : w.Settles (xs.foldl f w) := by
  simpa using foldl (hands := fun _ => 0) h xs w

end Plant.Admits

/-! ## Completions, pulses, generators -/

theorem Plant.settles_setLine (w : Plant) (l : LineId) (f : Line → Line) : w.Settles (w.setLine l f) :=
  .of_lists rfl rfl rfl

theorem Plant.settles_post (w : Plant) (p : Port) (b : Byte) (t : Half) (d : Detail) :
    w.Settles (w.post p b t d) := .of_lists rfl rfl rfl

theorem Plant.settles_postIf (w : Plant) (c : Bool) (p : Port) (b : Byte) (t : Half) (d : Detail) :
    w.Settles (w.postIf c p b t d) := .of_lists (by simp) (by simp) (by simp)

theorem Plant.settles_settleHold (w : Plant) : w.Settles w.settleHold :=
  .of_lists (by simp) (by simp) (by simp)

theorem Plant.admits_insert (x : Timed) (w : Plant) : Plant.Admits {x.entry.name} ∅ w (w.insert x) :=
  ⟨(w.names_insert x).le, fun _ _ h => h⟩

theorem Plant.admits_arm (x : Waiting) (w : Plant) : Plant.Admits {x.entry.name} ∅ w (w.arm x) := by
  refine ⟨(w.names_arm x).le, fun n _ h => ?_⟩
  rw [Plant.armedNames, Plant.arm_armed, namesIn_append]
  exact Multiset.mem_add.mpr (.inl h)

/-- A repeat puts its entry, with its own name, into one list (R57, R58). -/
theorem Plant.admits_again (x : Timed) (w : Plant) : Plant.Admits {x.entry.name} ∅ w (w.again x) := by
  unfold Plant.again
  cases x.entry.trigger with
  | atDue => exact w.admits_insert { x with due := x.due + x.entry.step.getD 0#32 }
  | edge c n o => exact w.admits_arm ⟨x.entry, _⟩
  | count t h o =>
    exact w.admits_arm ⟨{ x.entry with trigger := .count t (h + x.entry.step.getD 0#32) o }, none⟩

/-- A completion puts its entry back or leaves it removed (R56). -/
theorem Plant.admits_finish (how : Finish) (x : Timed) (w : Plant) :
    Plant.Admits {x.entry.name} ∅ w (w.finish how x) := by
  have hp := w.settles_postIf x.entry.notify x.entry.owner x.entry.subject x.entry.tag (how.detail x.entry)
  unfold Plant.finish
  dsimp only
  split
  · exact (Plant.admits_again { x with entry := x.entry.completed } _).after hp
  · exact ⟨hp.names_le.trans (Multiset.le_add_left ..), hp.armed⟩

/-- The PULSING entry that a pulse leaves is out of the pool before it completes (R77, R80). -/
theorem Plant.settles_releasePulse (l : LineId) (r : PulseRec) (cut : Option CutCause) (w : Plant) :
    w.Settles (w.releasePulse l r cut) := by
  have hl := w.settles_setLine l (Line.rest false .static)
  rcases hx : w.findPulsing r.owner r.tag with _ | x
  · unfold Plant.releasePulse
    simp only [hx]
    exact hl
  · have hn : x.entry.name = (r.owner, r.tag) := by
      simpa [Entry.isKey_iff] using List.find?_some hx
    have hm : (r.owner, r.tag) ∈ namesIn Timed.entry w.pulsing :=
      hn ▸ mem_namesIn Timed.entry (List.mem_of_find?_eq_some hx)
    rw [Plant.releasePulse_found hx]
    refine Plant.Admits.of_taken (v := w.dropPulsing r.owner r.tag) (hand := {x.entry.name})
      (hn ▸ Plant.names_dropPulsing hm) (fun _ _ h => h) ((Plant.admits_finish ..).after ?_)
    cases cut with
    | none => exact .of_lists rfl rfl rfl
    | some c => exact Plant.Admits.after (Plant.settles_postIf ..) (.of_lists rfl rfl rfl)

theorem Plant.settles_endPulse (l : LineId) (r : PulseRec) (w : Plant) : w.Settles (w.endPulse l r) :=
  (w.settles_releasePulse l r none).andThen (Plant.settles_settleHold _)

theorem Plant.settles_applyLoad (l : LineId) (ld : Load) (c : ApplyCause) (w : Plant) :
    w.Settles (w.applyLoad l ld c) :=
  (w.settles_setLine l _).andThen (Plant.settles_postIf ..)

theorem Plant.settles_rewind (l : LineId) (g : Generator) (c : ApplyCause) (w : Plant) :
    w.Settles (w.rewind l g c) := by
  unfold Plant.rewind
  split
  · exact w.settles_applyLoad ..
  · exact w.settles_setLine ..

theorem Plant.settles_countGenerator (l : LineId) (g : Generator) (w : Plant) :
    w.Settles (w.countGenerator l g) := by
  unfold Plant.countGenerator
  split
  · exact .refl ∅ w
  · split
    · exact w.settles_setLine ..
    · exact w.settles_rewind ..

theorem Plant.settles_stage (l : LineId) (g : Generator) (ld : Load) (w : Plant) :
    w.Settles (w.stage l g ld) := by
  unfold Plant.stage
  split
  · exact w.settles_applyLoad ..
  · exact w.settles_setLine ..

theorem Plant.settles_clearLine (l : LineId) (p : Port) (w : Plant) : w.Settles (w.clearLine l p) := by
  unfold Plant.clearLine
  split
  · exact .refl ∅ w
  · exact w.settles_releasePulse ..
  · exact w.settles_setLine ..
  · exact (w.settles_setLine ..).andThen (Plant.settles_post ..)

/-- A line cleared and then set, as every winner but a PULSE and a staged WAVE leaves it (R74). -/
theorem Plant.settles_clearLine_setLine (l : LineId) (p : Port) (f : Line → Line) (w : Plant) :
    w.Settles ((w.clearLine l p).setLine l f) :=
  (w.settles_clearLine l p).andThen (Plant.settles_setLine ..)

/-! ## Advances and batches -/

theorem Plant.settles_advanceLine (w : Plant) (l : LineId) : w.Settles (w.advanceLine l) := by
  unfold Plant.advanceLine
  split
  · split
    · exact w.settles_endPulse ..
    · exact w.settles_setLine ..
  · exact w.settles_countGenerator ..
  · exact .refl ∅ w
  · exact .refl ∅ w

theorem Plant.settles_advance (w : Plant) : w.Settles w.advance :=
  Plant.Admits.foldl_settles Plant.settles_advanceLine allLines w

theorem Plant.settles_countTick (w : Plant) : w.Settles w.countTick := .of_lists rfl rfl rfl

/-- A PULSE that wins its line is PULSING from then on (R76). -/
theorem Plant.admits_applyWinner_pulse (x : Timed) (l : LineId) (width : Half) (w : Plant) :
    Plant.Admits {x.entry.name} ∅ w (w.applyWinner x l (.pulse width)).1 := by
  have hc := w.settles_clearLine_setLine l x.entry.owner
    (Line.rest true (.pulsing ⟨x.entry.owner, x.entry.tag, width.toNat⟩))
  refine ⟨le_trans (le_of_eq ?_) (add_le_add_right hc.names_le _), hc.armed⟩
  simp only [Plant.applyWinner, Plant.names_eq, Plant.armedNames, namesIn_append]
  simp only [namesIn, List.map_cons, List.map_nil, Multiset.coe_singleton]
  abel

/-- Every other winner leaves its entry to its completion (R54). -/
theorem Plant.settles_applyWinner (x : Timed) (l : LineId) {a : LineAction} (w : Plant)
    (ha : ∀ width, a ≠ .pulse width) : w.Settles (w.applyWinner x l a).1 := by
  unfold Plant.applyWinner
  cases a with
  | set => exact w.settles_clearLine_setLine ..
  | clear => exact w.settles_clearLine_setLine ..
  | toggle => exact w.settles_clearLine_setLine ..
  | waveStop => exact w.settles_clearLine_setLine ..
  | pulse width => exact absurd rfl (ha width)
  | wave v =>
    dsimp only
    split
    · exact w.settles_stage ..
    · exact w.settles_clearLine_setLine ..

/-- The work of one entry of a batch puts back that entry at most (R53, R54, R55). -/
theorem Plant.admits_runOne (arb : Arbitration) (batch : List Timed) (w : Plant) (x : Timed) :
    Plant.Admits {x.entry.name} ∅ w (w.runOne arb batch x) := by
  unfold Plant.runOne
  split
  · exact w.admits_finish ..
  · next l a _ =>
    dsimp only
    split
    · split
      · exact w.admits_applyWinner_pulse ..
      · next hne => exact (Plant.admits_finish ..).after (w.settles_applyWinner x l hne)
    · exact w.admits_finish ..

/-- A batch puts back its own entries at most (R55). -/
theorem Plant.admits_runBatch (arb : Arbitration) (batch : List Timed) (w : Plant) :
    Plant.Admits (namesIn Timed.entry batch) ∅ w (w.runBatch arb batch) := by
  have hs : (batch.map fun x => ({x.entry.name} : Multiset (Port × Half))).sum =
      namesIn Timed.entry batch := by
    induction batch with
    | nil => rfl
    | cons x xs ih => rw [List.map_cons, List.sum_cons, ih]; rfl
  exact hs ▸ Plant.Admits.foldl (Plant.admits_runOne arb batch) batch w

/-- The entries due leave the timeline list and are the batch (R35, R49). -/
theorem Plant.settles_releaseDue (arb : Arbitration) (w : Plant) : w.Settles (w.releaseDue arb) := by
  refine Plant.Admits.of_taken (hand := namesIn Timed.entry w.dueNow)
    (v := { w with timeline := w.timeline.filter fun x => lead w.tc x.due != 0#32 })
    (le_of_eq ?_) (fun _ _ h => h) (Plant.admits_runBatch ..)
  simp only [Plant.names_eq, Plant.armedNames, Plant.dueNow]
  rw [← namesIn_filter_add Timed.entry (fun x => lead w.tc x.due == 0#32) w.timeline]
  simp only [bne]
  abel

theorem Plant.admits_place (arb : Arbitration) (x : Timed) (w : Plant) :
    Plant.Admits {x.entry.name} ∅ w (w.place arb x) := by
  unfold Plant.place
  split
  · exact w.admits_runBatch arb [x]
  · exact w.admits_insert x

theorem Plant.names_tick_le (arb : Arbitration) (w : Plant) : (w.tick arb).names ≤ w.names := by
  unfold Plant.tick
  cases w.timebase with
  | running =>
    exact ((w.settles_countTick.andThen (Plant.settles_advance _)).andThen
      (Plant.settles_releaseDue arb _)).names_le
  | holding => exact w.settles_advance.names_le
  | held => exact le_rfl
  | off => exact le_rfl

/-! ## Walks of the armed list -/

/-- An armed entry that is released leaves the armed list before it is placed (R132, R146). -/
theorem Plant.admits_release (arb : Arbitration) {x : Waiting} (o : Word) {w : Plant}
    (h : x.entry.name ∈ w.armedNames) : Plant.Admits 0 {x.entry.name} w (w.release arb x o) :=
  Plant.Admits.of_taken (Plant.names_dropArmed h)
    (fun _ hn hm => mem_namesIn_drop Waiting.entry hm hn) (Plant.admits_place arb ⟨x.entry, _⟩ _)

/-- An EDGE entry that is counted down keeps its name, or is released (R132). -/
theorem Plant.admits_countDown (arb : Arbitration) {x : Waiting} (o : Word) {w : Plant}
    (h : x.entry.name ∈ w.armedNames) : Plant.Admits 0 {x.entry.name} w (w.countDown arb x o) := by
  unfold Plant.countDown
  dsimp only
  split
  · exact Plant.admits_release arb o h
  · have ha : ∀ n, namesIn Waiting.entry (w.armed.map fun y =>
        if y.entry.sameKey x.entry then { y with edgesLeft := some n } else y) = w.armedNames := by
      intro n
      simp only [namesIn, Plant.armedNames, List.map_map]
      congr 2
      funext y
      simp only [Function.comp]
      split <;> rfl
    refine ⟨?_, fun n _ hn => ?_⟩
    · simp only [Plant.names_eq, Plant.armedNames, ha, zero_add, le_refl]
    · rwa [Plant.armedNames, ha]

/-- A walk that meets the picked entries of a snapshot, each still armed when the walk begins, meets each of
them armed: names do not repeat, and one visit takes no other name out of the armed list. -/
theorem Plant.admits_walk {f : Plant → Waiting → Plant} {pick : Waiting → Bool}
    (met : ∀ w x, pick x = true → x.entry.name ∈ w.armedNames → Plant.Admits 0 {x.entry.name} w (f w x))
    (passed : ∀ w x, pick x = false → f w x = w) (snapshot : List Waiting)
    (hnd : (snapshot.map fun x => x.entry.name).Nodup) (w : Plant)
    (harmed : ∀ x ∈ snapshot, pick x = true → x.entry.name ∈ w.armedNames) :
    Plant.Admits 0 {n | ∃ x ∈ snapshot, pick x = true ∧ x.entry.name = n} w (snapshot.foldl f w) := by
  induction snapshot generalizing w with
  | nil => exact .refl _ w
  | cons x xs ih =>
    rw [List.map_cons, List.nodup_cons] at hnd
    have hx : Plant.Admits 0 {n | pick x = true ∧ x.entry.name = n} w (f w x) := by
      cases hp : pick x with
      | true => simpa [eq_comm] using met w x hp (harmed x List.mem_cons_self hp)
      | false => rw [passed w x hp]; exact .refl _ w
    have hxs := ih hnd.2 (f w x) fun y hy hp => by
      refine hx.armed _ (fun hc => hnd.1 ?_) (harmed y (List.mem_cons_of_mem _ hy) hp)
      exact List.mem_map.mpr ⟨y, hy, hc.2.symm⟩
    refine Plant.Admits.weaken (by simpa using hx.trans hxs) ?_
    rintro n (⟨hp, hn⟩ | ⟨y, hy, hp, hn⟩)
    · exact ⟨x, List.mem_cons_self, hp, hn⟩
    · exact ⟨y, List.mem_cons_of_mem _ hy, hp, hn⟩

end Sys2Proof.Machine
end

section
/-! PROOF of O58, second part: the claims of one accepted edge, in any order, visit each armed entry at most
once, so that none of them hands an entry back that had left the armed list already (R51, R125). -/

namespace Sys2Proof.Machine

/-! ## The claims of an edge -/

/-- The armed entries that a claim of an edge on channel `c` visits. -/
def Claim.visits (c : Channel) (x : Waiting) : Claim → Bool
  | .tickBatch => false
  | .advance => false
  | .walk => waitsOn c [x]
  | .count t v => someReached t v [x]

theorem Plant.admits_walkEdge (arb : Arbitration) (c : Channel) {snapshot : List Waiting} {w : Plant}
    (hnd : (snapshot.map fun x => x.entry.name).Nodup)
    (harmed : ∀ x ∈ snapshot, waitsOn c [x] = true → x.entry.name ∈ w.armedNames) :
    Plant.Admits 0 {n | ∃ x ∈ snapshot, waitsOn c [x] = true ∧ x.entry.name = n} w
      (w.walkEdge arb c snapshot) := by
  refine Plant.admits_walk (pick := fun x => waitsOn c [x]) (fun w x hp hx => ?_) (fun w x hp => ?_)
    snapshot hnd w harmed
  · obtain ⟨n, o, ht⟩ : ∃ n o, x.entry.trigger = .edge c n o := by simpa [waitsOn_iff] using hp
    simp only [ht, if_true]
    exact Plant.admits_countDown arb o hx
  · split
    · next c' n o ht => exact if_neg fun hc => by simp [waitsOn, ht, hc] at hp
    · rfl

theorem Plant.admits_walkCount (arb : Arbitration) (t : TallyId) (v : Word) {snapshot : List Waiting}
    {w : Plant} (hnd : (snapshot.map fun x => x.entry.name).Nodup)
    (harmed : ∀ x ∈ snapshot, someReached t v [x] = true → x.entry.name ∈ w.armedNames) :
    Plant.Admits 0 {n | ∃ x ∈ snapshot, someReached t v [x] = true ∧ x.entry.name = n} w
      (w.walkCount arb t v snapshot) := by
  refine Plant.admits_walk (pick := fun x => someReached t v [x]) (fun w x hp hx => ?_) (fun w x hp => ?_)
    snapshot hnd w harmed
  · obtain ⟨h, o, ht, hr⟩ : ∃ h o, x.entry.trigger = .count t h o ∧ (v - h).toNat < 2 ^ 31 := by
      simpa only [someReached_iff, List.mem_singleton, exists_eq_left] using hp
    simp only [ht, (reached_iff v h).mpr hr, and_self, if_true]
    exact Plant.admits_release arb o hx
  · split
    · next t' h o ht => exact if_neg fun hc => by simp [someReached, ht, hc] at hp
    · rfl

/-- A claim lets no name join the pool, and takes no entry out of the armed list but those it visits. -/
theorem Plant.admits_claim (arb : Arbitration) (c : Channel) {snapshot : List Waiting} {w : Plant} (k : Claim)
    (hnd : (snapshot.map fun x => x.entry.name).Nodup)
    (harmed : ∀ x ∈ snapshot, k.visits c x = true → x.entry.name ∈ w.armedNames) :
    Plant.Admits 0 {n | ∃ x ∈ snapshot, k.visits c x = true ∧ x.entry.name = n} w
      (w.claim arb c snapshot k) := by
  cases k with
  | tickBatch => exact (w.settles_releaseDue arb).weaken (Set.empty_subset _)
  | advance => exact w.settles_advance.weaken (Set.empty_subset _)
  | walk => exact Plant.admits_walkEdge arb c hnd harmed
  | count t v => exact Plant.admits_walkCount arb t v hnd harmed

/-- A walk visits the EDGE entries of its channel, a count the COUNT entries of its tally. -/
theorem Claim.visits_cases {c : Channel} {x : Waiting} {k : Claim} (h : k.visits c x = true) :
    (k = .walk ∧ ∃ n o, x.entry.trigger = .edge c n o) ∨
      ∃ t v h o, k = .count t v ∧ x.entry.trigger = .count t h o := by
  cases k with
  | tickBatch => nomatch h
  | advance => nomatch h
  | walk => exact .inl ⟨rfl, by simpa [Claim.visits, waitsOn_iff] using h⟩
  | count t v =>
    obtain ⟨y, hy, m, o, ht, -⟩ := (someReached_iff t v [x]).mp h
    exact .inr ⟨t, v, m, o, rfl, List.mem_singleton.mp hy ▸ ht⟩

/-- Two claims of one edge visit no entry in common: a trigger names one channel or one tally. -/
theorem claims_visit_apart {table : Table} {c : Channel} {vs : Vector Word 8} {snapshot : List Waiting}
    {w : Plant} {j k : Claim} (hj : j ∈ claims table c vs snapshot w)
    (hk : k ∈ claims table c vs snapshot w) (hne : j ≠ k) (x : Waiting) (hx : j.visits c x = true) :
    k.visits c x = false := by
  by_contra hc
  rw [Bool.not_eq_false] at hc
  rcases Claim.visits_cases hx with ⟨rfl, n, o, ht⟩ | ⟨t, v, m, o, rfl, ht⟩ <;>
    rcases Claim.visits_cases hc with ⟨rfl, n', o', ht'⟩ | ⟨t', v', m', o', rfl, ht'⟩
  · exact hne rfl
  · nomatch ht.symm.trans ht'
  · nomatch ht.symm.trans ht'
  · obtain ⟨rfl, -, -⟩ := Trigger.count.inj (ht.symm.trans ht')
    obtain ⟨-, hv, -⟩ := (mem_claims ..).mp hj
    obtain ⟨-, hv', -⟩ := (mem_claims ..).mp hk
    exact hne (by rw [hv, hv'])

/-- Claims that visit no entry in common, each of whose entries stood armed before them, let no name join the
pool. -/
theorem Plant.names_claims_le (arb : Arbitration) (c : Channel) {snapshot : List Waiting}
    (hnd : (snapshot.map fun x => x.entry.name).Nodup) {order : List Claim}
    (hapart : order.Pairwise fun j k => ∀ x, j.visits c x = true → k.visits c x = false) {w : Plant}
    (harmed : ∀ k ∈ order, ∀ x ∈ snapshot, k.visits c x = true → x.entry.name ∈ w.armedNames) :
    (order.foldl (Plant.claim arb c snapshot) w).names ≤ w.names := by
  induction order generalizing w with
  | nil => exact le_rfl
  | cons j js ih =>
    rw [List.pairwise_cons] at hapart
    have hj := Plant.admits_claim arb c (w := w) j hnd (harmed j List.mem_cons_self)
    have hjs : ∀ k ∈ js, ∀ x ∈ snapshot, k.visits c x = true →
        x.entry.name ∈ (w.claim arb c snapshot j).armedNames := by
      intro k hk x hx hv
      refine hj.armed _ ?_ (harmed k (List.mem_cons_of_mem _ hk) x hx hv)
      rintro ⟨y, hy, hyv, hn⟩
      rw [List.inj_on_of_nodup_map hnd hy hx hn] at hyv
      exact Bool.false_ne_true ((hapart.1 k hk x hyv).symm.trans hv)
    exact (ih hapart.2 hjs).trans hj.names_le

end Sys2Proof.Machine
end

section
/-! PROOF of O58, third part: the shares on a multiset of names, and every event of RC, request and command
on the pool of a state. Only SCHEDULE adds a name, and a quota changes only where the pool is empty: at a reset
and by a CONFIG_WRITE in SETUP. -/

namespace Sys2Proof.Machine

/-! ## Shares -/

/-- R2, R13, R15, R16 on the names of the live entries. -/
structure NamesFit (quota : Port → Nat) (names : Multiset (Port × Half)) : Prop where
  nodup  : names.Nodup
  tagged : ∀ n ∈ names, n.2 ≠ 0#16
  shares : ∀ p, names.countP (fun n => n.1 = p) ≤ quota p
  slots  : names.card ≤ Config.poolSlots

theorem Plant.liveCount_eq (p : Port) (w : Plant) :
    w.liveCount p = w.names.countP fun n => n.1 = p := by
  simp only [Plant.liveCount, Plant.names, Multiset.coe_countP, ← List.countP_eq_length_filter,
    List.countP_map]
  rfl

theorem Plant.used_eq (w : Plant) : w.used = w.names.card := by
  simp [Plant.used, Plant.names]

theorem poolWithinShares_iff (s : State) :
    PoolWithinShares s ↔ NamesFit s.table.quota.get s.plant.names := by
  have ht : (∀ e ∈ s.plant.live, e.tag ≠ 0#16) ↔ ∀ n ∈ s.plant.names, n.2 ≠ 0#16 := by
    simp [Plant.names, Entry.name]
  simp only [PoolWithinShares, ht, Plant.liveCount_eq, Plant.used_eq]
  exact ⟨fun ⟨h1, h2, h3, h4⟩ => ⟨h1, h2, h3, h4⟩, fun ⟨h1, h2, h3, h4⟩ => ⟨h1, h2, h3, h4⟩⟩

/-- An empty pool is within any shares. -/
theorem namesFit_zero (quota : Port → Nat) : NamesFit quota 0 :=
  ⟨Multiset.nodup_zero, by simp, by simp, by simp⟩

/-- A pool that holds no more names stays within its shares. -/
theorem NamesFit.of_le {quota : Port → Nat} {names names' : Multiset (Port × Half)}
    (h : NamesFit quota names) (hle : names' ≤ names) : NamesFit quota names' where
  nodup := Multiset.nodup_of_le hle h.nodup
  tagged n hn := h.tagged n (Multiset.mem_of_le hle hn)
  shares p := (Multiset.countP_le_of_le _ hle).trans (h.shares p)
  slots := (Multiset.card_le_card hle).trans h.slots

/-- A new name within the shares of its port and the slots of the pool joins it (R13, R15, R16). -/
theorem NamesFit.add {quota : Port → Nat} {names : Multiset (Port × Half)} {n : Port × Half}
    (h : NamesFit quota names) (hnew : n ∉ names) (htag : n.2 ≠ 0#16)
    (hquota : names.countP (fun m => m.1 = n.1) < quota n.1) (hslot : names.card < Config.poolSlots) :
    NamesFit quota ({n} + names) where
  nodup := by rw [Multiset.singleton_add]; exact Multiset.nodup_cons.mpr ⟨hnew, h.nodup⟩
  tagged m hm := by
    rcases Multiset.mem_cons.mp (Multiset.singleton_add n names ▸ hm) with rfl | hm
    · exact htag
    · exact h.tagged m hm
  shares p := by
    rw [Multiset.singleton_add, Multiset.countP_cons]
    split
    · next e => subst e; exact hquota
    · exact h.shares p
  slots := by rw [Multiset.singleton_add, Multiset.card_cons]; exact hslot

/-! ## The pool of a state -/

/-- The invariant of O58. -/
def PoolSound (s : State) : Prop := SetupEmpty s ∧ PoolWithinShares s

/-- From `s` to `t` no name joins the pool; RSTn, the device state and the quotas stay, and in SETUP the
timebase stays OFF. -/
structure State.Sheds (s t : State) : Prop where
  rstnLow : t.rstnLow = s.rstnLow
  device  : t.device = s.device
  quota   : t.table.quota = s.table.quota
  names   : t.plant.names ≤ s.plant.names
  off     : s.device = .setup → s.plant.timebase = .off → t.plant.timebase = .off

theorem PoolSound.setup_of_rstnLow {s : State} (h : PoolSound s) (hr : s.rstnLow = true) :
    s.device = .setup := h.1.1 hr

theorem PoolSound.off_of_setup {s : State} (h : PoolSound s) (hd : s.device = .setup) :
    s.plant.timebase = .off := (h.1.2 hd).2

theorem PoolSound.names_eq_zero {s : State} (h : PoolSound s) (hd : s.device = .setup) :
    s.plant.names = 0 := (Plant.live_eq_nil_iff _).mp (h.1.2 hd).1

theorem PoolSound.namesFit {s : State} (h : PoolSound s) : NamesFit s.table.quota.get s.plant.names :=
  (poolWithinShares_iff s).mp h.2

/-- A part in SETUP with an empty pool is sound, whatever its table. -/
theorem poolSound_of_empty {s : State} (hd : s.device = .setup) (ho : s.plant.timebase = .off)
    (hn : s.plant.names = 0) : PoolSound s :=
  ⟨⟨fun _ => hd, fun _ => ⟨(Plant.live_eq_nil_iff _).mpr hn, ho⟩⟩,
    (poolWithinShares_iff s).mpr (hn ▸ namesFit_zero _)⟩

theorem PoolSound.of_sheds {s t : State} (hs : PoolSound s) (h : s.Sheds t) : PoolSound t := by
  refine ⟨⟨fun hr => ?_, fun hd => ?_⟩, (poolWithinShares_iff t).mpr ?_⟩
  · rw [h.device]; exact hs.setup_of_rstnLow (h.rstnLow ▸ hr)
  · rw [h.device] at hd
    refine ⟨(Plant.live_eq_nil_iff _).mpr (Multiset.le_zero.mp ?_), h.off hd (hs.off_of_setup hd)⟩
    exact hs.names_eq_zero hd ▸ h.names
  · rw [h.quota]; exact hs.namesFit.of_le h.names

/-- States that differ in nothing the pool rests on. -/
theorem State.Sheds.of_plant {s t : State} (hr : t.rstnLow = s.rstnLow) (hd : t.device = s.device)
    (hq : t.table.quota = s.table.quota) (hp : t.plant = s.plant) : s.Sheds t :=
  ⟨hr, hd, hq, by rw [hp], fun _ h => hp ▸ h⟩

/-- Work on the plant that sheds names and leaves an OFF timebase OFF. -/
theorem State.sheds_onPlant {f : Plant → Plant} {s : State} (hn : (f s.plant).names ≤ s.plant.names)
    (ho : s.plant.timebase = .off → (f s.plant).timebase = .off) : s.Sheds (s.onPlant f) :=
  ⟨rfl, rfl, rfl, hn, fun _ => ho⟩

/-- In OPERATING the timebase is free to move. -/
theorem State.sheds_operating {s t : State} (ho : s.device = .operating) (hr : t.rstnLow = s.rstnLow)
    (hd : t.device = s.device) (hq : t.table.quota = s.table.quota) (hn : t.plant.names ≤ s.plant.names) :
    s.Sheds t :=
  ⟨hr, hd, hq, hn, fun hs => nomatch ho.symm.trans hs⟩

theorem State.sheds_onPlant_operating {f : Plant → Plant} {s : State} (ho : s.device = .operating)
    (hn : (f s.plant).names ≤ s.plant.names) : s.Sheds (s.onPlant f) :=
  State.sheds_operating ho rfl rfl rfl hn

theorem Plant.settleHold_off {w : Plant} (h : w.timebase = .off) : w.settleHold.timebase = .off := by
  rw [Plant.settleHold_of_ne (by simp [h]), h]

theorem Allowed.operating_of_admits {d : DeviceState} (h : Allowed.operatingOnly.admits d = true) :
    d = .operating := by
  cases d
  · nomatch h
  · rfl

theorem Allowed.setup_of_admits {d : DeviceState} (h : Allowed.setupOnly.admits d = true) : d = .setup := by
  cases d
  · rfl
  · nomatch h

/-! ## Events of RC -/

theorem PoolSound.enterOperating {s : State} (hs : PoolSound s) (hr : s.rstnLow = false) (c : CloseCause) :
    PoolSound (s.enterOperating c) := by
  refine ⟨⟨fun hl => ?_, fun hd => nomatch hd⟩, (poolWithinShares_iff _).mpr hs.namesFit⟩
  rw [State.enterOperating_rstnLow, hr] at hl
  exact absurd hl Bool.false_ne_true

theorem PoolSound.windowExpiry {s : State} (hs : PoolSound s) : PoolSound s.windowExpiry := by
  unfold State.windowExpiry
  split
  · next h => exact hs.enterOperating h.1 _
  · exact hs

theorem State.operating_of_dividing {s : State} (h : s.dividing = true) : s.device = .operating := by
  simp only [State.dividing, Bool.and_eq_true, beq_iff_eq] at h
  exact h.1

theorem PoolSound.boundary {s : State} (hs : PoolSound s) : PoolSound s.boundary := by
  unfold State.boundary
  split
  · next h =>
    have ho := State.operating_of_dividing h.1
    exact hs.of_sheds (State.sheds_operating ho rfl rfl rfl (Plant.names_tick_le ..))
  · exact hs

theorem Plant.settles_cutForTimeout (w : Plant) (l : LineId) : w.Settles (w.cutForTimeout l) := by
  unfold Plant.cutForTimeout
  split
  · exact w.settles_releasePulse ..
  · exact .refl ∅ w

theorem Plant.names_holdExpires_le (w : Plant) : w.holdExpires.names ≤ w.names := by
  have hc := Plant.Admits.foldl_settles Plant.settles_cutForTimeout allLines w
  unfold Plant.holdExpires
  generalize allLines.foldl Plant.cutForTimeout w = v at hc ⊢
  exact hc.names_le

theorem State.sheds_holdExpiry (s : State) : s.Sheds s.holdExpiry := by
  unfold State.holdExpiry
  split
  · next h => exact State.sheds_onPlant s.plant.names_holdExpires_le fun ho => nomatch h.1.symm.trans ho
  · exact .of_plant rfl rfl rfl rfl

theorem Plant.names_lapse_le (p : Port) (l : LineId) (b : Bool) (w : Plant) :
    (w.lapse p l b).names ≤ w.names := by
  simp only [Plant.lapse, Plant.names_settleHold, Plant.names_post, Plant.names_vacate_le]

theorem State.sheds_lapse (l : LineId) (s : State) : s.Sheds (s.lapse l) := by
  unfold State.lapse
  split
  · split
    · exact State.sheds_onPlant (Plant.names_lapse_le ..) fun ho => Plant.settleHold_off ho
    · exact .of_plant rfl rfl rfl rfl
  · exact .of_plant rfl rfl rfl rfl

theorem State.sheds_phaseAEnd (l : LineId) (sense : Bool) (s : State) : s.Sheds (s.phaseAEnd l sense) := by
  unfold State.phaseAEnd
  split
  · split
    · split
      · exact State.sheds_onPlant le_rfl id
      · exact .of_plant rfl rfl rfl rfl
    · exact .of_plant rfl rfl rfl rfl
  · exact .of_plant rfl rfl rfl rfl

theorem State.sheds_phaseBEnd (l : LineId) (sense : Bool) (s : State) : s.Sheds (s.phaseBEnd l sense) := by
  unfold State.phaseBEnd
  split
  · split
    · exact .of_plant rfl rfl rfl rfl
    · split
      · exact State.sheds_onPlant le_rfl id
      · exact .of_plant rfl rfl rfl rfl
  · exact .of_plant rfl rfl rfl rfl

/-- Every event that RC brings keeps the pool sound. -/
theorem PoolSound.takeRc {s : State} (hs : PoolSound s) (c : Instr) : PoolSound (s.takeRc c) := by
  unfold State.takeRc
  split
  · exact hs.boundary
  · exact hs.windowExpiry
  · exact hs.of_sheds s.sheds_holdExpiry
  · exact hs.of_sheds (s.sheds_lapse _)
  · exact hs.of_sheds (s.sheds_phaseAEnd ..)
  · exact hs.of_sheds (s.sheds_phaseBEnd ..)
  · exact hs

theorem PoolSound.runRc {s : State} (hs : PoolSound s) (n : Nat) : PoolSound (s.runRc n) :=
  hs.of_sheds ⟨rfl, rfl, rfl, le_rfl, fun _ h => h⟩

theorem PoolSound.passed {s : State} (hs : PoolSound s) (n : Nat) : PoolSound (s.passed n) :=
  State.passed_induction PoolSound (fun _ n h => h.runRc n) (fun _ c h => h.takeRc c) (fun _ _ h => h) n hs

theorem PoolSound.idle {s : State} (hs : PoolSound s) : PoolSound s.idle := by
  unfold State.idle
  split
  · exact hs
  · have h1 : PoolSound (if s.due = [] then s.runRc 1 else s) := by
      split
      · exact hs.runRc 1
      · exact hs
    dsimp only
    generalize (if s.due = [] then s.runRc 1 else s) = s1 at h1 ⊢
    generalize shuffle s1.due s1.freeCount = q
    exact h1

/-! ## Edges and tallies -/

/-- The armed entries of a sound pool have names that do not repeat. -/
theorem PoolSound.nodup_armed {s : State} (hs : PoolSound s) :
    (s.plant.armed.map fun x => x.entry.name).Nodup := by
  refine Multiset.coe_nodup.mp (Multiset.nodup_of_le ?_ hs.namesFit.nodup)
  rw [Plant.names_eq, add_assoc]
  exact Multiset.le_add_right ..

theorem Plant.settles_paceAdvance (pace : Bool) (w : Plant) : w.Settles (w.paceAdvance pace) := by
  unfold Plant.paceAdvance
  split
  · exact w.settles_countTick.andThen (Plant.settles_advance _)
  · exact .refl ∅ w

/-- The notices of an edge change no list. -/
theorem Plant.names_postEdges (before : Port → Nat) (n : Notice) (ps : List Port) (q : Plant × Nat) :
    (ps.foldl (fun q p => Plant.postEdge p (before p) n q) q).1.names = q.1.names := by
  induction ps generalizing q with
  | nil => rfl
  | cons p ps ih => exact ih _

/-- The claims of an edge, in whichever order, let no name join the pool (R51, R125). -/
theorem PoolSound.names_claims_le {s : State} (hs : PoolSound s) (c : Channel) (vs : Vector Word 8) :
    let w := s.plant.paceAdvance (s.table.paces c)
    ((shuffle (claims s.table c vs s.plant.armed w) s.freeCount).1.foldl
      (Plant.claim s.table.arbitration c s.plant.armed) w).names ≤ s.plant.names := by
  intro w
  have hw : s.plant.Settles w := s.plant.settles_paceAdvance _
  refine (Plant.names_claims_le _ c hs.nodup_armed ?_ fun k _ x hx _ => ?_).trans hw.names_le
  · have hp := shuffle_perm (claims s.table c vs s.plant.armed w) s.freeCount
    refine (hp.nodup_iff.mpr (nodup_claims ..)).pairwise_of_forall_ne fun j hj k hk hne => ?_
    exact claims_visit_apart (hp.mem_iff.mp hj) (hp.mem_iff.mp hk) hne
  · exact hw.armed _ (Set.notMem_empty _) (mem_namesIn Waiting.entry hx)

theorem PoolSound.acceptEdge {s : State} (hs : PoolSound s) (ho : s.device = .operating) (c : Channel)
    (dir : Edge) : PoolSound (s.acceptEdge c dir) := by
  refine hs.of_sheds (State.sheds_operating ho rfl rfl rfl ?_)
  refine le_trans (le_of_eq ?_) (hs.names_claims_le c (raiseBound s.table.tallies c s.tallies))
  exact Plant.names_postEdges (fun p => (s.plant.inbox p).queue.length) ..

theorem State.sheds_changeTally {s : State} (hs : PoolSound s) (t : TallyId) (v : Word) :
    s.Sheds (s.changeTally t v) where
  rstnLow := rfl
  device := rfl
  quota := rfl
  names := (Plant.admits_walkCount _ t v hs.nodup_armed
    fun _ hx _ => mem_namesIn Waiting.entry hx).names_le
  off _ ho := (Plant.steady_walkCount ..).timebase.trans ho

theorem PoolSound.changeTally {s : State} (hs : PoolSound s) (t : TallyId) (v : Word) :
    PoolSound (s.changeTally t v) := hs.of_sheds (State.sheds_changeTally hs t v)

theorem PoolSound.sample {s : State} (hs : PoolSound s) (c : Channel) (dir : Edge) :
    PoolSound (s.sample c dir) := hs.of_sheds (.of_plant rfl rfl rfl rfl)

/-! ## Requests -/

/-- A request keeps the pool sound where its work does: an answer changes nothing of the pool. -/
theorem PoolSound.of_serve {α : Type} {kind : Byte} {allowed : Allowed} {limit : State → Option Level}
    {operands : State → Option α} {work : α → State → State × Reply} {r : Request} {s : State}
    (hs : PoolSound s)
    (hwork : ∀ a, operands s = some a → allowed.admits s.device = true → PoolSound (work a s).1) :
    PoolSound (serve kind allowed limit operands work r s) := by
  have answered : ∀ (t : State) st body, PoolSound t → PoolSound (t.answer r kind st body) :=
    fun t st body ht => ht.of_sheds (.of_plant rfl rfl rfl rfl)
  rcases serve_cases kind allowed limit operands work r s with h | ⟨st, h⟩ | ⟨a, ho, -, ha, -, h⟩ <;> rw [h]
  · exact hs
  · exact answered _ _ _ hs
  · exact answered _ _ _ (hwork a ho ha)

/-- A request of OPERATING whose work only sheds names. -/
theorem PoolSound.of_serve_operating {α : Type} {kind : Byte} {limit : State → Option Level}
    {operands : State → Option α} {work : α → State → State × Reply} {r : Request} {s : State}
    (hs : PoolSound s) (hwork : ∀ a, s.device = .operating → s.Sheds (work a s).1) :
    PoolSound (serve kind .operatingOnly limit operands work r s) :=
  hs.of_serve fun a _ ha => hs.of_sheds (hwork a (Allowed.operating_of_admits ha))

theorem PoolSound.of_serve_readOnly {α : Type} {kind : Byte} {allowed : Allowed}
    {limit : State → Option Level} {operands : State → Option α} {body : State → α → List Byte}
    {r : Request} {s : State} (hs : PoolSound s) :
    PoolSound (serve kind allowed limit operands (readOnly body) r s) :=
  hs.of_serve fun _ _ _ => hs

/-! ### Ports and setup -/

theorem Plant.names_resetPort_le (p : Port) (fallback : LineId → Bool) (w : Plant) :
    (w.resetPort p fallback).names ≤ w.names := by
  unfold Plant.resetPort
  rw [Plant.names_settleHold]
  exact Plant.names_drop_le (fun e => e.owner == p) w

theorem State.sheds_portReset (p : Port) (u : Unit) (s : State) : s.Sheds (portResetWork p u s).1 where
  rstnLow := rfl
  device := rfl
  quota := rfl
  names := Plant.names_resetPort_le p s.fallback s.plant
  off _ ho := Plant.settleHold_off ho

/-- The table is written in SETUP alone, where no entry is live (R20, R175). -/
theorem PoolSound.configWrite {s : State} (hs : PoolSound s) (hd : s.device = .setup) (q : ItemWrite) :
    PoolSound (configWriteWork q s).1 := by
  have hset : PoolSound (s.setTable q.item q.table) := by
    unfold State.setTable
    split <;> exact poolSound_of_empty hd (hs.off_of_setup hd) (hs.names_eq_zero hd)
  unfold configWriteWork
  split
  · exact hset
  · exact hs

/-- A request is heard only with RSTn high (R172). -/
theorem rstnLow_of_hears {s : State} {p : Port} {bits : List Bool} (h : s.hears p bits = true) :
    s.rstnLow = false := by
  simp only [State.hears, State.listening, Bool.and_eq_true, Bool.not_eq_true'] at h
  exact h.1.1

/-! ### Timebase and lines -/

theorem State.sheds_tbHold {s : State} (ho : s.device = .operating) (p : Port) (u : Unit) :
    s.Sheds (holdWork p u s).1 := by
  refine State.sheds_operating ho rfl rfl rfl (le_of_eq ?_)
  change (s.plant.hold p s.table.holdTimeout).1.names = _
  unfold Plant.hold
  split
  · split <;> rfl
  · rfl

theorem State.sheds_tbStart {s : State} (ho : s.device = .operating) (p : Port) (u : Unit) :
    s.Sheds (startWork p u s).1 := by
  refine State.sheds_operating ho rfl rfl rfl ?_
  change (s.plant.start s.table.arbitration p).1.names ≤ _
  unfold Plant.start
  split
  · exact (Plant.settles_releaseDue ..).names_le
  · exact (Plant.settles_releaseDue ..).names_le
  · exact le_rfl
  · exact le_rfl

theorem State.sheds_lineMode (r : Request) (q : LineId × Mode) (s : State) : s.Sheds (modeWork r q s).1 := by
  unfold modeWork
  split
  · exact .of_plant rfl rfl rfl rfl
  · exact ⟨rfl, rfl, rfl, le_rfl, fun _ ho => ho⟩

theorem State.sheds_waveRestart (r : Request) (l : LineId) (s : State) :
    s.Sheds (restartWork r l s).1 := by
  unfold restartWork
  split
  · exact .of_plant rfl rfl rfl rfl
  · split
    · exact State.sheds_onPlant (f := fun w => w.rewind l _ .restart) (Plant.settles_rewind ..).names_le
        fun ho => (Plant.steady_rewind ..).timebase.trans ho
    · exact .of_plant rfl rfl rfl rfl

theorem State.sheds_lineProbe (r : Request) (l : LineId) (s : State) : s.Sheds (probeWork r l s).1 := by
  unfold probeWork
  split
  · exact .of_plant rfl rfl rfl rfl
  · exact ⟨rfl, rfl, rfl, le_rfl, fun _ ho => ho⟩

theorem State.sheds_pulseEnd (l : LineId) (s : State) : s.Sheds (s.onPlant (Plant.pulseEnd l)) := by
  refine State.sheds_onPlant ?_ fun ho => ?_ <;> unfold Plant.pulseEnd <;> split
  · split
    · exact (Plant.settles_endPulse ..).names_le
    · exact le_rfl
  · exact le_rfl
  · rw [ho]; exact ho
  · exact ho

theorem State.sheds_periodEnd (l : LineId) (s : State) : s.Sheds (s.onPlant (Plant.periodEnd l)) := by
  refine State.sheds_onPlant ?_ fun ho => ?_ <;> unfold Plant.periodEnd <;> split
  · split
    · exact (Plant.settles_rewind ..).names_le
    · exact le_rfl
  · exact le_rfl
  · rw [ho]; exact ho
  · exact ho

/-! ### Leases -/

theorem Plant.names_preempt_le (p : Port) (l : LineId) (k : Lease) (w : Plant) :
    (w.preempt p l k).names ≤ w.names := by
  simp only [Plant.preempt, Plant.names_settleHold, Plant.names_setLease, Plant.names_post,
    Plant.names_vacate_le]

theorem State.sheds_leaseTake {s : State} (ho : s.device = .operating) (r : Request) (q : LineId × Half) :
    s.Sheds (takeWork r q s).1 := by
  unfold takeWork
  split
  · exact .of_plant rfl rfl rfl rfl
  · refine State.sheds_operating ho rfl rfl rfl ?_
    change (s.plant.take q.1 (Lease.fresh r.port (s.effective r) q.2)).1.names ≤ _
    unfold Plant.take
    split
    · exact le_rfl
    · split
      · exact le_rfl
      · exact Plant.names_preempt_le ..

theorem State.sheds_leaseRenew (p : Port) (q : Option LineId) (s : State) : s.Sheds (renewWork p q s).1 := by
  unfold renewWork
  split
  · split
    · exact ⟨rfl, rfl, rfl, le_rfl, fun _ ho => ho⟩
    · exact .of_plant rfl rfl rfl rfl
  · exact ⟨rfl, rfl, rfl, le_rfl, fun _ ho => ho⟩

theorem State.sheds_leaseRelease {s : State} (ho : s.device = .operating) (p : Port) (l : LineId) :
    s.Sheds (releaseWork p l s).1 := by
  unfold releaseWork
  split
  · refine State.sheds_onPlant_operating ho ?_
    rw [Plant.releaseLease, Plant.names_settleHold]
    exact Plant.names_vacate_le ..
  · exact .of_plant rfl rfl rfl rfl

/-! ### Tallies -/

theorem PoolSound.tallyCas {s : State} (hs : PoolSound s) (q : TallyId × Word × Word) :
    PoolSound (casWork q s).1 := by
  unfold casWork
  split
  · exact hs.changeTally ..
  · exact hs

/-! ### Entries -/

/-- A SCHEDULE body with tag 0 is refused (R44). -/
theorem parseSchedule_tag {s : State} {r : Request} {q : Entry × Word} (h : parseSchedule s r = some q) :
    q.1.tag ≠ 0#16 := by
  unfold parseSchedule at h
  split at h
  · split at h
    · split at h
      · split at h
        · split at h
          · next hok => cases h; exact hok.1
          · cases h
        · cases h
      · cases h
    · cases h
  · cases h

/-- What an accepted SCHEDULE has passed of the tag, the quota and the pool (R45). -/
theorem scheduleRefusal_none {s : State} {e : Entry} {due : Word} (h : scheduleRefusal s e due = none) :
    e.name ∉ s.plant.names ∧ s.plant.liveCount e.owner < s.table.quota.get e.owner ∧
      s.plant.used < Config.poolSlots := by
  unfold scheduleRefusal at h
  split at h
  · cases h
  · split at h
    · cases h
    · next htag =>
      split at h
      · cases h
      · next hquota =>
        split at h
        · cases h
        · next hfree =>
          refine ⟨fun hc => htag ((Plant.hasTag_iff ..).mpr hc), not_le.mp hquota, ?_⟩
          unfold Plant.free at hfree
          omega

/-- The placement of a new entry adds its name (R47). -/
theorem State.names_postEntry_le (s : State) (e : Entry) (due : Word) :
    (s.postEntry e due).names ≤ {e.name} + s.plant.names := by
  unfold State.postEntry
  split
  · simpa using (s.plant.admits_place s.table.arbitration (placeDue s.plant.tc due e)).names
  · exact (s.plant.admits_arm _).names
  · split
    · exact (s.plant.admits_place s.table.arbitration ⟨e, _⟩).names
    · exact (s.plant.admits_arm ⟨e, none⟩).names

/-- An accepted SCHEDULE adds a name that its port, its quota and the pool have room for. -/
theorem PoolSound.schedule {s : State} (hs : PoolSound s) (ho : s.device = .operating) {r : Request}
    {q : Entry × Word} (hq : parseSchedule s r = some q) : PoolSound (scheduleWork q s).1 := by
  unfold scheduleWork
  split
  · exact hs
  · next hok =>
    obtain ⟨hnew, hquota, hslot⟩ := scheduleRefusal_none hok
    rw [Plant.liveCount_eq] at hquota
    rw [Plant.used_eq] at hslot
    refine ⟨⟨hs.setup_of_rstnLow, fun hd => nomatch ho.symm.trans hd⟩, (poolWithinShares_iff _).mpr ?_⟩
    exact (hs.namesFit.add hnew (parseSchedule_tag hq) hquota hslot).of_le (s.names_postEntry_le q.1 q.2)

theorem Plant.names_cancel_le (p : Port) (tag : Half) (w : Plant) : (w.cancel p tag).names ≤ w.names := by
  rw [Plant.cancel, Plant.names_settleHold]
  exact Plant.names_drop_le (Entry.isKey p tag) w

theorem Plant.names_cancelAll_le (p : Port) (w : Plant) : (w.cancelAll p).names ≤ w.names := by
  rw [Plant.cancelAll, Plant.names_settleHold]
  exact Plant.names_drop_le (fun e => e.owner == p) w

theorem State.sheds_cancel {s : State} (ho : s.device = .operating) (p : Port) (tag : Half) :
    s.Sheds (cancelWork p tag s).1 := by
  unfold cancelWork
  split
  · exact State.sheds_onPlant_operating ho (Plant.names_cancelAll_le ..)
  · split
    · exact State.sheds_onPlant_operating ho (Plant.names_cancel_le ..)
    · exact .of_plant rfl rfl rfl rfl

/-- A moved entry leaves the timeline list before it is placed anew or removed (R63). -/
theorem State.sheds_movePending {s : State} (ho : s.device = .operating) {x : Timed}
    (hx : x ∈ s.plant.timeline) (due : Word) : s.Sheds (movePending x due s).1 := by
  have hd : {x.entry.name} + (s.plant.dropPending x.entry.owner x.entry.tag).names ≤ s.plant.names :=
    Plant.names_dropPending (mem_namesIn Timed.entry hx)
  unfold movePending
  dsimp only
  split
  · exact State.sheds_operating ho rfl rfl rfl (le_trans (Multiset.le_add_left ..) hd)
  · have hp := (Plant.admits_place s.table.arbitration (placeDue s.plant.tc due x.entry)
      (s.plant.dropPending x.entry.owner x.entry.tag)).names.trans (by simpa using hd)
    split <;> exact State.sheds_operating ho rfl rfl rfl hp

theorem State.sheds_entryMove {s : State} (ho : s.device = .operating) (p : Port) (q : Half × Word) :
    s.Sheds (moveWork p q s).1 := by
  unfold moveWork
  split
  · next x hx => exact State.sheds_movePending ho (List.mem_of_find?_eq_some hx) q.2
  · split <;> exact .of_plant rfl rfl rfl rfl

theorem State.sheds_entryRead (p : Port) (tag : Half) (s : State) : s.Sheds (entryReadWork p tag s).1 := by
  unfold entryReadWork
  split <;> exact .of_plant rfl rfl rfl rfl

/-! ## Commands that are no request -/

theorem PoolSound.endSetup {s : State} (hs : PoolSound s) (r : Request) {t : State}
    (h : execEndSetup r s = .next t) : PoolSound t := by
  obtain rfl := Host.Outcome.next.inj h
  rcases hh : s.hears r.port (Request.bits 0x0A#8 r) with _ | _
  · rw [serve_unheard hh]; exact hs
  · exact hs.of_serve fun _ _ _ => hs.enterOperating (rstnLow_of_hears hh) _

theorem poolSound_inReset (straps : Vector Level 4) (pending : List Instr) (f : Nat) :
    PoolSound (State.inReset straps pending f) :=
  poolSound_of_empty rfl rfl rfl

/-- RSTn rises on a part whose pool is empty (R20, R173). -/
theorem PoolSound.rstnRise {s t : State} (hs : PoolSound s) (h : execRstnRise s = .next t) :
    PoolSound t := by
  obtain rfl := Host.Outcome.next.inj h
  split
  · next hr =>
    have hd := hs.setup_of_rstnLow hr
    exact poolSound_of_empty rfl (hs.off_of_setup hd) (hs.names_eq_zero hd)
  · exact hs

theorem PoolSound.tick {s t : State} (hs : PoolSound s) (h : execTick s = .next t) : PoolSound t := by
  obtain rfl := Host.Outcome.next.inj h
  split
  · exact (hs.passed _).boundary
  · exact hs

/-- An edge is accepted in OPERATING alone (R123). -/
theorem State.operating_of_accepts {s : State} {c : Channel} {dir : Edge} (h : s.accepts c dir = true) :
    s.device = .operating := by
  simp only [State.accepts, Bool.and_eq_true, beq_iff_eq] at h
  exact h.1.2

theorem PoolSound.captureEdge {s t : State} (hs : PoolSound s) {c : Channel} {dir : Edge} {after : Nat}
    (h : execCaptureEdge c dir after s = .next t) : PoolSound t := by
  obtain rfl := Host.Outcome.next.inj h
  have hp := hs.passed after
  split
  · exact hs
  · dsimp only
    split
    · split
      · next ha =>
        have ho : (s.passed after).device = .operating := State.operating_of_accepts ha
        exact (hp.sample c dir).acceptEdge ho c dir
      · exact hp.sample c dir
    · exact hp

theorem PoolSound.undecodedRequest {s t : State} (hs : PoolSound s) {p : Port} {wire : Wire}
    (h : execUndecodedRequest p wire s = .next t) : PoolSound t := by
  obtain rfl := Host.Outcome.next.inj h
  split
  · split
    · exact hs.of_sheds (.of_plant rfl rfl rfl rfl)
    · exact hs
  · exact hs

theorem PoolSound.transactionBegin {s t : State} (hs : PoolSound s) {fall : Fall}
    (h : execTransactionBegin fall s = .next t) : PoolSound t := by
  obtain rfl := Host.Outcome.next.inj h
  split
  · exact hs
  · exact hs.of_sheds (.of_plant rfl rfl rfl rfl)

/-! ## The step -/

/-- Every command keeps the pool sound. -/
theorem PoolSound.of_exec {s : State} (hs : PoolSound s) : ∀ i t, exec i s = .next t → PoolSound t
  | .nop _, _, rfl => hs.of_serve_readOnly
  | .identify _, _, rfl => hs.of_serve_readOnly
  | .status _, _, rfl => hs.of_serve_readOnly
  | .noticeRead _, _, rfl => hs.of_serve fun _ _ _ => hs.of_sheds ⟨rfl, rfl, rfl, le_rfl, fun _ ho => ho⟩
  | .portReset _, _, rfl => hs.of_serve fun u _ _ => hs.of_sheds (s.sheds_portReset _ u)
  | .subscribe _, _, rfl => hs.of_serve fun _ _ _ => hs.of_sheds (.of_plant rfl rfl rfl rfl)
  | .configRead _, _, rfl => hs.of_serve_readOnly
  | .configWrite _, _, rfl => hs.of_serve fun q _ ha => hs.configWrite (Allowed.setup_of_admits ha) q
  | .endSetup r, _, h => hs.endSetup r h
  | .tbHold _, _, rfl => hs.of_serve_operating fun u ho => State.sheds_tbHold ho _ u
  | .tbStart _, _, rfl => hs.of_serve_operating fun u ho => State.sheds_tbStart ho _ u
  | .schedule _, _, rfl => hs.of_serve fun _ hq ha => hs.schedule (Allowed.operating_of_admits ha) hq
  | .cancel _, _, rfl => hs.of_serve_operating fun tag ho => State.sheds_cancel ho _ tag
  | .entryMove _, _, rfl => hs.of_serve_operating fun q ho => State.sheds_entryMove ho _ q
  | .entryRead _, _, rfl => hs.of_serve_operating fun tag _ => s.sheds_entryRead _ tag
  | .lineMode r, _, rfl => hs.of_serve_operating fun q _ => s.sheds_lineMode r q
  | .lineRead _ _, _, rfl => hs.of_serve_readOnly
  | .waveRestart r, _, rfl => hs.of_serve_operating fun l _ => s.sheds_waveRestart r l
  | .lineProbe r, _, rfl => hs.of_serve_operating fun l _ => s.sheds_lineProbe r l
  | .leaseTake r, _, rfl => hs.of_serve_operating fun q ho => State.sheds_leaseTake ho r q
  | .leaseRenew _, _, rfl => hs.of_serve_operating fun q _ => s.sheds_leaseRenew _ q
  | .leaseRelease _, _, rfl => hs.of_serve_operating fun l ho => State.sheds_leaseRelease ho _ l
  | .leaseRead _, _, rfl => hs.of_serve_readOnly
  | .captureRead _, _, rfl => hs.of_serve_readOnly
  | .tallyRead _, _, rfl => hs.of_serve_readOnly
  | .tallyAdd _, _, rfl => hs.of_serve fun _ _ _ => hs.changeTally ..
  | .tallySwap _, _, rfl => hs.of_serve fun _ _ _ => hs.changeTally ..
  | .tallyCas _, _, rfl => hs.of_serve fun q _ _ => hs.tallyCas q
  | .undecodedRequest _ _, _, h => hs.undecodedRequest h
  | .deviceReset _ _, _, rfl => poolSound_inReset ..
  | .rstnRise, _, h => hs.rstnRise h
  | .tick, _, h => hs.tick h
  | .captureEdge _ _ _, _, h => hs.captureEdge h
  | .pulseEnd l, _, rfl => hs.of_sheds (s.sheds_pulseEnd l)
  | .periodEnd l, _, rfl => hs.of_sheds (s.sheds_periodEnd l)
  | .holdTimerExpiry, _, rfl => hs.of_sheds s.sheds_holdExpiry
  | .lapse l, _, rfl => hs.of_sheds (s.sheds_lapse l)
  | .phaseAEnd l b, _, rfl => hs.of_sheds (s.sheds_phaseAEnd l b)
  | .phaseBEnd l b, _, rfl => hs.of_sheds (s.sheds_phaseBEnd l b)
  | .setupWindowExpiry, _, rfl => hs.windowExpiry
  | .transactionBegin _, _, h => hs.transactionBegin h

/-- Settles O58: every command, and RC on an empty queue, keeps the pool sound. -/
theorem poolStaysWithinShares : Obligations.PoolStaysWithinShares := by
  intro s t hsetup hpool hstep
  have hs : PoolSound s := ⟨hsetup, hpool⟩
  unfold step at hstep
  split at hstep
  · next c cs _ => exact PoolSound.of_exec (s := { s with pending := cs }) hs c t hstep
  · cases hstep
    exact hs.idle

end Sys2Proof.Machine
end

section
/-! PROOF of O57. Outside RUNNING no work starts a pulse, and what ends one in HOLDING moves to HELD with the
last of them (R27, R32, R33). So the plant's operations are of three kinds: those that keep the timebase, the hold
timer and, outside RUNNING, the pulses; those that only take pulses away and then settle the hold; and the few that
move the timebase themselves. -/

namespace Sys2Proof.Machine

/-! ## The hold and its pulses on a plant -/

theorem holdFollows_of_running {w : Plant} (ht : w.timebase = .running) (hh : w.holdTimer = none) :
    HoldFollowsPulses w := by
  simp [HoldFollowsPulses, ht, hh]

theorem holdFollows_of_stopped {w : Plant} (ht : w.timebase = .off ∨ w.timebase = .held)
    (hh : w.holdTimer = none) (hn : ∀ l, ¬ w.pulsingOn l) : HoldFollowsPulses w := by
  rcases ht with ht | ht <;> simp [HoldFollowsPulses, ht, hh, hn]

/-- The hold timer stands outside HOLDING (R33). -/
theorem HoldFollowsPulses.holdTimer_none {w : Plant} (h : HoldFollowsPulses w) (ht : w.timebase ≠ .holding) :
    w.holdTimer = none := by
  obtain ⟨-, -, htimer⟩ := h
  simpa using mt htimer.mp ht

/-- The timebase state and the hold timer stay, and outside RUNNING the same lines are PULSING. -/
structure Plant.KeepsHold (w w' : Plant) : Prop where
  timebase  : w'.timebase = w.timebase
  holdTimer : w'.holdTimer = w.holdTimer
  pulses    : w.timebase ≠ .running → ∀ l, w'.pulsingOn l ↔ w.pulsingOn l

/-- The timebase state and the hold timer stay, and no line starts a pulse. -/
structure Plant.Calms (w w' : Plant) : Prop where
  timebase  : w'.timebase = w.timebase
  holdTimer : w'.holdTimer = w.holdTimer
  pulses    : ∀ l, w'.pulsingOn l → w.pulsingOn l

theorem HoldFollowsPulses.of_keepsHold {w w' : Plant} (h : HoldFollowsPulses w) (k : w.KeepsHold w') :
    HoldFollowsPulses w' := by
  obtain ⟨hquiet, hholding, htimer⟩ := h
  unfold HoldFollowsPulses
  rw [k.timebase, k.holdTimer]
  refine ⟨fun ht l => ?_, fun ht => ?_, htimer⟩
  · rw [k.pulses (by rcases ht with ht | ht <;> simp [ht])]
    exact hquiet ht l
  · obtain ⟨l, hl⟩ := hholding ht
    exact ⟨l, (k.pulses (by simp [ht]) l).mpr hl⟩

/-- Where pulses were taken away, the move to HELD that follows restores what the hold rests on (R32). -/
theorem HoldFollowsPulses.settleHold {w w' : Plant} (h : HoldFollowsPulses w) (k : w.Calms w') :
    HoldFollowsPulses w'.settleHold := by
  obtain ⟨hquiet, -, htimer⟩ := h
  rcases w'.settleHold_cases with ⟨-, hn, e⟩ | ⟨hc, e⟩ <;> rw [e]
  · exact holdFollows_of_stopped (.inr rfl) rfl hn
  · refine ⟨fun ht l hl => ?_, fun ht => hc.resolve_left fun hne => hne ht, ?_⟩
    · exact hquiet (k.timebase ▸ ht) l (k.pulses l hl)
    · rw [k.timebase, k.holdTimer]; exact htimer

/-! ## Work that keeps the hold -/

namespace Plant.KeepsHold

theorem refl (w : Plant) : w.KeepsHold w := ⟨rfl, rfl, fun _ _ => Iff.rfl⟩

theorem trans {w w' w'' : Plant} (h : w.KeepsHold w') (k : w'.KeepsHold w'') : w.KeepsHold w'' where
  timebase := k.timebase.trans h.timebase
  holdTimer := k.holdTimer.trans h.holdTimer
  pulses ht l := (k.pulses (h.timebase ▸ ht) l).trans (h.pulses ht l)

theorem foldl {α : Type} {f : Plant → α → Plant} (h : ∀ (w : Plant) (x : α), w.KeepsHold (f w x))
    (xs : List α) (w : Plant) : w.KeepsHold (xs.foldl f w) := by
  induction xs generalizing w with
  | nil => exact refl w
  | cons x xs ih => exact (h w x).trans (ih _)

/-- Nothing of the lines is touched. -/
theorem of_lines {w w' : Plant} (ht : w'.timebase = w.timebase) (hh : w'.holdTimer = w.holdTimer)
    (hl : w'.lines = w.lines) : w.KeepsHold w' :=
  ⟨ht, hh, fun _ l => by rw [Plant.pulsingOn, Plant.line_of_lines hl, Plant.pulsingOn]⟩

/-- In RUNNING steady work may start and end pulses as it likes. -/
theorem of_running {w w' : Plant} (h : w.Steady w') (hr : w.timebase = .running) : w.KeepsHold w' :=
  ⟨h.timebase, h.holdTimer, fun ht => absurd hr ht⟩

/-- One line is changed, and is PULSING as before. -/
theorem of_line {w w' : Plant} {l : LineId} {y : Line} (ht : w'.timebase = w.timebase)
    (hh : w'.holdTimer = w.holdTimer) (hl : ∀ m, w'.line m = if m = l then y else w.line m)
    (hy : y.isPulsing = (w.line l).isPulsing) : w.KeepsHold w' := by
  refine ⟨ht, hh, fun _ m => ?_⟩
  rw [Plant.pulsingOn, Plant.pulsingOn, hl]
  split
  · next e => rw [hy, e]
  · rfl

/-- Every line is changed, and is PULSING as before. -/
theorem updAll (w : Plant) {f : LineId → Line → Line} (hf : ∀ l x, (f l x).isPulsing = x.isPulsing) :
    w.KeepsHold { w with lines := updAll w.lines f } :=
  ⟨rfl, rfl, fun _ l => by rw [Plant.pulsingOn, Plant.line_updAll, hf, Plant.pulsingOn]⟩

end Plant.KeepsHold

theorem Plant.keepsHold_setLine (w : Plant) {l : LineId} {f : Line → Line}
    (hf : (f (w.line l)).isPulsing = (w.line l).isPulsing) : w.KeepsHold (w.setLine l f) :=
  .of_line rfl rfl (fun m => w.line_setLine l m f) hf

theorem Line.isPulsing_of_pulsing {x : Line} {r : PulseRec} (h : x.state = .pulsing r) :
    x.isPulsing = true := by
  unfold Line.isPulsing; rw [h]

theorem Line.isPulsing_of_waving {x : Line} {g : Generator} (h : x.state = .waving g) :
    x.isPulsing = false := by
  unfold Line.isPulsing; rw [h]

theorem Line.isPulsing_of_probing {x : Line} {r : ProbeRec} (h : x.state = .probing r) :
    x.isPulsing = false := by
  unfold Line.isPulsing; rw [h]

theorem Line.isPulsing_of_static {x : Line} (h : x.state = .static) : x.isPulsing = false := by
  unfold Line.isPulsing; rw [h]

/-- A generator that goes to c = 0 stays a generator (R92, R102). -/
theorem Plant.keepsHold_rewind {l : LineId} {g : Generator} {w : Plant} (h : (w.line l).state = .waving g)
    (c : ApplyCause) : w.KeepsHold (w.rewind l g c) := by
  have hp := Line.isPulsing_of_waving h
  unfold Plant.rewind
  split
  · next ld _ =>
    have hs := w.steady_applyLoad l ld c
    exact .of_line hs.timebase hs.holdTimer (fun m => w.line_applyLoad l m ld c) hp.symm
  · exact w.keepsHold_setLine hp.symm

theorem Plant.keepsHold_countGenerator {l : LineId} {g : Generator} {w : Plant}
    (h : (w.line l).state = .waving g) : w.KeepsHold (w.countGenerator l g) := by
  unfold Plant.countGenerator
  split
  · exact .refl w
  · split
    · exact w.keepsHold_setLine (Line.isPulsing_of_waving h).symm
    · exact Plant.keepsHold_rewind h _

/-- An entry placed outside RUNNING waits in the timeline list (R47, R50). -/
theorem Plant.keepsHold_place (arb : Arbitration) (x : Timed) (w : Plant) : w.KeepsHold (w.place arb x) := by
  unfold Plant.place
  split
  · next h => exact .of_running (w.steady_runBatch arb [x]) h.1
  · exact .of_lines rfl rfl rfl

theorem Plant.keepsHold_release (arb : Arbitration) (x : Waiting) (o : Word) (w : Plant) :
    w.KeepsHold (w.release arb x o) :=
  have hd : w.KeepsHold (w.dropArmed x.entry.owner x.entry.tag) := .of_lines rfl rfl rfl
  hd.trans (Plant.keepsHold_place ..)

theorem Plant.keepsHold_countDown (arb : Arbitration) (x : Waiting) (o : Word) (w : Plant) :
    w.KeepsHold (w.countDown arb x o) := by
  unfold Plant.countDown
  dsimp only
  split
  · exact w.keepsHold_release arb x o
  · exact .of_lines rfl rfl rfl

theorem Plant.keepsHold_walkEdge (arb : Arbitration) (c : Channel) (xs : List Waiting) (w : Plant) :
    w.KeepsHold (w.walkEdge arb c xs) := by
  refine Plant.KeepsHold.foldl (fun w x => ?_) xs w
  split
  · split
    · exact Plant.keepsHold_countDown ..
    · exact .refl w
  · exact .refl w

theorem Plant.keepsHold_walkCount (arb : Arbitration) (t : TallyId) (v : Word) (xs : List Waiting)
    (w : Plant) : w.KeepsHold (w.walkCount arb t v xs) := by
  refine Plant.KeepsHold.foldl (fun w x => ?_) xs w
  split
  · split
    · exact Plant.keepsHold_release ..
    · exact .refl w
  · exact .refl w

/-- The notices of an edge change nothing but queues (R129). -/
theorem Plant.keepsHold_postEdges (before : Port → Nat) (n : Notice) (ps : List Port) (q : Plant × Nat) :
    q.1.KeepsHold (ps.foldl (fun q p => Plant.postEdge p (before p) n q) q).1 := by
  induction ps generalizing q with
  | nil => exact .refl q.1
  | cons p ps ih =>
    have hp : q.1.KeepsHold (Plant.postEdge p (before p) n q).1 := .of_lines rfl rfl rfl
    exact hp.trans (ih _)

/-! ## Work that takes pulses away -/

namespace Plant.Calms

theorem trans {w w' w'' : Plant} (h : w.Calms w') (k : w'.Calms w'') : w.Calms w'' :=
  ⟨k.timebase.trans h.timebase, k.holdTimer.trans h.holdTimer, fun l hl => h.pulses l (k.pulses l hl)⟩

/-- One line is changed, and is not PULSING unless it was before. -/
theorem of_line {w w' : Plant} {l : LineId} {y : Line} (ht : w'.timebase = w.timebase)
    (hh : w'.holdTimer = w.holdTimer) (hl : ∀ m, w'.line m = if m = l then y else w.line m)
    (hy : y.isPulsing = true → (w.line l).isPulsing = true) : w.Calms w' := by
  refine ⟨ht, hh, fun m hm => ?_⟩
  rw [Plant.pulsingOn, hl] at hm
  split at hm
  · next e => exact e ▸ hy hm
  · exact hm

/-- Every line is changed, and none is PULSING unless it was before. -/
theorem updAll (w : Plant) {f : LineId → Line → Line}
    (hf : ∀ l x, (f l x).isPulsing = true → x.isPulsing = true) :
    w.Calms { w with lines := updAll w.lines f } := by
  refine ⟨rfl, rfl, fun l hl => ?_⟩
  rw [Plant.pulsingOn, Plant.line_updAll] at hl
  exact hf l _ hl

end Plant.Calms

theorem Plant.calms_releasePulse (l : LineId) (r : PulseRec) (cut : Option CutCause) (w : Plant) :
    w.Calms (w.releasePulse l r cut) :=
  have hs := w.steady_releasePulse l r cut
  .of_line hs.timebase hs.holdTimer (fun m => w.line_releasePulse l m r cut) nofun

theorem Plant.calms_takePulseOf (p : Port) (f : Half → Bool) (level : LineId → Bool) (w : Plant) :
    w.Calms (w.takePulseOf p f level) := by
  refine Plant.Calms.updAll w fun l x hx => ?_
  split at hx
  · next h => exact Line.isPulsing_of_pulsing h
  · exact hx

theorem Plant.calms_vacate (p : Port) (l : LineId) (b : Bool) (w : Plant) : w.Calms (w.vacate p l b) :=
  .of_line rfl rfl (fun m => w.line_setLine l m (Line.vacate b)) nofun

theorem HoldFollowsPulses.endPulse {w : Plant} (h : HoldFollowsPulses w) (l : LineId) (r : PulseRec) :
    HoldFollowsPulses (w.endPulse l r) := h.settleHold (w.calms_releasePulse l r none)

theorem HoldFollowsPulses.cancel {w : Plant} (h : HoldFollowsPulses w) (p : Port) (tag : Half) :
    HoldFollowsPulses (w.cancel p tag) :=
  have hc := w.calms_takePulseOf p (· == tag) fun _ => false
  h.settleHold (w' := (w.takePulseOf p (· == tag) fun _ => false).drop _) ⟨rfl, rfl, hc.pulses⟩

theorem HoldFollowsPulses.cancelAll {w : Plant} (h : HoldFollowsPulses w) (p : Port) :
    HoldFollowsPulses (w.cancelAll p) :=
  have hc := w.calms_takePulseOf p (fun _ => true) fun _ => false
  h.settleHold (w' := (w.takePulseOf p (fun _ => true) fun _ => false).drop _) ⟨rfl, rfl, hc.pulses⟩

theorem HoldFollowsPulses.lapse {w : Plant} (h : HoldFollowsPulses w) (p : Port) (l : LineId) (b : Bool) :
    HoldFollowsPulses (w.lapse p l b) :=
  h.settleHold (w' := (w.vacate p l b).post ..) ⟨rfl, rfl, (w.calms_vacate p l b).pulses⟩

theorem HoldFollowsPulses.releaseLease {w : Plant} (h : HoldFollowsPulses w) (p : Port) (l : LineId)
    (b : Bool) : HoldFollowsPulses (w.releaseLease p l b) := h.settleHold (w.calms_vacate p l b)

theorem HoldFollowsPulses.preempt {w : Plant} (h : HoldFollowsPulses w) (p : Port) (l : LineId) (k : Lease) :
    HoldFollowsPulses (w.preempt p l k) := by
  have hv := w.calms_vacate p l (w.line l).quietLevel
  refine h.settleHold (hv.trans ?_)
  exact .of_line rfl rfl (fun m => Plant.line_setLine _ l m fun x => { x with lease := some k }) id

theorem HoldFollowsPulses.take {w : Plant} (h : HoldFollowsPulses w) (l : LineId) (k : Lease) :
    HoldFollowsPulses (w.take l k).1 := by
  have hl : HoldFollowsPulses (w.setLease l (some k)) := h.of_keepsHold (w.keepsHold_setLine rfl)
  unfold Plant.take
  split
  · exact hl
  · split
    · exact hl
    · exact h.preempt _ l k

theorem Line.endLeaseOf_calms (p : Port) (b : Bool) (x : Line) (h : (x.endLeaseOf p b).isPulsing = true) :
    x.isPulsing = true := by
  unfold Line.endLeaseOf at h
  split at h
  · nomatch h
  · exact h

theorem Line.abortProbeOf_calms (p : Port) (x : Line) (h : (x.abortProbeOf p).isPulsing = true) :
    x.isPulsing = true := by
  unfold Line.abortProbeOf at h
  split at h
  · split at h
    · nomatch h
    · exact h
  · exact h

theorem HoldFollowsPulses.resetPort {w : Plant} (h : HoldFollowsPulses w) (p : Port)
    (fallback : LineId → Bool) : HoldFollowsPulses (w.resetPort p fallback) := by
  have hp := w.calms_takePulseOf p (fun _ => true) fallback
  refine h.settleHold (Plant.Calms.trans ?_ (.updAll _ fun _ => Line.abortProbeOf_calms p))
  refine Plant.Calms.trans ?_ (.updAll _ fun l => Line.endLeaseOf_calms p (fallback l))
  exact ⟨rfl, rfl, hp.pulses⟩

/-! ## Ticks -/

theorem HoldFollowsPulses.advanceLine {w : Plant} (h : HoldFollowsPulses w) (l : LineId) :
    HoldFollowsPulses (w.advanceLine l) := by
  unfold Plant.advanceLine
  split
  · next r hr =>
    split
    · exact h.endPulse l r
    · exact h.of_keepsHold (w.keepsHold_setLine (Line.isPulsing_of_pulsing hr).symm)
  · next g hg => exact h.of_keepsHold (Plant.keepsHold_countGenerator hg)
  · exact h
  · exact h

theorem HoldFollowsPulses.advance {w : Plant} (h : HoldFollowsPulses w) : HoldFollowsPulses w.advance := by
  unfold Plant.advance
  induction allLines generalizing w with
  | nil => exact h
  | cons l ls ih => exact ih (h.advanceLine l)

theorem Plant.steady_advance_of_running {w : Plant} (hr : w.timebase = .running) : w.Steady w.advance :=
  Plant.steady_advance (by simp [hr])

/-- A tick in RUNNING stays there, and the hold timer stands. -/
theorem HoldFollowsPulses.countTick_advance {w : Plant} (h : HoldFollowsPulses w)
    (hr : w.timebase = .running) : HoldFollowsPulses w.countTick.advance :=
  have hs := Plant.steady_advance_of_running (w := w.countTick) hr
  holdFollows_of_running (hs.timebase.trans hr) (hs.holdTimer.trans (h.holdTimer_none (by simp [hr])))

theorem HoldFollowsPulses.releaseDue {w : Plant} (h : HoldFollowsPulses w) (hr : w.timebase = .running)
    (arb : Arbitration) : HoldFollowsPulses (w.releaseDue arb) :=
  h.of_keepsHold (.of_running (w.steady_releaseDue arb) hr)

theorem HoldFollowsPulses.tick {w : Plant} (h : HoldFollowsPulses w) (arb : Arbitration) :
    HoldFollowsPulses (w.tick arb) := by
  unfold Plant.tick
  split
  · next hr =>
    have hs := Plant.steady_advance_of_running (w := w.countTick) hr
    exact (h.countTick_advance hr).releaseDue (hs.timebase.trans hr) arb
  · exact h.advance
  · exact h
  · exact h

/-! ## The moves of the timebase -/

theorem HoldFollowsPulses.hold {w : Plant} (h : HoldFollowsPulses w) (p : Port) (timeout : Nat) :
    HoldFollowsPulses (w.hold p timeout).1 := by
  unfold Plant.hold
  split
  · next hr =>
    split
    · next hz =>
      exact holdFollows_of_stopped (.inr rfl) (h.holdTimer_none (by simp [hr])) (w.inFlight_eq_zero.mp hz)
    · next hz =>
      obtain ⟨l, hl⟩ : ∃ l, w.pulsingOn l := by simpa using mt w.inFlight_eq_zero.mpr hz
      exact ⟨nofun, fun _ => ⟨l, hl⟩, fun _ => rfl, fun _ => rfl⟩
  · exact h

theorem holdFollows_start {w : Plant} (h : HoldFollowsPulses w) (arb : Arbitration) (p : Port) :
    HoldFollowsPulses (w.start arb p).1 := by
  have hrun : HoldFollowsPulses
      ((({ w with holdTimer := none } : Plant).setTimebase .running (.request p)).releaseDue arb) :=
    (holdFollows_of_running rfl rfl).releaseDue rfl arb
  unfold Plant.start
  split
  · exact hrun
  · exact hrun
  · exact h
  · exact h

/-- A pass over the lines whose turn at each line takes that line to `g` of itself and touches no other. -/
theorem Plant.foldl_line {f : Plant → LineId → Plant} {g : Line → Line}
    (hf : ∀ w l m, (f w l).line m = if m = l then g (w.line l) else w.line m) {ls : List LineId}
    (hnd : ls.Nodup) (w : Plant) (l : LineId) :
    (ls.foldl f w).line l = if l ∈ ls then g (w.line l) else w.line l := by
  induction ls generalizing w with
  | nil => simp
  | cons k ks ih =>
    rw [List.nodup_cons] at hnd
    rw [List.foldl_cons, ih hnd.2, hf]
    by_cases e : l = k
    · subst e; simp [hnd.1]
    · simp [e]

/-- What the hold timer leaves of a line (R33). -/
def Line.cut (x : Line) : Line := if x.isPulsing then x.rest false .static else x

theorem Line.cut_isPulsing (x : Line) : x.cut.isPulsing = false := by
  unfold Line.cut
  split
  · rfl
  · next h => simpa using h

theorem Plant.steady_cutForTimeout (w : Plant) (l : LineId) : w.Steady (w.cutForTimeout l) := by
  unfold Plant.cutForTimeout
  split
  · exact Plant.steady_releasePulse ..
  · exact .refl w

theorem Plant.cutForTimeout_of_not_pulsing {w : Plant} {l : LineId}
    (h : ∀ k, (w.line l).state ≠ .pulsing k) : w.cutForTimeout l = w := by
  unfold Plant.cutForTimeout
  split
  · next r hr => exact absurd hr (h r)
  · rfl

theorem Plant.cutForTimeout_of_pulsing {w : Plant} {l : LineId} {k : PulseRec}
    (h : (w.line l).state = .pulsing k) : w.cutForTimeout l = w.releasePulse l k (some .timeout) := by
  unfold Plant.cutForTimeout; rw [h]

theorem Plant.cutForTimeout_line (w : Plant) (l m : LineId) :
    (w.cutForTimeout l).line m = if m = l then (w.line l).cut else w.line m := by
  rcases hp : (w.line l).isPulsing with _ | _
  · have hk : ∀ k, (w.line l).state ≠ .pulsing k := fun k hk => by simp [Line.isPulsing_of_pulsing hk] at hp
    rw [Plant.cutForTimeout_of_not_pulsing hk, Line.cut, hp, if_neg Bool.false_ne_true]
    split
    · next e => rw [e]
    · rfl
  · obtain ⟨k, hk⟩ : ∃ k, (w.line l).state = .pulsing k := by
      unfold Line.isPulsing at hp
      split at hp
      · exact ⟨_, by assumption⟩
      · nomatch hp
    rw [Plant.cutForTimeout_of_pulsing hk, Plant.line_releasePulse, Line.cut, hp, if_pos rfl]

/-- R33 on the lines: every pulse in flight is cut. -/
theorem Plant.cutAll_line (w : Plant) (l : LineId) :
    (allLines.foldl Plant.cutForTimeout w).line l = (w.line l).cut := by
  rw [Plant.foldl_line Plant.cutForTimeout_line nodup_allLines, if_pos (mem_allLines l)]

@[simp] theorem Plant.holdExpires_timebase (w : Plant) : w.holdExpires.timebase = .held := by
  unfold Plant.holdExpires
  generalize allLines.foldl Plant.cutForTimeout w = v
  rfl

@[simp] theorem Plant.holdExpires_holdTimer (w : Plant) : w.holdExpires.holdTimer = none := by
  unfold Plant.holdExpires
  generalize allLines.foldl Plant.cutForTimeout w = v
  rfl

theorem Plant.holdExpires_line (w : Plant) (l : LineId) : w.holdExpires.line l = (w.line l).cut := by
  rw [← Plant.cutAll_line]
  unfold Plant.holdExpires
  generalize allLines.foldl Plant.cutForTimeout w = v
  rfl

theorem holdFollows_holdExpires (w : Plant) : HoldFollowsPulses w.holdExpires := by
  refine holdFollows_of_stopped (.inr w.holdExpires_timebase) w.holdExpires_holdTimer fun l hl => ?_
  rw [Plant.pulsingOn, Plant.holdExpires_line, Line.cut_isPulsing] at hl
  exact Bool.false_ne_true hl

@[simp] theorem Plant.enter_timebase (t : Table) (c : CloseCause) (w : Plant) :
    (w.enter t c).timebase = .held := rfl

@[simp] theorem Plant.enter_holdTimer (t : Table) (c : CloseCause) (w : Plant) :
    (w.enter t c).holdTimer = w.holdTimer := rfl

theorem Plant.enter_lines (t : Table) (c : CloseCause) (w : Plant) :
    (w.enter t c).lines = Vector.ofFn fun l => (t.lines.get l).entryLine := rfl

theorem Plant.line_enter (t : Table) (c : CloseCause) (w : Plant) (l : LineId) :
    (w.enter t c).line l = (t.lines.get l).entryLine := by
  rw [Plant.line, Plant.enter_lines, ofFn_get]

/-- The lines enter OPERATING without a pulse, and the hold timer stood in SETUP (R86, R178). -/
theorem HoldFollowsPulses.enter {w : Plant} (h : HoldFollowsPulses w) (ho : w.timebase = .off) (t : Table)
    (c : CloseCause) : HoldFollowsPulses (w.enter t c) := by
  refine holdFollows_of_stopped (.inr rfl) (h.holdTimer_none (by simp [ho])) fun l hl => ?_
  rw [Plant.pulsingOn, Plant.line_enter] at hl
  exact Bool.false_ne_true hl

/-! ## Claims of an edge -/

theorem HoldFollowsPulses.paceAdvance {w : Plant} (h : HoldFollowsPulses w) (pace : Bool) :
    HoldFollowsPulses (w.paceAdvance pace) := by
  unfold Plant.paceAdvance
  split
  · next hr => exact h.countTick_advance (by simp at hr; exact hr.2)
  · exact h

theorem Plant.steady_claim (arb : Arbitration) (c : Channel) (armed : List Waiting) (w : Plant) {k : Claim}
    (hk : k ≠ .advance) : w.Steady (w.claim arb c armed k) := by
  cases k with
  | tickBatch => exact w.steady_releaseDue arb
  | advance => exact absurd rfl hk
  | walk => exact w.steady_walkEdge arb c armed
  | count t v => exact w.steady_walkCount arb t v armed

/-- In RUNNING no claim is an advance, and all of them stay there; outside it no claim is a batch, and each
keeps the hold (R27, R51). -/
theorem HoldFollowsPulses.claims {w : Plant} (h : HoldFollowsPulses w) (arb : Arbitration) (c : Channel)
    (armed : List Waiting) {order : List Claim}
    (hadvance : .advance ∈ order → w.timebase ≠ .running)
    (hbatch : .tickBatch ∈ order → w.timebase = .running) :
    HoldFollowsPulses (order.foldl (Plant.claim arb c armed) w) := by
  by_cases hr : w.timebase = .running
  · have hs : w.Steady (order.foldl (Plant.claim arb c armed) w) := by
      have hna : .advance ∉ order := fun hm => hadvance hm hr
      clear h hadvance hbatch hr
      induction order generalizing w with
      | nil => exact .refl w
      | cons k ks ih =>
        have hk : k ≠ .advance := fun e => hna (e ▸ List.mem_cons_self)
        exact (w.steady_claim arb c armed hk).trans (ih fun hm => hna (List.mem_cons_of_mem _ hm))
    exact holdFollows_of_running (hs.timebase.trans hr) (hs.holdTimer.trans (h.holdTimer_none (by simp [hr])))
  · have hnb : .tickBatch ∉ order := fun hm => hr (hbatch hm)
    clear hadvance hbatch hr
    induction order generalizing w with
    | nil => exact h
    | cons k ks ih =>
      refine ih ?_ fun hm => hnb (List.mem_cons_of_mem _ hm)
      cases k with
      | tickBatch => exact absurd List.mem_cons_self hnb
      | advance => exact h.advance
      | walk => exact h.of_keepsHold (w.keepsHold_walkEdge arb c armed)
      | count t v => exact h.of_keepsHold (w.keepsHold_walkCount arb t v armed)

end Sys2Proof.Machine
end

section
/-! PROOF of O57, second part: every event of RC, request and command keeps the hold and its pulses. The timebase
leaves OFF at the entry into OPERATING alone, with the hold timer standing as SETUP left it. -/

namespace Sys2Proof.Machine

/-! ## The hold of a state -/

/-- The invariant of O57. -/
structure HoldSound (s : State) : Prop where
  setup : SetupEmpty s
  hold  : HoldFollowsPulses s.plant

/-- RSTn and the device state stay, and SETUP stays quiet. -/
theorem HoldSound.of_step {s t : State} (hs : HoldSound s) (hr : t.rstnLow = s.rstnLow)
    (hd : t.device = s.device)
    (hq : s.device = .setup → t.plant.names = 0 ∧ t.plant.timebase = .off)
    (hp : HoldFollowsPulses t.plant) : HoldSound t := by
  obtain ⟨hlow, -⟩ := hs.setup
  refine ⟨⟨fun h => hd.trans (hlow (hr ▸ h)), fun h => ?_⟩, hp⟩
  obtain ⟨hn, ho⟩ := hq (hd ▸ h)
  exact ⟨(Plant.live_eq_nil_iff _).mpr hn, ho⟩

theorem HoldSound.off_of_setup {s : State} (hs : HoldSound s) (hd : s.device = .setup) :
    s.plant.timebase = .off := (hs.setup.2 hd).2

theorem HoldSound.live_of_setup {s : State} (hs : HoldSound s) (hd : s.device = .setup) :
    s.plant.live = [] := (hs.setup.2 hd).1

theorem HoldSound.names_eq_zero {s : State} (hs : HoldSound s) (hd : s.device = .setup) :
    s.plant.names = 0 := (Plant.live_eq_nil_iff _).mp (hs.live_of_setup hd)

theorem HoldSound.of_sheds {s t : State} (hs : HoldSound s) (h : s.Sheds t)
    (hp : HoldFollowsPulses t.plant) : HoldSound t := by
  refine hs.of_step h.rstnLow h.device (fun hd => ⟨?_, h.off hd (hs.off_of_setup hd)⟩) hp
  exact Multiset.le_zero.mp (hs.names_eq_zero hd ▸ h.names)

/-- In OPERATING the pool and the timebase are free. -/
theorem HoldSound.of_operating {s t : State} (hs : HoldSound s) (ho : s.device = .operating)
    (hr : t.rstnLow = s.rstnLow) (hd : t.device = s.device) (hp : HoldFollowsPulses t.plant) : HoldSound t :=
  hs.of_step hr hd (fun h => nomatch ho.symm.trans h) hp

theorem HoldSound.of_plant {s t : State} (hs : HoldSound s) (hr : t.rstnLow = s.rstnLow)
    (hd : t.device = s.device) (hp : t.plant = s.plant) : HoldSound t :=
  hs.of_step hr hd (fun h => hp ▸ ⟨hs.names_eq_zero h, hs.off_of_setup h⟩) (hp ▸ hs.hold)

/-! ## Events of RC -/

theorem HoldSound.enterOperating {s : State} (hs : HoldSound s) (hr : s.rstnLow = false)
    (hd : s.device = .setup) (c : CloseCause) : HoldSound (s.enterOperating c) := by
  refine ⟨⟨fun hl => ?_, nofun⟩, hs.hold.enter (hs.off_of_setup hd) s.table c⟩
  rw [State.enterOperating_rstnLow, hr] at hl
  nomatch hl

theorem HoldSound.windowExpiry {s : State} (hs : HoldSound s) : HoldSound s.windowExpiry := by
  unfold State.windowExpiry
  split
  · next h =>
    obtain ⟨hr, hd, -⟩ := h
    exact hs.enterOperating hr hd _
  · exact hs

theorem HoldSound.boundary {s : State} (hs : HoldSound s) : HoldSound s.boundary := by
  unfold State.boundary
  split
  · next h => exact hs.of_operating (State.operating_of_dividing h.1) rfl rfl (hs.hold.tick _)
  · exact hs

theorem HoldSound.holdExpiry {s : State} (hs : HoldSound s) : HoldSound s.holdExpiry := by
  refine hs.of_sheds s.sheds_holdExpiry ?_
  unfold State.holdExpiry
  split
  · exact holdFollows_holdExpires s.plant
  · exact hs.hold

theorem HoldSound.lapse {s : State} (hs : HoldSound s) (l : LineId) : HoldSound (s.lapse l) := by
  refine hs.of_sheds (s.sheds_lapse l) ?_
  unfold State.lapse
  split
  · split
    · exact hs.hold.lapse ..
    · exact hs.hold
  · exact hs.hold

theorem HoldSound.phaseAEnd {s : State} (hs : HoldSound s) (l : LineId) (sense : Bool) :
    HoldSound (s.phaseAEnd l sense) := by
  refine hs.of_sheds (s.sheds_phaseAEnd l sense) ?_
  unfold State.phaseAEnd
  split
  · next r hr =>
    have hp := Line.isPulsing_of_probing hr
    split
    · split
      · exact hs.hold.of_keepsHold (s.plant.keepsHold_setLine hp.symm)
      · exact hs.hold
    · exact hs.hold
  · exact hs.hold

theorem HoldSound.phaseBEnd {s : State} (hs : HoldSound s) (l : LineId) (sense : Bool) :
    HoldSound (s.phaseBEnd l sense) := by
  refine hs.of_sheds (s.sheds_phaseBEnd l sense) ?_
  unfold State.phaseBEnd
  split
  · next r hr =>
    have hp := Line.isPulsing_of_probing hr
    split
    · exact hs.hold
    · split
      · have hl : s.plant.KeepsHold (s.plant.setLine l (Line.rest r.saved .static)) :=
          s.plant.keepsHold_setLine hp.symm
        exact hs.hold.of_keepsHold (hl.trans (.of_lines rfl rfl rfl))
      · exact hs.hold
  · exact hs.hold

/-- Every event that RC brings keeps the hold. -/
theorem HoldSound.takeRc {s : State} (hs : HoldSound s) (c : Instr) : HoldSound (s.takeRc c) := by
  unfold State.takeRc
  split
  · exact hs.boundary
  · exact hs.windowExpiry
  · exact hs.holdExpiry
  · exact hs.lapse _
  · exact hs.phaseAEnd ..
  · exact hs.phaseBEnd ..
  · exact hs

/-- The hold timer counts down, and still runs at 0 until its event is taken (R33). -/
theorem HoldSound.runRc {s : State} (hs : HoldSound s) (n : Nat) : HoldSound (s.runRc n) := by
  refine hs.of_step rfl rfl (fun hd => ⟨hs.names_eq_zero hd, hs.off_of_setup hd⟩) ?_
  obtain ⟨hquiet, hholding, htimer⟩ := hs.hold
  have hp : ∀ l, (s.runRc n).plant.pulsingOn l ↔ s.plant.pulsingOn l := fun l => by
    rw [Plant.pulsingOn, State.runRc_line, Line.run_isPulsing, Plant.pulsingOn]
  refine ⟨fun ht l => mt (hp l).mp (hquiet ht l), fun ht => ?_, ?_⟩
  · obtain ⟨l, hl⟩ := hholding ht
    exact ⟨l, (hp l).mpr hl⟩
  · rw [State.runRc_plant]
    simpa using htimer

theorem HoldSound.passed {s : State} (hs : HoldSound s) (n : Nat) : HoldSound (s.passed n) :=
  State.passed_induction HoldSound (fun _ n h => h.runRc n) (fun _ c h => h.takeRc c)
    (fun _ _ h => h.of_plant rfl rfl rfl) n hs

theorem HoldSound.idle {s : State} (hs : HoldSound s) : HoldSound s.idle := by
  unfold State.idle
  split
  · exact hs
  · have h1 : HoldSound (if s.due = [] then s.runRc 1 else s) := by
      split
      · exact hs.runRc 1
      · exact hs
    exact h1.of_plant rfl rfl rfl

/-! ## Edges and tallies -/

theorem HoldSound.acceptEdge {s : State} (hs : HoldSound s) (ho : s.device = .operating) (c : Channel)
    (dir : Edge) : HoldSound (s.acceptEdge c dir) := by
  refine hs.of_operating ho rfl rfl ?_
  let w := s.plant.paceAdvance (s.table.paces c)
  let vs := raiseBound s.table.tallies c s.tallies
  have hmem : ∀ k, k ∈ (shuffle (claims s.table c vs s.plant.armed w) s.freeCount).1 →
      k ∈ claims s.table c vs s.plant.armed w := fun k => (shuffle_perm ..).mem_iff.mp
  have hclaims := (hs.hold.paceAdvance (s.table.paces c)).claims s.table.arbitration c s.plant.armed
    (order := (shuffle (claims s.table c vs s.plant.armed w) s.freeCount).1)
    (fun hm hr => by
      obtain ⟨-, hh⟩ := (mem_claims ..).mp (hmem _ hm)
      nomatch hr.symm.trans hh)
    (fun hm => by
      obtain ⟨-, hr, -⟩ := (mem_claims ..).mp (hmem _ hm)
      exact hr)
  exact hclaims.of_keepsHold
    (Plant.keepsHold_postEdges (fun p => (s.plant.inbox p).queue.length) _ _ (_, _))

/-- A tally changes in SETUP too, where no entry is armed (R20). -/
theorem HoldSound.changeTally {s : State} (hs : HoldSound s) (t : TallyId) (v : Word) :
    HoldSound (s.changeTally t v) := by
  have hp : HoldFollowsPulses (s.changeTally t v).plant :=
    hs.hold.of_keepsHold (s.plant.keepsHold_walkCount ..)
  refine hs.of_step rfl rfl (fun hd => ?_) hp
  have ha : s.plant.armed = [] := by
    have hl := hs.live_of_setup hd
    simp only [Plant.live, List.append_eq_nil_iff, List.map_eq_nil_iff] at hl
    obtain ⟨⟨ha, -⟩, -⟩ := hl
    exact ha
  have he : (s.changeTally t v).plant = s.plant := by
    unfold State.changeTally
    rw [ha]
    rfl
  rw [he]
  exact ⟨hs.names_eq_zero hd, hs.off_of_setup hd⟩

/-! ## Requests -/

/-- What answers keep, and the work of a request where it is reached, every request keeps. -/
theorem serve_induction {α : Type} {kind : Byte} {allowed : Allowed} {limit : State → Option Level}
    {operands : State → Option α} {work : α → State → State × Reply} {r : Request} {s : State}
    (P : State → Prop) (answered : ∀ t st body, P t → P (t.answer r kind st body)) (hs : P s)
    (hwork : ∀ a, operands s = some a → Taken kind r s → allowed.admits s.device = true →
      P (work a s).1) : P (serve kind allowed limit operands work r s) := by
  rcases serve_cases kind allowed limit operands work r s with h | ⟨st, h⟩ | ⟨a, ho, ht, ha, -, h⟩ <;>
    rw [h]
  · exact hs
  · exact answered _ _ _ hs
  · exact answered _ _ _ (hwork a ho ht ha)

section Serve
variable {α : Type} {kind : Byte} {allowed : Allowed} {limit : State → Option Level}
  {operands : State → Option α} {r : Request} {s : State}

theorem HoldSound.of_serve {work : α → State → State × Reply} (hs : HoldSound s)
    (hwork : ∀ a, Taken kind r s → allowed.admits s.device = true → HoldSound (work a s).1) :
    HoldSound (serve kind allowed limit operands work r s) :=
  serve_induction HoldSound (fun _ _ _ h => h.of_plant rfl rfl rfl) hs fun a _ => hwork a

theorem HoldSound.of_serve_operating {work : α → State → State × Reply} (hs : HoldSound s)
    (hwork : ∀ a, s.device = .operating → HoldSound (work a s).1) :
    HoldSound (serve kind .operatingOnly limit operands work r s) :=
  hs.of_serve fun a _ ha => hwork a (Allowed.operating_of_admits ha)

theorem HoldSound.of_serve_readOnly {body : State → α → List Byte} (hs : HoldSound s) :
    HoldSound (serve kind allowed limit operands (readOnly body) r s) :=
  hs.of_serve fun _ _ _ => hs

end Serve

theorem HoldSound.noticeRead {s : State} (hs : HoldSound s) (p : Port) (u : Unit) :
    HoldSound (noticeReadWork p u s).1 :=
  hs.of_sheds ⟨rfl, rfl, rfl, le_rfl, fun _ ho => ho⟩ (hs.hold.of_keepsHold (.of_lines rfl rfl rfl))

theorem HoldSound.portReset {s : State} (hs : HoldSound s) (p : Port) (u : Unit) :
    HoldSound (portResetWork p u s).1 :=
  hs.of_sheds (s.sheds_portReset p u) (hs.hold.resetPort p s.fallback)

theorem HoldSound.configWrite {s : State} (hs : HoldSound s) (hd : s.device = .setup) (q : ItemWrite) :
    HoldSound (configWriteWork q s).1 := by
  have hset : HoldSound (s.setTable q.item q.table) := by
    unfold State.setTable
    split
    · exact hs.of_step rfl rfl (fun _ => ⟨hs.names_eq_zero hd, hs.off_of_setup hd⟩)
        (hs.hold.of_keepsHold (s.plant.keepsHold_setLine rfl))
    · exact hs.of_plant rfl rfl rfl
  unfold configWriteWork
  split
  · exact hset
  · exact hs

theorem HoldSound.schedule {s : State} (hs : HoldSound s) (ho : s.device = .operating) (q : Entry × Word) :
    HoldSound (scheduleWork q s).1 := by
  have hk : s.plant.KeepsHold (s.postEntry q.1 q.2) := by
    unfold State.postEntry
    split
    · exact Plant.keepsHold_place ..
    · exact .of_lines rfl rfl rfl
    · split
      · exact Plant.keepsHold_place ..
      · exact .of_lines rfl rfl rfl
  unfold scheduleWork
  split
  · exact hs
  · exact hs.of_operating ho rfl rfl (hs.hold.of_keepsHold hk)

theorem HoldSound.cancel {s : State} (hs : HoldSound s) (ho : s.device = .operating) (p : Port) (tag : Half) :
    HoldSound (cancelWork p tag s).1 := by
  unfold cancelWork
  split
  · exact hs.of_operating ho rfl rfl (hs.hold.cancelAll p)
  · split
    · exact hs.of_operating ho rfl rfl (hs.hold.cancel p tag)
    · exact hs

theorem HoldSound.movePending {s : State} (hs : HoldSound s) (ho : s.device = .operating) (x : Timed)
    (due : Word) : HoldSound (movePending x due s).1 := by
  have hd : s.plant.KeepsHold (s.plant.dropPending x.entry.owner x.entry.tag) := .of_lines rfl rfl rfl
  unfold Machine.movePending
  dsimp only
  split
  · exact hs.of_operating ho rfl rfl (hs.hold.of_keepsHold (hd.trans (.of_lines rfl rfl rfl)))
  · have hp := hs.hold.of_keepsHold
      (hd.trans (Plant.keepsHold_place s.table.arbitration (placeDue s.plant.tc due x.entry) _))
    split <;> exact hs.of_operating ho rfl rfl hp

theorem HoldSound.entryMove {s : State} (hs : HoldSound s) (ho : s.device = .operating) (p : Port)
    (q : Half × Word) : HoldSound (moveWork p q s).1 := by
  unfold moveWork
  split
  · exact hs.movePending ho _ q.2
  · split <;> exact hs

theorem HoldSound.entryRead {s : State} (hs : HoldSound s) (p : Port) (tag : Half) :
    HoldSound (entryReadWork p tag s).1 := by
  unfold entryReadWork
  split <;> exact hs

theorem HoldSound.lineMode {s : State} (hs : HoldSound s) (r : Request) (q : LineId × Mode) :
    HoldSound (modeWork r q s).1 := by
  refine hs.of_sheds (s.sheds_lineMode r q) ?_
  unfold modeWork
  split
  · exact hs.hold
  · exact hs.hold.of_keepsHold (s.plant.keepsHold_setLine rfl)

theorem HoldSound.waveRestart {s : State} (hs : HoldSound s) (r : Request) (l : LineId) :
    HoldSound (restartWork r l s).1 := by
  refine hs.of_sheds (s.sheds_waveRestart r l) ?_
  unfold restartWork
  split
  · exact hs.hold
  · split
    · next g hg => exact hs.hold.of_keepsHold (Plant.keepsHold_rewind hg _)
    · exact hs.hold

/-- A probe starts on a STATIC line alone (R151). -/
theorem static_of_probeRefusal {s : State} {r : Request} {l : LineId} (h : probeRefusal s r l = none) :
    (s.plant.line l).state = .static := by
  unfold probeRefusal at h
  split at h
  · nomatch h
  · split at h
    · next hc => exact hc.1
    · nomatch h

theorem HoldSound.lineProbe {s : State} (hs : HoldSound s) (r : Request) (l : LineId) :
    HoldSound (probeWork r l s).1 := by
  refine hs.of_sheds (s.sheds_lineProbe r l) ?_
  unfold probeWork
  split
  · exact hs.hold
  · next h =>
    have hp := Line.isPulsing_of_static (static_of_probeRefusal h)
    exact hs.hold.of_keepsHold (s.plant.keepsHold_setLine hp.symm)

theorem HoldSound.leaseTake {s : State} (hs : HoldSound s) (ho : s.device = .operating) (r : Request)
    (q : LineId × Half) : HoldSound (takeWork r q s).1 := by
  unfold takeWork
  split
  · exact hs
  · exact hs.of_operating ho rfl rfl (hs.hold.take ..)

theorem HoldSound.leaseRenew {s : State} (hs : HoldSound s) (p : Port) (q : Option LineId) :
    HoldSound (renewWork p q s).1 := by
  refine hs.of_sheds (s.sheds_leaseRenew p q) ?_
  unfold renewWork
  split
  · split
    · exact hs.hold.of_keepsHold (s.plant.keepsHold_setLine rfl)
    · exact hs.hold
  · refine hs.hold.of_keepsHold (.updAll s.plant fun _ x => ?_)
    unfold Line.renewIf
    split <;> rfl

theorem HoldSound.leaseRelease {s : State} (hs : HoldSound s) (ho : s.device = .operating) (p : Port)
    (l : LineId) : HoldSound (releaseWork p l s).1 := by
  unfold releaseWork
  split
  · exact hs.of_operating ho rfl rfl (hs.hold.releaseLease ..)
  · exact hs

theorem HoldSound.tallyCas {s : State} (hs : HoldSound s) (q : TallyId × Word × Word) :
    HoldSound (casWork q s).1 := by
  unfold casWork
  split
  · exact hs.changeTally ..
  · exact hs

/-! ## Commands that are no request -/

theorem holdSound_inReset (straps : Vector Level 4) (pending : List Instr) (f : Nat) :
    HoldSound (State.inReset straps pending f) := by
  refine ⟨⟨fun _ => rfl, fun _ => ⟨rfl, rfl⟩⟩, holdFollows_of_stopped (.inl rfl) rfl fun l hl => ?_⟩
  have hline : (State.inReset straps pending f).plant.line l = Line.reset := replicate_get ..
  rw [Plant.pulsingOn, hline] at hl
  nomatch hl

theorem HoldSound.rstnRise {s t : State} (hs : HoldSound s) (h : execRstnRise s = .next t) :
    HoldSound t := by
  obtain rfl := Host.Outcome.next.inj h
  split
  · next hr => exact ⟨⟨nofun, fun _ => hs.setup.2 (hs.setup.1 hr)⟩, hs.hold⟩
  · exact hs

theorem HoldSound.tick {s t : State} (hs : HoldSound s) (h : execTick s = .next t) : HoldSound t := by
  obtain rfl := Host.Outcome.next.inj h
  split
  · exact (hs.passed _).boundary
  · exact hs

theorem HoldSound.captureEdge {s t : State} (hs : HoldSound s) {c : Channel} {dir : Edge} {after : Nat}
    (h : execCaptureEdge c dir after s = .next t) : HoldSound t := by
  obtain rfl := Host.Outcome.next.inj h
  have hp := hs.passed after
  have hsample : HoldSound ((s.passed after).sample c dir) := hp.of_plant rfl rfl rfl
  split
  · exact hs
  · dsimp only
    split
    · split
      · next ha =>
        have ho : (s.passed after).device = .operating := State.operating_of_accepts ha
        exact hsample.acceptEdge ho c dir
      · exact hsample
    · exact hp

theorem HoldSound.pulseEnd {s : State} (hs : HoldSound s) (l : LineId) :
    HoldSound (s.onPlant (Plant.pulseEnd l)) := by
  refine hs.of_sheds (s.sheds_pulseEnd l) ?_
  rw [State.onPlant_plant]
  unfold Plant.pulseEnd
  split
  · split
    · exact hs.hold.endPulse ..
    · exact hs.hold
  · exact hs.hold

theorem HoldSound.periodEnd {s : State} (hs : HoldSound s) (l : LineId) :
    HoldSound (s.onPlant (Plant.periodEnd l)) := by
  refine hs.of_sheds (s.sheds_periodEnd l) ?_
  rw [State.onPlant_plant]
  unfold Plant.periodEnd
  split
  · next g hg =>
    split
    · exact hs.hold.of_keepsHold (Plant.keepsHold_rewind hg _)
    · exact hs.hold
  · exact hs.hold

theorem HoldSound.undecodedRequest {s t : State} (hs : HoldSound s) {p : Port} {wire : Wire}
    (h : execUndecodedRequest p wire s = .next t) : HoldSound t := by
  obtain rfl := Host.Outcome.next.inj h
  split
  · split
    · exact hs.of_plant rfl rfl rfl
    · exact hs
  · exact hs

theorem HoldSound.transactionBegin {s t : State} (hs : HoldSound s) {fall : Fall}
    (h : execTransactionBegin fall s = .next t) : HoldSound t := by
  obtain rfl := Host.Outcome.next.inj h
  split
  · exact hs
  · exact hs.of_plant rfl rfl rfl

/-! ## The step -/

/-- Every command keeps the hold. -/
theorem HoldSound.of_exec {s : State} (hs : HoldSound s) : ∀ i t, exec i s = .next t → HoldSound t
  | .nop _, _, rfl => hs.of_serve_readOnly
  | .identify _, _, rfl => hs.of_serve_readOnly
  | .status _, _, rfl => hs.of_serve_readOnly
  | .noticeRead _, _, rfl => hs.of_serve fun u _ _ => hs.noticeRead _ u
  | .portReset _, _, rfl => hs.of_serve fun u _ _ => hs.portReset _ u
  | .subscribe _, _, rfl => hs.of_serve fun _ _ _ => hs.of_plant rfl rfl rfl
  | .configRead _, _, rfl => hs.of_serve_readOnly
  | .configWrite _, _, rfl => hs.of_serve fun q _ ha => hs.configWrite (Allowed.setup_of_admits ha) q
  | .endSetup _, _, rfl => hs.of_serve fun _ ht ha =>
      hs.enterOperating (rstnLow_of_hears ht.heard) (Allowed.setup_of_admits ha) _
  | .tbHold _, _, rfl => hs.of_serve_operating fun _ ho => hs.of_operating ho rfl rfl (hs.hold.hold ..)
  | .tbStart _, _, rfl =>
      hs.of_serve_operating fun _ ho => hs.of_operating ho rfl rfl (holdFollows_start hs.hold ..)
  | .schedule _, _, rfl => hs.of_serve_operating fun q ho => hs.schedule ho q
  | .cancel _, _, rfl => hs.of_serve_operating fun tag ho => hs.cancel ho _ tag
  | .entryMove _, _, rfl => hs.of_serve_operating fun q ho => hs.entryMove ho _ q
  | .entryRead _, _, rfl => hs.of_serve fun tag _ _ => hs.entryRead _ tag
  | .lineMode r, _, rfl => hs.of_serve fun q _ _ => hs.lineMode r q
  | .lineRead _ _, _, rfl => hs.of_serve_readOnly
  | .waveRestart r, _, rfl => hs.of_serve fun l _ _ => hs.waveRestart r l
  | .lineProbe r, _, rfl => hs.of_serve fun l _ _ => hs.lineProbe r l
  | .leaseTake r, _, rfl => hs.of_serve_operating fun q ho => hs.leaseTake ho r q
  | .leaseRenew _, _, rfl => hs.of_serve fun q _ _ => hs.leaseRenew _ q
  | .leaseRelease _, _, rfl => hs.of_serve_operating fun l ho => hs.leaseRelease ho _ l
  | .leaseRead _, _, rfl => hs.of_serve_readOnly
  | .captureRead _, _, rfl => hs.of_serve_readOnly
  | .tallyRead _, _, rfl => hs.of_serve_readOnly
  | .tallyAdd _, _, rfl => hs.of_serve fun _ _ _ => hs.changeTally ..
  | .tallySwap _, _, rfl => hs.of_serve fun _ _ _ => hs.changeTally ..
  | .tallyCas _, _, rfl => hs.of_serve fun q _ _ => hs.tallyCas q
  | .undecodedRequest _ _, _, h => hs.undecodedRequest h
  | .deviceReset _ _, _, rfl => holdSound_inReset ..
  | .rstnRise, _, h => hs.rstnRise h
  | .tick, _, h => hs.tick h
  | .captureEdge _ _ _, _, h => hs.captureEdge h
  | .pulseEnd l, _, rfl => hs.pulseEnd l
  | .periodEnd l, _, rfl => hs.periodEnd l
  | .holdTimerExpiry, _, rfl => hs.holdExpiry
  | .lapse l, _, rfl => hs.lapse l
  | .phaseAEnd l b, _, rfl => hs.phaseAEnd l b
  | .phaseBEnd l b, _, rfl => hs.phaseBEnd l b
  | .setupWindowExpiry, _, rfl => hs.windowExpiry
  | .transactionBegin _, _, h => hs.transactionBegin h

/-- Settles O57: every command, and RC on an empty queue, keeps the hold and its pulses. -/
theorem holdKeepsPulses : Obligations.HoldKeepsPulses := by
  intro s t hsetup hhold hstep
  have hs : HoldSound s := ⟨hsetup, hhold⟩
  have ht : HoldSound t := by
    unfold step at hstep
    split at hstep
    · next c cs _ =>
      have hcs : HoldSound { s with pending := cs } := hs.of_plant rfl rfl rfl
      exact hcs.of_exec c t hstep
    · cases hstep
      exact hs.idle
  exact ⟨ht.setup, ht.hold⟩

end Sys2Proof.Machine
end

section
/-! PROOF of O22 and O23: TB_HOLD and TB_START by the timebase state that they find. -/

namespace Sys2Proof.Machine

/-! ## TB_HOLD (R31) -/

theorem Plant.inFlight_of_lines {w w' : Plant} (h : w'.lines = w.lines) : w'.inFlight = w.inFlight := by
  simp only [Plant.inFlight, Plant.line_of_lines h]

theorem passes_holdLevel {r : Request} {s : State} (h : s.effective r ≤ s.table.holdLevel) :
    Passes (fun s => some s.table.holdLevel) r s := by
  rintro v ⟨⟩
  exact h

theorem parseNothing_of_nil {body : List Byte} (h : body = []) : parseNothing body = some () := by
  rw [h]; rfl

theorem exec_tbHold {r : Request} {s : State} (ht : Taken 0x10#8 r s) (hb : r.body = [])
    (ho : s.device = .operating) (hl : s.effective r ≤ s.table.holdLevel) {w : Plant} {st : Status}
    (hw : s.plant.hold r.port s.table.holdTimeout = (w, st)) (hlines : w.lines = s.plant.lines) :
    exec (.tbHold r) s =
      .next ((s.onPlant fun _ => w).answer r 0x10#8 st (timebaseBody w s.plant.inFlight)) := by
  have hwork : holdWork r.port () s = (s.onPlant fun _ => w, ⟨st, timebaseBody w s.plant.inFlight⟩) := by
    unfold holdWork
    rw [hw, ← Plant.inFlight_of_lines hlines]
    rfl
  refine congrArg Host.Outcome.next ?_
  rw [serve_taken ht (by rw [ho]; rfl) (passes_holdLevel hl) (parseNothing_of_nil hb), hwork]

theorem Plant.hold_of_running_idle {w : Plant} (hr : w.timebase = .running) (hz : w.inFlight = 0) (p : Port)
    (timeout : Nat) : w.hold p timeout =
      ({ w with timebase := .held }.postAll 0xFF#8 0#16 (.timebase .running .held (.request p)), .ok) := by
  unfold Plant.hold
  rw [if_pos hr, if_pos hz, Plant.setTimebase, hr]
  rfl

theorem Plant.hold_of_running_pulsing {w : Plant} (hr : w.timebase = .running) (hz : w.inFlight ≠ 0)
    (p : Port) (timeout : Nat) : w.hold p timeout =
      ({ w with
          timebase := .holding
          holdTimer := some (timeout * Config.xinPerMs) }.postAll 0xFF#8 0#16
            (.timebase .running .holding (.request p)), .accepted) := by
  unfold Plant.hold
  rw [if_pos hr, if_neg hz, Plant.setTimebase, hr]
  rfl

theorem Plant.hold_of_ne {w : Plant} (hr : w.timebase ≠ .running) (p : Port) (timeout : Nat) :
    w.hold p timeout = (w, .ok) := if_neg hr

/-- Settles O22, by the rows of R31's table. -/
theorem holdStopsTimeline : Obligations.HoldStopsTimeline := by
  intro r s ht hb ho hl
  refine ⟨fun hr hz => ?_, fun hr hz => ?_, fun hh => ?_, fun hh => ?_⟩
  · rw [exec_tbHold ht hb ho hl (Plant.hold_of_running_idle hr hz ..) rfl, hz]
    rfl
  · rw [exec_tbHold ht hb ho hl (Plant.hold_of_running_pulsing hr hz ..) rfl]
    rfl
  · rw [exec_tbHold ht hb ho hl (Plant.hold_of_ne (by simp [hh]) ..) rfl, timebaseBody, hh]
    rfl
  · rw [exec_tbHold ht hb ho hl (Plant.hold_of_ne (by simp [hh]) ..) rfl, timebaseBody, hh]
    rfl

/-! ## TB_START (R34, R35) -/

theorem exec_tbStart {r : Request} {s : State} (ht : Taken 0x11#8 r s) (hb : r.body = [])
    (ho : s.device = .operating) (hl : s.effective r ≤ s.table.holdLevel) {w : Plant} {n : Nat}
    (hw : s.plant.start s.table.arbitration r.port = (w, n)) :
    exec (.tbStart r) s = .next ((({ s with divider := s.startDivider, plant := w } : State).clearBatch
      s.plant.startBatch).answer r 0x11#8 .ok (timebaseBody w n)) := by
  have hwork : startWork r.port () s =
      (({ s with divider := s.startDivider, plant := w } : State).clearBatch s.plant.startBatch,
        ⟨.ok, timebaseBody w n⟩) := by
    unfold startWork
    rw [hw]
  refine congrArg Host.Outcome.next ?_
  rw [serve_taken ht (by rw [ho]; rfl) (passes_holdLevel hl) (parseNothing_of_nil hb), hwork]

theorem Plant.start_of_running {w : Plant} (hr : w.timebase = .running) (arb : Arbitration) (p : Port) :
    w.start arb p = (w, 0) := by
  unfold Plant.start; rw [hr]

/-- The entries due leave the timeline list and are executed as one batch (R35, R49). -/
theorem Plant.releaseDue_eq (arb : Arbitration) (w : Plant) : w.releaseDue arb =
    { w with timeline := w.timeline.filter fun x => x.due != w.tc }.runBatch arb
      (w.timeline.filter fun x => x.due == w.tc) := by
  simp only [Plant.releaseDue, Plant.dueNow, lead_bne_zero, lead_beq_zero]

theorem Plant.start_of_stopped {w : Plant} (hs : w.timebase = .held ∨ w.timebase = .holding)
    (arb : Arbitration) (p : Port) : w.start arb p =
      (({ w with
          timebase := .running
          holdTimer := none
          timeline := w.timeline.filter fun x => x.due != w.tc }.postAll 0xFF#8 0#16
            (.timebase w.timebase .running (.request p))).runBatch arb
              (w.timeline.filter fun x => x.due == w.tc),
        (w.timeline.filter fun x => x.due == w.tc).length) := by
  have hstart : w.start arb p =
      ((({ w with holdTimer := none } : Plant).setTimebase .running (.request p)).releaseDue arb,
        (({ w with holdTimer := none } : Plant).setTimebase .running (.request p)).dueNow.length) := by
    unfold Plant.start
    rcases hs with hs | hs <;> simp only [hs]
  rw [hstart, Plant.releaseDue_eq, Plant.dueNow]
  simp only [lead_beq_zero]
  rfl

theorem State.startDivider_of_held {s : State} (hd : s.dividing = true) (hh : s.plant.timebase = .held) :
    s.startDivider = s.divider % (s.table.prescale * 16) := if_pos ⟨hd, hh⟩

theorem State.startDivider_of_keeps {s : State} (h : s.plant.timebase ≠ .held ∨ s.dividing = false) :
    s.startDivider = s.divider := by
  refine if_neg fun ⟨hd, hh⟩ => ?_
  rcases h with h | h
  · exact h hh
  · rw [hd] at h; nomatch h

/-- Settles O23, by the timebase state that the START finds. -/
theorem startRunsBatch : Obligations.StartRunsBatch := by
  intro r s batch w d ht hb ho hl
  refine ⟨fun hr => ?_, fun hs hbatch hheld hkeeps hw => ?_⟩
  · have hdiv : s.startDivider = s.divider := State.startDivider_of_keeps (.inl (by simp [hr]))
    rw [exec_tbStart ht hb ho hl (Plant.start_of_running hr ..), Plant.startBatch_of_running hr,
      State.clearBatch_nil, hdiv, timebaseBody, hr]
    rfl
  · have hdiv : s.startDivider = d := by
      by_cases hc : s.plant.timebase = .held ∧ s.dividing = true
      · rw [hheld hc.1 hc.2, State.startDivider_of_held hc.2 hc.1]
      · rw [not_and_or, Bool.not_eq_true] at hc
        rw [hkeeps (hc.imp_left fun hne => hs.resolve_left hne), State.startDivider_of_keeps hc]
    have hsteady := hw ▸ Plant.steady_runBatch s.table.arbitration batch _
    have hstart := Plant.start_of_stopped hs s.table.arbitration r.port
    rw [← hbatch, ← hw] at hstart
    rw [exec_tbStart ht hb ho hl hstart, Plant.startBatch_of_stopped hs, ← hbatch, hdiv, timebaseBody,
      hsteady.timebase, hsteady.tc]
    rfl

end Sys2Proof.Machine
end

section
/-! PROOF of O24 and O25. A TICK is RC run on to the divider's boundary and then the boundary, which acts by the
timebase state; one turn of the advance acts by the line state. -/

namespace Sys2Proof.Machine

/-! ## The divider and its boundary (R24, R26, R27) -/

theorem Timebase.ticks_iff (t : Timebase) : t.ticks = true ↔ t = .running ∨ t = .holding := by
  cases t <;> simp [Timebase.ticks]

theorem Timebase.not_ticks_iff (t : Timebase) : t.ticks = false ↔ t = .held ∨ t = .off := by
  cases t <;> simp [Timebase.ticks]

theorem State.dividerAfter_of_ticks {s : State} (hd : s.dividing = true)
    (ht : s.plant.timebase.ticks = true) (n : Nat) : s.dividerAfter n = s.divider + n := by
  simp [State.dividerAfter, hd, ht]

theorem State.dividerAfter_of_not_ticks {s : State} (hd : s.dividing = true)
    (ht : s.plant.timebase.ticks = false) (n : Nat) :
    s.dividerAfter n = (s.divider + n) % s.table.period := by
  simp [State.dividerAfter, hd, ht]

theorem State.dividerAfter_of_not_dividing {s : State} (hd : s.dividing = false) (n : Nat) :
    s.dividerAfter n = s.divider := by
  simp [State.dividerAfter, hd]

theorem State.dividing_iff (s : State) :
    s.dividing = true ↔ s.device = .operating ∧ s.table.source = .internal := by
  simp [State.dividing]

theorem State.passed_dividing {s : State} (h : s.dividing = true) (n : Nat) : (s.passed n).dividing = true := by
  obtain ⟨ho, hi⟩ := s.dividing_iff.mp h
  exact (State.dividing_iff _).mpr ⟨State.passed_operating ho n, by rw [State.passed_table, hi]⟩

theorem State.boundary_of_lt {s : State} (h : s.divider < s.table.period) : s.boundary = s :=
  if_neg fun hc => Nat.not_le_of_lt h hc.2

theorem State.boundary_of_le {s : State} (hd : s.dividing = true) (h : s.table.period ≤ s.divider) :
    s.boundary = ({ s with
      divider := s.divider - s.table.period
      plant := s.plant.tick s.table.arbitration }).clearBatch s.plant.tickBatch := if_pos ⟨hd, h⟩

/-- A boundary changes the divider, the plant and the note of moves alone. -/
theorem State.boundary_frame (s : State) :
    { s.boundary with divider := s.divider, plant := s.plant, moved := s.moved } = s := by
  unfold State.boundary
  split <;> rfl

theorem exec_tick_of_dividing {s : State} (h : s.dividing = true) :
    exec .tick s = .next (s.passed (s.table.period - s.divider)).boundary :=
  congrArg Host.Outcome.next (if_pos h)

theorem exec_tick_of_not_dividing {s : State} (h : s.dividing = false) : exec .tick s = .next s :=
  congrArg Host.Outcome.next (if_neg (by simp [h]))

theorem Plant.tick_of_running {w : Plant} (h : w.timebase = .running) (arb : Arbitration) :
    w.tick arb = w.countTick.advance.releaseDue arb := by
  unfold Plant.tick; rw [h]

theorem Plant.tick_of_holding {w : Plant} (h : w.timebase = .holding) (arb : Arbitration) :
    w.tick arb = w.advance := by
  unfold Plant.tick; rw [h]

theorem Plant.tick_of_stopped {w : Plant} (h : w.timebase = .held ∨ w.timebase = .off) (arb : Arbitration) :
    w.tick arb = w := by
  unfold Plant.tick
  rcases h with h | h <;> rw [h]

theorem Plant.keeps_countTick (w : Plant) : w.Keeps w.countTick := .of_lists rfl rfl

theorem Plant.keeps_tick (arb : Arbitration) (w : Plant) : w.Keeps (w.tick arb) := by
  unfold Plant.tick
  split
  · exact (w.keeps_countTick.trans (Plant.keeps_advance _)).trans (Plant.steady_releaseDue ..).toKeeps
  · exact w.keeps_advance
  · exact .refl w
  · exact .refl w

/-- A tick in RUNNING counts, and stays in RUNNING with the hold timer as it stood (R26). -/
theorem Plant.tick_timebase_of_running {w : Plant} (h : w.timebase = .running) (arb : Arbitration) :
    (w.tick arb).tc = w.tc + 1#32 ∧ (w.tick arb).timebase = .running ∧
      (w.tick arb).holdTimer = w.holdTimer := by
  have hs : w.countTick.Steady (w.tick arb) := by
    rw [Plant.tick_of_running h]
    exact (Plant.steady_advance_of_running (w := w.countTick) h).trans (Plant.steady_releaseDue ..)
  exact ⟨hs.tc, hs.timebase.trans h, hs.holdTimer⟩

/-- The batch of a tick in RUNNING (R49). -/
theorem Plant.tick_batch_of_running {w v : Plant} (h : w.timebase = .running) (hv : v = w.countTick.advance)
    (arb : Arbitration) : w.tick arb =
      { v with timeline := v.timeline.filter fun x => x.due != w.tc + 1#32 }.runBatch arb
        (v.timeline.filter fun x => x.due == w.tc + 1#32) := by
  have htc : v.tc = w.tc + 1#32 := by rw [hv, Plant.advance_tc, Plant.countTick_tc]
  rw [Plant.tick_of_running h, ← hv, ← htc, Plant.releaseDue_eq]

/-- Settles O24: RC runs on to the boundary, and the boundary is a tick by the timebase state. -/
theorem tickByTimebaseState : Obligations.TickByTimebaseState := by
  refine ⟨fun s n hd => ⟨fun ht => ?_, fun ht => ?_⟩, fun s h => ?_, ?_⟩
  · exact State.dividerAfter_of_ticks hd ((Timebase.ticks_iff _).mpr ht) n
  · exact State.dividerAfter_of_not_ticks hd ((Timebase.not_ticks_iff _).mpr ht) n
  · refine exec_tick_of_not_dividing ?_
    rw [← Bool.not_eq_true, State.dividing_iff]
    rintro ⟨ho, hi⟩
    rcases h with h | ⟨c, h⟩
    · nomatch h.symm.trans ho
    · nomatch h.symm.trans hi
  · intro s s' hd hs'
    have hd' : s'.dividing = true := hs' ▸ State.passed_dividing hd _
    have htable : s'.table = s.table := hs' ▸ s.passed_table _
    rw [exec_tick_of_dividing hd, ← hs']
    refine ⟨_, rfl, s'.boundary_frame, fun hlt => State.boundary_of_lt (htable ▸ hlt), fun hr hle => ?_,
      fun hle => ?_⟩
    · obtain ⟨h1, h2, h3⟩ := State.passed_running (s.table.period - s.divider) hd hr (by omega)
      rw [hs']
      exact ⟨h1, h2.trans (by omega), h3⟩
    · rw [← htable] at hle
      rw [State.boundary_of_le hd' hle, ← htable, State.clearBatch_plant, State.clearBatch_divider]
      refine ⟨rfl, Plant.keeps_tick .., fun hr => ?_, fun hne => ?_, fun hh => ?_, fun hq => ?_⟩
      · obtain ⟨htc, htb, htimer⟩ := Plant.tick_timebase_of_running hr s'.table.arbitration
        refine ⟨htc, htb, htimer, ?_⟩
        intro w hw
        refine ⟨Plant.tick_batch_of_running hr hw _, ?_⟩
        rw [Plant.tickBatch_of_running hr, ← hw, State.clearBatch_filter]
      · rw [Plant.tickBatch_of_ne hne, State.clearBatch_nil]
      · rw [Plant.tick_of_holding hh, Plant.advance_tc]
      · exact Plant.tick_of_stopped hq _

/-! ## One turn of the advance (R77, R89 to R94) -/

theorem Plant.advanceLine_of_pulsing {w : Plant} {l : LineId} {k : PulseRec}
    (h : (w.line l).state = .pulsing k) : w.advanceLine l =
      if k.remaining ≤ 1 then w.endPulse l k
      else w.setLine l fun x => { x with state := .pulsing { k with remaining := k.remaining - 1 } } := by
  unfold Plant.advanceLine; rw [h]

theorem Plant.advanceLine_of_waving {w : Plant} {l : LineId} {g : Generator}
    (h : (w.line l).state = .waving g) : w.advanceLine l = w.countGenerator l g := by
  unfold Plant.advanceLine; rw [h]

theorem Plant.advanceLine_of_static {w : Plant} {l : LineId} (h : (w.line l).state = .static) :
    w.advanceLine l = w := by
  unfold Plant.advanceLine; rw [h]

theorem Plant.advanceLine_of_probing {w : Plant} {l : LineId} {k : ProbeRec}
    (h : (w.line l).state = .probing k) : w.advanceLine l = w := by
  unfold Plant.advanceLine; rw [h]

theorem Plant.countGenerator_of_zero {g : Generator} (h : g.wave.period = 0#16) (l : LineId) (w : Plant) :
    w.countGenerator l g = w := if_pos h

theorem Plant.countGenerator_of_next {g g' : Generator} (hp : g.wave.period ≠ 0#16) (h : g.next = some g')
    (l : LineId) (w : Plant) : w.countGenerator l g = w.showGenerator l g' := by
  unfold Plant.countGenerator; rw [if_neg hp, h]

theorem Plant.countGenerator_of_end {g : Generator} (hp : g.wave.period ≠ 0#16) (h : g.next = none)
    (l : LineId) (w : Plant) : w.countGenerator l g = w.rewind l g .periodEnd := by
  unfold Plant.countGenerator; rw [if_neg hp, h]

theorem Plant.rewind_of_none {g : Generator} (h : g.load = none) (l : LineId) (c : ApplyCause) (w : Plant) :
    w.rewind l g c = w.showGenerator l { g with counter := 0, direction := .up } := by
  unfold Plant.rewind; rw [h]

theorem Plant.rewind_of_load {g : Generator} {ld : Load} (h : g.load = some ld) (l : LineId) (c : ApplyCause)
    (w : Plant) : w.rewind l g c = w.applyLoad l ld c := by
  unfold Plant.rewind; rw [h]

theorem Generator.output_eq (g : Generator) :
    g.output = if g.counter < g.wave.duty.toNat then g.wave.start == .activeFirst
      else g.wave.start == .inactiveFirst := by
  unfold Generator.output
  cases g.wave.start <;> rfl

theorem Generator.next_of_left {g : Generator} (ha : g.wave.align = .left) : g.next =
    if g.counter + 1 < g.wave.period.toNat then some { g with counter := g.counter + 1 } else none := by
  unfold Generator.next; rw [ha]

theorem Generator.next_of_up {g : Generator} (ha : g.wave.align = .centre) (hd : g.direction = .up) :
    g.next = some { g with
      counter := g.counter + 1
      direction := if g.counter + 1 < g.wave.period.toNat then .up else .down } := by
  unfold Generator.next; rw [ha, hd]

theorem Generator.next_of_down {g : Generator} (ha : g.wave.align = .centre) (hd : g.direction = .down) :
    g.next = if g.counter ≤ 1 then none else some { g with counter := g.counter - 1 } := by
  unfold Generator.next; rw [ha, hd]

/-- The last tick of a pulse: its entry leaves the PULSING entries and completes (R77). -/
theorem Plant.endPulse_found {w : Plant} {l : LineId} {k : PulseRec} {x : Timed}
    (hx : w.findPulsing k.owner k.tag = some x) : w.endPulse l k =
      (({ w with
        pulsing := w.pulsing.filter
          fun y => !(y.entry.owner == k.owner && y.entry.tag == k.tag) }.setLine l
            (Line.rest false .static)).finish (.done .none) x).settleHold := by
  rw [Plant.endPulse, Plant.releasePulse_found hx]
  rfl

/-- Settles O25: the advance line by line, and what a tick makes of the lines no due entry names. -/
theorem tickAdvancesLines : Obligations.TickAdvancesLines := by
  refine ⟨fun s s' hd hs' hle => ?_, fun w => ⟨rfl, w.advance_line, fun l => ?_⟩, fun g => ?_⟩
  · have hd' : s'.dividing = true := hs' ▸ State.passed_dividing hd _
    have htable : s'.table = s.table := hs' ▸ s.passed_table _
    rw [← htable] at hle
    rw [exec_tick_of_dividing hd, ← hs', State.boundary_of_le hd' hle]
    refine ⟨_, rfl, fun hh => ?_, fun hr l hl => ?_⟩ <;> rw [State.clearBatch_plant]
    · exact ⟨Plant.tick_of_holding hh _, fun l => by rw [Plant.tick_of_holding hh, Plant.advance_line]⟩
    · rw [Plant.tick_of_running hr, Plant.releaseDue_line_of_none hl, Plant.advance_line]
      rfl
  · refine ⟨Plant.advanceLine_of_static, fun k => Plant.advanceLine_of_probing, fun k hk hrem => ?_,
      fun k x hk hrem hx => ?_, fun g hg => ?_⟩
    · rw [Plant.advanceLine_of_pulsing hk, if_neg (by omega)]
    · rw [Plant.advanceLine_of_pulsing hk, if_pos (by omega), Plant.endPulse_found hx]
    · rw [Plant.advanceLine_of_waving hg]
      refine ⟨fun hp => Plant.countGenerator_of_zero hp l w, fun hp => ⟨fun g' hn => ?_, ?_, ?_⟩⟩
      · exact Plant.countGenerator_of_next hp hn l w
      · rintro g' hn hload rfl
        rw [Plant.countGenerator_of_end hp hn, Plant.rewind_of_none hload]
        rfl
      · rintro g' ld hn hload rfl
        rw [Plant.countGenerator_of_end hp hn, Plant.rewind_of_load hload]
        rfl
  · refine ⟨g.output_eq, fun _ _ => ⟨fun ha hc => ?_, fun ha hc => ?_, fun ha hd hc => ?_,
      fun ha hd hc => ?_, fun ha hd hc => ?_, fun ha hd hc => ?_⟩⟩
    · rw [Generator.next_of_left ha, if_pos hc]
    · rw [Generator.next_of_left ha, if_neg (by omega)]
    · rw [Generator.next_of_up ha hd, if_pos hc, ← hd]
    · rw [Generator.next_of_up ha hd, if_neg (by omega)]
    · rw [Generator.next_of_down ha hd, if_neg (by omega)]
    · rw [Generator.next_of_down ha hd, if_pos (by omega)]

end Sys2Proof.Machine
end

section
/-! PROOF of O26. The cuts are steady work, line by line; the move to HELD and its notice come behind them. -/

namespace Sys2Proof.Machine

/-! ## HOLD_TIMER_EXPIRY (R33) -/

theorem Plant.steady_cutAll (w : Plant) : w.Steady (allLines.foldl Plant.cutForTimeout w) :=
  .foldl Plant.steady_cutForTimeout allLines w

theorem Plant.holdExpires_eq {w : Plant} (h : w.timebase = .holding) :
    w.holdExpires = { allLines.foldl Plant.cutForTimeout w with
      timebase := .held, holdTimer := none }.postAll 0xFF#8 0#16 (.timebase .holding .held .timeout) := by
  have hb := w.steady_cutAll.timebase
  unfold Plant.holdExpires
  generalize allLines.foldl Plant.cutForTimeout w = v at hb ⊢
  rw [Plant.setTimebase, hb, h]
  rfl

@[simp] theorem Plant.holdExpires_tc (w : Plant) : w.holdExpires.tc = w.tc := by
  rw [← w.steady_cutAll.tc]
  unfold Plant.holdExpires
  generalize allLines.foldl Plant.cutForTimeout w = v
  rfl

/-- The notices of the cuts, and then the TIMEBASE notice (R33, R37). -/
theorem Plant.holdExpires_inbox {w : Plant} (h : w.timebase = .holding) (p : Port) :
    ∃ ns, w.holdExpires.inbox p =
      ((w.inbox p).postList ns).post (timebaseNotice w.tc .holding .held .timeout) := by
  have hs := w.steady_cutAll
  rw [Plant.holdExpires_eq h, Plant.inbox_postAll]
  generalize allLines.foldl Plant.cutForTimeout w = v at hs ⊢
  obtain ⟨ns, hns⟩ := hs.inbox p
  refine ⟨ns, ?_⟩
  rw [← hns, timebaseNotice, ← hs.tc]
  rfl

/-- Work on the plant changes nothing but the plant. -/
theorem State.onPlant_frame (f : Plant → Plant) (s : State) : { s.onPlant f with plant := s.plant } = s := rfl

theorem exec_holdTimerExpiry_of_due {s : State} (hh : s.plant.timebase = .holding)
    (ht : s.plant.holdTimer = some 0) :
    exec .holdTimerExpiry s = .next (s.onPlant Plant.holdExpires) :=
  congrArg Host.Outcome.next (if_pos ⟨hh, ht⟩)

/-- Settles O26: the pulses are cut one by one, and then the timebase is HELD. -/
theorem holdExpiryCutsPulses : Obligations.HoldExpiryCutsPulses := by
  refine ⟨fun s hh ht => ?_, fun s hne => ?_, fun w l => ⟨Plant.cutForTimeout_of_not_pulsing, ?_⟩⟩
  · refine ⟨_, exec_holdTimerExpiry_of_due hh ht, State.onPlant_frame _ s, ?_⟩
    rw [State.onPlant_plant]
    exact ⟨Plant.holdExpires_eq hh, Plant.holdExpires_timebase _, Plant.holdExpires_holdTimer _,
      Plant.holdExpires_tc _, Plant.holdExpires_line _, Plant.holdExpires_inbox hh⟩
  · refine congrArg Host.Outcome.next (if_neg ?_)
    rwa [not_and_or]
  · intro k x hk hx
    rw [Plant.cutForTimeout_of_pulsing hk, Plant.releasePulse_found hx]
    rfl

end Sys2Proof.Machine
end

section
/-! PROOF of O2, from the laws of RC: which events are due at a moment, what RC that runs on changes, and how a
stretch of RC begins. -/

namespace Sys2Proof.Machine

/-! ## RC on an empty queue (log 7, 8, 19, 25) -/

theorem step_of_empty {s : State} (h : s.pending = []) : step s = .next s.idle := by
  unfold step; rw [h]

theorem State.tick_mem_due (s : State) : .tick ∈ s.due ↔ s.dividing = true ∧
    (s.plant.timebase = .running ∨ s.plant.timebase = .holding) ∧ s.table.period ≤ s.divider := by
  rw [State.mem_due, State.mem_ahead, Timebase.ticks_iff, eq_comm (a := 0), Nat.sub_eq_zero_iff_le]
  simp

theorem State.setupWindowExpiry_mem_due (s : State) :
    .setupWindowExpiry ∈ s.due ↔ s.device = .setup ∧ s.window = some 0 := by
  rw [State.mem_due, State.mem_ahead]
  simp

theorem State.holdTimerExpiry_mem_due (s : State) :
    .holdTimerExpiry ∈ s.due ↔ s.plant.timebase = .holding ∧ s.plant.holdTimer = some 0 := by
  rw [State.mem_due, State.mem_ahead]
  simp

theorem State.lapse_mem_due (s : State) (l : LineId) :
    .lapse l ∈ s.due ↔ ∃ k, (s.plant.line l).lease = some k ∧ k.remaining = 0 := by
  simp [State.mem_due, State.mem_ahead, eq_comm (a := 0)]

theorem State.phaseAEnd_mem_due (s : State) (l : LineId) : (∃ b, .phaseAEnd l b ∈ s.due) ↔
    ∃ k, (s.plant.line l).state = .probing k ∧ k.phase = .a ∧ k.time = 0 := by
  simp [State.mem_due, State.mem_ahead, eq_comm (a := 0)]

theorem State.phaseBEnd_mem_due (s : State) (l : LineId) : (∃ b, .phaseBEnd l b ∈ s.due) ↔
    ∃ k a, (s.plant.line l).state = .probing k ∧ k.phase = .b a ∧ k.time = 0 := by
  simp [State.mem_due, State.mem_ahead, eq_comm (a := 0)]

theorem State.idle_of_rstnLow {s : State} (h : s.rstnLow = true) : s.idle = s := if_pos h

/-- The events of this moment, or of the next where there is none, join the queue in some order. -/
theorem State.idle_of_rstnHigh {s : State} (h : s.rstnLow = false) :
    ∃ (s1 : State) (cs : List Instr) (f : Nat), (s.due = [] → s1 = s.runRc 1) ∧
      (s.due ≠ [] → s1 = s) ∧ cs.Perm s1.due ∧ s.idle = { s1 with pending := cs, freeCount := f } := by
  obtain ⟨s1, hs1⟩ : ∃ s1, s1 = if s.due = [] then s.runRc 1 else s := ⟨_, rfl⟩
  refine ⟨s1, (shuffle s1.due s1.freeCount).1, (shuffle s1.due s1.freeCount).2,
    fun hd => hs1.trans (if_pos hd), fun hd => hs1.trans (if_neg hd), shuffle_perm _ _, ?_⟩
  rw [hs1]
  exact if_neg (by simp [h])

/-- The first moment of a stretch of RC, and the rest of it. -/
theorem State.passed_first (s : State) {n : Nat} (h : 0 < n) :
    ∃ (cs : List Instr) (f d : Nat) (s1 : State), cs.Perm s.due ∧
      s1 = cs.foldl State.takeRc { s with freeCount := f } ∧ 0 < d ∧ d ≤ n ∧
      (∀ m, 0 < m → m < d → (s1.runRc m).due = []) ∧ (d = n ∨ (s1.runRc d).due ≠ []) ∧
      s.passed n = (s1.runRc d).passed (n - d) :=
  ⟨(shuffle s.due s.freeCount).1, (shuffle s.due s.freeCount).2, s.takeDue.reach n, s.takeDue,
    shuffle_perm .., rfl, s.takeDue.reach_pos n, s.takeDue.reach_le h, fun _ => State.due_of_lt_reach,
    s.takeDue.due_of_reach h, s.passed_pos h⟩

theorem Line.run_eq (n : Nat) (x : Line) : x.run n =
    ⟨x.level, x.mode,
      match x.state with
      | .probing k => .probing { k with time := k.time - n }
      | .static => .static
      | .pulsing k => .pulsing k
      | .waving g => .waving g,
      x.lease.map fun k => { k with remaining := k.remaining - n }⟩ := by
  rcases x with ⟨level, mode, state, lease⟩
  cases state <;> rfl

/-- Settles O2, from the laws of RC: the events due, the frame of RC running on, a stretch of RC. -/
theorem emptyQueueLetsRcRun : Obligations.EmptyQueueLetsRcRun := by
  refine ⟨fun s hp => ?_, fun s => ?_, fun s n => ?_, fun s n => ?_, fun s l b => s.exec_takeRc l b⟩
  · rw [step_of_empty hp]
    refine ⟨fun h => congrArg _ (State.idle_of_rstnLow h), fun h => ?_⟩
    obtain ⟨s1, cs, f, hnil, hne, hperm, hidle⟩ := State.idle_of_rstnHigh h
    exact ⟨s1, cs, f, hnil, hne, hperm, congrArg _ hidle⟩
  · exact ⟨s.tick_mem_due, s.setupWindowExpiry_mem_due, s.holdTimerExpiry_mem_due,
      fun l => ⟨s.lapse_mem_due l, s.phaseAEnd_mem_due l, s.phaseBEnd_mem_due l⟩⟩
  · refine ⟨rfl, rfl, rfl, fun l => ?_, fun hd => State.dividerAfter_of_not_dividing hd n,
      fun hn => if_pos hn, fun hn => if_neg (Nat.pos_iff_ne_zero.mp hn), rfl⟩
    exact (s.runRc_line n l).trans (Line.run_eq n _)
  · refine ⟨s.passed_rc n, s.passed_rstnLow n, s.passed_table n, s.passed_ports n, s.passed_channels n,
      s.passed_tallies n, s.passed_pending n, ?_, State.passed_moved s, State.passed_first s⟩
    rintro rfl
    exact s.passed_zero

end Sys2Proof.Machine
end

section
/-! PROOF of O14, O38, O39 and O41. The right to act is read off the kind of the line; each line request
answers what its work answers; PULSE_END and PERIOD_END, where they act at all, are the tick's own ends of a
pulse and of a period. -/

namespace Sys2Proof.Machine

/-! ## The right to act (R67) -/

theorem Line.heldBy_iff (p : Port) (x : Line) :
    x.heldBy p = true ↔ ∃ k, x.lease = some k ∧ k.holder = p := by
  unfold Line.heldBy
  cases x.lease with
  | none => simp
  | some k => simp

theorem State.actRefusal_of_leased {s : State} {l : LineId} (h : (s.table.lines.get l).kind = .leased)
    (p : Port) (v : Level) :
    s.actRefusal p v l = if (s.plant.line l).heldBy p then none else some .notHolder := by
  unfold State.actRefusal; rw [h]

theorem State.actRefusal_of_shared {s : State} {l : LineId} (h : (s.table.lines.get l).kind = .shared)
    (p : Port) (v : Level) :
    s.actRefusal p v l = if v ≤ (s.table.lines.get l).ceiling then none else some .noRight := by
  unfold State.actRefusal; rw [h]

/-! ## LINE_MODE, WAVE_RESTART and LINE_PROBE in OPERATING -/

theorem exec_lineMode {r : Request} {s : State} {l : LineId} {m : Mode} (ht : Taken 0x30#8 r s)
    (ho : s.device = .operating) (hb : r.body = [lineByte l, modeCode m]) {rep : State × Reply}
    (hw : modeWork r (l, m) s = rep) :
    exec (.lineMode r) s = .next (rep.1.answer r 0x30#8 rep.2.status rep.2.body) := by
  subst hw
  exact congrArg Host.Outcome.next (serve_operating ht ho (hb ▸ parseLineMode_bytes l m))

theorem exec_waveRestart {r : Request} {s : State} {l : LineId} (ht : Taken 0x32#8 r s)
    (ho : s.device = .operating) (hb : r.body = [lineByte l]) {rep : State × Reply}
    (hw : restartWork r l s = rep) :
    exec (.waveRestart r) s = .next (rep.1.answer r 0x32#8 rep.2.status rep.2.body) := by
  subst hw
  exact congrArg Host.Outcome.next (serve_operating ht ho (hb ▸ parseNumber_lineByte l))

theorem exec_lineProbe {r : Request} {s : State} {l : LineId} (ht : Taken 0x33#8 r s)
    (ho : s.device = .operating) (hb : r.body = [lineByte l]) {rep : State × Reply}
    (hw : probeWork r l s = rep) :
    exec (.lineProbe r) s = .next (rep.1.answer r 0x33#8 rep.2.status rep.2.body) := by
  subst hw
  exact congrArg Host.Outcome.next (serve_operating ht ho (hb ▸ parseNumber_lineByte l))

theorem modeWork_of_noRight {r : Request} {s : State} {l : LineId} {st : Status}
    (h : s.actRefusal r.port (s.effective r) l = some st) (m : Mode) :
    modeWork r (l, m) s = (s, refuse st) := by
  simp only [modeWork, modeRefusal, h]

theorem restartWork_of_noRight {r : Request} {s : State} {l : LineId} {st : Status}
    (h : s.actRefusal r.port (s.effective r) l = some st) : restartWork r l s = (s, refuse st) := by
  simp only [restartWork, h]

theorem probeWork_of_noRight {r : Request} {s : State} {l : LineId} {st : Status}
    (h : s.actRefusal r.port (s.effective r) l = some st) : probeWork r l s = (s, refuse st) := by
  simp only [probeWork, probeRefusal, h]

/-- Settles O14: the two kinds of line, and each request's own test of the right before its work. -/
theorem rightToActTested : Obligations.RightToActTested := by
  intro r s l
  refine ⟨fun hk => ?_, fun hk => ?_, fun st hst ho =>
    ⟨fun m ht hb => ?_, fun hb => ⟨fun ht => ?_, fun ht => ?_⟩⟩⟩
  · rw [State.actRefusal_of_leased hk]
    refine ⟨fun hheld => if_pos ((Line.heldBy_iff ..).mpr hheld), fun hother => if_neg fun hheld => ?_⟩
    obtain ⟨k, hlease, hholder⟩ := (Line.heldBy_iff ..).mp hheld
    exact hother k hlease hholder
  · rw [State.actRefusal_of_shared hk]
    exact ⟨fun hle => if_pos hle, fun hlt => if_neg (not_le.mpr hlt)⟩
  · exact exec_lineMode ht ho hb (modeWork_of_noRight hst m)
  · exact exec_waveRestart ht ho hb (restartWork_of_noRight hst)
  · exact exec_lineProbe ht ho hb (probeWork_of_noRight hst)

/-! ## LINE_MODE with the right to act (R70, R82) -/

theorem isProbing_iff (x : Line) : isProbing x = true ↔ ∃ k, x.state = .probing k := by
  unfold isProbing
  cases x.state <;> simp

theorem modeWork_of_probing {r : Request} {s : State} {l : LineId}
    (hr : s.actRefusal r.port (s.effective r) l = none) (hp : ∃ k, (s.plant.line l).state = .probing k)
    (m : Mode) : modeWork r (l, m) s = (s, refuse .busy) := by
  simp only [modeWork, modeRefusal, hr, (isProbing_iff _).mpr hp, if_true]

theorem modeWork_of_not_probing {r : Request} {s : State} {l : LineId}
    (hr : s.actRefusal r.port (s.effective r) l = none)
    (hp : ∀ k, (s.plant.line l).state ≠ .probing k) (m : Mode) :
    modeWork r (l, m) s = (s.setMode l m, ⟨.ok, modeBody l (s.setMode l m)⟩) := by
  have hn : ¬ isProbing (s.plant.line l) = true := fun h =>
    have ⟨k, hk⟩ := (isProbing_iff _).mp h
    hp k hk
  simp only [modeWork, modeRefusal, hr, if_neg hn]

@[simp] theorem State.line_setMode_self (s : State) (l : LineId) (m : Mode) :
    (s.setMode l m).plant.line l = { s.plant.line l with mode := m } :=
  Plant.line_setLine_self ..

/-- In DRIVE the pin shows the internal level (R70). -/
theorem State.shownLevel_of_drive {s : State} {l : LineId} (ho : s.device = .operating)
    (hm : (s.plant.line l).mode = .drive) : s.shownLevel l = (s.plant.line l).level := by
  unfold State.shownLevel; rw [ho, hm]

/-- In SHADOW the pin shows the fallback level (R70). -/
theorem State.shownLevel_of_shadow {s : State} {l : LineId} (hm : (s.plant.line l).mode = .shadow) :
    s.shownLevel l = (s.table.lines.get l).fallback := by
  unfold State.shownLevel
  rw [hm]
  cases s.device <;> rfl

/-- The level the pin shows once the mode is set. -/
theorem State.shownLevel_setMode {s : State} (ho : s.device = .operating) (l : LineId) {m : Mode}
    {shown : Bool} (hdrive : m = .drive → shown = (s.plant.line l).level)
    (hshadow : m = .shadow → shown = (s.table.lines.get l).fallback) :
    (s.setMode l m).shownLevel l = shown := by
  have hline := s.line_setMode_self l m
  cases m with
  | drive =>
    have hshown := State.shownLevel_of_drive (s := s.setMode l .drive) ho (congrArg Line.mode hline)
    rw [hshown, hline, hdrive rfl]
  | shadow =>
    have hshown := State.shownLevel_of_shadow (s := s.setMode l .shadow) (congrArg Line.mode hline)
    rw [hshown, hshadow rfl]
    rfl

/-- Settles O38: BUSY on a PROBING line; else the mode, and the pin level that it shows. -/
theorem lineModeMovesPin : Obligations.LineModeMovesPin := by
  intro r s l m ht ho hb hr
  refine ⟨fun hp => exec_lineMode ht ho hb (modeWork_of_probing hr hp m), fun hp shown hdrive hshadow => ?_⟩
  rw [exec_lineMode ht ho hb (modeWork_of_not_probing hr hp m), modeBody, State.pinHigh,
    State.shownLevel_setMode ho l hdrive hshadow, State.line_setMode_self]
  rfl

/-! ## LINE_READ (R84) -/

theorem exec_lineRead {r : Request} {s : State} {l : LineId} (ht : Taken 0x31#8 r s)
    (hb : r.body = [lineByte l]) (sense : Bool) :
    exec (.lineRead r sense) s = .next (s.answer r 0x31#8 .ok (lineBody sense s l)) :=
  congrArg Host.Outcome.next (serve_both ht (hb ▸ parseNumber_lineByte l))

/-- Identity and lease, levels, then the state with the fields of its record. -/
theorem lineBody_eq (sense : Bool) (s : State) (l : LineId) : lineBody sense s l =
    [kindCode (s.table.lines.get l).kind, modeCode (s.plant.line l).mode] ++ leaseShort (s.plant.line l) ++
      [flagByte (s.plant.line l).level, flagByte (s.pinHigh l), flagByte sense] ++
      (lineStateCode (s.plant.line l).state ::
        (pulseFields (s.plant.line l).state ++ waveFields (s.plant.line l).state)) := by
  simp [lineBody]

/-- Settles O39: the lease fields by the lease, the record fields by the line state. -/
theorem lineReadShowsLine : Obligations.LineReadShowsLine := by
  intro r s l sense ht hb
  rw [exec_lineRead ht hb, lineBody_eq]
  refine congrArg (fun body => Host.Outcome.next (s.answer r 0x31#8 .ok body))
    (congrArg₂ (· ++ ·) (congrArg (· ++ _) (congrArg ([_, _] ++ ·) ?lease)) ?record)
  case lease =>
    cases hlease : (s.plant.line l).lease with
    | none => rw [leaseShort, hlease]
    | some k => rw [leaseShort, hlease]; rfl
  case record =>
    cases (s.plant.line l).state with
    | static => rfl
    | pulsing k => rfl
    | waving g => rfl
    | probing k => rfl

/-! ## PULSE_END and PERIOD_END (R77, R92; assumption log 12) -/

theorem Plant.pulseEnd_of_last {w : Plant} {l : LineId} {k : PulseRec} (ht : w.timebase.ticks = true)
    (hk : (w.line l).state = .pulsing k) (hrem : k.remaining ≤ 1) : w.pulseEnd l = w.endPulse l k := by
  simp [Plant.pulseEnd, hk, ht, hrem]

/-- No pulse ends where no tick brings its end. -/
theorem Plant.pulseEnd_of_none {w : Plant} {l : LineId}
    (h : w.timebase.ticks = false ∨ ∀ k, (w.line l).state = .pulsing k → 2 ≤ k.remaining) :
    w.pulseEnd l = w := by
  unfold Plant.pulseEnd
  split
  · next k hk =>
    refine if_neg fun hc => ?_
    obtain ⟨hticks, hrem⟩ : w.timebase.ticks = true ∧ k.remaining ≤ 1 := by simpa using hc
    rcases h with h | h
    · simp [h] at hticks
    · have := h k hk
      omega
  · rfl

theorem Plant.periodEnd_of_end {w : Plant} {l : LineId} {g : Generator} (ht : w.timebase.ticks = true)
    (hg : (w.line l).state = .waving g) (hp : g.wave.period ≠ 0#16) (hn : g.next = none) :
    w.periodEnd l = w.rewind l g .periodEnd := by
  simp [Plant.periodEnd, hg, ht, hp, hn]

/-- No period ends where no tick brings its end. -/
theorem Plant.periodEnd_of_none {w : Plant} {l : LineId} (h : w.timebase.ticks = false ∨
      ∀ g, (w.line l).state = .waving g → g.wave.period = 0#16 ∨ g.next ≠ none) :
    w.periodEnd l = w := by
  unfold Plant.periodEnd
  split
  · next g hg =>
    refine if_neg fun hc => ?_
    obtain ⟨⟨hticks, hp⟩, hn⟩ : (w.timebase.ticks = true ∧ g.wave.period ≠ 0#16) ∧ g.next = none := by
      simpa using hc
    rcases h with h | h
    · simp [h] at hticks
    · exact (h g hg).elim hp (absurd hn)
  · rfl

/-- The move to HELD as one update of the plant (R32). -/
theorem Plant.settleHold_eq {w : Plant} (h : w.timebase = .holding) (hn : ∀ l, ¬ w.pulsingOn l) :
    w.settleHold = { w with
      timebase := .held
      holdTimer := none
      inboxes := updAll w.inboxes fun _ =>
        Inbox.post (timebaseNotice w.tc .holding .held .pulsesDone) } := by
  rw [Plant.settleHold, if_pos ⟨h, w.inFlight_eq_zero.mpr hn⟩, Plant.setTimebase, h]
  rfl

/-- Settles O41: the ends that a tick brings, the commands without such an end, the move to HELD. -/
theorem pulseAndPeriodEnds : Obligations.PulseAndPeriodEnds := by
  refine ⟨fun s l hrun => ?_, fun s l => ⟨fun h => ?_, fun h => ?_⟩, fun w =>
    ⟨fun hh hn => Plant.settleHold_eq hh hn, Plant.settleHold_same⟩⟩
  · have ht : s.plant.timebase.ticks = true := (Timebase.ticks_iff _).mpr hrun
    refine ⟨?_, fun g g' w hg hp hn hw => ⟨?_, ?_⟩⟩
    · rintro k x w hk hrem hx rfl
      exact congrArg (fun v => Host.Outcome.next { s with plant := v })
        ((Plant.pulseEnd_of_last ht hk hrem.le).trans (Plant.endPulse_found hx))
    · rintro hload rfl
      exact congrArg (fun v => Host.Outcome.next { s with plant := v })
        ((Plant.periodEnd_of_end ht hg hp hn).trans ((Plant.rewind_of_none hload ..).trans hw.symm))
    · rintro ld hload rfl
      subst hw
      exact congrArg (fun v => Host.Outcome.next { s with plant := v })
        ((Plant.periodEnd_of_end ht hg hp hn).trans (Plant.rewind_of_load hload ..))
  · rw [← or_assoc, ← Timebase.not_ticks_iff] at h
    exact congrArg (fun v => Host.Outcome.next { s with plant := v }) (Plant.pulseEnd_of_none h)
  · rw [← or_assoc, ← Timebase.not_ticks_iff] at h
    exact congrArg (fun v => Host.Outcome.next { s with plant := v }) (Plant.periodEnd_of_none h)

end Sys2Proof.Machine
end

section
/-! PROOF of O40. A WAVE_RESTART rewinds the generator of a WAVING line, and its body is read off the generator
that the rewind leaves on the line. -/

namespace Sys2Proof.Machine

/-! ## WAVE_RESTART with the right to act (R102) -/

theorem restartWork_of_waving {r : Request} {s : State} {l : LineId} {g : Generator}
    (hr : s.actRefusal r.port (s.effective r) l = none) (hg : (s.plant.line l).state = .waving g) :
    restartWork r l s = (s.onPlant fun w => w.rewind l g .restart,
      ⟨.ok, restartBody l g.load.isSome (s.plant.rewind l g .restart)⟩) := by
  simp only [restartWork, hr, hg, State.onPlant]

theorem restartWork_of_not_waving {r : Request} {s : State} {l : LineId}
    (hr : s.actRefusal r.port (s.effective r) l = none)
    (hn : ∀ g, (s.plant.line l).state ≠ .waving g) : restartWork r l s = (s, refuse .lineState) := by
  unfold restartWork
  rw [hr]
  dsimp only
  split
  · next g hg => exact absurd hg (hn g)
  · rfl

/-- The body of a generator that stands at the start of a period. -/
theorem restartBody_of_rewound {w : Plant} {l : LineId} {v : Wave} {ld : Option Load}
    (h : (w.line l).state = .waving ⟨v, 0, .up, ld⟩) (applied : Bool) : restartBody l applied w =
      [0#8, 0#8, 0#8] ++ halfBytes v.period ++ halfBytes v.duty ++
        [v.shapeByte, flagByte (Generator.output ⟨v, 0, .up, ld⟩), flagByte applied] := by
  have hzero : halfBytes (BitVec.ofNat 16 0) = [0#8, 0#8] := by decide
  simp [restartBody, h, generatorFields, hzero, directionCode]

/-- Settles O40: LINE_STATE on a line that is not WAVING; else the rewind, without and with a load. -/
theorem restartAppliesLoad : Obligations.RestartAppliesLoad := by
  intro r s l ht ho hb hr
  refine ⟨fun hn => exec_waveRestart ht ho hb (restartWork_of_not_waving hr hn),
    fun g g' w hg hw => ⟨?_, ?_⟩⟩
  · rintro hload rfl
    have hrewind : s.plant.rewind l g .restart = w := (Plant.rewind_of_none hload ..).trans hw.symm
    have hline : (w.line l).state = .waving { g with counter := 0, direction := .up } := by
      rw [hw, Plant.line_setLine_self, Line.rest_state]
    rw [exec_waveRestart ht ho hb (restartWork_of_waving hr hg), hrewind, restartBody_of_rewound hline,
      hload, State.onPlant, hrewind]
    rfl
  · rintro ld hload rfl
    have hrewind : s.plant.rewind l g .restart = w.postIf ld.notify ld.owner (lineByte l) ld.tag
        (.waveApplied .restart ld.wave.period) := hw ▸ Plant.rewind_of_load hload ..
    have hline : ((s.plant.rewind l g .restart).line l).state = .waving ⟨ld.wave, 0, .up, none⟩ := by
      rw [Plant.rewind_of_load hload, Plant.line_applyLoad, if_pos rfl, Line.rest_state]
      rfl
    rw [exec_waveRestart ht ho hb (restartWork_of_waving hr hg), restartBody_of_rewound hline, hload,
      State.onPlant, hrewind]
    rfl

end Sys2Proof.Machine
end

section
/-! PROOF of O55. What R88, R105 and R150 ask is asked line by line. An operation of the plant takes a line where
one of a few line effects takes it, and none of them leaves the ranges. A lease is judged against RSTn, the device
state, the table and the straps: these stand still in OPERATING, and no lease exists where they move. -/

namespace Sys2Proof.Machine

/-! ## Generators (R88 to R93) -/

/-- A generator at c = 0, UP, is legal unless it holds a load on a zero period. -/
theorem Generator.legal_start (v : Wave) {ld : Option Load} (h : v.period = 0#16 → ld = none) :
    Generator.legal ⟨v, 0, .up, ld⟩ := by
  have hpos : v.period ≠ 0#16 → 0 < v.period.toNat := fun hp => by bv_omega
  exact ⟨fun hp => ⟨rfl, rfl, h hp⟩, fun hp _ => ⟨rfl, hpos hp⟩, fun hp _ => .inl ⟨rfl, hpos hp⟩⟩

theorem Generator.legal_fresh (v : Wave) : (Generator.fresh v).legal :=
  Generator.legal_start v fun _ => rfl

/-- A load is staged on a period that is not 0 (R93, R96). -/
theorem Generator.legal.stage {g : Generator} (h : g.legal) (hp : g.wave.period ≠ 0#16) (ld : Load) :
    Generator.legal { g with load := some ld } := by
  obtain ⟨-, hleft, hcentre⟩ := h
  exact ⟨fun hz => absurd hz hp, hleft, hcentre⟩

/-- A count stays in the range of its alignment (R90, R91). -/
theorem Generator.legal.next {g g' : Generator} (h : g.legal) (hp : g.wave.period ≠ 0#16)
    (hn : g.next = some g') : g'.legal := by
  obtain ⟨-, hleft, hcentre⟩ := h
  cases ha : g.wave.align with
  | left =>
    obtain ⟨hup, -⟩ := hleft hp ha
    rw [Generator.next_of_left ha] at hn
    split at hn
    · next hc =>
      cases hn
      exact ⟨fun hz => absurd hz hp, fun _ _ => ⟨hup, hc⟩, fun _ hc => nomatch ha.symm.trans hc⟩
    · cases hn
  | centre =>
    have hnotLeft : g.wave.align ≠ .left := by simp [ha]
    rcases hcentre hp ha with ⟨hup, hlt⟩ | ⟨hdown, hpos, hle⟩
    · rw [Generator.next_of_up ha hup] at hn
      cases hn
      refine ⟨fun hz => absurd hz hp, fun _ hl => absurd hl hnotLeft, fun _ _ => ?_⟩
      by_cases hc : g.counter + 1 < g.wave.period.toNat
      · exact .inl ⟨if_pos hc, hc⟩
      · exact .inr ⟨if_neg hc, Nat.succ_pos _, hlt⟩
    · rw [Generator.next_of_down ha hdown] at hn
      split at hn
      · cases hn
      · next hc =>
        cases hn
        refine ⟨fun hz => absurd hz hp, fun _ hl => absurd hl hnotLeft, fun _ _ => .inr ⟨hdown, ?_, ?_⟩⟩
        · change 0 < g.counter - 1
          omega
        · exact (Nat.sub_le ..).trans hle

/-! ## One line -/

/-- The generator and the probe of a line are in their ranges (R88, R150), and `ok` admits its lease. -/
structure Line.Legal (ok : Lease → Prop) (x : Line) : Prop where
  generator : ∀ g, x.state = .waving g → g.legal
  probe     : ∀ r, x.state = .probing r → x.mode = .drive ∧ r.time ≤ Config.probePhase
  lease     : ∀ k, x.lease = some k → ok k

namespace Line.Legal
variable {ok : Lease → Prop} {x : Line}

theorem rest_static (h : x.Legal ok) (b : Bool) : (x.rest b .static).Legal ok := ⟨nofun, nofun, h.lease⟩

theorem rest_pulsing (h : x.Legal ok) (b : Bool) (r : PulseRec) : (x.rest b (.pulsing r)).Legal ok :=
  ⟨nofun, nofun, h.lease⟩

theorem rest_waving (h : x.Legal ok) (b : Bool) {g : Generator} (hg : g.legal) :
    (x.rest b (.waving g)).Legal ok := ⟨fun _ e => LineState.waving.inj e ▸ hg, nofun, h.lease⟩

theorem rest_probing (h : x.Legal ok) (b : Bool) {r : ProbeRec} (hm : x.mode = .drive)
    (ht : r.time ≤ Config.probePhase) : (x.rest b (.probing r)).Legal ok :=
  ⟨nofun, fun _ e => LineState.probing.inj e ▸ ⟨hm, ht⟩, h.lease⟩

theorem setLevel (h : x.Legal ok) (b : Bool) : Line.Legal ok { x with level := b } :=
  ⟨h.generator, h.probe, h.lease⟩

theorem setLease (h : x.Legal ok) {k : Lease} (hk : ok k) : Line.Legal ok { x with lease := some k } :=
  ⟨h.generator, h.probe, fun _ e => Option.some.inj e ▸ hk⟩

/-- The mode of a line moves only where the line is not PROBING (R82). -/
theorem setMode (h : x.Legal ok) (hp : ∀ r, x.state ≠ .probing r) (m : Mode) :
    Line.Legal ok { x with mode := m } := ⟨h.generator, fun r hr => absurd hr (hp r), h.lease⟩

theorem vacate (ok : Lease → Prop) (b : Bool) (x : Line) : (x.vacate b).Legal ok := ⟨nofun, nofun, nofun⟩

/-- The advance of a tick: a count stays in range, and a period ends at c = 0 (R77, R90 to R93). -/
theorem advanced (h : x.Legal ok) : x.advanced.Legal ok := by
  unfold Line.advanced
  split
  · exact h
  · exact h
  · split
    · exact h.rest_static _
    · exact h.rest_pulsing x.level _
  · next g hg =>
    split
    · exact h
    · next hp =>
      refine h.rest_waving _ ?_
      split
      · next hn => exact (h.generator g hg).next hp hn
      · split
        · exact Generator.legal_fresh _
        · exact Generator.legal_start _ fun hz => absurd hz hp

/-- What a winner makes of its line (R74, R76, R93 to R100). -/
theorem applied (h : x.Legal ok) (e : Entry) (a : LineAction) : (x.applied e a).Legal ok := by
  cases a with
  | set => exact h.rest_static _
  | clear => exact h.rest_static _
  | toggle => exact h.rest_static _
  | waveStop => exact h.rest_static _
  | pulse width => exact h.rest_pulsing _ _
  | wave v =>
    unfold Line.applied
    dsimp only
    split
    · next g hg =>
      split
      · exact h.rest_waving _ (Generator.legal_fresh v)
      · next hp => exact h.rest_waving x.level ((h.generator g hg).stage hp _)
    · exact h.rest_waving _ (Generator.legal_fresh v)

theorem cut (h : x.Legal ok) : x.cut.Legal ok := by
  unfold Line.cut
  split
  · exact h.rest_static _
  · exact h

theorem endLeaseOf (h : x.Legal ok) (p : Port) (b : Bool) : (x.endLeaseOf p b).Legal ok := by
  unfold Line.endLeaseOf
  split
  · exact .vacate ok b x
  · exact h

theorem abortProbeOf (h : x.Legal ok) (p : Port) : (x.abortProbeOf p).Legal ok := by
  unfold Line.abortProbeOf
  split
  · split
    · exact h.rest_static _
    · exact h
  · exact h

/-- RC counts the lease and the probe down (R107, R152). -/
theorem run (h : x.Legal ok) (n : Nat) (hok : ∀ k, ok k → ok (k.run n)) : (x.run n).Legal ok where
  generator g hg := by
    rw [Line.run_state] at hg
    unfold LineState.run at hg
    split at hg
    · nomatch hg
    · exact h.generator g hg
  probe r hr := by
    obtain ⟨r', hr', rfl⟩ := (LineState.run_eq_probing ..).mp hr
    obtain ⟨hm, ht⟩ := h.probe r' hr'
    exact ⟨hm, (Nat.sub_le ..).trans ht⟩
  lease k hk := by
    obtain ⟨k', hk', rfl⟩ := Option.map_eq_some_iff.mp hk
    exact hok k' (h.lease k' hk')

theorem renewIf (h : x.Legal ok) (p : Port) (hok : ∀ k, ok k → ok k.renew) : (x.renewIf p).Legal ok := by
  unfold Line.renewIf
  split
  · refine ⟨h.generator, h.probe, fun k hk => ?_⟩
    obtain ⟨k', hk', rfl⟩ := Option.map_eq_some_iff.mp hk
    exact hok k' (h.lease k' hk')
  · exact h

end Line.Legal

/-! ## The lines of a plant -/

/-- Every line is legal, its lease judged by the number of the line. -/
structure Plant.Legal (ok : LineId → Lease → Prop) (w : Plant) : Prop where
  line : ∀ l, (w.line l).Legal (ok l)

namespace Plant.Legal
variable {ok : LineId → Lease → Prop} {w w' : Plant}

theorem of_lines (h : w.Legal ok) (hl : w'.lines = w.lines) : w'.Legal ok := by
  refine ⟨fun l => ?_⟩
  rw [Plant.line_of_lines hl]
  exact h.line l

/-- One line is changed. -/
theorem of_line (h : w.Legal ok) {l : LineId} {y : Line} (hl : ∀ m, w'.line m = if m = l then y else w.line m)
    (hy : y.Legal (ok l)) : w'.Legal ok := by
  refine ⟨fun m => ?_⟩
  rw [hl]
  split
  · next e => exact e ▸ hy
  · exact h.line m

theorem setLine (h : w.Legal ok) {l : LineId} {f : Line → Line} (hf : (f (w.line l)).Legal (ok l)) :
    (w.setLine l f).Legal ok := h.of_line (fun m => w.line_setLine l m f) hf

theorem updAll (h : w.Legal ok) {f : LineId → Line → Line}
    (hf : ∀ l x, x.Legal (ok l) → (f l x).Legal (ok l)) :
    Plant.Legal ok { w with lines := updAll w.lines f } := by
  refine ⟨fun l => ?_⟩
  rw [Plant.line_updAll]
  exact hf l _ (h.line l)

theorem foldl {α : Type} {f : Plant → α → Plant} (hf : ∀ (w : Plant) (x : α), w.Legal ok → (f w x).Legal ok)
    (xs : List α) (h : w.Legal ok) : (xs.foldl f w).Legal ok := by
  induction xs generalizing w with
  | nil => exact h
  | cons x xs ih => exact ih (hf w x h)

/-- The same lines under another test of leases. -/
theorem weaken {ok' : LineId → Lease → Prop} (h : w.Legal ok) (hok : ∀ l k, ok l k → ok' l k) :
    w.Legal ok' :=
  ⟨fun l => ⟨(h.line l).generator, (h.line l).probe, fun k hk => hok l k ((h.line l).lease k hk)⟩⟩

/-! ### Pulses, generators, batches and walks -/

theorem post (h : w.Legal ok) (p : Port) (b : Byte) (t : Half) (d : Detail) : (w.post p b t d).Legal ok :=
  h.of_lines rfl

theorem settleHold (h : w.Legal ok) : w.settleHold.Legal ok := h.of_lines w.settleHold_lines

theorem endPulse (h : w.Legal ok) (l : LineId) (r : PulseRec) : (w.endPulse l r).Legal ok :=
  settleHold (h.of_line (fun m => w.line_releasePulse l m r none) ((h.line l).rest_static _))

/-- The load, or the settings in force, from c = 0 (R92, R102). -/
theorem rewind (h : w.Legal ok) (l : LineId) (g : Generator) (c : ApplyCause) :
    (w.rewind l g c).Legal ok := by
  unfold Plant.rewind
  split
  · next ld _ =>
    exact h.of_line (fun m => w.line_applyLoad l m ld c) ((h.line l).rest_waving _ (Generator.legal_fresh _))
  · next hload => exact h.setLine ((h.line l).rest_waving _ (Generator.legal_start _ fun _ => hload))

theorem advance (h : w.Legal ok) : w.advance.Legal ok := by
  refine ⟨fun l => ?_⟩
  rw [Plant.advance_line]
  exact (h.line l).advanced

theorem runOne (h : w.Legal ok) (arb : Arbitration) (batch : List Timed) (x : Timed) :
    (w.runOne arb batch x).Legal ok := by
  refine ⟨fun m => ?_⟩
  rw [Plant.runOne_line]
  split
  · next l a _ =>
    split
    · next e => exact e.1 ▸ (h.line m).applied x.entry a
    · exact h.line m
  · exact h.line m

theorem runBatch (h : w.Legal ok) (arb : Arbitration) (batch : List Timed) : (w.runBatch arb batch).Legal ok :=
  foldl (fun _ x hw => hw.runOne arb batch x) batch h

theorem releaseDue (h : w.Legal ok) (arb : Arbitration) : (w.releaseDue arb).Legal ok :=
  (h.of_lines (w' := { w with timeline := w.timeline.filter fun x => lead w.tc x.due != 0#32 }) rfl).runBatch ..

theorem place (h : w.Legal ok) (arb : Arbitration) (x : Timed) : (w.place arb x).Legal ok := by
  unfold Plant.place
  split
  · exact h.runBatch arb [x]
  · exact h.of_lines rfl

theorem release (h : w.Legal ok) (arb : Arbitration) (x : Waiting) (o : Word) : (w.release arb x o).Legal ok :=
  (h.of_lines (w' := w.dropArmed x.entry.owner x.entry.tag) rfl).place ..

theorem countDown (h : w.Legal ok) (arb : Arbitration) (x : Waiting) (o : Word) :
    (w.countDown arb x o).Legal ok := by
  unfold Plant.countDown
  dsimp only
  split
  · exact h.release ..
  · exact h.of_lines rfl

theorem walkEdge (h : w.Legal ok) (arb : Arbitration) (c : Channel) (xs : List Waiting) :
    (w.walkEdge arb c xs).Legal ok := by
  refine foldl (fun w x hw => ?_) xs h
  split
  · split
    · exact hw.countDown ..
    · exact hw
  · exact hw

theorem walkCount (h : w.Legal ok) (arb : Arbitration) (t : TallyId) (v : Word) (xs : List Waiting) :
    (w.walkCount arb t v xs).Legal ok := by
  refine foldl (fun w x hw => ?_) xs h
  split
  · split
    · exact hw.release ..
    · exact hw
  · exact hw

/-! ### Ticks, claims and the moves of the timebase -/

theorem countTick (h : w.Legal ok) : w.countTick.Legal ok := h.of_lines rfl

theorem tick (h : w.Legal ok) (arb : Arbitration) : (w.tick arb).Legal ok := by
  unfold Plant.tick
  split
  · exact h.countTick.advance.releaseDue arb
  · exact h.advance
  · exact h
  · exact h

theorem paceAdvance (h : w.Legal ok) (pace : Bool) : (w.paceAdvance pace).Legal ok := by
  unfold Plant.paceAdvance
  split
  · exact h.countTick.advance
  · exact h

theorem claim (h : w.Legal ok) (arb : Arbitration) (c : Channel) (armed : List Waiting) (k : Claim) :
    (w.claim arb c armed k).Legal ok := by
  cases k with
  | tickBatch => exact h.releaseDue arb
  | advance => exact h.advance
  | walk => exact h.walkEdge arb c armed
  | count t v => exact h.walkCount arb t v armed

theorem pulseEnd (h : w.Legal ok) (l : LineId) : (w.pulseEnd l).Legal ok := by
  unfold Plant.pulseEnd
  split
  · split
    · exact h.endPulse ..
    · exact h
  · exact h

theorem periodEnd (h : w.Legal ok) (l : LineId) : (w.periodEnd l).Legal ok := by
  unfold Plant.periodEnd
  split
  · split
    · exact h.rewind ..
    · exact h
  · exact h

theorem hold (h : w.Legal ok) (p : Port) (timeout : Nat) : (w.hold p timeout).1.Legal ok := by
  unfold Plant.hold
  split
  · split <;> exact h.of_lines rfl
  · exact h

theorem start (h : w.Legal ok) (arb : Arbitration) (p : Port) : (w.start arb p).1.Legal ok := by
  have hset : Plant.Legal ok (({ w with holdTimer := none } : Plant).setTimebase .running (.request p)) :=
    h.of_lines rfl
  unfold Plant.start
  split
  · exact hset.releaseDue arb
  · exact hset.releaseDue arb
  · exact h
  · exact h

theorem holdExpires (h : w.Legal ok) : w.holdExpires.Legal ok := by
  refine ⟨fun l => ?_⟩
  rw [Plant.holdExpires_line]
  exact (h.line l).cut

/-- Every line enters OPERATING STATIC and without a holder (R86, R178). -/
theorem enter (ok : LineId → Lease → Prop) (t : Table) (c : CloseCause) (w : Plant) : (w.enter t c).Legal ok := by
  refine ⟨fun l => ?_⟩
  rw [Plant.line_enter]
  exact ⟨nofun, nofun, nofun⟩

/-! ### Removals and the ends of leases -/

theorem takePulseOf (h : w.Legal ok) (p : Port) (f : Half → Bool) (level : LineId → Bool) :
    (w.takePulseOf p f level).Legal ok := by
  refine ⟨fun l => ?_⟩
  rw [Plant.line_takePulseOf]
  split
  · split
    · exact (h.line l).rest_static _
    · exact h.line l
  · exact h.line l

theorem drop (h : w.Legal ok) (f : Entry → Bool) : (w.drop f).Legal ok := h.of_lines rfl

theorem cancel (h : w.Legal ok) (p : Port) (tag : Half) : (w.cancel p tag).Legal ok :=
  ((h.takePulseOf ..).drop _).settleHold

theorem cancelAll (h : w.Legal ok) (p : Port) : (w.cancelAll p).Legal ok :=
  ((h.takePulseOf ..).drop _).settleHold

theorem vacate (h : w.Legal ok) (p : Port) (l : LineId) (b : Bool) : (w.vacate p l b).Legal ok :=
  (h.setLine (.vacate (ok l) b _)).drop _

theorem lapse (h : w.Legal ok) (p : Port) (l : LineId) (b : Bool) : (w.lapse p l b).Legal ok :=
  ((h.vacate p l b).post ..).settleHold

theorem releaseLease (h : w.Legal ok) (p : Port) (l : LineId) (b : Bool) : (w.releaseLease p l b).Legal ok :=
  (h.vacate p l b).settleHold

theorem setLease (h : w.Legal ok) (l : LineId) {k : Lease} (hk : ok l k) :
    (w.setLease l (some k)).Legal ok := h.setLine ((h.line l).setLease hk)

theorem take (h : w.Legal ok) (l : LineId) {k : Lease} (hk : ok l k) : (w.take l k).1.Legal ok := by
  unfold Plant.take
  split
  · exact h.setLease l hk
  · split
    · exact h.setLease l hk
    · exact (((h.vacate ..).post ..).setLease l hk).settleHold

theorem resetPort (h : w.Legal ok) (p : Port) (fallback : LineId → Bool) : (w.resetPort p fallback).Legal ok := by
  have hinbox : Plant.Legal ok { w with inboxes := upd w.inboxes p fun _ => ⟨[], false⟩ } := h.of_lines rfl
  have hdrop := (hinbox.takePulseOf p (fun _ => true) fallback).drop fun e => e.owner == p
  have hends := hdrop.updAll (f := fun l => Line.endLeaseOf p (fallback l)) fun l _ hx =>
    hx.endLeaseOf p (fallback l)
  exact (hends.updAll fun _ _ hx => hx.abortProbeOf p).settleHold

end Plant.Legal

/-- The notices of an edge change no line. -/
theorem Plant.postEdges_lines (before : Port → Nat) (n : Notice) (ps : List Port) (q : Plant × Nat) :
    (ps.foldl (fun q p => Plant.postEdge p (before p) n q) q).1.lines = q.1.lines := by
  induction ps generalizing q with
  | nil => rfl
  | cons p ps ih => exact ih _

end Sys2Proof.Machine
end

section
/-! PROOF of O55, second part: every event of RC, request and command keeps the lines legal. -/

namespace Sys2Proof.Machine

/-! ## The lines of a state -/

/-- What R105 and R106 ask of a lease of line `l`. -/
structure State.Grants (s : State) (l : LineId) (k : Lease) : Prop where
  high      : s.rstnLow = false
  operating : s.device = .operating
  leased    : (s.table.lines.get l).kind = .leased
  ceiling   : k.level ≤ (s.table.lines.get l).ceiling
  strap     : (s.port k.holder).strap ≤ k.level
  shortest  : 10 ≤ k.term.toNat
  longest   : k.term.toNat ≤ 60000
  remaining : k.remaining ≤ k.term.toNat * Config.xinPerMs

/-- The invariant of O55. -/
def LinesSound (s : State) : Prop := s.plant.Legal s.Grants

theorem linesSound_iff (s : State) : LinesSound s ↔ LinesLegal s ∧ LeasesLegal s := by
  refine ⟨fun h => ⟨fun l => ⟨(h.line l).generator, (h.line l).probe⟩, fun l k hk => ?_⟩,
    fun ⟨hlines, hleases⟩ => ⟨fun l => ?_⟩⟩
  · obtain ⟨h1, h2, h3, h4, h5, h6, h7, h8⟩ := (h.line l).lease k hk
    exact ⟨h1, h2, h3, h4, h5, h6, h7, h8⟩
  · obtain ⟨hgenerator, hprobe⟩ := hlines l
    refine ⟨hgenerator, hprobe, fun k hk => ?_⟩
    obtain ⟨h1, h2, h3, h4, h5, h6, h7, h8⟩ := hleases l k hk
    exact ⟨h1, h2, h3, h4, h5, h6, h7, h8⟩

/-- All that leases are judged against stands still. -/
structure State.SameGround (s t : State) : Prop where
  rstnLow : t.rstnLow = s.rstnLow
  device  : t.device = s.device
  lines   : t.table.lines = s.table.lines
  strap   : ∀ p, (t.port p).strap = (s.port p).strap

theorem State.Grants.of_ground {s t : State} {l : LineId} {k : Lease} (h : s.Grants l k)
    (hg : s.SameGround t) : t.Grants l k where
  high := hg.rstnLow.trans h.high
  operating := hg.device.trans h.operating
  leased := by rw [hg.lines]; exact h.leased
  ceiling := by rw [hg.lines]; exact h.ceiling
  strap := by rw [hg.strap]; exact h.strap
  shortest := h.shortest
  longest := h.longest
  remaining := h.remaining

theorem linesSound_of_ground {s t : State} (hg : s.SameGround t) (hp : t.plant.Legal s.Grants) : LinesSound t :=
  hp.weaken fun _ _ hk => hk.of_ground hg

/-- Work that changes the plant, and nothing that leases are judged against. -/
theorem linesSound_of_plant {s t : State} (hp : t.plant.Legal s.Grants) (hr : t.rstnLow = s.rstnLow := by rfl)
    (hd : t.device = s.device := by rfl) (hl : t.table.lines = s.table.lines := by rfl)
    (hs : t.ports = s.ports := by rfl) : LinesSound t :=
  linesSound_of_ground ⟨hr, hd, hl, fun _ => by rw [State.port, hs, State.port]⟩ hp

theorem linesSound_onPlant {s : State} {f : Plant → Plant} (hp : (f s.plant).Legal s.Grants) :
    LinesSound (s.onPlant f) := linesSound_of_plant hp

/-- While RSTn is low and in SETUP no lease exists, so that the lines are legal whatever leases are judged
against (R173). -/
theorem LinesSound.legal_of_idle {s : State} (hs : LinesSound s)
    (h : s.rstnLow = true ∨ s.device = .setup) (ok : LineId → Lease → Prop) : s.plant.Legal ok := by
  refine hs.weaken fun l k hk => ?_
  rcases h with h | h
  · exact absurd (h.symm.trans hk.high) nofun
  · exact absurd (h.symm.trans hk.operating) nofun

/-! ## Events of RC -/

/-- The entry into OPERATING sets every line anew (R178). -/
theorem linesSound_enterOperating (s : State) (c : CloseCause) : LinesSound (s.enterOperating c) :=
  .enter _ s.table c s.plant

theorem LinesSound.windowExpiry {s : State} (hs : LinesSound s) : LinesSound s.windowExpiry := by
  unfold State.windowExpiry
  split
  · exact linesSound_enterOperating ..
  · exact hs

theorem LinesSound.boundary {s : State} (hs : LinesSound s) : LinesSound s.boundary := by
  unfold State.boundary
  split
  · exact linesSound_of_plant (hs.tick s.table.arbitration)
  · exact hs

theorem LinesSound.holdExpiry {s : State} (hs : LinesSound s) : LinesSound s.holdExpiry := by
  unfold State.holdExpiry
  split
  · exact linesSound_onPlant hs.holdExpires
  · exact hs

theorem LinesSound.lapse {s : State} (hs : LinesSound s) (l : LineId) : LinesSound (s.lapse l) := by
  unfold State.lapse
  split
  · split
    · exact linesSound_onPlant (Plant.Legal.lapse hs ..)
    · exact hs
  · exact hs

/-- Phase B begins on the line of phase A, which is in DRIVE (R150, R152). -/
theorem LinesSound.phaseAEnd {s : State} (hs : LinesSound s) (l : LineId) (sense : Bool) :
    LinesSound (s.phaseAEnd l sense) := by
  unfold State.phaseAEnd
  split
  · next r hr =>
    split
    · split
      · obtain ⟨hdrive, -⟩ := (hs.line l).probe r hr
        exact linesSound_onPlant (hs.setLine ((hs.line l).rest_probing false hdrive le_rfl))
      · exact hs
    · exact hs
  · exact hs

theorem LinesSound.phaseBEnd {s : State} (hs : LinesSound s) (l : LineId) (sense : Bool) :
    LinesSound (s.phaseBEnd l sense) := by
  unfold State.phaseBEnd
  split
  · next r _ =>
    split
    · exact hs
    · split
      · exact linesSound_onPlant ((hs.setLine ((hs.line l).rest_static r.saved)).post ..)
      · exact hs
  · exact hs

/-- Every event that RC brings keeps the lines legal. -/
theorem LinesSound.takeRc {s : State} (hs : LinesSound s) (c : Instr) : LinesSound (s.takeRc c) := by
  unfold State.takeRc
  split
  · exact hs.boundary
  · exact hs.windowExpiry
  · exact hs.holdExpiry
  · exact LinesSound.lapse hs _
  · exact hs.phaseAEnd ..
  · exact hs.phaseBEnd ..
  · exact hs

/-- A lease with less time left is still within its term (R107). -/
theorem State.Grants.run {s : State} {l : LineId} {k : Lease} (h : s.Grants l k) (n : Nat) :
    s.Grants l (k.run n) :=
  { h with remaining := (Nat.sub_le ..).trans h.remaining }

/-- A renewed lease is at its full term (R110). -/
theorem State.Grants.renew {s : State} {l : LineId} {k : Lease} (h : s.Grants l k) : s.Grants l k.renew :=
  { h with remaining := le_rfl }

theorem LinesSound.runRc {s : State} (hs : LinesSound s) (n : Nat) : LinesSound (s.runRc n) := by
  refine linesSound_of_plant (s := s) ⟨fun l => ?_⟩
  rw [State.runRc_line]
  exact (hs.line l).run n fun _ hk => hk.run n

theorem LinesSound.passed {s : State} (hs : LinesSound s) (n : Nat) : LinesSound (s.passed n) :=
  State.passed_induction LinesSound (fun _ n h => h.runRc n) (fun _ c h => h.takeRc c)
    (fun _ _ h => linesSound_of_plant h) n hs

theorem LinesSound.idle {s : State} (hs : LinesSound s) : LinesSound s.idle := by
  unfold State.idle
  split
  · exact hs
  · have h1 : LinesSound (if s.due = [] then s.runRc 1 else s) := by
      split
      · exact hs.runRc 1
      · exact hs
    dsimp only
    generalize (if s.due = [] then s.runRc 1 else s) = s1 at h1 ⊢
    exact linesSound_of_plant h1

/-! ## Edges and tallies -/

theorem LinesSound.acceptEdge {s : State} (hs : LinesSound s) (c : Channel) (dir : Edge) :
    LinesSound (s.acceptEdge c dir) := by
  have hclaims := Plant.Legal.foldl (fun _ k hw => hw.claim s.table.arbitration c s.plant.armed k)
    (shuffle (claims s.table c (raiseBound s.table.tallies c s.tallies) s.plant.armed
      (s.plant.paceAdvance (s.table.paces c))) s.freeCount).1 (hs.paceAdvance (s.table.paces c))
  exact linesSound_of_plant (hclaims.of_lines
    (Plant.postEdges_lines (fun p => (s.plant.inbox p).queue.length) _ _ (_, _)))

theorem LinesSound.changeTally {s : State} (hs : LinesSound s) (t : TallyId) (v : Word) :
    LinesSound (s.changeTally t v) := linesSound_of_plant (hs.walkCount ..)

/-! ## Requests -/

section Serve
variable {α : Type} {kind : Byte} {allowed : Allowed} {limit : State → Option Level}
  {operands : State → Option α} {r : Request} {s : State}

theorem LinesSound.of_serve {work : α → State → State × Reply} (hs : LinesSound s)
    (hwork : ∀ a, operands s = some a → Taken kind r s → allowed.admits s.device = true →
      LinesSound (work a s).1) : LinesSound (serve kind allowed limit operands work r s) :=
  serve_induction LinesSound
    (fun t st body ht => linesSound_of_ground (s := t) ⟨rfl, rfl, rfl, t.answer_strap r kind st body⟩ ht) hs hwork

/-- A request whose work keeps the lines legal wherever it is reached. -/
theorem LinesSound.of_serve_work {work : α → State → State × Reply} (hs : LinesSound s)
    (hwork : ∀ a, LinesSound (work a s).1) : LinesSound (serve kind allowed limit operands work r s) :=
  hs.of_serve fun a _ _ _ => hwork a

theorem LinesSound.of_serve_readOnly {body : State → α → List Byte} (hs : LinesSound s) :
    LinesSound (serve kind allowed limit operands (readOnly body) r s) := hs.of_serve_work fun _ => hs

end Serve

/-! ### Ports and setup -/

/-- A change of a port's interface that leaves its strap level. -/
theorem LinesSound.setPort {s : State} (hs : LinesSound s) (p : Port) {f : PortState → PortState}
    (hf : (f (s.port p)).strap = (s.port p).strap) : LinesSound (s.setPort p f) := by
  refine linesSound_of_ground (s := s) ⟨rfl, rfl, rfl, fun q => ?_⟩ hs
  rw [State.port_setPort]
  split
  · next e => rw [hf, e]
  · rfl

theorem LinesSound.noticeRead {s : State} (hs : LinesSound s) (p : Port) (u : Unit) :
    LinesSound (noticeReadWork p u s).1 := linesSound_of_plant (hs.of_lines rfl)

theorem LinesSound.portReset {s : State} (hs : LinesSound s) (p : Port) (u : Unit) :
    LinesSound (portResetWork p u s).1 :=
  have hp : LinesSound (s.onPlant (Plant.resetPort p s.fallback)) := linesSound_onPlant (hs.resetPort ..)
  hp.setPort p rfl

/-- The table is written in SETUP alone, where no lease exists (R175). -/
theorem LinesSound.configWrite {s : State} (hs : LinesSound s) (hd : s.device = .setup) (q : ItemWrite) :
    LinesSound (configWriteWork q s).1 := by
  have hset : LinesSound (s.setTable q.item q.table) := by
    unfold State.setTable
    split
    · have hall := hs.legal_of_idle (.inr hd)
      exact (hall _).setLine (((hall _).line _).setLevel _)
    · exact hs.legal_of_idle (.inr hd) _
  unfold configWriteWork
  split
  · exact hset
  · exact hs

/-! ### Timebase, entries and tallies -/

theorem LinesSound.tbHold {s : State} (hs : LinesSound s) (p : Port) (u : Unit) :
    LinesSound (holdWork p u s).1 := linesSound_of_plant (hs.hold ..)

theorem LinesSound.tbStart {s : State} (hs : LinesSound s) (p : Port) (u : Unit) :
    LinesSound (startWork p u s).1 := linesSound_of_plant (hs.start ..)

theorem LinesSound.schedule {s : State} (hs : LinesSound s) (q : Entry × Word) :
    LinesSound (scheduleWork q s).1 := by
  have hpost : (s.postEntry q.1 q.2).Legal s.Grants := by
    unfold State.postEntry
    split
    · exact hs.place ..
    · exact hs.of_lines rfl
    · split
      · exact hs.place ..
      · exact hs.of_lines rfl
  unfold scheduleWork
  split
  · exact hs
  · exact linesSound_of_plant hpost

theorem LinesSound.cancel {s : State} (hs : LinesSound s) (p : Port) (tag : Half) :
    LinesSound (cancelWork p tag s).1 := by
  unfold cancelWork
  split
  · exact linesSound_onPlant (hs.cancelAll p)
  · split
    · exact linesSound_onPlant (Plant.Legal.cancel hs p tag)
    · exact hs

theorem LinesSound.movePending {s : State} (hs : LinesSound s) (x : Timed) (due : Word) :
    LinesSound (movePending x due s).1 := by
  have hd : (s.plant.dropPending x.entry.owner x.entry.tag).Legal s.Grants := hs.of_lines rfl
  unfold Machine.movePending
  dsimp only
  split
  · exact linesSound_of_plant (hd.post ..)
  · split <;> exact linesSound_of_plant (hd.place ..)

theorem LinesSound.entryMove {s : State} (hs : LinesSound s) (p : Port) (q : Half × Word) :
    LinesSound (moveWork p q s).1 := by
  unfold moveWork
  split
  · exact hs.movePending _ q.2
  · split <;> exact hs

theorem LinesSound.entryRead {s : State} (hs : LinesSound s) (p : Port) (tag : Half) :
    LinesSound (entryReadWork p tag s).1 := by
  unfold entryReadWork
  split <;> exact hs

theorem LinesSound.tallyCas {s : State} (hs : LinesSound s) (q : TallyId × Word × Word) :
    LinesSound (casWork q s).1 := by
  unfold casWork
  split
  · exact hs.changeTally ..
  · exact hs

/-! ### Lines -/

/-- A mode is set on a line that is not PROBING (R82). -/
theorem not_probing_of_modeRefusal {s : State} {r : Request} {l : LineId} (h : modeRefusal s r l = none)
    (k : ProbeRec) : (s.plant.line l).state ≠ .probing k := by
  intro hk
  unfold modeRefusal at h
  split at h
  · nomatch h
  · rw [if_pos ((isProbing_iff _).mpr ⟨k, hk⟩)] at h
    nomatch h

theorem LinesSound.lineMode {s : State} (hs : LinesSound s) (r : Request) (q : LineId × Mode) :
    LinesSound (modeWork r q s).1 := by
  unfold modeWork
  split
  · exact hs
  · next h =>
    exact linesSound_of_plant (hs.setLine ((hs.line q.1).setMode (not_probing_of_modeRefusal h) q.2))

theorem LinesSound.waveRestart {s : State} (hs : LinesSound s) (r : Request) (l : LineId) :
    LinesSound (restartWork r l s).1 := by
  unfold restartWork
  split
  · exact hs
  · split
    · exact linesSound_of_plant (hs.rewind ..)
    · exact hs

/-- A probe starts on a line in DRIVE (R151). -/
theorem drive_of_probeRefusal {s : State} {r : Request} {l : LineId} (h : probeRefusal s r l = none) :
    (s.plant.line l).mode = .drive := by
  unfold probeRefusal at h
  split at h
  · nomatch h
  · split at h
    · next hc => exact hc.2
    · nomatch h

theorem LinesSound.lineProbe {s : State} (hs : LinesSound s) (r : Request) (l : LineId) :
    LinesSound (probeWork r l s).1 := by
  unfold probeWork
  split
  · exact hs
  · next h =>
    exact linesSound_onPlant (hs.setLine ((hs.line l).rest_probing true (drive_of_probeRefusal h) le_rfl))

/-! ### Leases -/

/-- A lease is taken of a LEASED line at a level within its ceiling (R108). -/
theorem leased_of_takeRefusal {s : State} {r : Request} {l : LineId} (h : takeRefusal s r l = none) :
    (s.table.lines.get l).kind = .leased ∧ s.effective r ≤ (s.table.lines.get l).ceiling := by
  unfold takeRefusal at h
  dsimp only at h
  split at h
  · nomatch h
  · next hk =>
    split at h
    · nomatch h
    · next hc => exact ⟨hk, not_lt.mp hc⟩

/-- A LEASE_TAKE asks for a term of 10 to 60000 ms (R108). -/
theorem term_of_parseTake {body : List Byte} {q : LineId × Half} (h : parseTake body = some q) :
    10 ≤ q.2.toNat ∧ q.2.toNat ≤ 60000 := by
  unfold parseTake at h
  split at h
  · split at h
    · split at h
      · next hterm => cases h; exact hterm
      · nomatch h
    · nomatch h
  · nomatch h

theorem State.grants_fresh {s : State} {r : Request} {q : LineId × Half} (ht : Taken 0x40#8 r s)
    (ho : s.device = .operating) (hq : parseTake r.body = some q) (h : takeRefusal s r q.1 = none) :
    s.Grants q.1 (Lease.fresh r.port (s.effective r) q.2) := by
  obtain ⟨hkind, hceiling⟩ := leased_of_takeRefusal h
  obtain ⟨hshortest, hlongest⟩ := term_of_parseTake hq
  exact ⟨rstnLow_of_hears ht.heard, ho, hkind, hceiling, le_max_left .., hshortest, hlongest, le_rfl⟩

theorem LinesSound.leaseTake {s : State} (hs : LinesSound s) {r : Request} {q : LineId × Half}
    (ht : Taken 0x40#8 r s) (ho : s.device = .operating) (hq : parseTake r.body = some q) :
    LinesSound (takeWork r q s).1 := by
  unfold takeWork
  split
  · exact hs
  · next h => exact linesSound_of_plant (hs.take q.1 (State.grants_fresh ht ho hq h))

theorem Line.leaseOf_eq_some {p : Port} {x : Line} {k : Lease} (h : x.leaseOf p = some k) :
    x.lease = some k := by
  unfold Line.leaseOf at h
  split at h
  · next k' hk =>
    split at h
    · exact hk.trans h
    · nomatch h
  · nomatch h

theorem LinesSound.leaseRenew {s : State} (hs : LinesSound s) (p : Port) (q : Option LineId) :
    LinesSound (renewWork p q s).1 := by
  unfold renewWork
  split
  · next l =>
    split
    · next k hk =>
      have hgrants := (hs.line l).lease k (Line.leaseOf_eq_some hk)
      exact linesSound_onPlant (hs.setLease l hgrants.renew)
    · exact hs
  · exact linesSound_of_plant (hs.updAll fun _ _ hx => hx.renewIf p fun _ hk => hk.renew)

theorem LinesSound.leaseRelease {s : State} (hs : LinesSound s) (p : Port) (l : LineId) :
    LinesSound (releaseWork p l s).1 := by
  unfold releaseWork
  split
  · exact linesSound_onPlant (hs.releaseLease ..)
  · exact hs

/-! ## Commands that are no request -/

theorem linesSound_inReset (straps : Vector Level 4) (pending : List Instr) (f : Nat) :
    LinesSound (State.inReset straps pending f) := by
  refine ⟨fun l => ?_⟩
  have hline : (State.inReset straps pending f).plant.line l = Line.reset := replicate_get ..
  rw [hline]
  exact ⟨nofun, nofun, nofun⟩

theorem LinesSound.rstnRise {s t : State} (hs : LinesSound s) (h : execRstnRise s = .next t) :
    LinesSound t := by
  obtain rfl := Host.Outcome.next.inj h
  split
  · next hr => exact hs.legal_of_idle (.inl hr) _
  · exact hs

theorem LinesSound.tickCommand {s t : State} (hs : LinesSound s) (h : execTick s = .next t) :
    LinesSound t := by
  obtain rfl := Host.Outcome.next.inj h
  split
  · exact (hs.passed _).boundary
  · exact hs

theorem LinesSound.captureEdge {s t : State} (hs : LinesSound s) {c : Channel} {dir : Edge} {after : Nat}
    (h : execCaptureEdge c dir after s = .next t) : LinesSound t := by
  obtain rfl := Host.Outcome.next.inj h
  have hp := hs.passed after
  have hsample : LinesSound ((s.passed after).sample c dir) := linesSound_of_plant hp
  split
  · exact hs
  · dsimp only
    split
    · split
      · exact hsample.acceptEdge c dir
      · exact hsample
    · exact hp

theorem LinesSound.undecodedRequest {s t : State} (hs : LinesSound s) {p : Port} {wire : Wire}
    (h : execUndecodedRequest p wire s = .next t) : LinesSound t := by
  obtain rfl := Host.Outcome.next.inj h
  split
  · split
    · exact hs.setPort p rfl
    · exact hs
  · exact hs

theorem LinesSound.transactionBegin {s t : State} (hs : LinesSound s) {fall : Fall}
    (h : execTransactionBegin fall s = .next t) : LinesSound t := by
  obtain rfl := Host.Outcome.next.inj h
  split
  · exact hs
  · exact hs.setPort fall.port rfl

/-! ## The step -/

/-- Every command keeps the lines legal. -/
theorem LinesSound.of_exec {s : State} (hs : LinesSound s) : ∀ i t, exec i s = .next t → LinesSound t
  | .nop _, _, rfl => hs.of_serve_readOnly
  | .identify _, _, rfl => hs.of_serve_readOnly
  | .status _, _, rfl => hs.of_serve_readOnly
  | .noticeRead _, _, rfl => hs.of_serve_work fun u => hs.noticeRead _ u
  | .portReset _, _, rfl => hs.of_serve_work fun u => hs.portReset _ u
  | .subscribe r, _, rfl => hs.of_serve_work fun _ => hs.setPort r.port rfl
  | .configRead _, _, rfl => hs.of_serve_readOnly
  | .configWrite _, _, rfl => hs.of_serve fun q _ _ ha => hs.configWrite (Allowed.setup_of_admits ha) q
  | .endSetup _, _, rfl => hs.of_serve_work fun _ => linesSound_enterOperating ..
  | .tbHold _, _, rfl => hs.of_serve_work fun u => hs.tbHold _ u
  | .tbStart _, _, rfl => hs.of_serve_work fun u => hs.tbStart _ u
  | .schedule _, _, rfl => hs.of_serve_work hs.schedule
  | .cancel _, _, rfl => hs.of_serve_work fun tag => LinesSound.cancel hs _ tag
  | .entryMove _, _, rfl => hs.of_serve_work fun q => hs.entryMove _ q
  | .entryRead _, _, rfl => hs.of_serve_work fun tag => hs.entryRead _ tag
  | .lineMode r, _, rfl => hs.of_serve_work fun q => hs.lineMode r q
  | .lineRead _ _, _, rfl => hs.of_serve_readOnly
  | .waveRestart r, _, rfl => hs.of_serve_work fun l => hs.waveRestart r l
  | .lineProbe r, _, rfl => hs.of_serve_work fun l => hs.lineProbe r l
  | .leaseTake _, _, rfl =>
      hs.of_serve fun _ hq ht ha => hs.leaseTake ht (Allowed.operating_of_admits ha) hq
  | .leaseRenew _, _, rfl => hs.of_serve_work fun q => hs.leaseRenew _ q
  | .leaseRelease _, _, rfl => hs.of_serve_work fun l => hs.leaseRelease _ l
  | .leaseRead _, _, rfl => hs.of_serve_readOnly
  | .captureRead _, _, rfl => hs.of_serve_readOnly
  | .tallyRead _, _, rfl => hs.of_serve_readOnly
  | .tallyAdd _, _, rfl => hs.of_serve_work fun _ => hs.changeTally ..
  | .tallySwap _, _, rfl => hs.of_serve_work fun _ => hs.changeTally ..
  | .tallyCas _, _, rfl => hs.of_serve_work hs.tallyCas
  | .undecodedRequest _ _, _, h => hs.undecodedRequest h
  | .deviceReset _ _, _, rfl => linesSound_inReset ..
  | .rstnRise, _, h => hs.rstnRise h
  | .tick, _, h => hs.tickCommand h
  | .captureEdge _ _ _, _, h => hs.captureEdge h
  | .pulseEnd l, _, rfl => linesSound_onPlant (hs.pulseEnd l)
  | .periodEnd l, _, rfl => linesSound_onPlant (hs.periodEnd l)
  | .holdTimerExpiry, _, rfl => hs.holdExpiry
  | .lapse l, _, rfl => LinesSound.lapse hs l
  | .phaseAEnd l b, _, rfl => hs.phaseAEnd l b
  | .phaseBEnd l b, _, rfl => hs.phaseBEnd l b
  | .setupWindowExpiry, _, rfl => hs.windowExpiry
  | .transactionBegin _, _, h => hs.transactionBegin h

/-- Settles O55: every command, and RC on an empty queue, keeps the lines legal. -/
theorem linesAndLeasesStayLegal : Obligations.LinesAndLeasesStayLegal := by
  intro s t hlines hleases hstep
  have hs : LinesSound s := (linesSound_iff s).mpr ⟨hlines, hleases⟩
  refine (linesSound_iff t).mp ?_
  unfold step at hstep
  split at hstep
  · next c cs _ =>
    have hcs : LinesSound { s with pending := cs } := linesSound_of_plant hs
    exact hcs.of_exec c t hstep
  · cases hstep
    exact hs.idle

end Sys2Proof.Machine
end

section
/-! PROOF of O44 to O48. The end of a lease on the plant; LEASE_TAKE, LEASE_RENEW, LEASE_RELEASE and LAPSE by what
they find on the line: no lease, a lease of the requester, a lease of another port. -/

namespace Sys2Proof.Machine

/-! ## The end of a lease (R113, R114) -/

theorem Plant.line_vacate (w : Plant) (p : Port) (l m : LineId) (b : Bool) :
    (w.vacate p l b).line m = if m = l then (w.line l).vacate b else w.line m :=
  w.line_setLine l m (Line.vacate b)

/-- Settles O44: the line by its number, the three lists and the rest of the plant as the update gives them. -/
theorem leaseEndVacatesLine : Obligations.LeaseEndVacatesLine :=
  fun w p l level => ⟨fun m => w.line_vacate p l m level, rfl, rfl, rfl, rfl⟩

theorem Line.heldBy_of_lease {p : Port} {x : Line} {k : Lease} (hk : x.lease = some k) (hp : k.holder = p) :
    x.heldBy p = true := (x.heldBy_iff p).mpr ⟨k, hk, hp⟩

/-- A line without a lease of port `p` is not held by it. -/
theorem Line.heldBy_of_other {p : Port} {x : Line} (h : ∀ k, x.lease = some k → k.holder ≠ p) :
    x.heldBy p = false := by
  rw [← Bool.not_eq_true, Line.heldBy_iff]
  exact fun ⟨k, hk, hp⟩ => h k hk hp

/-! ## LEASE_TAKE (R108, R109) -/

section Take
variable {r : Request} {s : State} {l : LineId}

theorem exec_leaseTake {term : Half} (ht : Taken 0x40#8 r s) (ho : s.device = .operating)
    (hshortest : 10 ≤ term.toNat) (hlongest : term.toNat ≤ 60000) (hb : r.body = [lineByte l] ++ halfBytes term)
    {rep : State × Reply} (hw : takeWork r (l, term) s = rep) :
    exec (.leaseTake r) s = .next (rep.1.answer r 0x40#8 rep.2.status rep.2.body) := by
  subst hw
  exact congrArg Host.Outcome.next (serve_operating ht ho (hb ▸ parseTake_bytes l hshortest hlongest))

theorem takeRefusal_of_shared (hk : (s.table.lines.get l).kind = .shared) :
    takeRefusal s r l = some .notLeasable := by
  simp only [takeRefusal, hk]

theorem takeRefusal_of_ceiling (hk : (s.table.lines.get l).kind = .leased)
    (hc : (s.table.lines.get l).ceiling < s.effective r) : takeRefusal s r l = some .noRight := by
  simp only [takeRefusal, hk, hc, if_true]

theorem takeRefusal_of_free (hk : (s.table.lines.get l).kind = .leased)
    (hc : s.effective r ≤ (s.table.lines.get l).ceiling) (hl : (s.plant.line l).lease = none) :
    takeRefusal s r l = none := by
  simp only [takeRefusal, hk, if_neg (not_lt.mpr hc), hl]

/-- A line with a lease: it is the requester's, or it may be preempted, or it is taken. -/
theorem takeRefusal_of_lease (hk : (s.table.lines.get l).kind = .leased)
    (hc : s.effective r ≤ (s.table.lines.get l).ceiling) {k : Lease} (hl : (s.plant.line l).lease = some k) :
    takeRefusal s r l = if k.holder = r.port ∨ mayPreempt (s.table.lines.get l) (s.effective r) k = true
      then none else some .lineTaken := by
  simp only [takeRefusal, hk, if_neg (not_lt.mpr hc), hl]

theorem mayPreempt_iff (c : LineConfig) (v : Level) (k : Lease) :
    mayPreempt c v k = true ↔ c.preemptible = true ∧ v < k.level := by
  simp [mayPreempt]

theorem takeWork_of_refused {st : Status} (h : takeRefusal s r l = some st) (term : Half) :
    takeWork r (l, term) s = (s, refuse st) := by
  simp only [takeWork, h]

theorem takeWork_of_granted (h : takeRefusal s r l = none) {term : Half} {w : Plant} {o : TakeOutcome}
    (hw : s.plant.take l (Lease.fresh r.port (s.effective r) term) = (w, o)) :
    takeWork r (l, term) s = ({ s with plant := w }, ⟨.ok, takeBody (s.effective r) term o⟩) := by
  simp only [takeWork, h, hw]

end Take

section PlantTake
variable {w : Plant} {l : LineId} {k : Lease}

theorem Plant.take_of_free (h : (w.line l).lease = none) (new : Lease) :
    w.take l new = (w.setLease l (some new), .new) := by
  simp only [Plant.take, h]

theorem Plant.take_of_own (h : (w.line l).lease = some k) {new : Lease} (hh : k.holder = new.holder) :
    w.take l new = (w.setLease l (some new), .renewed) := by
  simp only [Plant.take, h, hh, if_true]

theorem Plant.take_of_other (h : (w.line l).lease = some k) {new : Lease} (hh : k.holder ≠ new.holder) :
    w.take l new = (w.preempt k.holder l new, .preempted k.holder (w.leaseEntries k.holder l)) := by
  simp only [Plant.take, h, hh, if_false]

end PlantTake

/-- Settles O45: the tests of R108 in their order, then the line without a lease, with one of the requester and
with one of another port. -/
theorem takeGrantsOrRenews : Obligations.TakeGrantsOrRenews := by
  intro r s l term ht ho hshortest hlongest hb
  have hexec {rep : State × Reply} := exec_leaseTake (rep := rep) ht ho hshortest hlongest hb
  refine ⟨fun hk => hexec (takeWork_of_refused (takeRefusal_of_shared hk) term), fun hk =>
    ⟨fun hc => hexec (takeWork_of_refused (takeRefusal_of_ceiling hk hc) term), fun hc =>
      ⟨fun hl => ?free, fun k hl hh => ?own, fun k hl hh hp => ?other⟩⟩⟩
  case free => exact hexec (takeWork_of_granted (takeRefusal_of_free hk hc hl) (Plant.take_of_free hl _))
  case own =>
    have hgrant : takeRefusal s r l = none := (takeRefusal_of_lease hk hc hl).trans (if_pos (.inl hh))
    exact hexec (takeWork_of_granted hgrant (Plant.take_of_own hl hh))
  case other =>
    have hmay : ¬ mayPreempt (s.table.lines.get l) (s.effective r) k = true := fun hm => by
      obtain ⟨hpre, hlt⟩ := (mayPreempt_iff ..).mp hm
      rcases hp with hp | hp
      · exact Bool.false_ne_true (hp.symm.trans hpre)
      · exact absurd hlt (not_lt.mpr hp)
    have hrefuse : takeRefusal s r l = some .lineTaken :=
      (takeRefusal_of_lease hk hc hl).trans (if_neg (not_or.mpr ⟨hh, hmay⟩))
    exact hexec (takeWork_of_refused hrefuse term)

/-- Settles O46: the preemption test passes, and the take is a `Plant.preempt`. -/
theorem preemptionTakesLine : Obligations.PreemptionTakesLine := by
  rintro r s l term k new level w removed ht ho hshortest hlongest hb hk hc hl hh hpre hlt rfl rfl rfl rfl
  have hgrant : takeRefusal s r l = none :=
    (takeRefusal_of_lease hk hc hl).trans (if_pos (.inr ((mayPreempt_iff ..).mpr ⟨hpre, hlt⟩)))
  exact exec_leaseTake ht ho hshortest hlongest hb (takeWork_of_granted hgrant (Plant.take_of_other hl hh))

/-! ## LEASE_RENEW (R110) -/

theorem exec_leaseRenew {r : Request} {s : State} {q : Option LineId} (ht : Taken 0x41#8 r s)
    (ho : s.device = .operating) (hb : parseRenew r.body = some q) {rep : State × Reply}
    (hw : renewWork r.port q s = rep) :
    exec (.leaseRenew r) s = .next (rep.1.answer r 0x41#8 rep.2.status rep.2.body) := by
  subst hw
  exact congrArg Host.Outcome.next (serve_operating ht ho hb)

/-- A number of no line but 0xFF is refused. -/
theorem parseRenew_of_range {b : Byte} (h : 16 ≤ b.toNat) (h' : b.toNat ≤ 254) : parseRenew [b] = none := by
  have hall : b ≠ 0xFF#8 := by rintro rfl; exact absurd h' (by decide)
  have hline : byteFin 16 b = none := dif_neg (not_lt.mpr h)
  simp [parseRenew, hall, hline]

theorem Line.leaseOf_of_own {p : Port} {x : Line} {k : Lease} (hk : x.lease = some k) (hp : k.holder = p) :
    x.leaseOf p = some k := by
  simp only [Line.leaseOf, hk, hp, if_true]

theorem Line.leaseOf_of_other {p : Port} {x : Line} (h : ∀ k, x.lease = some k → k.holder ≠ p) :
    x.leaseOf p = none := by
  unfold Line.leaseOf
  split
  · next k hk => exact if_neg (h k hk)
  · rfl

theorem renewWork_of_own {p : Port} {s : State} {l : LineId} {k : Lease}
    (hk : (s.plant.line l).lease = some k) (hp : k.holder = p) :
    renewWork p (some l) s = (s.onPlant (Plant.setLease l (some k.renew)),
      ⟨.ok, [lineByte l, levelByte k.level] ++ halfBytes k.term⟩) := by
  simp only [renewWork, Line.leaseOf_of_own hk hp, lineByte]

theorem renewWork_of_other {p : Port} {s : State} {l : LineId}
    (h : ∀ k, (s.plant.line l).lease = some k → k.holder ≠ p) :
    renewWork p (some l) s = (s, refuse .notHolder) := by
  simp only [renewWork, Line.leaseOf_of_other h]

/-- Every lease of `p` starts again at its term; the others and the lines without one stay. -/
theorem Line.renewIf_eq (p : Port) (x : Line) : x.renewIf p = { x with
    lease := x.lease.map fun k => if k.holder = p then k.renew else k } := by
  obtain ⟨level, mode, state, lease⟩ := x
  cases lease with
  | none => rfl
  | some k => by_cases hp : k.holder = p <;> simp [Line.renewIf, Line.heldBy, hp]

/-- The plant with every lease of `p` renewed (R110). -/
def Plant.renewAll (p : Port) (w : Plant) : Plant := { w with lines := updAll w.lines fun _ => Line.renewIf p }

theorem Plant.line_renewAll (w : Plant) (p : Port) (l : LineId) : (w.renewAll p).line l = { w.line l with
    lease := (w.line l).lease.map fun k => if k.holder = p then k.renew else k } :=
  (w.line_updAll _ l).trans (Line.renewIf_eq ..)

theorem renewWork_of_all (p : Port) (s : State) :
    renewWork p none s = (s.onPlant (Plant.renewAll p), ⟨.ok, [natByte (s.plant.leaseCount p)]⟩) := rfl

/-- Settles O47: the two device states, and in OPERATING the three kinds of operand. -/
theorem renewRestartsTerm : Obligations.RenewRestartsTerm := by
  intro r s ht
  refine ⟨fun hd => ?setup, fun ho => ⟨fun l hb => ?line, fun b hb h16 h254 => ?noLine, fun hb => ?all⟩⟩
  case setup => exact congrArg Host.Outcome.next (serve_wrongState ht.heard ht.fits (by rw [hd]; rfl))
  case line =>
    have hparse : parseRenew r.body = some (some l) := hb ▸ parseRenew_lineByte l
    exact ⟨fun k hk hp => exec_leaseRenew ht ho hparse (renewWork_of_own hk hp),
      fun h => exec_leaseRenew ht ho hparse (renewWork_of_other h)⟩
  case noLine =>
    have hparse : parseRenew r.body = none := hb ▸ parseRenew_of_range h16 h254
    exact congrArg Host.Outcome.next
      (serve_badField ht.heard ht.fits (by rw [ho]; rfl) (passes_noLimit r s) (.inr hparse))
  case all =>
    have hparse : parseRenew r.body = some none := by rw [hb]; rfl
    exact ⟨s.plant.renewAll r.port, exec_leaseRenew ht ho hparse (renewWork_of_all r.port s), rfl,
      fun l => s.plant.line_renewAll r.port l⟩

/-! ## LEASE_RELEASE and LAPSE (R111, R116) -/

theorem exec_leaseRelease {r : Request} {s : State} {l : LineId} (ht : Taken 0x42#8 r s)
    (ho : s.device = .operating) (hb : r.body = [lineByte l]) {rep : State × Reply}
    (hw : releaseWork r.port l s = rep) :
    exec (.leaseRelease r) s = .next (rep.1.answer r 0x42#8 rep.2.status rep.2.body) := by
  subst hw
  exact congrArg Host.Outcome.next (serve_operating ht ho (hb ▸ parseNumber_lineByte l))

theorem State.lapse_of_ended {s : State} {l : LineId} {k : Lease} (hk : (s.plant.line l).lease = some k)
    (hz : k.remaining = 0) : s.lapse l = s.onPlant (Plant.lapse k.holder l (s.fallback l)) := by
  simp only [State.lapse, hk, hz, if_true]

/-- Settles O48: a release by the holder and by another port; a LAPSE with time left and with none. -/
theorem releaseAndLapseEndLease : Obligations.ReleaseAndLapseEndLease := by
  refine ⟨fun r s l ht ho hb => ⟨fun ⟨k, hk, hp⟩ => ?_, fun h => ?_⟩, fun s l =>
    ⟨fun h => congrArg Host.Outcome.next (State.lapse_of_remaining h), ?_⟩⟩
  · exact exec_leaseRelease ht ho hb (if_pos (Line.heldBy_of_lease hk hp))
  · exact exec_leaseRelease ht ho hb (if_neg (Bool.eq_false_iff.mp (Line.heldBy_of_other h)))
  · rintro k removed hk hz rfl
    exact congrArg Host.Outcome.next (State.lapse_of_ended hk hz)

end Sys2Proof.Machine
end

section
/-! PROOF of O59, first part. A property of entries that a completion, a repeat and a placement keep is kept of every
live entry by each operation of the plant that hands it no other entry: R56 to R58 change a late mark, the
executions left and a threshold, never an owner or a line. -/

namespace Sys2Proof.Machine

/-! ## Properties of live entries -/

/-- What a completion (R56), the repeat of a COUNT entry (R58) and a placement (R46) change of an entry, `P` does
not see. -/
structure Entry.Lasting (P : Entry → Prop) : Prop where
  completed : ∀ {e}, P e → P e.completed
  raised    : ∀ {e t h o}, e.trigger = .count t h o → P e → ∀ h', P { e with trigger := .count t h' o }
  marked    : ∀ {e}, P e → ∀ late, P { e with lateMark := late }

/-- Every live entry, in whichever list it stands, has the property. -/
structure Plant.EachLive (P : Entry → Prop) (w : Plant) : Prop where
  armed    : ∀ x ∈ w.armed, P x.entry
  timeline : ∀ x ∈ w.timeline, P x.entry
  pulsing  : ∀ x ∈ w.pulsing, P x.entry

theorem Plant.eachLive_iff (P : Entry → Prop) (w : Plant) : w.EachLive P ↔ ∀ e ∈ w.live, P e := by
  simp only [Plant.live, List.mem_append, List.mem_map]
  refine ⟨fun h e he => ?_, fun h => ⟨fun x hx => h _ (.inl (.inl ⟨x, hx, rfl⟩)),
    fun x hx => h _ (.inl (.inr ⟨x, hx, rfl⟩)), fun x hx => h _ (.inr ⟨x, hx, rfl⟩)⟩⟩
  rcases he with (⟨x, hx, rfl⟩ | ⟨x, hx, rfl⟩) | ⟨x, hx, rfl⟩
  · exact h.armed x hx
  · exact h.timeline x hx
  · exact h.pulsing x hx

theorem Entry.Lasting.placeDue {P : Entry → Prop} (hP : Entry.Lasting P) {e : Entry} (he : P e) (tc due : Word) :
    P (placeDue tc due e).entry := by
  unfold Machine.placeDue
  split
  · exact hP.marked he true
  · exact hP.marked he false

namespace Plant.EachLive
variable {P Q : Entry → Prop} {w w' : Plant}

theorem of_nil (h : w.live = []) (P : Entry → Prop) : w.EachLive P := by
  rw [Plant.eachLive_iff, h]
  exact nofun

theorem of_lists (h : w.EachLive P) (ha : w'.armed = w.armed) (ht : w'.timeline = w.timeline)
    (hp : w'.pulsing = w.pulsing) : w'.EachLive P :=
  ⟨ha ▸ h.armed, ht ▸ h.timeline, hp ▸ h.pulsing⟩

theorem imp (h : w.EachLive P) (hPQ : ∀ e, P e → Q e) : w.EachLive Q :=
  ⟨fun x hx => hPQ _ (h.armed x hx), fun x hx => hPQ _ (h.timeline x hx),
    fun x hx => hPQ _ (h.pulsing x hx)⟩

/-! ### Lists -/

theorem setLine (h : w.EachLive P) (l : LineId) (f : Line → Line) : (w.setLine l f).EachLive P :=
  h.of_lists rfl rfl rfl

theorem post (h : w.EachLive P) (p : Port) (b : Byte) (t : Half) (d : Detail) : (w.post p b t d).EachLive P :=
  h.of_lists rfl rfl rfl

theorem postIf (h : w.EachLive P) (c : Bool) (p : Port) (b : Byte) (t : Half) (d : Detail) :
    (w.postIf c p b t d).EachLive P := h.of_lists (by simp) (by simp) (by simp)

theorem settleHold (h : w.EachLive P) : w.settleHold.EachLive P := h.of_lists (by simp) (by simp) (by simp)

theorem countTick (h : w.EachLive P) : w.countTick.EachLive P := h.of_lists rfl rfl rfl

/-- What stays in the pool has the property, and was not picked. -/
theorem drop (h : w.EachLive P) {f : Entry → Bool} (hQ : ∀ e, P e → f e = false → Q e) :
    (w.drop f).EachLive Q := by
  have stays : ∀ {e}, P e → (!f e) = true → Q e := fun he hf => hQ _ he (Bool.not_eq_true' _ ▸ hf)
  refine ⟨fun x hx => ?_, fun x hx => ?_, fun x hx => ?_⟩ <;> obtain ⟨hx, hf⟩ := List.mem_filter.mp hx
  · exact stays (h.armed x hx) hf
  · exact stays (h.timeline x hx) hf
  · exact stays (h.pulsing x hx) hf

theorem dropArmed (h : w.EachLive P) (p : Port) (tag : Half) : (w.dropArmed p tag).EachLive P :=
  ⟨fun x hx => h.armed x (List.mem_of_mem_filter hx), h.timeline, h.pulsing⟩

theorem dropPending (h : w.EachLive P) (p : Port) (tag : Half) : (w.dropPending p tag).EachLive P :=
  ⟨h.armed, fun x hx => h.timeline x (List.mem_of_mem_filter hx), h.pulsing⟩

theorem dropPulsing (h : w.EachLive P) (p : Port) (tag : Half) : (w.dropPulsing p tag).EachLive P :=
  ⟨h.armed, h.timeline, fun x hx => h.pulsing x (List.mem_of_mem_filter hx)⟩

theorem insert (h : w.EachLive P) {x : Timed} (hx : P x.entry) : (w.insert x).EachLive P := by
  refine ⟨h.armed, fun y hy => ?_, h.pulsing⟩
  rcases mem_insertTimed.mp hy with rfl | hy
  · exact hx
  · exact h.timeline y hy

theorem arm (h : w.EachLive P) {x : Waiting} (hx : P x.entry) : (w.arm x).EachLive P := by
  refine ⟨fun y hy => ?_, h.timeline, h.pulsing⟩
  rcases List.mem_append.mp hy with hy | hy
  · exact h.armed y hy
  · exact List.mem_singleton.mp hy ▸ hx

theorem foldl {α : Type} {f : Plant → α → Plant} {xs : List α}
    (hf : ∀ w x, x ∈ xs → w.EachLive P → (f w x).EachLive P) (h : w.EachLive P) :
    (xs.foldl f w).EachLive P := by
  induction xs generalizing w with
  | nil => exact h
  | cons x xs ih =>
    exact ih (fun w y hy => hf w y (List.mem_cons_of_mem _ hy)) (hf w x List.mem_cons_self h)

/-! ### Generators -/

theorem applyLoad (h : w.EachLive P) (l : LineId) (ld : Load) (c : ApplyCause) :
    (w.applyLoad l ld c).EachLive P := (h.setLine ..).postIf ..

theorem rewind (h : w.EachLive P) (l : LineId) (g : Generator) (c : ApplyCause) : (w.rewind l g c).EachLive P := by
  unfold Plant.rewind
  split
  · exact h.applyLoad ..
  · exact h.setLine ..

theorem countGenerator (h : w.EachLive P) (l : LineId) (g : Generator) : (w.countGenerator l g).EachLive P := by
  unfold Plant.countGenerator
  split
  · exact h
  · split
    · exact h.setLine ..
    · exact h.rewind ..

theorem stage (h : w.EachLive P) (l : LineId) (g : Generator) (ld : Load) : (w.stage l g ld).EachLive P := by
  unfold Plant.stage
  split
  · exact h.applyLoad ..
  · exact h.setLine ..

theorem periodEnd (h : w.EachLive P) (l : LineId) : (w.periodEnd l).EachLive P := by
  unfold Plant.periodEnd
  split
  · split
    · exact h.rewind ..
    · exact h
  · exact h

/-! ### Completions and pulses -/

section Lasting
variable (hP : Entry.Lasting P)
include hP

theorem again (h : w.EachLive P) {x : Timed} (hx : P x.entry) : (w.again x).EachLive P := by
  unfold Plant.again
  dsimp only
  split
  · exact h.insert hx
  · exact h.arm hx
  · next t m o ht => exact h.arm (hP.raised ht hx _)

theorem finish (h : w.EachLive P) (how : Finish) {x : Timed} (hx : P x.entry) : (w.finish how x).EachLive P := by
  have hpost := h.postIf x.entry.notify x.entry.owner x.entry.subject x.entry.tag (how.detail x.entry)
  unfold Plant.finish
  dsimp only
  split
  · exact hpost.again hP (hP.completed hx)
  · exact hpost

/-- The entry that completes is the PULSING one that the pulse left (R77, R80). -/
theorem releasePulse (h : w.EachLive P) (l : LineId) (r : PulseRec) (cut : Option CutCause) :
    (w.releasePulse l r cut).EachLive P := by
  have hl := h.setLine l (Line.rest false .static)
  rcases hx : w.findPulsing r.owner r.tag with _ | x
  · unfold Plant.releasePulse
    simp only [hx]
    exact hl
  · rw [Plant.releasePulse_found hx]
    refine finish hP ?_ _ (h.pulsing x (List.mem_of_find?_eq_some hx))
    cases cut with
    | none => exact hl.dropPulsing ..
    | some c => exact (hl.dropPulsing ..).postIf ..

theorem endPulse (h : w.EachLive P) (l : LineId) (r : PulseRec) : (w.endPulse l r).EachLive P :=
  (h.releasePulse hP l r none).settleHold

theorem pulseEnd (h : w.EachLive P) (l : LineId) : (w.pulseEnd l).EachLive P := by
  unfold Plant.pulseEnd
  split
  · split
    · exact h.endPulse hP ..
    · exact h
  · exact h

theorem cutForTimeout (h : w.EachLive P) (l : LineId) : (w.cutForTimeout l).EachLive P := by
  unfold Plant.cutForTimeout
  split
  · exact h.releasePulse hP ..
  · exact h

theorem holdExpires (h : w.EachLive P) : w.holdExpires.EachLive P := by
  have hcut := h.foldl (xs := allLines) fun _ l _ hw => hw.cutForTimeout hP l
  unfold Plant.holdExpires
  generalize allLines.foldl Plant.cutForTimeout w = v at hcut ⊢
  exact hcut.of_lists rfl rfl rfl

theorem clearLine (h : w.EachLive P) (l : LineId) (p : Port) : (w.clearLine l p).EachLive P := by
  unfold Plant.clearLine
  split
  · exact h
  · exact h.releasePulse hP ..
  · exact h.setLine ..
  · exact (h.setLine ..).post ..

/-! ### Ticks and batches -/

theorem advanceLine (h : w.EachLive P) (l : LineId) : (w.advanceLine l).EachLive P := by
  unfold Plant.advanceLine
  split
  · split
    · exact h.endPulse hP ..
    · exact h.setLine ..
  · exact h.countGenerator ..
  · exact h
  · exact h

theorem advance (h : w.EachLive P) : w.advance.EachLive P := h.foldl fun _ l _ hw => hw.advanceLine hP l

/-- A winner joins the PULSING entries or leaves its entry to its completion (R54, R76). -/
theorem applyWinner (h : w.EachLive P) {x : Timed} (hx : P x.entry) (l : LineId) (a : LineAction) :
    (w.applyWinner x l a).1.EachLive P := by
  have hc := h.clearLine hP l x.entry.owner
  unfold Plant.applyWinner
  cases a with
  | set => exact hc.setLine ..
  | clear => exact hc.setLine ..
  | toggle => exact hc.setLine ..
  | waveStop => exact hc.setLine ..
  | pulse width =>
    refine ⟨hc.armed, hc.timeline, fun y hy => ?_⟩
    rcases List.mem_append.mp hy with hy | hy
    · exact hc.pulsing y hy
    · exact List.mem_singleton.mp hy ▸ hx
  | wave v =>
    dsimp only
    split
    · exact h.stage ..
    · exact hc.setLine ..

theorem runOne (h : w.EachLive P) (arb : Arbitration) (batch : List Timed) {x : Timed} (hx : P x.entry) :
    (w.runOne arb batch x).EachLive P := by
  unfold Plant.runOne
  split
  · exact h.finish hP _ hx
  · next l a _ =>
    have hw := h.applyWinner hP hx l a
    dsimp only
    split
    · split
      · exact hw
      · exact hw.finish hP _ hx
    · exact h.finish hP _ hx

theorem runBatch (h : w.EachLive P) (arb : Arbitration) {batch : List Timed} (hb : ∀ x ∈ batch, P x.entry) :
    (w.runBatch arb batch).EachLive P := h.foldl fun _ x hx hw => hw.runOne hP arb batch (hb x hx)

theorem releaseDue (h : w.EachLive P) (arb : Arbitration) : (w.releaseDue arb).EachLive P :=
  have hrest : Plant.EachLive P { w with timeline := w.timeline.filter fun x => lead w.tc x.due != 0#32 } :=
    ⟨h.armed, fun x hx => h.timeline x (List.mem_of_mem_filter hx), h.pulsing⟩
  hrest.runBatch hP arb fun x hx => h.timeline x (List.mem_of_mem_filter hx)

theorem tick (h : w.EachLive P) (arb : Arbitration) : (w.tick arb).EachLive P := by
  unfold Plant.tick
  split
  · exact (h.countTick.advance hP).releaseDue hP arb
  · exact h.advance hP
  · exact h
  · exact h

theorem start (h : w.EachLive P) (arb : Arbitration) (p : Port) : (w.start arb p).1.EachLive P := by
  have hset : Plant.EachLive P (({ w with holdTimer := none } : Plant).setTimebase .running (.request p)) :=
    h.of_lists rfl rfl rfl
  unfold Plant.start
  split
  · exact hset.releaseDue hP arb
  · exact hset.releaseDue hP arb
  · exact h
  · exact h

theorem paceAdvance (h : w.EachLive P) (pace : Bool) : (w.paceAdvance pace).EachLive P := by
  unfold Plant.paceAdvance
  split
  · exact h.countTick.advance hP
  · exact h

/-! ### Placements and walks -/

theorem place (h : w.EachLive P) (arb : Arbitration) {x : Timed} (hx : P x.entry) : (w.place arb x).EachLive P := by
  unfold Plant.place
  split
  · exact h.runBatch hP arb fun y hy => List.mem_singleton.mp hy ▸ hx
  · exact h.insert hx

theorem release (h : w.EachLive P) (arb : Arbitration) {x : Waiting} (hx : P x.entry) (o : Word) :
    (w.release arb x o).EachLive P := (h.dropArmed x.entry.owner x.entry.tag).place hP arb hx

theorem countDown (h : w.EachLive P) (arb : Arbitration) {x : Waiting} (hx : P x.entry) (o : Word) :
    (w.countDown arb x o).EachLive P := by
  unfold Plant.countDown
  dsimp only
  split
  · exact h.release hP arb hx o
  · refine ⟨fun y hy => ?_, h.timeline, h.pulsing⟩
    obtain ⟨z, hz, rfl⟩ := List.mem_map.mp hy
    split <;> exact h.armed z hz

theorem walkEdge (h : w.EachLive P) (arb : Arbitration) (c : Channel) {snapshot : List Waiting}
    (hsnap : ∀ x ∈ snapshot, P x.entry) : (w.walkEdge arb c snapshot).EachLive P := by
  refine h.foldl fun v x hx hv => ?_
  split
  · split
    · exact hv.countDown hP arb (hsnap x hx) _
    · exact hv
  · exact hv

theorem walkCount (h : w.EachLive P) (arb : Arbitration) (t : TallyId) (v : Word) {snapshot : List Waiting}
    (hsnap : ∀ x ∈ snapshot, P x.entry) : (w.walkCount arb t v snapshot).EachLive P := by
  refine h.foldl fun v x hx hv => ?_
  split
  · split
    · exact hv.release hP arb (hsnap x hx) _
    · exact hv
  · exact hv

theorem claim (h : w.EachLive P) (arb : Arbitration) (c : Channel) {snapshot : List Waiting}
    (hsnap : ∀ x ∈ snapshot, P x.entry) (k : Claim) : (w.claim arb c snapshot k).EachLive P := by
  cases k with
  | tickBatch => exact h.releaseDue hP arb
  | advance => exact h.advance hP
  | walk => exact h.walkEdge hP arb c hsnap
  | count t v => exact h.walkCount hP arb t v hsnap

end Lasting

theorem postEdges (before : Port → Nat) (n : Notice) (ps : List Port) {q : Plant × Nat} (h : q.1.EachLive P) :
    (ps.foldl (fun q p => Plant.postEdge p (before p) n q) q).1.EachLive P := by
  induction ps generalizing q with
  | nil => exact h
  | cons p ps ih => exact ih (h.of_lists rfl rfl rfl)

/-! ### Holds and removals -/

theorem hold (h : w.EachLive P) (p : Port) (timeout : Nat) : (w.hold p timeout).1.EachLive P := by
  unfold Plant.hold
  split
  · split <;> exact h.of_lists rfl rfl rfl
  · exact h

theorem takePulseOf (h : w.EachLive P) (p : Port) (f : Half → Bool) (level : LineId → Bool) :
    (w.takePulseOf p f level).EachLive P := h.of_lists rfl rfl rfl

theorem cancel (h : w.EachLive P) (p : Port) (tag : Half) : (w.cancel p tag).EachLive P :=
  ((h.takePulseOf ..).drop fun _ he _ => he).settleHold

theorem cancelAll (h : w.EachLive P) (p : Port) : (w.cancelAll p).EachLive P :=
  ((h.takePulseOf ..).drop fun _ he _ => he).settleHold

/-- A PORT_RESET leaves no entry of its port (R171 step 2). -/
theorem resetPort (h : w.EachLive P) (p : Port) (fallback : LineId → Bool) :
    (w.resetPort p fallback).EachLive fun e => P e ∧ e.owner ≠ p := by
  have hdrop : (w.drop fun e => e.owner == p).EachLive fun e => P e ∧ e.owner ≠ p :=
    h.drop fun _ he hf => ⟨he, beq_eq_false_iff_ne.mp hf⟩
  unfold Plant.resetPort
  exact settleHold (hdrop.of_lists rfl rfl rfl)

end Plant.EachLive

end Sys2Proof.Machine
end

section
/-! PROOF of O59, second part. An entry on a LEASED line is scheduled by the line's holder alone (R45, R67), and
the end of a lease takes the former holder's entries on the line with it (R114), so that a line without a holder,
and a line that changes hands, has no entry on it. Every other event, request and command leaves each line with its
holder and each entry with its owner and its line. -/

namespace Sys2Proof.Machine

/-! ## Leases and entries of a state -/

/-- What R106 asks of an entry. -/
def State.Permits (s : State) (e : Entry) : Prop :=
  ∀ l, e.line? = some l → (s.table.lines.get l).kind = .leased → (s.plant.line l).heldBy e.owner = true

/-- Owner and line are all that R106 looks at. -/
theorem State.lasting_permits (s : State) : Entry.Lasting s.Permits :=
  ⟨fun h => h, fun _ h _ => h, fun h _ => h⟩

/-- Where the owner of an entry keeps the lines it holds, the entry stays permitted. -/
theorem State.Permits.of_held {s t : State} {e : Entry} (h : s.Permits e) (hl : t.table.lines = s.table.lines)
    (hh : ∀ l, e.line? = some l → (s.plant.line l).heldBy e.owner = true →
      (t.plant.line l).heldBy e.owner = true) : t.Permits e :=
  fun l he hk => hh l he (h l he (hl ▸ hk))

/-- The invariant of O59. -/
structure LeaseSound (s : State) : Prop where
  setup   : SetupEmpty s
  leases  : ∀ l k, (s.plant.line l).lease = some k → s.Grants l k
  entries : s.plant.EachLive s.Permits

theorem leaseSound_iff (s : State) :
    LeaseSound s ↔ SetupEmpty s ∧ LeasesLegal s ∧ EntriesUnderLease s := by
  have hentries : s.plant.EachLive s.Permits ↔ EntriesUnderLease s := Plant.eachLive_iff ..
  refine ⟨fun h => ⟨h.setup, fun l k hk => ?_, hentries.mp h.entries⟩,
    fun ⟨hsetup, hleases, hunder⟩ => ⟨hsetup, fun l k hk => ?_, hentries.mpr hunder⟩⟩
  · obtain ⟨h1, h2, h3, h4, h5, h6, h7, h8⟩ := h.leases l k hk
    exact ⟨h1, h2, h3, h4, h5, h6, h7, h8⟩
  · obtain ⟨h1, h2, h3, h4, h5, h6, h7, h8⟩ := hleases l k hk
    exact ⟨h1, h2, h3, h4, h5, h6, h7, h8⟩

theorem Line.heldBy_congr {x y : Line} (h : y.lease = x.lease) (p : Port) : y.heldBy p = x.heldBy p := by
  unfold Line.heldBy; rw [h]

namespace LeaseSound
variable {s t : State}

theorem live_of_setup (hs : LeaseSound s) (hd : s.device = .setup) : s.plant.live = [] := (hs.setup.2 hd).1

theorem off_of_setup (hs : LeaseSound s) (hd : s.device = .setup) : s.plant.timebase = .off := (hs.setup.2 hd).2

/-- In SETUP the pool is sound as well, being empty. -/
theorem pool_of_setup (hs : LeaseSound s) (hd : s.device = .setup) : PoolSound s :=
  poolSound_of_empty hd (hs.off_of_setup hd) ((Plant.live_eq_nil_iff _).mp (hs.live_of_setup hd))

/-- In SETUP no lease exists. -/
theorem lease_of_setup (hs : LeaseSound s) (hd : s.device = .setup) (l : LineId) : (s.plant.line l).lease = none :=
  Option.eq_none_iff_forall_ne_some.mpr fun k hk => nomatch hd.symm.trans (hs.leases l k hk).operating

/-- An entry names no LEASED line that has no holder. -/
theorem line_ne_of_free {e : Entry} {l : LineId} (he : s.Permits e) (hk : (s.table.lines.get l).kind = .leased)
    (hl : (s.plant.line l).lease = none) : e.line? ≠ some l := by
  intro hline
  obtain ⟨k, hk', -⟩ := (Line.heldBy_iff ..).mp (he l hline hk)
  nomatch hl.symm.trans hk'

/-- The leases are judged anew against the same ground, and the entries against the new lines; in SETUP the pool
stays empty. -/
theorem of_ground (hs : LeaseSound s) (hg : s.SameGround t) (hpool : s.device = .setup → PoolSound t)
    (hleases : ∀ l k, (t.plant.line l).lease = some k → s.Grants l k) (hentries : t.plant.EachLive t.Permits) :
    LeaseSound t := by
  refine ⟨⟨fun hr => ?_, fun hd => ?_⟩, fun l k hk => (hleases l k hk).of_ground hg, hentries⟩
  · exact hg.device.trans (hs.setup.1 (hg.rstnLow ▸ hr))
  · exact (hpool (hg.device ▸ hd)).1.2 hd

/-- Every line keeps its lease, and live entries are those that were permitted. -/
theorem of_sameLeases (hs : LeaseSound s) (hg : s.SameGround t) (hpool : s.device = .setup → PoolSound t)
    (hlease : ∀ l, (t.plant.line l).lease = (s.plant.line l).lease) (hentries : t.plant.EachLive s.Permits) :
    LeaseSound t :=
  hs.of_ground hg hpool (fun l k hk => hs.leases l k (hlease l ▸ hk)) (hentries.imp fun e he =>
    he.of_held hg.lines fun l _ hheld => (Line.heldBy_congr (hlease l) e.owner).trans hheld)

/-- Leases stay, and no name joins the pool. -/
theorem of_sheds (hs : LeaseSound s) (h : s.Sheds t)
    (hlease : ∀ l, (t.plant.line l).lease = (s.plant.line l).lease) (hentries : t.plant.EachLive s.Permits)
    (hl : t.table.lines = s.table.lines := by rfl) (hp : t.ports = s.ports := by rfl) : LeaseSound t :=
  hs.of_sameLeases ⟨h.rstnLow, h.device, hl, fun p => by rw [State.port, hp, State.port]⟩
    (fun hd => (hs.pool_of_setup hd).of_sheds h) hlease hentries

/-- Leases stay, and in OPERATING the pool is free. -/
theorem of_operating (hs : LeaseSound s) (ho : s.device = .operating)
    (hlease : ∀ l, (t.plant.line l).lease = (s.plant.line l).lease) (hentries : t.plant.EachLive s.Permits)
    (hr : t.rstnLow = s.rstnLow := by rfl) (hd : t.device = s.device := by rfl)
    (hl : t.table.lines = s.table.lines := by rfl) (hp : t.ports = s.ports := by rfl) : LeaseSound t :=
  hs.of_sameLeases ⟨hr, hd, hl, fun p => by rw [State.port, hp, State.port]⟩
    (fun hd => nomatch ho.symm.trans hd) hlease hentries

/-- Nothing of the plant changes. -/
theorem of_plant (hs : LeaseSound s) (hg : s.SameGround t) (hp : t.plant = s.plant) : LeaseSound t :=
  hs.of_sameLeases hg (fun hd => poolSound_of_empty (hg.device.trans hd) (hp ▸ hs.off_of_setup hd)
    (hp ▸ (Plant.live_eq_nil_iff _).mp (hs.live_of_setup hd))) (fun l => by rw [hp]) (hp ▸ hs.entries)

/-- Line `l` is left without an entry on it, and no other line's lease moves. -/
theorem of_cleared (hs : LeaseSound s) (ho : s.device = .operating) {l : LineId} {w : Plant}
    (hother : ∀ m, m ≠ l → (w.line m).lease = (s.plant.line m).lease)
    (hlease : ∀ k, (w.line l).lease = some k → s.Grants l k)
    (hentries : w.EachLive fun e => s.Permits e ∧ e.line? ≠ some l) : LeaseSound { s with plant := w } := by
  refine hs.of_ground ⟨rfl, rfl, rfl, fun _ => rfl⟩ (fun hd => nomatch ho.symm.trans hd) (fun m k hk => ?_)
    (hentries.imp fun e ⟨he, hne⟩ => he.of_held rfl fun m hm hheld => ?_)
  · by_cases e : m = l
    · subst e; exact hlease k hk
    · exact hs.leases m k (hother m e ▸ hk)
  · have hml : m ≠ l := fun e => hne (e ▸ hm)
    exact (Line.heldBy_congr (hother m hml) e.owner).trans hheld

/-- The end of a lease leaves no entry on its line: those that were there were its holder's (R106, R114). -/
theorem entries_vacate (hs : LeaseSound s) {l : LineId} {k : Lease} (hk : (s.plant.line l).lease = some k)
    (b : Bool) : (s.plant.vacate k.holder l b).EachLive fun e => s.Permits e ∧ e.line? ≠ some l := by
  refine (hs.entries.setLine l (Line.vacate b)).drop fun e he hout => ⟨he, fun hline => ?_⟩
  obtain ⟨k', hk', howner⟩ := (Line.heldBy_iff ..).mp (he l hline (hs.leases l k hk).leased)
  obtain rfl := Option.some.inj (hk.symm.trans hk')
  have hin : ownedOn k.holder l e = true := by simp [ownedOn, howner, Entry.onLine, hline]
  exact Bool.false_ne_true (hout.symm.trans hin)

/-- A lease ends, with whatever follows its end that moves no line and no entry. -/
theorem of_leaseEnd (hs : LeaseSound s) {l : LineId} {k : Lease} (hk : (s.plant.line l).lease = some k) (b : Bool)
    {w : Plant} (hline : ∀ m, w.line m = (s.plant.vacate k.holder l b).line m)
    (hentries : w.EachLive fun e => s.Permits e ∧ e.line? ≠ some l) : LeaseSound { s with plant := w } := by
  refine hs.of_cleared (hs.leases l k hk).operating (fun m hm => ?_) (fun k' hk' => ?_) hentries
  · rw [hline, Plant.line_vacate, if_neg hm]
  · rw [hline, Plant.line_vacate, if_pos rfl] at hk'
    nomatch hk'

/-- A line stays with its holder, under a lease that is granted anew. -/
theorem setLease_own (hs : LeaseSound s) {l : LineId} {k new : Lease} (hk : (s.plant.line l).lease = some k)
    (hh : k.holder = new.holder) (hgrant : s.Grants l new) :
    LeaseSound (s.onPlant (Plant.setLease l (some new))) := by
  have hline : ∀ m, ((s.onPlant (Plant.setLease l (some new))).plant.line m).lease =
      if m = l then some new else (s.plant.line m).lease := fun m => by
    rw [State.onPlant_plant, Plant.setLease, Plant.line_setLine]
    split <;> rfl
  refine hs.of_ground ⟨rfl, rfl, rfl, fun _ => rfl⟩ (fun hd => nomatch hgrant.operating.symm.trans hd)
    (fun m k' hk' => ?_) ((hs.entries.setLine ..).imp fun e he => he.of_held rfl fun m _ hheld => ?_)
  · rw [hline] at hk'
    split at hk'
    · next e => exact e ▸ Option.some.inj hk' ▸ hgrant
    · exact hs.leases m k' hk'
  · obtain ⟨k', hk', howner⟩ := (Line.heldBy_iff ..).mp hheld
    by_cases e : m = l
    · subst e
      obtain rfl := Option.some.inj (hk.symm.trans hk')
      exact Line.heldBy_of_lease ((hline m).trans (if_pos rfl)) (hh.symm.trans howner)
    · exact Line.heldBy_of_lease ((hline m).trans ((if_neg e).trans hk')) howner

end LeaseSound

theorem Plant.lease_setLine {w : Plant} {l : LineId} {f : Line → Line}
    (hf : (f (w.line l)).lease = (w.line l).lease) (m : LineId) :
    ((w.setLine l f).line m).lease = (w.line m).lease := by
  rw [Plant.line_setLine]
  split
  · next e => rw [hf, e]
  · rfl

theorem Plant.lease_of_lines {w w' : Plant} (h : w'.lines = w.lines) (l : LineId) :
    (w'.line l).lease = (w.line l).lease := by rw [Plant.line_of_lines h]

theorem Plant.lease_takePulseOf (w : Plant) (p : Port) (f : Half → Bool) (level : LineId → Bool) (l : LineId) :
    ((w.takePulseOf p f level).line l).lease = (w.line l).lease := by
  rw [Plant.line_takePulseOf]
  split
  · split <;> rfl
  · rfl

theorem Plant.lease_cancel (w : Plant) (p : Port) (tag : Half) (l : LineId) :
    ((w.cancel p tag).line l).lease = (w.line l).lease := by
  rw [Plant.cancel, Plant.settleHold_line, Plant.line_drop, Plant.lease_takePulseOf]

theorem Plant.lease_cancelAll (w : Plant) (p : Port) (l : LineId) :
    ((w.cancelAll p).line l).lease = (w.line l).lease := by
  rw [Plant.cancelAll, Plant.settleHold_line, Plant.line_drop, Plant.lease_takePulseOf]

/-! ## Events of RC -/

namespace LeaseSound
variable {s t : State}

/-- An event of RC under which leases stay. -/
theorem of_takeRc (hs : LeaseSound s) {c : Instr} (h : s.Sheds (s.takeRc c))
    (hlease : ∀ l, ((s.takeRc c).plant.line l).lease = (s.plant.line l).lease)
    (hentries : (s.takeRc c).plant.EachLive s.Permits) : LeaseSound (s.takeRc c) :=
  hs.of_sheds h hlease hentries (congrArg Table.lines (s.takeRc_table c)) (s.takeRc_ports c)

/-- The lines enter OPERATING without a lease, and the pool was empty (R20, R178). -/
theorem enterOperating (hs : LeaseSound s) (hr : s.rstnLow = false) (hd : s.device = .setup) (c : CloseCause) :
    LeaseSound (s.enterOperating c) := by
  refine ⟨⟨fun hl => (nomatch hr.symm.trans hl), nofun⟩, fun l k hk => ?_,
    .of_nil (w := (s.enterOperating c).plant) (hs.live_of_setup hd) _⟩
  rw [State.enterOperating_plant, Plant.line_enter] at hk
  nomatch hk

theorem windowExpiry (hs : LeaseSound s) : LeaseSound s.windowExpiry := by
  unfold State.windowExpiry
  split
  · next h =>
    obtain ⟨hr, hd, -⟩ := h
    exact hs.enterOperating hr hd _
  · exact hs

theorem boundary (hs : LeaseSound s) : LeaseSound s.boundary := by
  unfold State.boundary
  split
  · next h =>
    exact hs.of_operating (State.operating_of_dividing h.1) (s.plant.keeps_tick _).lease
      (hs.entries.tick s.lasting_permits _)
  · exact hs

theorem holdExpiry (hs : LeaseSound s) : LeaseSound s.holdExpiry := by
  have hcut : ∀ l, (s.plant.holdExpires.line l).lease = (s.plant.line l).lease := fun l => by
    rw [Plant.holdExpires_line, Line.cut]
    split <;> rfl
  refine hs.of_takeRc (c := .holdTimerExpiry) s.sheds_holdExpiry ?_ ?_ <;>
    simp only [State.takeRc, State.holdExpiry] <;> split
  · exact hcut
  · exact fun _ => rfl
  · exact hs.entries.holdExpires s.lasting_permits
  · exact hs.entries

/-- A lease that ends leaves its line without a holder and without an entry on it (R113, R114). -/
theorem lapse (hs : LeaseSound s) (l : LineId) : LeaseSound (s.lapse l) := by
  by_cases h : ∀ k, (s.plant.line l).lease = some k → k.remaining ≠ 0
  · rw [State.lapse_of_remaining h]; exact hs
  · push Not at h
    obtain ⟨k, hk, hz⟩ := h
    rw [State.lapse_of_ended hk hz]
    exact hs.of_leaseEnd hk _ (fun m => Plant.settleHold_line _ m) ((hs.entries_vacate hk _).post ..).settleHold

theorem phaseAEnd (hs : LeaseSound s) (l : LineId) (sense : Bool) : LeaseSound (s.phaseAEnd l sense) := by
  refine hs.of_takeRc (c := .phaseAEnd l sense) (s.sheds_phaseAEnd l sense) ?_ ?_ <;>
    simp only [State.takeRc, State.phaseAEnd] <;> split
  · split
    · split
      · exact Plant.lease_setLine rfl
      · exact fun _ => rfl
    · exact fun _ => rfl
  · exact fun _ => rfl
  · split
    · split
      · exact hs.entries.setLine ..
      · exact hs.entries
    · exact hs.entries
  · exact hs.entries

theorem phaseBEnd (hs : LeaseSound s) (l : LineId) (sense : Bool) : LeaseSound (s.phaseBEnd l sense) := by
  refine hs.of_takeRc (c := .phaseBEnd l sense) (s.sheds_phaseBEnd l sense) ?_ ?_ <;>
    simp only [State.takeRc, State.phaseBEnd] <;> split
  · split
    · exact fun _ => rfl
    · split
      · exact Plant.lease_setLine rfl
      · exact fun _ => rfl
  · exact fun _ => rfl
  · split
    · exact hs.entries
    · split
      · exact (hs.entries.setLine ..).post ..
      · exact hs.entries
  · exact hs.entries

/-- Every event that RC brings keeps the entries under their leases. -/
theorem takeRc (hs : LeaseSound s) (c : Instr) : LeaseSound (s.takeRc c) := by
  unfold State.takeRc
  split
  · exact hs.boundary
  · exact hs.windowExpiry
  · exact hs.holdExpiry
  · exact hs.lapse _
  · exact hs.phaseAEnd ..
  · exact hs.phaseBEnd ..
  · exact hs

/-- RC counts leases down, and no line changes hands (R107). -/
theorem runRc (hs : LeaseSound s) (n : Nat) : LeaseSound (s.runRc n) := by
  refine hs.of_ground ⟨rfl, rfl, rfl, fun _ => rfl⟩ (fun hd => (hs.pool_of_setup hd).runRc n) (fun l k hk => ?_)
    (Plant.EachLive.of_lists (hs.entries.imp fun e he => he.of_held rfl fun l _ hheld => ?_) rfl rfl rfl)
  · rw [State.runRc_line] at hk
    obtain ⟨k', hk', rfl⟩ := Option.map_eq_some_iff.mp hk
    exact (hs.leases l k' hk').run n
  · rwa [State.runRc_line, Line.run_heldBy]

theorem passed (hs : LeaseSound s) (n : Nat) : LeaseSound (s.passed n) :=
  State.passed_induction LeaseSound (fun _ n h => h.runRc n) (fun _ c h => h.takeRc c)
    (fun _ _ h => h.of_plant ⟨rfl, rfl, rfl, fun _ => rfl⟩ rfl) n hs

theorem idle (hs : LeaseSound s) : LeaseSound s.idle := by
  unfold State.idle
  split
  · exact hs
  · have h1 : LeaseSound (if s.due = [] then s.runRc 1 else s) := by
      split
      · exact hs.runRc 1
      · exact hs
    dsimp only
    generalize (if s.due = [] then s.runRc 1 else s) = s1 at h1 ⊢
    exact h1.of_plant ⟨rfl, rfl, rfl, fun _ => rfl⟩ rfl

/-! ## Edges and tallies -/

/-- The walks of an edge visit entries that were armed when it was accepted (R132). -/
theorem acceptEdge (hs : LeaseSound s) (ho : s.device = .operating) (c : Channel) (dir : Edge) :
    LeaseSound (s.acceptEdge c dir) := by
  let w := s.plant.paceAdvance (s.table.paces c)
  let order := (shuffle (claims s.table c (raiseBound s.table.tallies c s.tallies) s.plant.armed w)
    s.freeCount).1
  let w' := order.foldl (Plant.claim s.table.arbitration c s.plant.armed) w
  have hpace : s.plant.Keeps w := by
    change s.plant.Keeps (s.plant.paceAdvance (s.table.paces c))
    unfold Plant.paceAdvance
    split
    · exact s.plant.keeps_countTick.trans (Plant.keeps_advance _)
    · exact .refl _
  have hclaims : s.plant.Keeps w' := hpace.trans (.foldl (fun v k => Plant.keeps_claim _ c _ v k) order w)
  have hentries : w'.EachLive s.Permits := Plant.EachLive.foldl
    (fun _ k _ hv => hv.claim s.lasting_permits _ c hs.entries.armed k)
    (hs.entries.paceAdvance s.lasting_permits _)
  refine hs.of_operating ho (fun l => ?_)
    (Plant.EachLive.postEdges (fun p => (s.plant.inbox p).queue.length) _ _ (q := (w', _)) hentries)
  refine (Plant.lease_of_lines ?_ l).trans (hclaims.lease l)
  exact Plant.postEdges_lines (fun p => (s.plant.inbox p).queue.length) _ _ (w', _)

theorem changeTally (hs : LeaseSound s) (n : TallyId) (v : Word) : LeaseSound (s.changeTally n v) :=
  hs.of_sameLeases ⟨rfl, rfl, rfl, fun _ => rfl⟩ (fun hd => (hs.pool_of_setup hd).changeTally n v)
    (s.plant.steady_walkCount ..).lease (hs.entries.walkCount s.lasting_permits _ n v hs.entries.armed)

/-! ## Requests -/

section Serve
variable {α : Type} {kind : Byte} {allowed : Allowed} {limit : State → Option Level}
  {operands : State → Option α} {r : Request}

theorem of_serve {work : α → State → State × Reply} (hs : LeaseSound s)
    (hwork : ∀ a, operands s = some a → Taken kind r s → allowed.admits s.device = true →
      LeaseSound (work a s).1) : LeaseSound (serve kind allowed limit operands work r s) :=
  serve_induction LeaseSound
    (fun t st body ht => ht.of_plant ⟨rfl, rfl, rfl, t.answer_strap r kind st body⟩ rfl) hs hwork

/-- A request whose work keeps the invariant wherever it is reached. -/
theorem of_serve_work {work : α → State → State × Reply} (hs : LeaseSound s)
    (hwork : ∀ a, LeaseSound (work a s).1) : LeaseSound (serve kind allowed limit operands work r s) :=
  hs.of_serve fun a _ _ _ => hwork a

theorem of_serve_operating {work : α → State → State × Reply} (hs : LeaseSound s)
    (hwork : ∀ a, s.device = .operating → LeaseSound (work a s).1) :
    LeaseSound (serve kind .operatingOnly limit operands work r s) :=
  hs.of_serve fun a _ _ ha => hwork a (Allowed.operating_of_admits ha)

theorem of_serve_readOnly {body : State → α → List Byte} (hs : LeaseSound s) :
    LeaseSound (serve kind allowed limit operands (readOnly body) r s) := hs.of_serve_work fun _ => hs

end Serve

/-! ### Ports and setup -/

/-- A change of a port's interface that leaves its strap level. -/
theorem setPort (hs : LeaseSound s) (p : Port) {f : PortState → PortState}
    (hf : (f (s.port p)).strap = (s.port p).strap) : LeaseSound (s.setPort p f) := by
  refine hs.of_plant ⟨rfl, rfl, rfl, fun q => ?_⟩ rfl
  rw [State.port_setPort]
  split
  · next e => rw [hf, e]
  · rfl

theorem noticeRead (hs : LeaseSound s) (p : Port) (u : Unit) : LeaseSound (noticeReadWork p u s).1 :=
  hs.of_sheds ⟨rfl, rfl, rfl, le_rfl, fun _ ho => ho⟩ (fun _ => rfl) (hs.entries.of_lists rfl rfl rfl)

end LeaseSound

/-- A PORT_RESET ends the leases of its port and no other (R171 step 3). -/
theorem Plant.lease_resetPort (w : Plant) (p : Port) (fallback : LineId → Bool) (l : LineId) :
    ((w.resetPort p fallback).line l).lease = if (w.line l).heldBy p then none else (w.line l).lease := by
  have hprobe : ∀ x : Line, (x.abortProbeOf p).lease = x.lease := fun x => by
    unfold Line.abortProbeOf
    split
    · split <;> rfl
    · rfl
  have hpulse := Plant.lease_takePulseOf { w with inboxes := upd w.inboxes p fun _ => ⟨[], false⟩ } p
    (fun _ => true) fallback l
  unfold Plant.resetPort
  rw [Plant.settleHold_line, Plant.line_updAll, hprobe, Plant.line_updAll, Line.endLeaseOf, Plant.line_drop,
    Line.heldBy_congr hpulse]
  split
  · next h => exact (if_pos h).symm
  · next h => exact hpulse.trans (if_neg h).symm

namespace LeaseSound
variable {s t : State}

/-- The entries of other ports stand under leases of other ports (R171). -/
theorem portReset (hs : LeaseSound s) (p : Port) (u : Unit) : LeaseSound (portResetWork p u s).1 := by
  have hreset : LeaseSound (s.onPlant (Plant.resetPort p s.fallback)) := by
    refine hs.of_ground ⟨rfl, rfl, rfl, fun _ => rfl⟩ (fun hd => ?_) (fun l k hk => ?_)
      ((hs.entries.resetPort p s.fallback).imp fun e ⟨he, hne⟩ => he.of_held rfl fun l _ hheld => ?_)
    · exact (hs.pool_of_setup hd).of_sheds
        (State.sheds_onPlant (Plant.names_resetPort_le ..) fun ho => Plant.settleHold_off ho)
    · rw [State.onPlant_plant, Plant.lease_resetPort] at hk
      split at hk
      · nomatch hk
      · exact hs.leases l k hk
    · obtain ⟨k, hk, howner⟩ := (Line.heldBy_iff ..).mp hheld
      have hother : (s.plant.line l).heldBy p = false := Line.heldBy_of_other fun k' hk' hp => by
        obtain rfl := Option.some.inj (hk.symm.trans hk')
        exact hne (howner.symm.trans hp)
      refine (Line.heldBy_congr ?_ e.owner).trans hheld
      rw [State.onPlant_plant, Plant.lease_resetPort, hother]
      rfl
  exact hreset.setPort p rfl

/-- A part in SETUP with an empty pool and no lease is sound, whatever its table and its straps. -/
theorem of_empty (hd : s.device = .setup) (hq : s.plant.live = [] ∧ s.plant.timebase = .off)
    (hl : ∀ l, (s.plant.line l).lease = none) : LeaseSound s :=
  ⟨⟨fun _ => hd, fun _ => hq⟩, fun l _ hk => (nomatch (hl l).symm.trans hk), .of_nil hq.1 _⟩

/-- The table is written in SETUP alone (R175). -/
theorem configWrite (hs : LeaseSound s) (hd : s.device = .setup) (q : ItemWrite) :
    LeaseSound (configWriteWork q s).1 := by
  have hset : LeaseSound (s.setTable q.item q.table) := by
    unfold State.setTable
    split
    · exact of_empty hd (hs.setup.2 hd) fun l => (Plant.lease_setLine rfl l).trans (hs.lease_of_setup hd l)
    · exact of_empty hd (hs.setup.2 hd) (hs.lease_of_setup hd)
  unfold configWriteWork
  split
  · exact hset
  · exact hs

/-! ### Timebase and entries -/

theorem tbHold (hs : LeaseSound s) (ho : s.device = .operating) (p : Port) (u : Unit) :
    LeaseSound (holdWork p u s).1 := by
  refine hs.of_operating ho (Plant.lease_of_lines ?_) (hs.entries.hold p s.table.holdTimeout)
  change (s.plant.hold p s.table.holdTimeout).1.lines = _
  unfold Plant.hold
  split
  · split <;> rfl
  · rfl

theorem tbStart (hs : LeaseSound s) (ho : s.device = .operating) (p : Port) (u : Unit) :
    LeaseSound (startWork p u s).1 := by
  refine hs.of_operating ho (fun l => ?_) (hs.entries.start s.lasting_permits s.table.arbitration p)
  change ((s.plant.start s.table.arbitration p).1.line l).lease = _
  unfold Plant.start
  split
  · exact (Plant.steady_releaseDue ..).lease l
  · exact (Plant.steady_releaseDue ..).lease l
  · rfl
  · rfl

end LeaseSound

/-- An accepted SCHEDULE has passed the test of its right to the line (R45 step 6, R67). -/
theorem permits_of_scheduleRefusal {s : State} {e : Entry} {due : Word} (h : scheduleRefusal s e due = none) :
    s.Permits e := by
  intro l hl hk
  have hright : s.actRefusal e.owner e.level l = none := by
    unfold scheduleRefusal at h
    split at h
    · nomatch h
    · next hok => simpa only [entryRefusal, hl] using hok
  rw [State.actRefusal_of_leased hk] at hright
  by_contra hheld
  rw [if_neg hheld] at hright
  nomatch hright

theorem State.keeps_postEntry (s : State) (e : Entry) (due : Word) : s.plant.Keeps (s.postEntry e due) := by
  unfold State.postEntry
  split
  · exact (Plant.steady_place ..).toKeeps
  · exact .of_lists rfl rfl
  · split
    · exact (Plant.steady_place ..).toKeeps
    · exact .of_lists rfl rfl

/-- A new entry joins the live ones, or is executed at once (R47). -/
theorem Plant.EachLive.postEntry {P : Entry → Prop} {s : State} (h : s.plant.EachLive P) (hP : Entry.Lasting P)
    {e : Entry} (he : P e) (due : Word) : (s.postEntry e due).EachLive P := by
  unfold State.postEntry
  split
  · exact h.place hP _ (hP.placeDue he _ _)
  · exact h.arm he
  · split
    · exact h.place hP _ he
    · exact h.arm he

namespace LeaseSound
variable {s t : State}

theorem schedule (hs : LeaseSound s) (ho : s.device = .operating) (q : Entry × Word) :
    LeaseSound (scheduleWork q s).1 := by
  unfold scheduleWork
  split
  · exact hs
  · next hok =>
    exact hs.of_operating ho (s.keeps_postEntry q.1 q.2).lease
      (hs.entries.postEntry s.lasting_permits (permits_of_scheduleRefusal hok) q.2)

theorem cancel (hs : LeaseSound s) (ho : s.device = .operating) (p : Port) (tag : Half) :
    LeaseSound (cancelWork p tag s).1 := by
  unfold cancelWork
  split
  · exact hs.of_operating ho (s.plant.lease_cancelAll p) (hs.entries.cancelAll p)
  · split
    · exact hs.of_operating ho (s.plant.lease_cancel p tag) (hs.entries.cancel p tag)
    · exact hs

theorem movePending (hs : LeaseSound s) (ho : s.device = .operating) {x : Timed} (hx : x ∈ s.plant.timeline)
    (due : Word) : LeaseSound (movePending x due s).1 := by
  have hrest := hs.entries.dropPending x.entry.owner x.entry.tag
  have hmoved := s.lasting_permits.placeDue (hs.entries.timeline x hx) s.plant.tc due
  unfold Machine.movePending
  dsimp only
  split
  · exact hs.of_operating ho (fun _ => rfl) (hrest.post ..)
  · split <;>
      exact hs.of_operating ho (Plant.steady_place ..).lease (hrest.place s.lasting_permits _ hmoved)

theorem entryMove (hs : LeaseSound s) (ho : s.device = .operating) (p : Port) (q : Half × Word) :
    LeaseSound (moveWork p q s).1 := by
  unfold moveWork
  split
  · next x hx => exact hs.movePending ho (List.mem_of_find?_eq_some hx) q.2
  · split <;> exact hs

theorem entryRead (hs : LeaseSound s) (p : Port) (tag : Half) : LeaseSound (entryReadWork p tag s).1 := by
  unfold entryReadWork
  split <;> exact hs

theorem tallyCas (hs : LeaseSound s) (q : TallyId × Word × Word) : LeaseSound (casWork q s).1 := by
  unfold casWork
  split
  · exact hs.changeTally ..
  · exact hs

/-! ### Lines -/

theorem lineMode (hs : LeaseSound s) (ho : s.device = .operating) (r : Request) (q : LineId × Mode) :
    LeaseSound (modeWork r q s).1 := by
  unfold modeWork
  split
  · exact hs
  · exact hs.of_operating ho (Plant.lease_setLine rfl) (hs.entries.setLine ..)

theorem waveRestart (hs : LeaseSound s) (ho : s.device = .operating) (r : Request) (l : LineId) :
    LeaseSound (restartWork r l s).1 := by
  unfold restartWork
  split
  · exact hs
  · split
    · exact hs.of_operating ho (Plant.steady_rewind ..).lease (hs.entries.rewind ..)
    · exact hs

theorem lineProbe (hs : LeaseSound s) (ho : s.device = .operating) (r : Request) (l : LineId) :
    LeaseSound (probeWork r l s).1 := by
  unfold probeWork
  split
  · exact hs
  · exact hs.of_operating ho (Plant.lease_setLine rfl) (hs.entries.setLine ..)

/-! ### Leases -/

/-- A free line gets a holder, and has no entry on it (R108). -/
theorem take_free (hs : LeaseSound s) {l : LineId} {new : Lease} (hl : (s.plant.line l).lease = none)
    (hgrant : s.Grants l new) : LeaseSound (s.onPlant (Plant.setLease l (some new))) := by
  refine hs.of_cleared hgrant.operating (l := l) (fun m hm => ?_) (fun k hk => ?_)
    ((hs.entries.setLine ..).imp fun e he => ⟨he, line_ne_of_free he hgrant.leased hl⟩)
  · rw [Plant.setLease, Plant.line_setLine, if_neg hm]
  · rw [Plant.setLease, Plant.line_setLine_self] at hk
    exact Option.some.inj hk ▸ hgrant

/-- A line that changes hands leaves its old holder's entries behind (R109, R114). -/
theorem preempt (hs : LeaseSound s) {l : LineId} {k new : Lease} (hk : (s.plant.line l).lease = some k)
    (hgrant : s.Grants l new) : LeaseSound (s.onPlant (Plant.preempt k.holder l new)) := by
  have hline : ∀ m, ((s.plant.preempt k.holder l new).line m).lease =
      if m = l then some new else (s.plant.line m).lease := fun m => by
    rw [Plant.preempt, Plant.settleHold_line, Plant.setLease, Plant.line_setLine]
    split
    · rfl
    · next hm => exact congrArg Line.lease ((s.plant.line_vacate k.holder l m _).trans (if_neg hm))
  refine hs.of_cleared hgrant.operating (l := l) (fun m hm => (hline m).trans (if_neg hm)) (fun k' hk' => ?_)
    (((hs.entries_vacate hk _).post ..).setLine ..).settleHold
  rw [hline, if_pos rfl] at hk'
  exact Option.some.inj hk' ▸ hgrant

theorem leaseTake (hs : LeaseSound s) {r : Request} {q : LineId × Half} (ht : Taken 0x40#8 r s)
    (ho : s.device = .operating) (hq : parseTake r.body = some q) : LeaseSound (takeWork r q s).1 := by
  obtain ⟨l, term⟩ := q
  cases h : takeRefusal s r l with
  | some st => rw [takeWork_of_refused h]; exact hs
  | none =>
    have hgrant := State.grants_fresh ht ho hq h
    cases hl : (s.plant.line l).lease with
    | none => rw [takeWork_of_granted h (Plant.take_of_free hl _)]; exact hs.take_free hl hgrant
    | some k =>
      by_cases hh : k.holder = r.port
      · rw [takeWork_of_granted h (Plant.take_of_own hl hh)]; exact hs.setLease_own hl hh hgrant
      · rw [takeWork_of_granted h (Plant.take_of_other hl hh)]; exact hs.preempt hl hgrant

/-- Renewals change no holder (R110). -/
theorem renewAll (hs : LeaseSound s) (p : Port) : LeaseSound (s.onPlant (Plant.renewAll p)) := by
  have hline : ∀ l, ((s.onPlant (Plant.renewAll p)).plant.line l).lease =
      (s.plant.line l).lease.map fun k => if k.holder = p then k.renew else k := fun l =>
    congrArg Line.lease (s.plant.line_renewAll p l)
  have hpool : s.device = .setup → PoolSound (s.onPlant (Plant.renewAll p)) := fun hd =>
    (hs.pool_of_setup hd).of_sheds ⟨rfl, rfl, rfl, le_rfl, fun _ ho => ho⟩
  refine hs.of_ground ⟨rfl, rfl, rfl, fun _ => rfl⟩ hpool (fun l k hk => ?_)
    (Plant.EachLive.of_lists (hs.entries.imp fun e he => he.of_held rfl fun l _ hheld => ?_) rfl rfl rfl)
  · rw [hline] at hk
    obtain ⟨k', hk', rfl⟩ := Option.map_eq_some_iff.mp hk
    have hgrant := hs.leases l k' hk'
    split
    · exact hgrant.renew
    · exact hgrant
  · obtain ⟨k, hk, howner⟩ := (Line.heldBy_iff ..).mp hheld
    refine Line.heldBy_of_lease ((hline l).trans (congrArg _ hk)) ?_
    dsimp only
    split <;> exact howner

theorem leaseRenew (hs : LeaseSound s) (p : Port) (q : Option LineId) : LeaseSound (renewWork p q s).1 := by
  cases q with
  | none => exact hs.renewAll p
  | some l =>
    by_cases h : ∀ k, (s.plant.line l).lease = some k → k.holder ≠ p
    · rw [renewWork_of_other h]; exact hs
    · push Not at h
      obtain ⟨k, hk, hp⟩ := h
      rw [renewWork_of_own hk hp]
      exact hs.setLease_own hk rfl (hs.leases l k hk).renew

theorem leaseRelease (hs : LeaseSound s) (p : Port) (l : LineId) : LeaseSound (releaseWork p l s).1 := by
  unfold releaseWork
  split
  · next hheld =>
    obtain ⟨k, hk, rfl⟩ := (Line.heldBy_iff ..).mp hheld
    exact hs.of_leaseEnd hk _ (fun m => Plant.settleHold_line _ m) (hs.entries_vacate hk _).settleHold
  · exact hs

/-! ## Commands that are no request -/

theorem inReset (straps : Vector Level 4) (pending : List Instr) (f : Nat) :
    LeaseSound (State.inReset straps pending f) := by
  refine of_empty rfl ⟨rfl, rfl⟩ fun l => ?_
  have hline : (State.inReset straps pending f).plant.line l = Line.reset := replicate_get ..
  rw [hline]
  rfl

theorem rstnRise (hs : LeaseSound s) (h : execRstnRise s = .next t) : LeaseSound t := by
  obtain rfl := Host.Outcome.next.inj h
  split
  · next hr =>
    have hd := hs.setup.1 hr
    exact of_empty rfl (hs.setup.2 hd) (hs.lease_of_setup hd)
  · exact hs

theorem tick (hs : LeaseSound s) (h : execTick s = .next t) : LeaseSound t := by
  obtain rfl := Host.Outcome.next.inj h
  split
  · exact (hs.passed _).boundary
  · exact hs

theorem captureEdge (hs : LeaseSound s) {c : Channel} {dir : Edge} {after : Nat}
    (h : execCaptureEdge c dir after s = .next t) : LeaseSound t := by
  obtain rfl := Host.Outcome.next.inj h
  have hp := hs.passed after
  have hsample : LeaseSound ((s.passed after).sample c dir) := hp.of_plant ⟨rfl, rfl, rfl, fun _ => rfl⟩ rfl
  split
  · exact hs
  · dsimp only
    split
    · split
      · next ha => exact hsample.acceptEdge (State.operating_of_accepts (s := s.passed after) ha) c dir
      · exact hsample
    · exact hp

theorem pulseEnd (hs : LeaseSound s) (l : LineId) : LeaseSound (s.onPlant (Plant.pulseEnd l)) := by
  refine hs.of_sheds (s.sheds_pulseEnd l) (fun m => ?_) (hs.entries.pulseEnd s.lasting_permits l)
  rw [State.onPlant_plant]
  unfold Plant.pulseEnd
  split
  · split
    · exact (congrArg Line.lease (Plant.settleHold_line _ m)).trans ((Plant.steady_releasePulse ..).lease m)
    · rfl
  · rfl

theorem periodEnd (hs : LeaseSound s) (l : LineId) : LeaseSound (s.onPlant (Plant.periodEnd l)) := by
  refine hs.of_sheds (s.sheds_periodEnd l) (fun m => ?_) (hs.entries.periodEnd l)
  rw [State.onPlant_plant]
  unfold Plant.periodEnd
  split
  · split
    · exact (Plant.steady_rewind ..).lease m
    · rfl
  · rfl

theorem undecodedRequest (hs : LeaseSound s) {p : Port} {wire : Wire}
    (h : execUndecodedRequest p wire s = .next t) : LeaseSound t := by
  obtain rfl := Host.Outcome.next.inj h
  split
  · split
    · exact hs.setPort p rfl
    · exact hs
  · exact hs

theorem transactionBegin (hs : LeaseSound s) {fall : Fall} (h : execTransactionBegin fall s = .next t) :
    LeaseSound t := by
  obtain rfl := Host.Outcome.next.inj h
  split
  · exact hs
  · exact hs.setPort fall.port rfl

/-! ## The step -/

/-- Every command keeps the entries under their leases. -/
theorem of_exec (hs : LeaseSound s) : ∀ i t, exec i s = .next t → LeaseSound t
  | .nop _, _, rfl => hs.of_serve_readOnly
  | .identify _, _, rfl => hs.of_serve_readOnly
  | .status _, _, rfl => hs.of_serve_readOnly
  | .noticeRead _, _, rfl => hs.of_serve_work fun u => hs.noticeRead _ u
  | .portReset _, _, rfl => hs.of_serve_work fun u => hs.portReset _ u
  | .subscribe r, _, rfl => hs.of_serve_work fun _ => hs.setPort r.port rfl
  | .configRead _, _, rfl => hs.of_serve_readOnly
  | .configWrite _, _, rfl => hs.of_serve fun q _ _ ha => hs.configWrite (Allowed.setup_of_admits ha) q
  | .endSetup _, _, rfl => hs.of_serve fun _ _ ht ha =>
      hs.enterOperating (rstnLow_of_hears ht.heard) (Allowed.setup_of_admits ha) _
  | .tbHold _, _, rfl => hs.of_serve_operating fun u ho => hs.tbHold ho _ u
  | .tbStart _, _, rfl => hs.of_serve_operating fun u ho => hs.tbStart ho _ u
  | .schedule _, _, rfl => hs.of_serve_operating fun q ho => hs.schedule ho q
  | .cancel _, _, rfl => hs.of_serve_operating fun tag ho => hs.cancel ho _ tag
  | .entryMove _, _, rfl => hs.of_serve_operating fun q ho => hs.entryMove ho _ q
  | .entryRead _, _, rfl => hs.of_serve_work fun tag => hs.entryRead _ tag
  | .lineMode r, _, rfl => hs.of_serve_operating fun q ho => hs.lineMode ho r q
  | .lineRead _ _, _, rfl => hs.of_serve_readOnly
  | .waveRestart r, _, rfl => hs.of_serve_operating fun l ho => hs.waveRestart ho r l
  | .lineProbe r, _, rfl => hs.of_serve_operating fun l ho => hs.lineProbe ho r l
  | .leaseTake _, _, rfl =>
      hs.of_serve fun _ hq ht ha => hs.leaseTake ht (Allowed.operating_of_admits ha) hq
  | .leaseRenew _, _, rfl => hs.of_serve_work fun q => hs.leaseRenew _ q
  | .leaseRelease _, _, rfl => hs.of_serve_work fun l => hs.leaseRelease _ l
  | .leaseRead _, _, rfl => hs.of_serve_readOnly
  | .captureRead _, _, rfl => hs.of_serve_readOnly
  | .tallyRead _, _, rfl => hs.of_serve_readOnly
  | .tallyAdd _, _, rfl => hs.of_serve_work fun _ => hs.changeTally ..
  | .tallySwap _, _, rfl => hs.of_serve_work fun _ => hs.changeTally ..
  | .tallyCas _, _, rfl => hs.of_serve_work hs.tallyCas
  | .undecodedRequest _ _, _, h => hs.undecodedRequest h
  | .deviceReset _ _, _, rfl => inReset ..
  | .rstnRise, _, h => hs.rstnRise h
  | .tick, _, h => hs.tick h
  | .captureEdge _ _ _, _, h => hs.captureEdge h
  | .pulseEnd l, _, rfl => hs.pulseEnd l
  | .periodEnd l, _, rfl => hs.periodEnd l
  | .holdTimerExpiry, _, rfl => hs.holdExpiry
  | .lapse l, _, rfl => hs.lapse l
  | .phaseAEnd l b, _, rfl => hs.phaseAEnd l b
  | .phaseBEnd l b, _, rfl => hs.phaseBEnd l b
  | .setupWindowExpiry, _, rfl => hs.windowExpiry
  | .transactionBegin _, _, h => hs.transactionBegin h

end LeaseSound

/-- Settles O59: every command, and RC on an empty queue, keeps the entries under their leases. -/
theorem entriesStayUnderLease : Obligations.EntriesStayUnderLease := by
  intro s t hsetup hleases hunder hstep
  have hs : LeaseSound s := (leaseSound_iff s).mpr ⟨hsetup, hleases, hunder⟩
  refine (leaseSound_iff t).mp ?_
  unfold step at hstep
  split at hstep
  · next c cs _ =>
    have hcs : LeaseSound { s with pending := cs } := hs.of_plant ⟨rfl, rfl, rfl, fun _ => rfl⟩ rfl
    exact hcs.of_exec c t hstep
  · cases hstep
    exact hs.idle

end Sys2Proof.Machine
end

section
/-! PROOF of O49. CAPTURE_EDGE is one of four things: nothing with RSTn low, RC running on where two samples
do not differ, the sample as well where an edge is not accepted, and the work of an accepted edge. -/

namespace Sys2Proof.Machine

/-! ## Samples and acceptance (R123, R124) -/

theorem edgeLevel_eq (dir : Edge) : edgeLevel dir = (dir == .rise) := by
  cases dir <;> rfl

theorem CaptureChannel.sees_iff (now : Nat) (dir : Edge) (x : CaptureChannel) :
    x.sees now dir = true ↔ x.level ≠ (dir == .rise) ∧ x.since < now := by
  simp [CaptureChannel.sees, edgeLevel_eq]

theorem EdgeSelect.matches_iff (sel : EdgeSelect) (dir : Edge) : sel.matches dir = true ↔
    sel = .both ∨ (sel = .rise ∧ dir = .rise) ∨ (sel = .fall ∧ dir = .fall) := by
  cases sel <;> cases dir <;> decide

theorem EdgeSelect.not_matches_iff (sel : EdgeSelect) (dir : Edge) : sel.matches dir = false ↔
    sel = .off ∨ (sel = .rise ∧ dir = .fall) ∨ (sel = .fall ∧ dir = .rise) := by
  cases sel <;> cases dir <;> decide

theorem CaptureChannel.clearOf_iff (holdoff : Half) (now : Nat) (x : CaptureChannel) :
    x.clearOf holdoff now = true ↔ ∀ t, x.lastAccept = some t → t + holdoff.toNat * 16 ≤ now := by
  unfold CaptureChannel.clearOf
  cases x.lastAccept with
  | none => simp
  | some t =>
    simp only [Option.some.injEq, forall_eq']
    exact decide_eq_true_iff

/-- The three conditions of R123. -/
theorem State.accepts_iff (s : State) (c : Channel) (dir : Edge) : s.accepts c dir = true ↔
    (s.table.channels.get c).select.matches dir = true ∧ s.device = .operating ∧
      (s.channels.get c).clearOf (s.table.channels.get c).holdoff s.rc = true := by
  simp only [State.accepts, Bool.and_eq_true, beq_iff_eq, and_assoc]

/-- Each condition of R123 that fails makes an edge that is not accepted. -/
theorem State.not_accepts {s : State} {c : Channel} {dir : Edge}
    (h : (s.table.channels.get c).select = .off ∨
      ((s.table.channels.get c).select = .rise ∧ dir = .fall) ∨
      ((s.table.channels.get c).select = .fall ∧ dir = .rise) ∨ s.device = .setup ∨
      ∃ t, (s.channels.get c).lastAccept = some t ∧
        s.rc < t + (s.table.channels.get c).holdoff.toNat * 16) : s.accepts c dir = false := by
  rw [← Bool.not_eq_true, State.accepts_iff]
  rintro ⟨hm, ho, hc⟩
  rw [← Bool.not_eq_false, EdgeSelect.not_matches_iff] at hm
  rcases h with h | h | h | h | ⟨t, ht, hlt⟩
  · exact hm (.inl h)
  · exact hm (.inr (.inl h))
  · exact hm (.inr (.inr h))
  · nomatch h.symm.trans ho
  · exact Nat.not_le_of_lt hlt ((CaptureChannel.clearOf_iff ..).mp hc t ht)

/-! ## What CAPTURE_EDGE is -/

theorem exec_captureEdge_of_low {s : State} (h : s.rstnLow = true) (c : Channel) (dir : Edge) (after : Nat) :
    exec (.captureEdge c dir after) s = .next s :=
  congrArg Host.Outcome.next (if_pos h)

theorem exec_captureEdge_of_high {s : State} (h : s.rstnLow = false) (c : Channel) (dir : Edge) (after : Nat) :
    exec (.captureEdge c dir after) s = .next (
      if ((s.passed after).channels.get c).sees (s.passed after).rc dir then
        if (s.passed after).accepts c dir then ((s.passed after).sample c dir).acceptEdge c dir
        else (s.passed after).sample c dir
      else s.passed after) :=
  congrArg Host.Outcome.next (if_neg (by simp [h]))

/-- Settles O49, by the four things that CAPTURE_EDGE can be; the accepted edge is O50's. -/
theorem edgeIgnoredUnlessAccepted : Obligations.EdgeIgnoredUnlessAccepted := by
  refine ⟨fun s c dir after hlow => exec_captureEdge_of_low hlow c dir after, ?_⟩
  intro s s' c dir after hhigh hs'
  rw [exec_captureEdge_of_high hhigh, ← hs']
  refine ⟨fun hsame => ?_, fun hlevel hsince hrefused => ?_⟩
  · rw [if_neg]
    rw [CaptureChannel.sees_iff]
    rintro ⟨hlevel, hsince⟩
    rcases hsame with h | h
    · exact hlevel h
    · exact Nat.not_lt_of_le h hsince
  · rw [if_pos ((CaptureChannel.sees_iff ..).mpr ⟨hlevel, hsince⟩), State.not_accepts hrefused,
      ← edgeLevel_eq]
    rfl

end Sys2Proof.Machine
end

section
/-! PROOF of O51. A walk meets one entry after another: it passes it over, lowers it or releases it. Outside
RUNNING a release is an insertion, and with distinct names each visit touches the armed list at the entry it
meets alone. -/

namespace Sys2Proof.Machine

/-! ## One entry of a walk (R132, R133, R145, R146) -/

theorem Plant.walkEdge_cons_of_other {c : Channel} {x : Waiting} (h : ∀ k o, x.entry.trigger ≠ .edge c k o)
    (arb : Arbitration) (xs : List Waiting) (w : Plant) : w.walkEdge arb c (x :: xs) = w.walkEdge arb c xs := by
  unfold Plant.walkEdge
  rw [List.foldl_cons]
  congr 1
  split
  · next c' k o ht =>
    refine if_neg ?_
    rintro rfl
    exact h k o ht
  · rfl

theorem Plant.walkEdge_cons_of_edge {c : Channel} {x : Waiting} {k : Byte} {o : Word}
    (h : x.entry.trigger = .edge c k o) (arb : Arbitration) (xs : List Waiting) (w : Plant) :
    w.walkEdge arb c (x :: xs) = (w.countDown arb x o).walkEdge arb c xs := by
  unfold Plant.walkEdge
  rw [List.foldl_cons, h]
  simp only [if_true]

theorem Plant.walkCount_cons_of_other {n : TallyId} {v : Word} {x : Waiting}
    (h : ∀ t o, x.entry.trigger = .count n t o → 2 ^ 31 ≤ (v - t).toNat) (arb : Arbitration)
    (xs : List Waiting) (w : Plant) : w.walkCount arb n v (x :: xs) = w.walkCount arb n v xs := by
  unfold Plant.walkCount
  rw [List.foldl_cons]
  congr 1
  split
  · next m t o ht =>
    refine if_neg ?_
    rintro ⟨rfl, hr⟩
    exact Nat.not_lt_of_le (h t o ht) ((reached_iff v t).mp hr)
  · rfl

theorem Plant.walkCount_cons_of_reached {n : TallyId} {v t o : Word} {x : Waiting}
    (h : x.entry.trigger = .count n t o) (hr : (v - t).toNat < 2 ^ 31) (arb : Arbitration)
    (xs : List Waiting) (w : Plant) :
    w.walkCount arb n v (x :: xs) = (w.release arb x o).walkCount arb n v xs := by
  unfold Plant.walkCount
  rw [List.foldl_cons, h]
  simp only [(reached_iff v t).mpr hr, and_self, if_true]

theorem Plant.countDown_of_le {x : Waiting} (h : x.edgesLeft.getD 0 ≤ 1) (arb : Arbitration) (o : Word)
    (w : Plant) : w.countDown arb x o = w.release arb x o := if_pos h

theorem Plant.countDown_of_gt {x : Waiting} (h : 1 < x.edgesLeft.getD 0) (arb : Arbitration) (o : Word)
    (w : Plant) : w.countDown arb x o = { w with
      armed := w.armed.map fun y => if y.entry.name = x.entry.name then
        { y with edgesLeft := some (x.edgesLeft.getD 0 - 1) } else y } := by
  simp only [← Entry.sameKey_iff]
  exact if_neg (Nat.not_le_of_lt h)

/-! ## A walk outside RUNNING -/

/-- Outside RUNNING a released entry waits at TC plus its offset (R132, R146). -/
theorem Plant.release_of_stopped {w : Plant} (h : w.timebase ≠ .running) (arb : Arbitration) (x : Waiting)
    (o : Word) : w.release arb x o = { w with
      armed := w.armed.filter fun y => !y.entry.isKey x.entry.owner x.entry.tag
      timeline := insertTimed w.tc ⟨x.entry, w.tc + o⟩ w.timeline } :=
  (Plant.release_placed arb x o w).2 (.inl h)

section DistinctNames
variable {pre post : List Waiting} {x : Waiting}
  (hnd : ((pre ++ x :: post).map fun y => y.entry.name).Nodup)
include hnd

/-- Where names are distinct, no other entry has the name of the one that a walk meets. -/
theorem name_ne_of_nodup {y : Waiting} (hy : y ∈ pre ++ post) : y.entry.name ≠ x.entry.name := by
  have hp := (List.perm_middle.map fun y : Waiting => y.entry.name).nodup_iff.mp hnd
  rw [List.map_cons, List.nodup_cons] at hp
  exact fun hc => hp.1 (hc ▸ List.mem_map_of_mem hy)

theorem filter_name_of_nodup :
    ((pre ++ x :: post).filter fun y => !y.entry.isKey x.entry.owner x.entry.tag) = pre ++ post := by
  have hkey : ∀ y ∈ pre ++ post, (!y.entry.isKey x.entry.owner x.entry.tag) = true := by
    intro y hy
    rw [Bool.not_eq_true', ← Bool.not_eq_true, Entry.isKey_iff]
    exact name_ne_of_nodup hnd hy
  have hself : x.entry.isKey x.entry.owner x.entry.tag = true := (Entry.isKey_iff ..).mpr rfl
  rw [List.filter_append, List.filter_cons_of_neg (by simp [hself]), ← List.filter_append,
    List.filter_eq_self.mpr hkey]

theorem map_name_of_nodup (g : Waiting → Waiting) :
    ((pre ++ x :: post).map fun y => if y.entry.name = x.entry.name then g y else y) =
      pre ++ g x :: post := by
  have hother : ∀ ys : List Waiting, (∀ y ∈ ys, y ∈ pre ++ post) →
      (ys.map fun y => if y.entry.name = x.entry.name then g y else y) = ys := fun ys hys =>
    (List.map_congr_left fun y hy => if_neg (name_ne_of_nodup hnd (hys y hy))).trans (List.map_id ys)
  rw [List.map_append, List.map_cons, if_pos rfl, hother pre fun _ => List.mem_append_left _,
    hother post fun _ => List.mem_append_right _]

end DistinctNames

/-- A walk outside RUNNING over the rest of the armed list, `pre` being what it has left armed: an entry that
`ends` picks is released, every other stays in its place as `left` makes it. -/
theorem Plant.walk_of_stopped {arb : Arbitration} {walk : List Waiting → Plant → Plant}
    {ends : Waiting → Bool} {off : Waiting → Word} {left : Waiting → Waiting}
    (hname : ∀ x, (left x).entry = x.entry) (nil : ∀ w, walk [] w = w)
    (released : ∀ x xs w, ends x = true → walk (x :: xs) w = walk xs (w.release arb x (off x)))
    (stays : ∀ pre x xs w, ends x = false → w.armed = pre ++ x :: xs →
      ((pre ++ x :: xs).map fun y => y.entry.name).Nodup →
      walk (x :: xs) w = walk xs { w with armed := pre ++ left x :: xs })
    {xs pre : List Waiting} {w : Plant} (hstop : w.timebase ≠ .running) (harmed : w.armed = pre ++ xs)
    (hnd : ((pre ++ xs).map fun y => y.entry.name).Nodup) :
    walk xs w = { w with
      armed := pre ++ (xs.filter fun x => !ends x).map left
      timeline := (xs.filter ends).foldl
        (fun tl x => insertTimed w.tc ⟨x.entry, w.tc + off x⟩ tl) w.timeline } := by
  induction xs generalizing pre w with
  | nil => simp [nil, ← harmed]
  | cons x xs ih =>
    cases he : ends x with
    | true =>
      have hnd' : ((pre ++ xs).map fun y => y.entry.name).Nodup :=
        hnd.sublist (((List.sublist_cons_self x xs).append_left pre).map _)
      rw [released x xs w he, Plant.release_of_stopped hstop, harmed, filter_name_of_nodup hnd]
      refine (ih (pre := pre) (by exact hstop) (by rfl) hnd').trans ?_
      simp [he]
    | false =>
      have hnd' : (((pre ++ [left x]) ++ xs).map fun y => y.entry.name).Nodup := by
        simpa [hname] using hnd
      rw [stays pre x xs w he harmed hnd]
      refine (ih (pre := pre ++ [left x]) (by exact hstop) (by simp) hnd').trans ?_
      simp [he]

section Predicates
variable {c : Channel} {n : TallyId} {v : Word} {onEdge ends reached : Waiting → Bool}
  {off : Waiting → Word}

/-- The walk of an edge outside RUNNING: every EDGE entry on its channel is lowered or, at its end, inserted
(R132). -/
theorem Plant.walkEdge_of_stopped (honEdge : ∀ x, onEdge x = true ↔ ∃ k o, x.entry.trigger = .edge c k o)
    (hends : ∀ x, ends x = true ↔ onEdge x = true ∧ x.edgesLeft.getD 0 ≤ 1)
    (hoff : ∀ x d k o, x.entry.trigger = .edge d k o → off x = o) (arb : Arbitration) {w : Plant}
    (hstop : w.timebase ≠ .running) (hnd : (w.armed.map fun x => x.entry.name).Nodup) :
    w.walkEdge arb c w.armed = { w with
      armed := (w.armed.filter fun x => !ends x).map fun x =>
        if onEdge x then { x with edgesLeft := some (x.edgesLeft.getD 0 - 1) } else x
      timeline := (w.armed.filter ends).foldl
        (fun tl x => insertTimed w.tc ⟨x.entry, w.tc + off x⟩ tl) w.timeline } := by
  refine Plant.walk_of_stopped (arb := arb) (walk := fun xs w => w.walkEdge arb c xs) (pre := [])
    (fun x => ?_) (fun _ => rfl) (fun x xs w he => ?_) (fun pre x xs w he harmed hnd => ?_) hstop rfl hnd
  · split <;> rfl
  · obtain ⟨hon, hle⟩ := (hends x).mp he
    obtain ⟨k, o, ht⟩ := (honEdge x).mp hon
    rw [Plant.walkEdge_cons_of_edge ht, Plant.countDown_of_le hle, hoff x c k o ht]
  · cases hon : onEdge x with
    | true =>
      obtain ⟨k, o, ht⟩ := (honEdge x).mp hon
      have hgt : 1 < x.edgesLeft.getD 0 := by
        by_contra hle
        exact Bool.false_ne_true (he.symm.trans ((hends x).mpr ⟨hon, by omega⟩))
      rw [Plant.walkEdge_cons_of_edge ht, Plant.countDown_of_gt hgt, harmed,
        map_name_of_nodup hnd fun y => { y with edgesLeft := some (x.edgesLeft.getD 0 - 1) }]
      rfl
    | false =>
      have hother : ∀ k o, x.entry.trigger ≠ .edge c k o := fun k o ht =>
        Bool.false_ne_true (hon.symm.trans ((honEdge x).mpr ⟨k, o, ht⟩))
      rw [Plant.walkEdge_cons_of_other hother]
      simp [← harmed]

/-- The evaluation of a tally outside RUNNING: every COUNT entry that it has reached is inserted (R146). -/
theorem Plant.walkCount_of_stopped
    (hreached : ∀ x, reached x = true ↔ ∃ h o, x.entry.trigger = .count n h o ∧ (v - h).toNat < 2 ^ 31)
    (hoff : ∀ x m h o, x.entry.trigger = .count m h o → off x = o) (arb : Arbitration) {w : Plant}
    (hstop : w.timebase ≠ .running) (hnd : (w.armed.map fun x => x.entry.name).Nodup) :
    w.walkCount arb n v w.armed = { w with
      armed := w.armed.filter fun x => !reached x
      timeline := (w.armed.filter reached).foldl
        (fun tl x => insertTimed w.tc ⟨x.entry, w.tc + off x⟩ tl) w.timeline } := by
  refine (Plant.walk_of_stopped (arb := arb) (walk := fun xs w => w.walkCount arb n v xs) (left := id)
    (pre := []) (fun _ => rfl) (fun _ => rfl) (fun x xs w he => ?_) (fun pre x xs w he harmed _ => ?_)
    hstop rfl hnd).trans (by rw [List.map_id, List.nil_append])
  · obtain ⟨h, o, ht, hr⟩ := (hreached x).mp he
    rw [Plant.walkCount_cons_of_reached ht hr, hoff x n h o ht]
  · have hother : ∀ h o, x.entry.trigger = .count n h o → 2 ^ 31 ≤ (v - h).toNat := fun h o ht =>
      Nat.le_of_not_lt fun hr => Bool.false_ne_true (he.symm.trans ((hreached x).mpr ⟨h, o, ht, hr⟩))
    rw [Plant.walkCount_cons_of_other hother, id, ← harmed]

end Predicates

/-- Settles O51: one entry of either walk by its trigger, and each walk of the whole armed list outside
RUNNING. -/
theorem walksReleaseArmedEntries : Obligations.WalksReleaseArmedEntries := by
  refine ⟨fun arb c n v w => ⟨rfl, rfl, ?_⟩, ?_⟩
  · rintro x xs _ rfl
    refine ⟨fun h => Plant.walkEdge_cons_of_other h arb xs w, fun k o ht => ⟨fun h2 => ?_, fun h1 => ?_⟩,
      fun h => Plant.walkCount_cons_of_other h arb xs w, fun h o ht hr => ?_⟩
    · rw [Plant.walkEdge_cons_of_edge ht, Plant.countDown_of_gt h2]
    · rw [Plant.walkEdge_cons_of_edge ht, Plant.countDown_of_le h1]
      obtain ⟨hnow, hlater⟩ := Plant.release_placed arb x o w
      exact ⟨fun hr ho => congrArg (Plant.walkEdge arb c xs) (hnow hr ho),
        fun hne => congrArg (Plant.walkEdge arb c xs) (hlater hne)⟩
    · rw [Plant.walkCount_cons_of_reached ht hr]
      obtain ⟨hnow, hlater⟩ := Plant.release_placed arb x o w
      exact ⟨fun hr ho => congrArg (Plant.walkCount arb n v xs) (hnow hr ho),
        fun hne => congrArg (Plant.walkCount arb n v xs) (hlater hne)⟩
  · intro arb c n v w onEdge ends reached off hstop hnd honEdge hends hreached hoffEdge hoffCount
    exact ⟨Plant.walkEdge_of_stopped honEdge hends hoffEdge arb hstop hnd,
      Plant.walkCount_of_stopped hreached hoffCount arb hstop hnd⟩

end Sys2Proof.Machine
end

section
/-! PROOF of O50. An accepted edge has four parts, each named here after its place in `State.acceptEdge`: the
plant with the edge stamped, the works in the order taken, the plant when they are done, and the EDGE notices
behind them. -/

namespace Sys2Proof.Machine

/-! ## The parts of an accepted edge -/

/-- The plant that the edge is stamped with: TC and the lines advanced by a pace edge in RUNNING (R51, R130). -/
def State.edgeStamped (c : Channel) (s : State) : Plant := s.plant.paceAdvance (s.table.paces c)

/-- The works of the edge in a free order, and the counter after it. -/
def State.edgeOrder (c : Channel) (s : State) : List Claim × Nat :=
  shuffle (claims s.table c (raiseBound s.table.tallies c s.tallies) s.plant.armed (s.edgeStamped c))
    s.freeCount

/-- The plant with the works of the edge done. -/
def State.edgeDone (c : Channel) (s : State) : Plant :=
  (s.edgeOrder c).1.foldl (Plant.claim s.table.arbitration c s.plant.armed) (s.edgeStamped c)

/-- The EDGE notice (R129). -/
def State.edgeNotice (c : Channel) (dir : Edge) (s : State) : Notice :=
  ⟨natByte c.val, 0#16, (s.edgeStamped c).tc, .edge (s.channels.get c).nextSeq dir⟩

/-- The ports subscribed to a channel (R128). -/
def State.subscribers (c : Channel) (s : State) : List Port :=
  allPorts.filter fun p => (s.port p).mask.getLsbD c.val

/-- An accepted edge changes the channels, the tallies, the plant, the note of moves and the counter alone. -/
theorem State.acceptEdge_frame (s : State) (c : Channel) (dir : Edge) :
    { s.acceptEdge c dir with
      channels := s.channels, tallies := s.tallies, plant := s.plant, moved := s.moved
      freeCount := s.freeCount } = s := rfl

theorem State.acceptEdge_channels (s : State) (c : Channel) (dir : Edge) : (s.acceptEdge c dir).channels =
    upd s.channels c (CaptureChannel.record s.rc dir (s.edgeStamped c).tc) := rfl

theorem State.acceptEdge_tallies (s : State) (c : Channel) (dir : Edge) :
    (s.acceptEdge c dir).tallies = raiseBound s.table.tallies c s.tallies := rfl

theorem State.acceptEdge_plant (s : State) (c : Channel) (dir : Edge) : (s.acceptEdge c dir).plant =
    ((s.subscribers c).foldl (fun q p =>
      Plant.postEdge p (s.plant.inbox p).queue.length (s.edgeNotice c dir) q)
      (s.edgeDone c, (s.edgeOrder c).2)).1 := rfl

theorem State.acceptEdge_moved (s : State) (c : Channel) (dir : Edge) : (s.acceptEdge c dir).moved =
    (s.clearBatch (if s.table.paces c then s.plant.tickBatch else [])).moved := rfl

theorem State.mem_subscribers (s : State) (c : Channel) (p : Port) :
    p ∈ s.subscribers c ↔ (s.port p).mask.getLsbD c.val = true := by
  simp [State.subscribers]

theorem State.nodup_subscribers (s : State) (c : Channel) : (s.subscribers c).Nodup :=
  (List.nodup_finRange 4).filter _

/-! ## The stamp of a pace edge (R51, R130) -/

theorem State.edgeStamped_of_running {s : State} {c : Channel}
    (h : s.table.source = .pace c ∧ s.plant.timebase = .running) :
    s.edgeStamped c = s.plant.countTick.advance := by
  unfold State.edgeStamped Plant.paceAdvance
  rw [(Table.paces_iff ..).mpr h.1, h.2]
  rfl

theorem State.edgeStamped_of_not {s : State} {c : Channel}
    (h : ¬(s.table.source = .pace c ∧ s.plant.timebase = .running)) : s.edgeStamped c = s.plant := by
  unfold State.edgeStamped Plant.paceAdvance
  refine if_neg ?_
  rwa [Bool.and_eq_true, Table.paces_iff, beq_iff_eq]

theorem State.edgeStamped_eq (s : State) (c : Channel) : s.edgeStamped c =
    if s.table.source = .pace c ∧ s.plant.timebase = .running then
      { s.plant with tc := s.plant.tc + 1#32 }.advance else s.plant := by
  split
  · next h => exact State.edgeStamped_of_running h
  · next h => exact State.edgeStamped_of_not h

theorem State.edgeStamped_timebase (s : State) (c : Channel) :
    (s.edgeStamped c).timebase = s.plant.timebase := by
  by_cases h : s.table.source = .pace c ∧ s.plant.timebase = .running
  · rw [State.edgeStamped_of_running h]
    exact (Plant.steady_advance_of_running (w := s.plant.countTick) h.2).timebase
  · rw [State.edgeStamped_of_not h]

theorem State.keeps_edgeStamped (s : State) (c : Channel) : s.plant.Keeps (s.edgeStamped c) := by
  by_cases h : s.table.source = .pace c ∧ s.plant.timebase = .running
  · rw [State.edgeStamped_of_running h]
    exact s.plant.keeps_countTick.trans (Plant.keeps_advance _)
  · rw [State.edgeStamped_of_not h]
    exact .refl _

/-- The batch of a pace edge in RUNNING takes the notes of its entries; without such a batch all stay (R64). -/
theorem State.acceptEdge_moved_eq (s : State) (c : Channel) (dir : Edge) : (s.acceptEdge c dir).moved =
    if s.table.source = .pace c ∧ s.plant.timebase = .running then
      s.moved.filter fun q => !(s.edgeStamped c).timeline.any fun x =>
        x.due == (s.edgeStamped c).tc && x.entry.name == q
    else s.moved := by
  rw [State.acceptEdge_moved]
  by_cases h : s.table.source = .pace c ∧ s.plant.timebase = .running
  · rw [if_pos h, if_pos ((Table.paces_iff ..).mpr h.1), Plant.tickBatch_of_running h.2,
      State.clearBatch_filter, State.edgeStamped_of_running h, Plant.advance_tc, Plant.countTick_tc]
  · have hnil : (if s.table.paces c then s.plant.tickBatch else []) = [] := by
      split
      · next hp => exact Plant.tickBatch_of_ne fun hr => h ⟨(Table.paces_iff ..).mp hp, hr⟩
      · rfl
    rw [if_neg h, hnil, State.clearBatch_nil]

/-! ## The works of an edge (R51, R125) -/

theorem raiseBound_get (tt : Vector TallyConfig 8) (c : Channel) (v : Vector Word 8) (n : TallyId) :
    (raiseBound tt c v).get n = if (tt.get n).binding = some c then v.get n + 1#32 else v.get n :=
  updAll_get ..

theorem State.nodup_edgeOrder (s : State) (c : Channel) : (s.edgeOrder c).1.Nodup :=
  (shuffle_perm ..).nodup_iff.mpr (nodup_claims ..)

theorem State.mem_edgeOrder (s : State) (c : Channel) (k : Claim) : k ∈ (s.edgeOrder c).1 ↔ match k with
    | .tickBatch => s.table.source = .pace c ∧ s.plant.timebase = .running ∧
        ∃ x ∈ (s.edgeStamped c).timeline, x.due = (s.edgeStamped c).tc
    | .advance => s.table.source = .pace c ∧ s.plant.timebase = .holding
    | .walk => ∃ x ∈ s.plant.armed, ∃ n o, x.entry.trigger = .edge c n o
    | .count n v => (s.table.tallies.get n).binding = some c ∧ v = s.tallies.get n + 1#32 ∧
        ∃ x ∈ s.plant.armed, ∃ h o, x.entry.trigger = .count n h o ∧ (v - h).toNat < 2 ^ 31 := by
  refine ((shuffle_perm ..).mem_iff.trans (mem_claims ..)).trans ?_
  cases k with
  | tickBatch => dsimp only; rw [State.edgeStamped_timebase]
  | advance => dsimp only; rw [State.edgeStamped_timebase]
  | walk => exact Iff.rfl
  | count n v =>
    refine and_congr_right fun hb => ?_
    rw [raiseBound_get, if_pos hb]

/-- The works of an edge post to the queues, and never shorten one. -/
theorem State.keeps_edgeDone (s : State) (c : Channel) : s.plant.Keeps (s.edgeDone c) :=
  (s.keeps_edgeStamped c).trans (Plant.Keeps.foldl (fun _ _ => Plant.keeps_claim ..) ..)

/-! ## EDGE notices (R129, R168) -/

/-- The EDGE notices change the queues alone. -/
theorem Plant.postEdges_frame (before : Port → Nat) (n : Notice) (ps : List Port) (q : Plant × Nat) :
    { (ps.foldl (fun q p => Plant.postEdge p (before p) n q) q).1 with inboxes := q.1.inboxes } = q.1 := by
  induction ps generalizing q with
  | nil => rfl
  | cons p ps ih => exact congrArg (fun w : Plant => { w with inboxes := q.1.inboxes }) (ih (postEdge p _ n q))

/-- The EDGE notice of one port takes a place behind what its queue held before. -/
theorem Plant.postEdge_inbox (p : Port) {before : Nat} (n : Notice) (q : Plant × Nat)
    (h : before ≤ (q.1.inbox p).queue.length) :
    ∃ i, before ≤ i ∧ i ≤ (q.1.inbox p).queue.length ∧
      ∀ r, (Plant.postEdge p before n q).1.inbox r =
        if r = p then (q.1.inbox p).insertAt i n else q.1.inbox r := by
  have hlt := freeChoice_lt (n := (q.1.inbox p).queue.length + 1 - before) (by omega) q.2
  exact ⟨before + (freeChoice ((q.1.inbox p).queue.length + 1 - before) q.2).1, by omega, by omega,
    fun r => upd_get ..⟩

/-- A queue of a port that is not among those told gains no EDGE notice. -/
theorem Plant.postEdges_inbox_of_notMem (before : Port → Nat) (n : Notice) {p : Port} {ps : List Port}
    (hp : p ∉ ps) (q : Plant × Nat) :
    (ps.foldl (fun q p => Plant.postEdge p (before p) n q) q).1.inbox p = q.1.inbox p := by
  induction ps generalizing q with
  | nil => rfl
  | cons r rs ih =>
    rw [List.mem_cons, not_or] at hp
    exact (ih hp.2 _).trans (upd_get_ne _ _ hp.1)

/-- A queue of a port among those told gains one EDGE notice. -/
theorem Plant.postEdges_inbox_of_mem (before : Port → Nat) (n : Notice) {p : Port} {ps : List Port}
    (hnd : ps.Nodup) (hp : p ∈ ps) (q : Plant × Nat) (hle : before p ≤ (q.1.inbox p).queue.length) :
    ∃ i, before p ≤ i ∧ i ≤ (q.1.inbox p).queue.length ∧
      (ps.foldl (fun q p => Plant.postEdge p (before p) n q) q).1.inbox p = (q.1.inbox p).insertAt i n := by
  induction ps generalizing q with
  | nil => nomatch hp
  | cons r rs ih =>
    rw [List.nodup_cons] at hnd
    rw [List.foldl_cons]
    by_cases hr : p = r
    · subst hr
      obtain ⟨i, hlo, hhi, hin⟩ := Plant.postEdge_inbox p n q hle
      refine ⟨i, hlo, hhi, ?_⟩
      rw [Plant.postEdges_inbox_of_notMem before n hnd.1, hin, if_pos rfl]
    · have hsame : (Plant.postEdge r (before r) n q).1.inbox p = q.1.inbox p := upd_get_ne _ _ hr
      rw [← hsame] at hle ⊢
      exact ih hnd.2 ((List.mem_cons.mp hp).resolve_left hr) _ hle

/-- The queue of a port that is not subscribed is as the works of the edge leave it. -/
theorem State.acceptEdge_inbox_of_unsubscribed {s : State} {c : Channel} {p : Port}
    (h : (s.port p).mask.getLsbD c.val = false) (dir : Edge) :
    (s.acceptEdge c dir).plant.inbox p = (s.edgeDone c).inbox p := by
  have hp : p ∉ s.subscribers c := by
    rw [State.mem_subscribers, h]
    exact Bool.false_ne_true
  exact Plant.postEdges_inbox_of_notMem (fun p => (s.plant.inbox p).queue.length) _ hp _

/-- The queue of a subscribed port gains the EDGE notice behind what it held before the edge (R129). -/
theorem State.acceptEdge_inbox_of_subscribed {s : State} {c : Channel} {p : Port}
    (h : (s.port p).mask.getLsbD c.val = true) (dir : Edge) :
    ∃ before behind, ((s.edgeDone c).inbox p).queue = before ++ behind ∧
      (s.plant.inbox p).queue.length ≤ before.length ∧
      (s.acceptEdge c dir).plant.inbox p = ⟨(before ++ s.edgeNotice c dir :: behind).take 16,
        ((s.edgeDone c).inbox p).overflow || decide (16 ≤ ((s.edgeDone c).inbox p).queue.length)⟩ := by
  obtain ⟨i, hlo, hhi, hin⟩ := Plant.postEdges_inbox_of_mem (fun p => (s.plant.inbox p).queue.length)
    (s.edgeNotice c dir) (s.nodup_subscribers c) ((s.mem_subscribers c p).mpr h)
    (s.edgeDone c, (s.edgeOrder c).2) ((s.keeps_edgeDone c).queue_le p)
  rw [State.acceptEdge_plant, hin]
  exact Inbox.insertAt_split _ _ hlo hhi

/-! ## The capture window (R126) -/

/-- One record more, and the oldest gone where there were four. -/
theorem keepLast_window (xs : List CaptureRecord) (x : CaptureRecord) :
    ∃ dropped, xs ++ [x] = dropped ++ keepLast Config.windowDepth (xs ++ [x]) ∧
      (xs.length ≤ 3 → dropped = []) ∧
      (4 ≤ xs.length → (keepLast Config.windowDepth (xs ++ [x])).length = 4) := by
  unfold keepLast Config.windowDepth
  refine ⟨_, (List.take_append_drop ((xs ++ [x]).length - 4) _).symm, fun h => ?_, fun h => ?_⟩
  · have hz : (xs ++ [x]).length - 4 = 0 := by simp; omega
    rw [hz, List.take_zero]
  · simp
    omega

/-- The channel of an accepted edge: its sample, then its record (R123, R126). -/
theorem State.acceptEdge_channel (s : State) (c : Channel) (dir : Edge) :
    ((s.sample c dir).acceptEdge c dir).channels.get c =
      { lastAccept := some s.rc
        nextSeq := (s.channels.get c).nextSeq + 1#8
        window := keepLast Config.windowDepth ((s.channels.get c).window ++
          [⟨(s.channels.get c).nextSeq, dir, (s.edgeStamped c).tc⟩])
        level := dir == .rise
        since := s.rc } := by
  rw [State.acceptEdge_channels, upd_get_self, State.sample_channels, upd_get_self, edgeLevel_eq]
  rfl

theorem State.acceptEdge_channel_of_ne (s : State) {c d : Channel} (h : d ≠ c) (dir : Edge) :
    ((s.sample c dir).acceptEdge c dir).channels.get d = s.channels.get d := by
  rw [State.acceptEdge_channels, upd_get_ne _ _ h, State.sample_channels, upd_get_ne _ _ h]

/-! ## The command -/

theorem Plant.claim_tickBatch (arb : Arbitration) (c : Channel) (armed : List Waiting) (w : Plant) :
    w.claim arb c armed .tickBatch =
      { w with timeline := w.timeline.filter fun x => x.due != w.tc }.runBatch arb
        (w.timeline.filter fun x => x.due == w.tc) := Plant.releaseDue_eq ..

theorem exec_captureEdge_of_accepted {s : State} (hhigh : s.rstnLow = false) {c : Channel} {dir : Edge}
    {after : Nat} (hsees : ((s.passed after).channels.get c).sees (s.passed after).rc dir = true)
    (haccepts : (s.passed after).accepts c dir = true) :
    exec (.captureEdge c dir after) s = .next (((s.passed after).sample c dir).acceptEdge c dir) := by
  rw [exec_captureEdge_of_high hhigh, if_pos hsees, if_pos haccepts]

/-- Settles O50, from the parts of the accepted edge, once the sample is taken. -/
theorem acceptedEdgeIsRecorded : Obligations.AcceptedEdgeIsRecorded := by
  refine ⟨?_, fun arb c armed w n v => ⟨Plant.claim_tickBatch .., rfl, rfl, rfl⟩⟩
  intro s s' c dir after w hhigh hs' ho hsel hlevel hsince hclear hw
  have hsees := (CaptureChannel.sees_iff s'.rc dir (s'.channels.get c)).mpr ⟨hlevel, hsince⟩
  have haccepts : s'.accepts c dir = true := (State.accepts_iff ..).mpr
    ⟨(EdgeSelect.matches_iff ..).mpr hsel, ho, (CaptureChannel.clearOf_iff ..).mpr hclear⟩
  obtain rfl : w = s'.edgeStamped c := hw.trans (s'.edgeStamped_eq c).symm
  rw [hs'] at hsees haccepts
  rw [exec_captureEdge_of_accepted hhigh hsees haccepts, ← hs']
  refine ⟨_, (s'.edgeOrder c).1, s'.edgeDone c, rfl, rfl, (s'.sample c dir).acceptEdge_moved_eq c dir,
    fun d hd => s'.acceptEdge_channel_of_ne hd dir, ?_⟩
  have hnotice : (s'.sample c dir).edgeNotice c dir =
      ⟨natByte c.val, 0#16, (s'.edgeStamped c).tc, .edge (s'.channels.get c).nextSeq dir⟩ := by
    unfold State.edgeNotice
    rw [State.sample_channels, upd_get_self]
    rfl
  rw [s'.acceptEdge_channel c dir]
  refine ⟨rfl, rfl, rfl, rfl, keepLast_window .., fun n => raiseBound_get .., s'.nodup_edgeOrder c,
    s'.mem_edgeOrder c, rfl, ?_, fun p => ⟨fun hp => ?_, fun hp => ?_⟩⟩
  · exact Plant.postEdges_frame (fun p => (s'.plant.inbox p).queue.length) _ _
      (s'.edgeDone c, (s'.edgeOrder c).2)
  · exact State.acceptEdge_inbox_of_unsubscribed (s := s'.sample c dir) hp dir
  · rw [← hnotice]
    exact State.acceptEdge_inbox_of_subscribed (s := s'.sample c dir) hp dir

end Sys2Proof.Machine
end

section
/-! PROOF of O53. A tally request with a body in its layout is one work on the named tally. A changing request
comes to its work where the effective level passes the write level of that tally, and its change of the tally is
`State.changeTally`. -/

namespace Sys2Proof.Machine

/-! ## TALLY_READ (R142) -/

theorem exec_tallyRead {r : Request} {s : State} {n : TallyId} (ht : Taken 0x60#8 r s)
    (hb : r.body = [natByte n.val]) :
    exec (.tallyRead r) s = .next (s.answer r 0x60#8 .ok (tallyBody s n)) :=
  congrArg Host.Outcome.next (serve_both ht (hb ▸ parseNumber_natByte n (by decide)))

/-! ## The changing requests (R141, R142, R143) -/

/-- A body that names a tally passes the level check at its write level (R141). -/
theorem passes_tallyLimit {r : Request} {s : State} {n : TallyId} {rest : List Byte}
    (hb : r.body = natByte n.val :: rest) (hl : s.effective r ≤ (s.table.tallies.get n).level) :
    Passes (tallyLimit r.body) r s := by
  intro v hv
  rw [hb, tallyLimit_bytes] at hv
  cases hv
  exact hl

/-- A changing request within the write level answers what its work answers. -/
theorem serve_tally {α : Type} {kind : Byte} {r : Request} {s : State} {n : TallyId} {rest : List Byte}
    {operands : State → Option α} {q : α} (ht : Taken kind r s) (hb : r.body = natByte n.val :: rest)
    (hl : s.effective r ≤ (s.table.tallies.get n).level) (hq : operands s = some q)
    {work : α → State → State × Reply} {s' : State} {body : List Byte} (hw : work q s = (s', ⟨.ok, body⟩)) :
    serve kind .both (tallyLimit r.body) operands work r s = s'.answer r kind .ok body := by
  rw [serve_taken ht rfl (passes_tallyLimit hb hl) hq, hw]

section Changing
variable {r : Request} {s : State} {n : TallyId} {v x : Word}

theorem exec_tallyAdd (ht : Taken 0x61#8 r s) (hl : s.effective r ≤ (s.table.tallies.get n).level)
    (hb : r.body = [natByte n.val] ++ wordBytes v) :
    exec (.tallyAdd r) s = .next ((s.changeTally n (s.tallies.get n + v)).answer r 0x61#8 .ok
      (wordBytes (s.tallies.get n))) :=
  congrArg Host.Outcome.next (serve_tally ht hb hl (hb ▸ parseTallyValue_bytes n v) rfl)

theorem exec_tallySwap (ht : Taken 0x62#8 r s) (hl : s.effective r ≤ (s.table.tallies.get n).level)
    (hb : r.body = [natByte n.val] ++ wordBytes v) :
    exec (.tallySwap r) s = .next ((s.changeTally n v).answer r 0x62#8 .ok (wordBytes (s.tallies.get n))) :=
  congrArg Host.Outcome.next (serve_tally ht hb hl (hb ▸ parseTallyValue_bytes n v) rfl)

theorem casWork_of_match (h : s.tallies.get n = v) : casWork (n, v, x) s =
    (s.changeTally n x, ⟨.ok, wordBytes (s.tallies.get n) ++ [flagByte true]⟩) := if_pos h

theorem casWork_of_mismatch (h : s.tallies.get n ≠ v) : casWork (n, v, x) s =
    (s, ⟨.ok, wordBytes (s.tallies.get n) ++ [flagByte false]⟩) := if_neg h

theorem exec_tallyCas (ht : Taken 0x63#8 r s) (hl : s.effective r ≤ (s.table.tallies.get n).level)
    (hb : r.body = [natByte n.val] ++ wordBytes v ++ wordBytes x) {s' : State} {body : List Byte}
    (hw : casWork (n, v, x) s = (s', ⟨.ok, body⟩)) :
    exec (.tallyCas r) s = .next (s'.answer r 0x63#8 .ok body) :=
  congrArg Host.Outcome.next (serve_tally ht hb hl (hb ▸ parseCas_bytes n v x) hw)

end Changing

/-- Settles O53: the read, the two changes that every value allows, and TALLY_CAS by whether it matches. -/
theorem tallyRequestsAct : Obligations.TallyRequestsAct := by
  intro r s n v x changed hchanged
  have hchange : ∀ y, changed y = s.changeTally n y := hchanged
  simp only [hchange]
  refine ⟨fun ht hb => exec_tallyRead ht hb, fun hl => ⟨fun hb => ⟨fun ht => ?add, fun ht => ?swap⟩,
    fun ht hb => ⟨fun hmatch => ?cas, fun hmismatch => ?casMismatch⟩⟩⟩
  case add => exact exec_tallyAdd ht hl hb
  case swap => exact exec_tallySwap ht hl hb
  case cas => exact exec_tallyCas ht hl hb (casWork_of_match hmatch)
  case casMismatch => exact exec_tallyCas ht hl hb (casWork_of_mismatch hmismatch)

end Sys2Proof.Machine
end

section
/-! PROOF of O42 and O43. LINE_PROBE with the right to act asks for a STATIC line in DRIVE alone. A phase end acts
where RC has brought the line's phase to its end, and the two samples with the polarity give its result. -/

namespace Sys2Proof.Machine

/-! ## LINE_PROBE with the right to act (R151) -/

theorem probeRefusal_of_right {r : Request} {s : State} {l : LineId}
    (hr : s.actRefusal r.port (s.effective r) l = none) : probeRefusal s r l =
      if (s.plant.line l).state = .static ∧ (s.plant.line l).mode = .drive then none
      else some .lineState := by
  unfold probeRefusal
  rw [hr]

theorem probeWork_of_static_drive {r : Request} {s : State} {l : LineId}
    (hr : s.actRefusal r.port (s.effective r) l = none) (hst : (s.plant.line l).state = .static)
    (hm : (s.plant.line l).mode = .drive) : probeWork r l s =
      (s.onPlant (Plant.startProbe r.port l),
        ⟨.accepted, [lineByte l, flagByte (s.plant.line l).level]⟩) := by
  have hnone : probeRefusal s r l = none := (probeRefusal_of_right hr).trans (if_pos ⟨hst, hm⟩)
  simp only [probeWork, hnone, lineByte]

theorem probeWork_of_other_line {r : Request} {s : State} {l : LineId}
    (hr : s.actRefusal r.port (s.effective r) l = none)
    (h : ¬ ((s.plant.line l).state = .static ∧ (s.plant.line l).mode = .drive)) :
    probeWork r l s = (s, refuse .lineState) := by
  have hsome : probeRefusal s r l = some .lineState := (probeRefusal_of_right hr).trans (if_neg h)
  simp only [probeWork, hsome]

/-- Settles O42: the probe starts on a STATIC line in DRIVE; a line in another state or mode is refused. -/
theorem probeStartsPhaseA : Obligations.ProbeStartsPhaseA := by
  intro r s l ht ho hb hr
  refine ⟨fun hst hm => exec_lineProbe ht ho hb (probeWork_of_static_drive hr hst hm), fun h =>
    exec_lineProbe ht ho hb (probeWork_of_other_line hr ?_)⟩
  rintro ⟨hst, hm⟩
  rcases h with hother | hshadow
  · exact hother hst
  · nomatch hm.symm.trans hshadow

/-! ## The ends of the phases (R152, R153; assumption log 6) -/

theorem State.phaseAEnd_of_ended {s : State} {l : LineId} {k : ProbeRec}
    (hk : (s.plant.line l).state = .probing k) (hp : k.phase = .a) (hz : k.time = 0) (sense : Bool) :
    s.phaseAEnd l sense = s.onPlant (Plant.phaseB l k sense) := by
  simp only [State.phaseAEnd, hk, hp, hz, if_true]

/-- A phase A that is not there, or has time left, does not end. -/
theorem State.phaseAEnd_of_none {s : State} {l : LineId}
    (h : ∀ k, (s.plant.line l).state = .probing k → k.phase = .a → k.time ≠ 0) (sense : Bool) :
    s.phaseAEnd l sense = s := by
  unfold State.phaseAEnd
  split
  · next k hk =>
    split
    · next hp => exact if_neg (h k hk hp)
    · rfl
  · rfl

theorem State.phaseBEnd_of_ended {s : State} {l : LineId} {k : ProbeRec} {a : Bool}
    (hk : (s.plant.line l).state = .probing k) (hp : k.phase = .b a) (hz : k.time = 0) (sense : Bool) :
    s.phaseBEnd l sense =
      s.onPlant (Plant.endProbe (s.table.lines.get l).polarity l k a sense) := by
  simp only [State.phaseBEnd, hk, hp, hz, if_true]

/-- A phase B that is not there, or has time left, does not end. -/
theorem State.phaseBEnd_of_none {s : State} {l : LineId}
    (h : ∀ k a, (s.plant.line l).state = .probing k → k.phase = .b a → k.time ≠ 0) (sense : Bool) :
    s.phaseBEnd l sense = s := by
  unfold State.phaseBEnd
  split
  · next k hk =>
    split
    · rfl
    · next a hp => exact if_neg (h k a hk hp)
  · rfl

/-! ## The result of the samples (R153) -/

/-- What the table of R153 gives for two samples under a polarity is their result. -/
theorem classify_eq_of_table {pol : Polarity} {a b : Bool} {result : ProbeResult}
    (hhigh : a = true → b = true → result = .stuckHigh)
    (hlow : a = false → b = false → result = .stuckLow)
    (hfall : a = true → b = false → pol = .activeHigh → result = .follows)
    (hfallLow : a = true → b = false → pol = .activeLow → result = .inverted)
    (hrise : a = false → b = true → pol = .activeHigh → result = .inverted)
    (hriseLow : a = false → b = true → pol = .activeLow → result = .follows) :
    classify pol a b = result := by
  cases a with
  | true =>
    cases b with
    | true => exact (hhigh rfl rfl).symm
    | false =>
      cases pol with
      | activeHigh => exact (hfall rfl rfl rfl).symm
      | activeLow => exact (hfallLow rfl rfl rfl).symm
  | false =>
    cases b with
    | false => exact (hlow rfl rfl).symm
    | true =>
      cases pol with
      | activeHigh => exact (hrise rfl rfl rfl).symm
      | activeLow => exact (hriseLow rfl rfl rfl).symm

/-! ## The abort by a winner (R154) -/

theorem Plant.clearLine_of_probing {w : Plant} {l : LineId} {k : ProbeRec}
    (hk : (w.line l).state = .probing k) (p : Port) : w.clearLine l p =
      (w.setLine l (Line.rest k.saved .static)).post k.requester (lineByte l) 0#16
        (.probeAborted k.phase k.saved p) := by
  simp only [Plant.clearLine, hk]

/-- Settles O43: each phase end where its phase has run out and where it has not, and the abort. -/
theorem probePhasesEnd : Obligations.ProbePhasesEnd := by
  refine ⟨fun s l k sense hk hz => ⟨fun hp => ?phaseA, ?phaseB⟩, fun s l sense =>
    ⟨fun h => ?noPhaseA, fun h => ?noPhaseB⟩, fun w l k p hk => Plant.clearLine_of_probing hk p⟩
  case phaseA => exact congrArg Host.Outcome.next (State.phaseAEnd_of_ended hk hp hz sense)
  case phaseB =>
    intro a result hp hhigh hlow hfall hfallLow hrise hriseLow
    rw [← classify_eq_of_table hhigh hlow hfall hfallLow hrise hriseLow]
    exact congrArg Host.Outcome.next (State.phaseBEnd_of_ended hk hp hz sense)
  case noPhaseA => exact congrArg Host.Outcome.next (State.phaseAEnd_of_none h sense)
  case noPhaseB => exact congrArg Host.Outcome.next (State.phaseBEnd_of_none h sense)

end Sys2Proof.Machine
end

section
/-! PROOF of O5 to O8. A transaction's bytes are framed by three tests in a row, and the bytes that a command
sends are framed as that command. The shift buffer at the rise holds a transaction's bytes, whatever part of them
came with the fall, and a request whose bits it does not open with is not taken. -/

namespace Sys2Proof

/-! ## Requests by their KIND (spec/10, section 10.5) -/

/-- A command that carries a record is the one that its KIND names. -/
theorem Instr.ofKind_of_record : ∀ {i : Instr} {kind : Byte} {r : Request}, i.record? = some (kind, r) →
    Instr.ofKind kind r i.sense = some i
  | .nop r, _, _, h => Laws.Spelling.nop r _ _ h
  | .identify r, _, _, h => Laws.Spelling.identify r _ _ h
  | .status r, _, _, h => Laws.Spelling.status r _ _ h
  | .noticeRead r, _, _, h => Laws.Spelling.noticeRead r _ _ h
  | .portReset r, _, _, h => Laws.Spelling.portReset r _ _ h
  | .subscribe r, _, _, h => Laws.Spelling.subscribe r _ _ h
  | .configRead r, _, _, h => Laws.Spelling.configRead r _ _ h
  | .configWrite r, _, _, h => Laws.Spelling.configWrite r _ _ h
  | .endSetup r, _, _, h => Laws.Spelling.endSetup r _ _ h
  | .tbHold r, _, _, h => Laws.Spelling.tbHold r _ _ h
  | .tbStart r, _, _, h => Laws.Spelling.tbStart r _ _ h
  | .schedule r, _, _, h => Laws.Spelling.schedule r _ _ h
  | .cancel r, _, _, h => Laws.Spelling.cancel r _ _ h
  | .entryMove r, _, _, h => Laws.Spelling.entryMove r _ _ h
  | .entryRead r, _, _, h => Laws.Spelling.entryRead r _ _ h
  | .lineMode r, _, _, h => Laws.Spelling.lineMode r _ _ h
  | .lineRead r b, _, _, h => Laws.Spelling.lineRead r b _ _ h
  | .waveRestart r, _, _, h => Laws.Spelling.waveRestart r _ _ h
  | .lineProbe r, _, _, h => Laws.Spelling.lineProbe r _ _ h
  | .leaseTake r, _, _, h => Laws.Spelling.leaseTake r _ _ h
  | .leaseRenew r, _, _, h => Laws.Spelling.leaseRenew r _ _ h
  | .leaseRelease r, _, _, h => Laws.Spelling.leaseRelease r _ _ h
  | .leaseRead r, _, _, h => Laws.Spelling.leaseRead r _ _ h
  | .captureRead r, _, _, h => Laws.Spelling.captureRead r _ _ h
  | .tallyRead r, _, _, h => Laws.Spelling.tallyRead r _ _ h
  | .tallyAdd r, _, _, h => Laws.Spelling.tallyAdd r _ _ h
  | .tallySwap r, _, _, h => Laws.Spelling.tallySwap r _ _ h
  | .tallyCas r, _, _, h => Laws.Spelling.tallyCas r _ _ h

/-- Whether a KIND names a request does not depend on what else the record carries. -/
theorem Instr.ofKind_eq_none {kind : Byte} {r : Request} {b : Bool} (h : Instr.ofKind kind r b = none)
    (r' : Request) (b' : Bool) : Instr.ofKind kind r' b' = none := by
  unfold Instr.ofKind at h ⊢
  split at h
  case h_29 => rfl
  all_goals nomatch h

theorem Instr.wireBytes_of_record {i : Instr} {kind : Byte} {r : Request} (h : i.record? = some (kind, r)) :
    i.wireBytes = some (r.port, recordBytes kind r.head r.body ++ r.filler, r.tail) := by
  unfold Instr.wireBytes
  split
  · nomatch h
  · rw [h]; rfl

/-- A command without a record that puts bytes on a port is an UNDECODED_REQUEST. -/
theorem Instr.undecoded_of_wireBytes {i : Instr} {p : Port} {bytes : List Byte} {tail : List Bool}
    (h : i.wireBytes = some (p, bytes, tail)) (hn : i.record? = none) :
    i = .undecodedRequest p ⟨bytes, tail⟩ := by
  unfold Instr.wireBytes at h
  split at h
  · cases h; rfl
  · rw [hn] at h; nomatch h

theorem Instr.fits_of_wf {i : Instr} {kind : Byte} {r : Request} (h : i.wf = true)
    (hr : i.record? = some (kind, r)) : r.body.length ≤ Config.maxBody := by
  unfold Instr.wf at h
  split at h
  · nomatch hr
  · simp only [hr, decide_eq_true_eq] at h
    exact h.1

/-! ## Framing (R160) -/

/-- What framing makes of a transaction of three bytes or more. -/
theorem frame_transaction (kind head len : Byte) (rest : List Byte) :
    frame ((kind :: head :: len :: rest).take Config.shiftDepth) (kind :: head :: len :: rest).length =
      if (kind :: head :: len :: rest).length < 4 + len.toNat then .refused .frameShort
      else if 32 < len.toNat then .refused .badCheck
      else if rest[len.toNat]? = some (crc8 (kind :: head :: len :: rest.take len.toNat)) then
        .framed kind head (rest.take len.toNat)
      else .refused .badCheck := by
  have hcut : (kind :: head :: len :: rest).take Config.shiftDepth = kind :: head :: len :: rest.take 33 := rfl
  rw [hcut]
  unfold frame
  refine if_congr Iff.rfl rfl ?_
  by_cases hlen : 32 < len.toNat
  · exact (if_pos hlen).trans (if_pos hlen).symm
  · have hmax : ¬ Config.maxBody < len.toNat := hlen
    simp only [if_neg hmax, if_neg hlen, List.take_take, min_eq_left (show len.toNat ≤ 33 by omega),
      List.getElem?_take_of_lt (show len.toNat < 33 by omega)]

/-- Fewer than three bytes hold no LEN. -/
theorem frame_short {bytes : List Byte} (h : bytes.length < 3) :
    frame (bytes.take Config.shiftDepth) bytes.length = .refused .frameShort := by
  match bytes, h with
  | [], _ | [_], _ | [_, _], _ => rfl
  | _ :: _ :: _ :: _, h => simp only [List.length_cons] at h; omega

theorem undecodedStatus_of_refused {kept : List Byte} {count : Nat} {st : Status}
    (h : frame kept count = .refused st) : undecodedStatus kept count = some st := by
  unfold undecodedStatus
  rw [h]

theorem undecodedStatus_of_badKind {kept : List Byte} {count : Nat} {kind head : Byte} {body : List Byte}
    (h : frame kept count = .framed kind head body)
    (hk : Instr.ofKind kind ⟨0, head, body, [], []⟩ false = none) : undecodedStatus kept count = some .badKind := by
  unfold undecodedStatus
  simp only [h, hk]

theorem decodeTransaction_of_framed {p : Port} {bytes : List Byte} {tail : List Bool} {sense : Bool}
    {kind head : Byte} {body : List Byte} {i : Instr}
    (h : frame (bytes.take Config.shiftDepth) bytes.length = .framed kind head body)
    (hk : Instr.ofKind kind ⟨p, head, body, bytes.drop (4 + body.length), tail⟩ sense = some i) :
    decodeTransaction p bytes tail sense = i := by
  unfold decodeTransaction
  simp only [h, hk]

/-- Bytes that framing or the KIND refuses spell no request (R160, R163 step 3). -/
theorem decodeTransaction_of_undecoded {bytes : List Byte}
    (h : (undecodedStatus (bytes.take Config.shiftDepth) bytes.length).isSome = true) (p : Port)
    (tail : List Bool) (sense : Bool) :
    decodeTransaction p bytes tail sense = .undecodedRequest p ⟨bytes, tail⟩ := by
  unfold undecodedStatus at h
  unfold decodeTransaction
  cases hf : frame (bytes.take Config.shiftDepth) bytes.length with
  | refused st => rfl
  | framed kind head body =>
    rw [hf] at h
    cases hk : Instr.ofKind kind ⟨0, head, body, [], []⟩ false with
    | some i => simp only [hk, Option.isSome_none, Bool.false_eq_true] at h
    | none => simp only [Instr.ofKind_eq_none hk]

/-! ## The round trip (R160, R164) -/

theorem recordBytes_length (kind head : Byte) (body : List Byte) :
    (recordBytes kind head body).length = 4 + body.length := by
  simp only [recordBytes, List.length_append, List.length_cons, List.length_nil]
  omega

/-- The bytes of a request, with filler behind them, spell that request. -/
theorem decodeTransaction_of_record {i : Instr} {kind : Byte} {r : Request} (h : i.record? = some (kind, r))
    (hf : r.body.length ≤ Config.maxBody) :
    decodeTransaction r.port (recordBytes kind r.head r.body ++ r.filler) r.tail i.sense = i := by
  refine decodeTransaction_of_framed (Machine.frame_recordBytes _ _ _ _ hf) ?_
  rw [List.drop_left' (recordBytes_length ..)]
  exact Instr.ofKind_of_record h

/-- Settles O5: a request's record is framed as that request, and undecoded bytes stay undecoded. -/
theorem transactionsRoundTrip : Obligations.TransactionsRoundTrip := by
  intro i p bytes tail hwf hwire
  cases hrec : i.record? with
  | some record =>
    obtain ⟨kind, r⟩ := record
    rw [Instr.wireBytes_of_record hrec] at hwire
    cases hwire
    exact decodeTransaction_of_record hrec (Instr.fits_of_wf hwf hrec)
  | none =>
    obtain rfl := Instr.undecoded_of_wireBytes hwire hrec
    simp only [Instr.wf, Bool.and_eq_true] at hwf
    exact decodeTransaction_of_undecoded hwf.1 p tail _

/-! ## Framing of any bytes, and the check values (R160) -/

/-- The record of a NOP is four zero bytes. -/
theorem recordBytes_nop : recordBytes 0x00#8 0x00#8 [] = List.replicate 4 0x00#8 := by decide +kernel

theorem recordBytes_identify : recordBytes 0x01#8 0x00#8 [] = [0x01#8, 0x00#8, 0x00#8, 0x6B#8] := by
  decide +kernel

/-- Transactions of four or more zero bytes: KIND, header byte, LEN and check byte are 0. -/
theorem frame_zeros (n : Nat) :
    frame ((List.replicate (4 + n) 0x00#8).take Config.shiftDepth) (List.replicate (4 + n) 0x00#8).length =
      .framed 0x00#8 0x00#8 [] := by
  have hsplit : List.replicate (4 + n) 0x00#8 = recordBytes 0x00#8 0x00#8 [] ++ List.replicate n 0x00#8 := by
    rw [List.replicate_add, recordBytes_nop]
  rw [hsplit]
  exact Machine.frame_recordBytes _ _ _ _ (Nat.zero_le _)

theorem decodeTransaction_zeros (p : Port) (tail : List Bool) (b : Bool) (n : Nat) :
    decodeTransaction p (List.replicate (4 + n) 0x00#8) tail b =
      .nop ⟨p, 0x00#8, [], List.replicate n 0x00#8, tail⟩ := by
  refine decodeTransaction_of_framed (frame_zeros n) ?_
  rw [List.drop_replicate, List.length_nil, Nat.add_zero, Nat.add_sub_cancel_left]
  rfl

/-- Settles O6, by what framing makes of a transaction. -/
theorem framingFollowsCounts : Obligations.FramingFollowsCounts := by
  refine ⟨fun bytes => ⟨fun h => undecodedStatus_of_refused (frame_short h), ?_⟩, fun p tail b =>
    ⟨decodeTransaction_zeros p tail b 0, ?identify, decodeTransaction_zeros p tail b⟩⟩
  case identify =>
    have hframe := Machine.frame_recordBytes 0x01#8 0x00#8 [] [] (Nat.zero_le _)
    rw [List.append_nil, recordBytes_identify] at hframe
    exact decodeTransaction_of_framed hframe rfl
  rintro kind head len rest rfl
  have hframe := frame_transaction kind head len rest
  refine ⟨fun hshort => ?_, fun hlong => ⟨fun hover => ?_, fun hfits hcrc => ?_, fun hfits hcrc => ?_⟩⟩
  · exact undecodedStatus_of_refused (hframe.trans (if_pos hshort))
  all_goals rw [if_neg (not_lt.mpr hlong)] at hframe
  · exact undecodedStatus_of_refused (hframe.trans (if_pos hover))
  all_goals rw [if_neg (not_lt.mpr hfits)] at hframe
  · exact undecodedStatus_of_refused (hframe.trans (if_neg hcrc))
  · rw [if_pos hcrc] at hframe
    have hbody : (rest.take len.toNat).length = len.toNat := by
      simp only [List.length_cons] at hlong
      rw [List.length_take]
      omega
    refine ⟨undecodedStatus_of_badKind hframe, fun p tail b i hk => decodeTransaction_of_framed hframe ?_⟩
    rw [hbody]
    exact hk

end Sys2Proof

namespace Sys2Proof.Machine

/-! ## The rise of CSn_n (R159, R160) -/

/-- At the rise the shift buffer holds the transaction's bytes, whatever part of them it held before. -/
theorem State.clockIn_of_hears {s : State} {p : Port} {bytes : List Byte} {tail : List Bool}
    (h : s.hears p (bytes.flatMap byteBits ++ tail) = true) (ht : tail.length < 8) :
    (s.port p).shift.clockIn ((bytes.flatMap byteBits ++ tail).drop (s.port p).shift.size) =
      ⟨bytes.take Config.shiftDepth, bytes.length, tail⟩ := by
  simp only [State.hears, Bool.and_eq_true] at h
  exact (ShiftBuffer.clockIn_rest h.2).trans (ShiftBuffer.clockIn_transaction bytes tail ht)

/-- Settles O7: the bytes that the shift buffer holds at the rise are the transaction's. -/
theorem undecodedRequestAnswered : Obligations.UndecodedRequestAnswered := by
  intro p bytes tail st s htail hhears hst
  have hbuffer := State.clockIn_of_hears hhears htail
  have hhead : (bytes.take Config.shiftDepth).headD 0x00#8 = bytes.headD 0x00#8 := by cases bytes <;> rfl
  change Host.Outcome.next (if s.hears p (bytes.flatMap byteBits ++ tail) = true then _ else s) = _
  rw [if_pos hhears, hbuffer]
  simp only [Config.shiftDepth, hst] at hhead ⊢
  rw [hhead]
  rfl

/-! ## The fall of CSn_n, and what is not taken (R159, R172; assumption log 5, 6) -/

/-- A request is not heard while RSTn is low, without a transaction begun, or against the bits shifted in. -/
theorem State.not_hears {s : State} {p : Port} {bits : List Bool}
    (h : s.rstnLow = true ∨ (s.port p).txn = none ∨
      ∀ n, (s.port p).shift ≠ ShiftBuffer.empty.clockIn (bits.take n)) : s.hears p bits = false := by
  rw [Bool.eq_false_iff]
  intro hc
  simp only [State.hears, State.listening, Bool.and_eq_true, Bool.not_eq_true'] at hc
  obtain ⟨⟨hhigh, hbegun⟩, hopens⟩ := hc
  obtain ⟨n, hn⟩ := (ShiftBuffer.opens_iff ..).mp hopens
  rcases h with hlow | hnone | hother
  · nomatch hlow.symm.trans hhigh
  · rw [hnone] at hbegun; nomatch hbegun
  · exact hother n hn

theorem exec_unheard {i : Instr} {kind : Byte} {r : Request} {s : State} (hi : i.record? = some (kind, r))
    (h : s.hears r.port (Request.bits kind r) = false) : exec i s = .next s := by
  obtain ⟨_, _, _, _, hexec, -, -⟩ := exec_request hi s
  rw [hexec, serve_unheard h]

theorem exec_transactionBegin (p : Port) (bits : List Bool) (s : State) :
    exec (.transactionBegin ⟨p, bits⟩) s =
      .next (if s.rstnLow || (s.port p).txn.isSome then s
        else s.setPort p fun x => { x with txn := some x.slot.bytes, shift := ShiftBuffer.empty.clockIn bits }) :=
  rfl

/-- A byte's bits come most significant first (R159). -/
theorem byteBits_getElem? (b : Byte) {k : Nat} (h : k < 8) : (byteBits b)[k]? = some (b.getLsbD (7 - k)) := by
  match k, h with
  | 0, _ | 1, _ | 2, _ | 3, _ | 4, _ | 5, _ | 6, _ | 7, _ => rfl

/-- Settles O8: the fall, the buffer, the order of a byte's bits, and the requests that are not heard. -/
theorem transactionsBeginAtFall : Obligations.TransactionsBeginAtFall := by
  refine ⟨fun p bits s => ⟨fun hhigh hnone => ?begins, fun h => ?stays⟩, ShiftBuffer.clockIn_transaction,
    fun b k => byteBits_getElem? b, fun i kind r s hi h => exec_unheard hi (State.not_hears h)⟩
  case begins => simp only [exec_transactionBegin, hhigh, hnone, Option.isSome_none, Bool.or_self,
    Bool.false_eq_true, if_false]
  case stays => rw [exec_transactionBegin, if_pos (by rwa [Bool.or_eq_true])]

end Sys2Proof.Machine
end

section
/-! PROOF of O4, O9, O10 and O18. What a device reset and an answer leave is read field by field; a record's layout
is its definition, written once by each code. -/

namespace Sys2Proof.Machine

/-! ## Device reset and the rise of RSTn (R172, R173; assumption log 6, 19, 21, 23, 25) -/

theorem exec_rstnRise_of_low {s : State} (h : s.rstnLow = true) : exec .rstnRise s =
    .next { s.afterRise (Config.freeInputs s.freeCount) with freeCount := s.freeCount + 1 } :=
  congrArg Host.Outcome.next (if_pos h)

theorem exec_rstnRise_of_high {s : State} (h : s.rstnLow = false) : exec .rstnRise s = .next s :=
  congrArg Host.Outcome.next (if_neg (by rw [h]; exact Bool.false_ne_true))

/-- The strap pins spell the level, LVBn being worth twice LVAn (R172). -/
theorem strapLevel_val (lva lvb : BitVec 4) (p : Port) : (strapLevel lva lvb p).val =
    2 * (if lvb.getLsbD p.val then 1 else 0) + (if lva.getLsbD p.val then 1 else 0) := by
  unfold strapLevel
  cases lvb.getLsbD p.val <;> cases lva.getLsbD p.val <;> rfl

section InReset
variable (straps : Vector Level 4) (cs : List Instr) (f : Nat)

theorem State.inReset_port (p : Port) :
    (State.inReset straps cs f).port p = PortState.reset (straps.get p) := map_get ..

theorem State.inReset_line (l : LineId) :
    (State.inReset straps cs f).plant.line l = ⟨false, .drive, .static, none⟩ := replicate_get ..

theorem State.inReset_inbox (p : Port) : (State.inReset straps cs f).plant.inbox p = ⟨[], false⟩ :=
  replicate_get ..

theorem State.inReset_ntfLow (p : Port) : (State.inReset straps cs f).ntfLow p = false := by
  unfold State.ntfLow
  rw [State.inReset_inbox]
  rfl

end InReset

/-- Settles O4: the rise by the level of RSTn, and the state of the part in reset field by field. -/
theorem deviceResetDiscardsState : Obligations.DeviceResetDiscardsState := by
  refine ⟨fun s => ⟨fun hlow => ⟨_, _, exec_rstnRise_of_low hlow⟩, exec_rstnRise_of_high⟩, fun lva lvb s =>
    ⟨_, rfl, rfl, rfl, rfl, rfl, rfl, rfl, rfl, rfl, rfl, rfl, State.inReset_line _ _ _,
      fun n => replicate_get .., fun c => replicate_get .., State.inReset_inbox _ _ _, fun p => ?port,
      fun p => ?strap, fun l => rfl, State.inReset_ntfLow _ _ _, rfl⟩⟩
  case port =>
    rw [State.inReset_port]
    exact ⟨rfl, rfl, rfl, rfl⟩
  case strap =>
    rw [State.inReset_port, ofFn_get]
    exact strapLevel_val lva lvb p

/-! ## Answers (R159, R161, R162) -/

theorem State.answer_port (s : State) (r : Request) (k : Byte) (st : Status) (b : List Byte) :
    (s.answer r k st b).port r.port = { s.port r.port with
      slot := s.response r.port k ⟨st, b⟩
      txn := none
      shift := ShiftBuffer.empty
      sent := shiftOut ((s.port r.port).txn.getD []) (Request.count r) } := State.port_setPort_self ..

theorem State.answer_port_of_ne {p : Port} {r : Request} (h : p ≠ r.port) (s : State) (k : Byte) (st : Status)
    (b : List Byte) : (s.answer r k st b).port p = s.port p :=
  (State.port_setPort ..).trans (if_neg h)

theorem shiftOut_length (record : List Byte) (n : Nat) : (shiftOut record n).length = n := by
  rw [shiftOut, List.length_append, List.length_take, List.length_replicate]
  omega

/-- The record is clocked out byte by byte, and zeros behind it. -/
theorem shiftOut_getElem? (record : List Byte) {n k : Nat} (h : k < n) : (shiftOut record n)[k]? =
    some (if k < record.length then record.getD k 0x00#8 else 0x00#8) := by
  unfold shiftOut
  by_cases hk : k < record.length
  · rw [if_pos hk, List.getElem?_append_left (by rw [List.length_take]; omega), List.getElem?_take_of_lt h,
      List.getD_eq_getElem?_getD, List.getElem?_eq_getElem hk]
    rfl
  · rw [if_neg hk, List.getElem?_append_right (by rw [List.length_take]; omega), List.length_take,
      List.getElem?_replicate_of_lt (by omega)]

/-- Settles O9, from the answering port, the other ports and the bytes clocked out. -/
theorem answerFillsSlot : Obligations.AnswerFillsSlot := by
  intro r kind st body s
  rw [State.answer_port]
  refine ⟨rfl, rfl, rfl, rfl, rfl, fun q hq => State.answer_port_of_ne hq s kind st body, rfl, ?_⟩
  intro record hrecord
  rw [hrecord]
  exact ⟨shiftOut_length .., fun k hk => shiftOut_getElem? record hk⟩

/-! ## Outputs (R68, R70, R159, R168, R169) -/

theorem State.ntfLow_iff (s : State) (p : Port) : s.ntfLow p = true ↔ (s.plant.inbox p).queue ≠ [] := by
  rw [State.ntfLow, Bool.not_eq_true', List.isEmpty_eq_false_iff]

/-- Bit `8 * n + k` of a record is bit `k` of its byte `n`, and 0 behind the record. -/
theorem flatMap_byteBits_getD (record : List Byte) (n : Nat) {k : Nat} (h : k < 8) :
    (record.flatMap byteBits).getD (8 * n + k) false = (record.getD n 0x00#8).getLsbD (7 - k) := by
  induction record generalizing n with
  | nil => simp
  | cons b bs ih =>
    rw [List.flatMap_cons]
    cases n with
    | zero =>
      rw [List.getD_append _ _ _ _ (by simp only [byteBits, List.length_cons, List.length_nil]; omega),
        List.getD_eq_getElem?_getD, Nat.mul_zero, Nat.zero_add, byteBits_getElem? b h]
      rfl
    | succ n =>
      have hlen : (byteBits b).length = 8 := rfl
      rw [List.getD_append_right _ _ _ _ (by omega), hlen, show 8 * (n + 1) + k - 8 = 8 * n + k by omega, ih,
        List.getD_cons_succ]

theorem State.sdo_of_released {s : State} {p : Port} (h : s.rstnLow = true ∨ (s.port p).txn = none) :
    s.sdo p = none := by
  unfold State.sdo
  rcases h with hlow | hnone
  · exact if_pos hlow
  · simp only [hnone, Option.map_none, ite_self]

theorem State.sdo_of_begun {s : State} {p : Port} {record : List Byte} (hhigh : s.rstnLow = false)
    (hrecord : (s.port p).txn = some record) (hpart : (s.port p).shift.part.length < 8) :
    s.sdo p = some ((record.flatMap byteBits).getD
      (8 * (s.port p).shift.count + (s.port p).shift.part.length) false) := by
  rw [flatMap_byteBits_getD record _ hpart]
  simp only [State.sdo, hhigh, hrecord, Option.map_some, Bool.false_eq_true, if_false]

/-- The pin shows the internal level in OPERATING and DRIVE alone (R70). -/
theorem State.shownLevel_eq (s : State) (l : LineId) : s.shownLevel l =
    if s.device = .operating ∧ (s.plant.line l).mode = .drive then (s.plant.line l).level
    else (s.table.lines.get l).fallback := by
  unfold State.shownLevel
  cases s.device with
  | setup => rfl
  | operating => cases (s.plant.line l).mode <;> rfl

theorem State.pin_of_high {s : State} (h : s.rstnLow = false) (l : LineId) : s.pin l =
    if (s.table.lines.get l).polarity.through (s.shownLevel l) then .high else .low :=
  if_neg (by rw [h]; exact Bool.false_ne_true)

/-- Settles O18: the queue, NTFn, SDOn, the polarities and the pins. -/
theorem outputsFollowState : Obligations.OutputsFollowState := by
  refine ⟨fun n b => ⟨fun h => ?_, fun h => ?_⟩, State.ntfLow_iff,
    fun s p => ⟨State.sdo_of_released, fun _ => State.sdo_of_begun⟩, fun _ => ⟨rfl, rfl⟩,
    fun s l => ⟨fun h => if_pos h, fun h => ?_⟩⟩
  · rw [Inbox.post_eq, if_pos h]
  · rw [Inbox.post_eq, if_neg (not_lt.mpr h)]
  · rw [State.pin_of_high h, State.shownLevel_eq]

end Sys2Proof.Machine
end

section
/-! PROOF of O10. Each clause on a code is a row of its table; the layouts of the response, the SCHEDULE body and
the notices are read off by the case of the entry or the notice. -/

namespace Sys2Proof.Machine

/-! ## Bytes, the CRC-8 and the response record (R160, R162, R164) -/

theorem natByte_toNat (k : Nat) : (natByte k).toNat = k % 256 := by
  simp [natByte]

/-- One more byte is eight shifts of the register with the byte added (R160). -/
theorem crc8_append_byte (bs : List Byte) (b : Byte) : crc8 (bs ++ [b]) =
    (fun c : Byte => if c.msb then (c <<< 1) ^^^ 0x07#8 else c <<< 1)^[8] (crc8 bs ^^^ b) := by
  unfold crc8
  rw [List.foldl_append]
  rfl

theorem Response.flags_toNat {r : Response} (h : r.queued ≤ 16) : r.flags.toNat =
    r.queued + (if r.overflow then 32 else 0) + (if r.operating then 64 else 0) := by
  unfold Response.flags
  rw [natByte_toNat]
  refine Nat.mod_eq_of_lt ?_
  split <;> split <;> omega

/-! ## The align and start byte (R164) -/

theorem Wave.shapeByte_toNat (u : Wave) : u.shapeByte.toNat =
    (if u.align = .centre then 1 else 0) + (if u.start = .inactiveFirst then 2 else 0) := by
  obtain ⟨_, _, align, start⟩ := u
  cases align <;> cases start <;> rfl

/-- The align and start byte is read by its two low bits, any other bit refused (R44). -/
theorem parseShape_eq (b : Byte) : parseShape b =
    if b.toNat < 4 then
      some (if b.getLsbD 0 then .centre else .left, if b.getLsbD 1 then .inactiveFirst else .activeFirst)
    else none := by
  revert b
  decide +kernel

/-! ## The SCHEDULE body (R164; assumption log 14) -/

theorem policyByte_eq {e : Entry} {flags : Byte}
    (h : flags.toNat = (if e.notify then 1 else 0) + (if e.latePolicy = .drop then 2 else 0)) :
    policyByte e = flags := by
  unfold policyByte
  rw [← h]
  exact BitVec.ofNat_toNat _ _ |>.trans (BitVec.setWidth_eq _)

theorem Entry.subject_eq {e : Entry} {ln : Byte} (hline : ∀ l, e.line? = some l → ln = natByte l.val)
    (hmark : e.line? = none → ln = 0xFF#8) : e.subject = ln := by
  unfold Entry.subject
  cases hl : e.line? with
  | some l => exact (hline l hl).symm
  | none => exact (hmark hl).symm

/-- The body field by field, from the codes of the action and the trigger and their parts. -/
theorem entryBody_eq {e : Entry} {due step : Word} {act ln trg flags : Byte} {trigger action : List Byte}
    (hcode : actionCode e.action.kind = act) (hsubject : e.subject = ln) (htrigger : triggerCode e.trigger = trg)
    (hflags : policyByte e = flags) (hstep : e.step.getD 0#32 = step) (hpart : triggerPart due e.trigger = trigger)
    (haction : actionPart e.action = action) : entryBody e due =
      halfBytes e.tag ++ [act, ln, trg, e.repeatCount, flags] ++ wordBytes step ++ trigger ++ action := by
  unfold entryBody
  rw [hcode, hsubject, htrigger, hflags, hstep, hpart, haction]

/-! ## Notice records (R164) -/

/-- A notice from the code and the four detail bytes of its kind. -/
theorem Notice.bytes_eq {n : Notice} {code : Byte} {detail : List Byte} (hcode : n.detail.kindCode = code)
    (hdetail : n.detail.bytes = detail) :
    n.bytes = [code, n.subject] ++ halfBytes n.tag ++ wordBytes n.tc ++ detail := by
  unfold Notice.bytes
  rw [hcode, hdetail]

/-- Settles O10: the response record, the codes row by row, the byte orders, the SCHEDULE body by its action and
trigger, and the notices by their kind. -/
theorem recordLayouts : Obligations.RecordLayouts := by
  refine ⟨fun r hr => ⟨rfl, Response.flags_toNat hr⟩, rfl, ⟨rfl, crc8_append_byte⟩, rfl, rfl, rfl, rfl,
    ⟨rfl, fun _ => rfl⟩, ⟨rfl, fun _ => rfl⟩, rfl, rfl, rfl, rfl, rfl, rfl, ⟨rfl, natByte_toNat⟩,
    ⟨fun _ => rfl, fun _ => rfl, fun _ => rfl⟩, fun _ _ => ⟨rfl, rfl⟩, fun _ _ _ _ => ⟨rfl, rfl⟩,
    fun u b => ⟨u.shapeByte_toNat, parseShape_eq b⟩, ?schedule, ?notice⟩
  case schedule =>
    intro e due step act ln trg flags trigger action hline hmark haction htrigger hflags hstep
    have ⟨hcode, hpart⟩ : actionCode e.action.kind = act ∧ actionPart e.action = action := by
      cases he : e.action with
      | mark => rw [he] at haction; exact haction.imp Eq.symm Eq.symm
      | onLine l a => cases a <;> (rw [he] at haction; exact haction.imp Eq.symm Eq.symm)
    have ⟨htrg, hoperands⟩ : triggerCode e.trigger = trg ∧ triggerPart due e.trigger = trigger := by
      cases he : e.trigger <;> (rw [he] at htrigger; exact htrigger.imp Eq.symm Eq.symm)
    have hsteps : e.step.getD 0#32 = step := by
      cases he : e.step <;> (rw [he] at hstep; exact hstep.symm)
    exact entryBody_eq hcode (Entry.subject_eq hline hmark) htrg (policyByte_eq hflags) hsteps hoperands hpart
  case notice =>
    rintro ⟨subject, tag, tc, detail⟩ code d0 d1 d2 d3 h
    cases detail with
    | done a late o left =>
      obtain ⟨rfl, rfl, rfl, rfl, rfl⟩ := h
      exact Notice.bytes_eq rfl rfl
    | superseded p v late left =>
      obtain ⟨rfl, rfl, rfl, rfl, rfl⟩ := h
      exact Notice.bytes_eq rfl rfl
    | late due =>
      obtain ⟨rfl, hdue⟩ := h
      exact Notice.bytes_eq rfl hdue.symm
    | pulseCut c remaining =>
      obtain ⟨rfl, hremaining, hcause⟩ := h
      cases c <;> obtain ⟨rfl, rfl⟩ := hcause <;>
        exact Notice.bytes_eq rfl (congrArg ([_, _] ++ ·) hremaining.symm)
    | waveApplied c period =>
      obtain ⟨rfl, rfl, hperiod, rfl⟩ := h
      exact Notice.bytes_eq rfl (congrArg ([_, _] ++ ·) hperiod.symm)
    | leaseLost c removed =>
      obtain ⟨rfl, rfl, hcause⟩ := h
      cases c <;> obtain ⟨rfl, rfl, rfl⟩ := hcause <;> exact Notice.bytes_eq rfl rfl
    | edge seq dir =>
      obtain ⟨rfl, rfl, rfl, rfl, rfl⟩ := h
      exact Notice.bytes_eq rfl rfl
    | probe result a b saved =>
      obtain ⟨rfl, rfl, rfl, rfl, rfl⟩ := h
      exact Notice.bytes_eq rfl rfl
    | probeAborted phase saved p =>
      obtain ⟨rfl, rfl, rfl, hphase⟩ := h
      cases phase <;> obtain ⟨rfl, rfl⟩ := hphase <;> exact Notice.bytes_eq rfl rfl
    | timebase old new c =>
      obtain ⟨rfl, rfl, rfl, hcause⟩ := h
      cases c <;> obtain ⟨rfl, rfl⟩ := hcause <;> exact Notice.bytes_eq rfl rfl
    | setupClosed c =>
      obtain ⟨rfl, rfl, rfl, hcause⟩ := h
      cases c <;> obtain ⟨rfl, rfl⟩ := hcause <;> exact Notice.bytes_eq rfl rfl

end Sys2Proof.Machine
end

section
/-! PROOF of O12, first part. A parser reads a body exactly where its operands are in range: the plain layouts one
by one, then the SCHEDULE body by its trigger part and its action part. -/

namespace Sys2Proof.Machine

/-! ## Plain layouts (R164) -/

theorem byteFin_isSome_iff {n : Nat} {b : Byte} : (byteFin n b).isSome = true ↔ b.toNat < n := by
  unfold byteFin
  split
  · next h => exact iff_of_true rfl h
  · next h => exact iff_of_false nofun h

theorem byteFin_of_lt {n : Nat} {b : Byte} (h : b.toNat < n) : byteFin n b = some ⟨b.toNat, h⟩ := dif_pos h

theorem parseNothing_isSome_iff {body : List Byte} : (parseNothing body).isSome = true ↔ body = [] := by
  cases body <;> simp [parseNothing]

theorem parseMask_isSome_iff {body : List Byte} : (parseMask body).isSome = true ↔ ∃ m, body = [m] := by
  match body with
  | [] | [_] | _ :: _ :: _ => simp [parseMask]

theorem parseNumber_isSome_iff {n : Nat} {body : List Byte} :
    (parseNumber n body).isSome = true ↔ ∃ a, body = [a] ∧ a.toNat < n := by
  match body with
  | [] | [_] | _ :: _ :: _ => simp [parseNumber, byteFin_isSome_iff]

theorem parseItem_isSome_iff {body : List Byte} : (parseItem body).isSome = true ↔
    ∃ code index x, body = [code, index] ∧ Item.ofCode code index = some x := by
  match body with
  | [] | [_] | [_, _] | _ :: _ :: _ :: _ => simp [parseItem, Option.isSome_iff_exists]

theorem parseWrite_isSome_iff {t : Table} {body : List Byte} : (parseWrite t body).isSome = true ↔
    ∃ code index v3 v2 v1 v0 x, body = [code, index, v3, v2, v1, v0] ∧
      Item.ofCode code index = some x ∧ (x.write t (word v3 v2 v1 v0)).isSome = true := by
  constructor
  · intro h
    unfold parseWrite at h
    split at h
    · split at h
      · next hx =>
        rw [Option.isSome_map] at h
        exact ⟨_, _, _, _, _, _, _, rfl, hx, h⟩
      · nomatch h
    · nomatch h
  · rintro ⟨code, index, v3, v2, v1, v0, x, rfl, hx, hw⟩
    simp only [parseWrite, hx, Option.isSome_map, hw]

theorem parseTag_isSome_iff {body : List Byte} : (parseTag body).isSome = true ↔ ∃ a b, body = [a, b] := by
  match body with
  | [] | [_] | [_, _] | _ :: _ :: _ :: _ => simp [parseTag]

theorem parseLiveTag_isSome_iff {body : List Byte} : (parseLiveTag body).isSome = true ↔
    ∃ a b, body = [a, b] ∧ half a b ≠ 0#16 := by
  match body with
  | [] | [_] | [_, _] | _ :: _ :: _ :: _ => simp [parseLiveTag, parseTag]

theorem parseMove_isSome_iff {body : List Byte} : (parseMove body).isSome = true ↔
    ∃ a b due, body = [a, b] ++ wordBytes due ∧ half a b ≠ 0#16 := by
  constructor
  · intro h
    unfold parseMove at h
    split at h
    · split at h
      · nomatch h
      · next hne => exact ⟨_, _, _, by rw [wordBytes_word]; rfl, hne⟩
    · nomatch h
  · rintro ⟨a, b, due, rfl, hne⟩
    exact congrArg Option.isSome (if_neg hne)

theorem parseLineMode_isSome_iff {body : List Byte} : (parseLineMode body).isSome = true ↔
    ∃ a m, body = [a, m] ∧ a.toNat < 16 ∧ m.toNat ≤ 1 := by
  constructor
  · intro h
    unfold parseLineMode at h
    split at h
    · split at h
      case h_1 ha hm => exact ⟨_, _, rfl, byteFin_isSome_iff.mp (by rw [ha]; rfl), by omega⟩
      case h_2 ha hm => exact ⟨_, _, rfl, byteFin_isSome_iff.mp (by rw [ha]; rfl), by omega⟩
      case h_3 => nomatch h
    · nomatch h
  · rintro ⟨a, m, rfl, ha, hm⟩
    rcases (by omega : m.toNat = 0 ∨ m.toNat = 1) with h | h <;> simp [parseLineMode, byteFin_of_lt ha, h]

theorem halfBytes_half (a b : Byte) : halfBytes (half a b) = [a, b] := by
  unfold half halfBytes
  have ha : (a ++ b : Half).extractLsb' 8 8 = a := by ext i hi; simp; grind
  have hb : (a ++ b : Half).extractLsb' 0 8 = b := by ext i hi; simp; grind
  rw [ha, hb]

theorem parseTake_isSome_iff {body : List Byte} : (parseTake body).isSome = true ↔
    ∃ a term, body = [a] ++ halfBytes term ∧ a.toNat < 16 ∧ 10 ≤ term.toNat ∧ term.toNat ≤ 60000 := by
  constructor
  · intro h
    unfold parseTake at h
    split at h
    · next a t1 t0 =>
      split at h
      · next ha =>
        split at h
        · next hterm =>
          exact ⟨a, half t1 t0, by rw [halfBytes_half]; rfl, byteFin_isSome_iff.mp (by rw [ha]; rfl), hterm⟩
        · nomatch h
      · nomatch h
    · nomatch h
  · rintro ⟨a, term, rfl, ha, hterm⟩
    simp only [parseTake, halfBytes, List.cons_append, List.nil_append, byteFin_of_lt ha, half_extract, hterm,
      and_self, if_true, Option.isSome_some]

theorem parseRenew_isSome_iff {body : List Byte} : (parseRenew body).isSome = true ↔
    ∃ a, body = [a] ∧ (a.toNat < 16 ∨ a = 0xFF#8) := by
  match body with
  | [] | _ :: _ :: _ => simp [parseRenew]
  | [a] =>
    by_cases ha : a = 0xFF#8
    · simp [parseRenew, ha]
    · simp [parseRenew, ha, byteFin_isSome_iff]

theorem parseTallyValue_isSome_iff {body : List Byte} : (parseTallyValue body).isSome = true ↔
    ∃ a v, body = [a] ++ wordBytes v ∧ a.toNat < 8 := by
  constructor
  · intro h
    unfold parseTallyValue at h
    split at h
    · rw [Option.isSome_map] at h
      exact ⟨_, _, by rw [wordBytes_word]; rfl, byteFin_isSome_iff.mp h⟩
    · nomatch h
  · rintro ⟨a, v, rfl, ha⟩
    exact Option.isSome_map.trans (byteFin_isSome_iff.mpr ha)

theorem parseCas_isSome_iff {body : List Byte} : (parseCas body).isSome = true ↔
    ∃ a v x, body = [a] ++ wordBytes v ++ wordBytes x ∧ a.toNat < 8 := by
  constructor
  · intro h
    unfold parseCas at h
    split at h
    · next a e3 e2 e1 e0 v3 v2 v1 v0 =>
      rw [Option.isSome_map] at h
      exact ⟨a, word e3 e2 e1 e0, word v3 v2 v1 v0, by rw [wordBytes_word, wordBytes_word]; rfl,
        byteFin_isSome_iff.mp h⟩
    · nomatch h
  · rintro ⟨a, v, x, rfl, ha⟩
    exact Option.isSome_map.trans (byteFin_isSome_iff.mpr ha)

end Sys2Proof.Machine
end

section
/-! PROOF of O12, second part. The action part of a SCHEDULE body is read, by the code of its action, exactly where
R5 and R44 allow it. -/

namespace Sys2Proof.Machine

/-! ## The action part (R5, R44) -/

theorem parseShape_isSome_iff {b : Byte} : (parseShape b).isSome = true ↔ b.toNat < 4 := by
  rw [parseShape_eq]
  split
  · next h => exact iff_of_true rfl h
  · next h => exact iff_of_false nofun h

/-- The length of the action part by the action code (R164). -/
def actionLength (code : Byte) : Nat := if code.toNat = 3 then 2 else if code.toNat = 4 then 5 else 0

theorem actionLength_of_plain {code : Byte} (h3 : code.toNat ≠ 3) (h4 : code.toNat ≠ 4) :
    actionLength code = 0 := by
  rw [actionLength, if_neg h3, if_neg h4]

theorem actionLength_of_pulse {code : Byte} (h : code.toNat = 3) : actionLength code = 2 := if_pos h

theorem actionLength_of_wave {code : Byte} (h : code.toNat = 4) : actionLength code = 5 := by
  rw [actionLength, if_neg (by omega), if_pos h]

/-- What R44 asks of an action code with its line and its part. -/
structure ActionInRange (code ln : Byte) (part : List Byte) : Prop where
  known  : code.toNat ≤ 6
  length : part.length = actionLength code
  mark   : code.toNat = 6 → ln = 0xFF#8
  line   : code.toNat ≠ 6 → ln.toNat < 16
  width  : code.toNat = 3 → half (part.getD 0 0#8) (part.getD 1 0#8) ≠ 0#16
  shape  : code.toNat = 4 → (part.getD 4 0#8).toNat < 4

section LineAction
variable {code : Byte} {part : List Byte}

theorem parseLineAction_plain (h : code.toNat = 0 ∨ code.toNat = 1 ∨ code.toNat = 2 ∨ code.toNat = 5) :
    (parseLineAction code part).isSome = true ↔ part.length = 0 := by
  unfold parseLineAction
  cases part with
  | nil => rcases h with h | h | h | h <;> (rw [h]; exact iff_of_true rfl rfl)
  | cons => rcases h with h | h | h | h <;> (rw [h]; exact iff_of_false Bool.false_ne_true (Nat.succ_ne_zero _))

theorem parseLineAction_pulse (h : code.toNat = 3) : (parseLineAction code part).isSome = true ↔
    part.length = 2 ∧ half (part.getD 0 0#8) (part.getD 1 0#8) ≠ 0#16 := by
  unfold parseLineAction
  rw [h]
  match part with
  | [] | [_] => exact iff_of_false Bool.false_ne_true nofun
  | _ :: _ :: _ :: _ => exact iff_of_false Bool.false_ne_true fun hc => by simp at hc
  | [w1, w0] =>
    change (if half w1 w0 = 0#16 then none else some _ : Option LineAction).isSome = true ↔ 2 = 2 ∧ half w1 w0 ≠ 0#16
    split
    · next hw => exact iff_of_false Bool.false_ne_true fun hc => hc.2 hw
    · next hw => exact iff_of_true rfl ⟨rfl, hw⟩

theorem parseLineAction_wave (h : code.toNat = 4) : (parseLineAction code part).isSome = true ↔
    part.length = 5 ∧ (part.getD 4 0#8).toNat < 4 := by
  unfold parseLineAction
  rw [h]
  match part with
  | [] | [_] | [_, _] | [_, _, _] | [_, _, _, _] => exact iff_of_false Bool.false_ne_true nofun
  | _ :: _ :: _ :: _ :: _ :: _ :: _ => exact iff_of_false Bool.false_ne_true fun hc => by simp at hc
  | [p1, p0, d1, d0, sh] =>
    change ((parseShape sh).map _).isSome = true ↔ 5 = 5 ∧ sh.toNat < 4
    rw [Option.isSome_map, parseShape_isSome_iff]
    exact (and_iff_right rfl).symm

theorem parseLineAction_unknown (h : 6 ≤ code.toNat) : parseLineAction code part = none := by
  unfold parseLineAction
  obtain ⟨n, hn⟩ := Nat.exists_eq_add_of_le' h
  rw [hn]
  rfl

end LineAction

/-- The part of an action with a line by its code: the plain four, PULSE with its width, WAVE with its settings. -/
theorem parseLineAction_isSome_iff {code : Byte} {part : List Byte} :
    (parseLineAction code part).isSome = true ↔ code.toNat ≤ 5 ∧ part.length = actionLength code ∧
      (code.toNat = 3 → half (part.getD 0 0#8) (part.getD 1 0#8) ≠ 0#16) ∧
      (code.toNat = 4 → (part.getD 4 0#8).toNat < 4) := by
  by_cases h6 : 6 ≤ code.toNat
  · rw [parseLineAction_unknown h6]
    exact iff_of_false Bool.false_ne_true fun hc => by omega
  by_cases h3 : code.toNat = 3
  · rw [parseLineAction_pulse h3, actionLength_of_pulse h3]
    exact ⟨fun ⟨hl, hw⟩ => ⟨by omega, hl, fun _ => hw, fun h4 => by omega⟩, fun ⟨_, hl, hw, _⟩ => ⟨hl, hw h3⟩⟩
  by_cases h4 : code.toNat = 4
  · rw [parseLineAction_wave h4, actionLength_of_wave h4]
    exact ⟨fun ⟨hl, hs⟩ => ⟨by omega, hl, fun h3 => by omega, fun _ => hs⟩, fun ⟨_, hl, _, hs⟩ => ⟨hl, hs h4⟩⟩
  rw [parseLineAction_plain (by omega), actionLength_of_plain h3 h4]
  exact ⟨fun hl => ⟨by omega, hl, fun h => absurd h h3, fun h => absurd h h4⟩, fun ⟨_, hl, _, _⟩ => hl⟩

theorem parseAction_mark {ln : Byte} {part : List Byte} : (parseAction 6#8 ln part).isSome = true ↔
    ln = 0xFF#8 ∧ part = [] := by
  unfold parseAction
  rw [if_pos rfl]
  split
  · next h => exact iff_of_true rfl h
  · next h => exact iff_of_false Bool.false_ne_true h

theorem parseAction_onLine {code ln : Byte} {part : List Byte} (h : code ≠ 6#8) :
    parseAction code ln part = (byteFin 16 ln).bind fun l => (parseLineAction code part).map (.onLine l) := by
  unfold parseAction
  rw [if_neg h]
  cases byteFin 16 ln with
  | none => rfl
  | some l => cases parseLineAction code part <;> rfl

theorem parseAction_isSome_iff {code ln : Byte} {part : List Byte} :
    (parseAction code ln part).isSome = true ↔ ActionInRange code ln part := by
  by_cases h : code = 6#8
  · subst h
    rw [parseAction_mark]
    refine ⟨fun ⟨hln, hpart⟩ => ?_, fun hr => ⟨hr.mark rfl, List.eq_nil_of_length_eq_zero hr.length⟩⟩
    subst hpart
    exact ⟨by decide, rfl, fun _ => hln, fun hc => absurd rfl hc, nofun, nofun⟩
  · have h6 : code.toNat ≠ 6 := fun hc => h (BitVec.eq_of_toNat_eq hc)
    have hsome : (parseAction code ln part).isSome = true ↔
        (byteFin 16 ln).isSome = true ∧ (parseLineAction code part).isSome = true := by
      rw [parseAction_onLine h]
      cases byteFin 16 ln <;> simp
    rw [hsome, byteFin_isSome_iff, parseLineAction_isSome_iff]
    exact ⟨fun ⟨hln, hcode, hlength, hwidth, hshape⟩ =>
        ⟨by omega, hlength, fun hc => absurd hc h6, fun _ => hln, hwidth, hshape⟩,
      fun hr => ⟨hr.line h6, by have := hr.known; omega, hr.length, hr.width, hr.shape⟩⟩

end Sys2Proof.Machine
end

section
/-! PROOF of O12, third part. Behind the eleven bytes of its front a SCHEDULE body holds the trigger part and the
action part: what R44 asks of the body falls apart by these parts, and so does the parser. -/

namespace Sys2Proof.Machine

/-! ## The trigger part and the step (R6, R7, R44) -/

/-- The length of the trigger part by the trigger code (R164). -/
def triggerLength (code : Byte) : Nat := if code.toNat = 0 then 4 else if code.toNat = 1 then 6 else 9

theorem triggerLength_of_due {code : Byte} (h : code.toNat = 0) : triggerLength code = 4 := if_pos h

theorem triggerLength_of_edge {code : Byte} (h : code.toNat = 1) : triggerLength code = 6 := by
  rw [triggerLength, if_neg (by omega), if_pos h]

theorem triggerLength_of_count {code : Byte} (h : code.toNat = 2) : triggerLength code = 9 := by
  rw [triggerLength, if_neg (by omega), if_neg (by omega)]

/-- What R44 asks of the bytes of the trigger part, by their places in it. -/
structure TriggerInRange (table : Table) (code : Byte) (at_ : Nat → Byte) : Prop where
  known : code.toNat ≤ 2
  edge  : code.toNat = 1 → at_ 1 ≠ 0#8 ∧ (word (at_ 2) (at_ 3) (at_ 4) (at_ 5)).toNat < 2 ^ 31 ∧
    ∃ c : Channel, at_ 0 = natByte c.val ∧ (table.channels.get c).select ≠ .off
  count : code.toNat = 2 → (at_ 0).toNat < 8 ∧ (word (at_ 5) (at_ 6) (at_ 7) (at_ 8)).toNat < 2 ^ 31

/-- The bytes behind the trigger part do not matter. -/
theorem TriggerInRange.congr {table : Table} {code : Byte} {f g : Nat → Byte} (h : TriggerInRange table code f)
    (hfg : ∀ k, k < triggerLength code → f k = g k) : TriggerInRange table code g where
  known := h.known
  edge h1 := by
    have hlen := triggerLength_of_edge h1
    rw [← hfg 0 (by omega), ← hfg 1 (by omega), ← hfg 2 (by omega), ← hfg 3 (by omega), ← hfg 4 (by omega),
      ← hfg 5 (by omega)]
    exact h.edge h1
  count h2 := by
    have hlen := triggerLength_of_count h2
    rw [← hfg 0 (by omega), ← hfg 5 (by omega), ← hfg 6 (by omega), ← hfg 7 (by omega), ← hfg 8 (by omega)]
    exact h.count h2

/-- What R5 and R7 ask of the step of a repeating entry. -/
def StepInRange (trg act rep : Byte) (step : Word) (part : List Byte) : Prop :=
  rep ≠ 1#8 → 1 ≤ step.toNat ∧ step.toNat ≤ (if trg.toNat = 1 then 255 else 2 ^ 31 - 1) ∧
    (trg.toNat = 0 → act.toNat = 3 → (half (part.getD 0 0#8) (part.getD 1 0#8)).toNat < step.toNat)

/-- Behind the eleven bytes of the front stand the trigger part and the action part (R164). -/
theorem scheduleInRange_iff {table : Table} {t1 t0 act ln trg rep fl s3 s2 s1 s0 : Byte}
    {trigger part : List Byte} (h : trigger.length = triggerLength trg) : ScheduleInRange table
      (t1 :: t0 :: act :: ln :: trg :: rep :: fl :: s3 :: s2 :: s1 :: s0 :: (trigger ++ part)) ↔
    TriggerInRange table trg (trigger.getD · 0#8) ∧ ActionInRange act ln part ∧ half t1 t0 ≠ 0#16 ∧ fl.toNat < 4 ∧
      StepInRange trg act rep (word s3 s2 s1 s0) part := by
  have hpart : ∀ k, (t1 :: t0 :: act :: ln :: trg :: rep :: fl :: s3 :: s2 :: s1 :: s0 ::
      (trigger ++ part)).getD (11 + triggerLength trg + k) 0#8 = part.getD k 0#8 := fun k => by
    rw [show 11 + triggerLength trg + k = trigger.length + k + 11 by omega]
    simp only [List.getD_cons_succ]
    rw [List.getD_append_right _ _ _ _ (by omega), Nat.add_sub_cancel_left]
  have hlen : (t1 :: t0 :: act :: ln :: trg :: rep :: fl :: s3 :: s2 :: s1 :: s0 ::
      (trigger ++ part)).length = 11 + triggerLength trg + part.length := by
    simp only [List.length_cons, List.length_append, h]
    omega
  have htrigger : ∀ k, k < triggerLength trg → (t1 :: t0 :: act :: ln :: trg :: rep :: fl :: s3 :: s2 :: s1 ::
      s0 :: (trigger ++ part)).getD (11 + k) 0#8 = trigger.getD k 0#8 := fun k hk => by
    rw [Nat.add_comm 11]
    simp only [List.getD_cons_succ]
    exact List.getD_append _ _ _ _ (by omega)
  unfold ScheduleInRange
  extract_lets at_ halfAt wordAt action trig p
  have hwidth : halfAt p = half (part.getD 0 0#8) (part.getD 1 0#8) := congrArg₂ half (hpart 0) (hpart 1)
  have hshape : at_ (p + 4) = part.getD 4 0#8 := hpart 4
  have hlength : ∀ n, (t1 :: t0 :: act :: ln :: trg :: rep :: fl :: s3 :: s2 :: s1 :: s0 ::
      (trigger ++ part)).length = p + n ↔ part.length = n := fun n => by
    rw [hlen]
    exact Nat.add_left_cancel_iff
  rw [hwidth, hshape, hlength]
  constructor
  · rintro ⟨hact, htrg, hl, htag, hfl, hmark, hline, hw, hs, hedge, hcount, hstep⟩
    exact ⟨TriggerInRange.congr (f := fun k => at_ (11 + k)) ⟨htrg, hedge, hcount⟩ htrigger,
      ⟨hact, hl, hmark, hline, hw, hs⟩, htag, hfl, hstep⟩
  · rintro ⟨ht, ⟨hact, hl, hmark, hline, hw, hs⟩, htag, hfl, hstep⟩
    have ht' := ht.congr (g := fun k => at_ (11 + k)) fun k hk => (htrigger k hk).symm
    exact ⟨hact, ht'.known, hl, htag, hfl, hmark, hline, hw, hs, ht'.edge, ht'.count, hstep⟩

/-! ## The parsers of the parts -/

section ParseTrigger
variable {code : Byte}

theorem parseTrigger_due (h : code.toNat = 0) (d3 d2 d1 d0 : Byte) (part : List Byte) :
    parseTrigger code (d3 :: d2 :: d1 :: d0 :: part) = some (.atDue, word d3 d2 d1 d0, part) := by
  unfold parseTrigger
  rw [h]
  rfl

theorem parseTrigger_edge (h : code.toNat = 1) (c n o3 o2 o1 o0 : Byte) (part : List Byte) :
    parseTrigger code (c :: n :: o3 :: o2 :: o1 :: o0 :: part) = (byteFin 8 c).bind fun ch =>
      if n ≠ 0#8 ∧ offsetOk (word o3 o2 o1 o0) then some (.edge ch n (word o3 o2 o1 o0), 0#32, part)
      else none := by
  unfold parseTrigger
  rw [h]
  change (match byteFin 8 c with
    | some ch => if _ then some (Trigger.edge ch _ _, _, _) else none
    | none => none) = _
  cases byteFin 8 c <;> rfl

theorem parseTrigger_count (h : code.toNat = 2) (t h3 h2 h1 h0 o3 o2 o1 o0 : Byte) (part : List Byte) :
    parseTrigger code (t :: h3 :: h2 :: h1 :: h0 :: o3 :: o2 :: o1 :: o0 :: part) = (byteFin 8 t).bind fun ty =>
      if offsetOk (word o3 o2 o1 o0) then
        some (.count ty (word h3 h2 h1 h0) (word o3 o2 o1 o0), 0#32, part)
      else none := by
  unfold parseTrigger
  rw [h]
  change (match byteFin 8 t with
    | some ty => if _ then some (Trigger.count ty _ _, _, _) else none
    | none => none) = _
  cases byteFin 8 t <;> rfl

theorem parseTrigger_unknown (h : 3 ≤ code.toNat) (rest : List Byte) : parseTrigger code rest = none := by
  unfold parseTrigger
  obtain ⟨n, hn⟩ := Nat.exists_eq_add_of_le' h
  rw [hn]
  rfl

/-- A trigger part that is cut short is none. -/
theorem parseTrigger_short {rest : List Byte} (h : rest.length < triggerLength code) :
    parseTrigger code rest = none := by
  by_cases h3 : 3 ≤ code.toNat
  · exact parseTrigger_unknown h3 rest
  unfold parseTrigger
  rcases (by omega : code.toNat = 0 ∨ code.toNat = 1 ∨ code.toNat = 2) with hc | hc | hc
  · rw [triggerLength_of_due hc] at h
    rw [hc]
    match rest, h with
    | [], _ | [_], _ | [_, _], _ | [_, _, _], _ => rfl
    | _ :: _ :: _ :: _ :: _, h => simp only [List.length_cons] at h; omega
  · rw [triggerLength_of_edge hc] at h
    rw [hc]
    match rest, h with
    | [], _ | [_], _ | [_, _], _ | [_, _, _], _ | [_, _, _, _], _ | [_, _, _, _, _], _ => rfl
    | _ :: _ :: _ :: _ :: _ :: _ :: _, h => simp only [List.length_cons] at h; omega
  · rw [triggerLength_of_count hc] at h
    rw [hc]
    match rest, h with
    | [], _ | [_], _ | [_, _], _ | [_, _, _], _ | [_, _, _, _], _ | [_, _, _, _, _], _ | [_, _, _, _, _, _], _
    | [_, _, _, _, _, _, _], _ | [_, _, _, _, _, _, _, _], _ => rfl
    | _ :: _ :: _ :: _ :: _ :: _ :: _ :: _ :: _ :: _, h => simp only [List.length_cons] at h; omega

end ParseTrigger

theorem offsetOk_iff (o : Word) : offsetOk o = true ↔ o.toNat < 2 ^ 31 := decide_eq_true_iff

theorem byteFin_eq_some_iff {n : Nat} {b : Byte} {i : Fin n} (hn : n ≤ 256) :
    byteFin n b = some i ↔ b = natByte i.val := by
  refine ⟨fun h => ?_, fun h => h ▸ byteFin_natByte i hn⟩
  unfold byteFin at h
  split at h
  · obtain rfl := Option.some.inj h
    exact (BitVec.ofNat_toNat 8 b |>.trans (BitVec.setWidth_eq b)).symm
  · nomatch h

theorem channelUsable_edge (table : Table) (c : Channel) (n : Byte) (o : Word) :
    channelUsable table (.edge c n o) = true ↔ (table.channels.get c).select ≠ .off := bne_iff_ne

/-- The trigger part of a code is read as a trigger of that code, usable where it is in range, or is out of range. -/
def TriggerRead (table : Table) (code : Byte) (trigger part : List Byte) : Prop :=
  (∃ t due, parseTrigger code (trigger ++ part) = some (t, due, part) ∧ triggerCode t = code ∧
    (channelUsable table t = true ↔ TriggerInRange table code (trigger.getD · 0#8))) ∨
  parseTrigger code (trigger ++ part) = none ∧ ¬ TriggerInRange table code (trigger.getD · 0#8)

theorem triggerRead_due {table : Table} {code : Byte} (hc : code.toNat = 0) (d3 d2 d1 d0 : Byte)
    (part : List Byte) : TriggerRead table code [d3, d2, d1, d0] part :=
  .inl ⟨_, _, parseTrigger_due hc .., (BitVec.eq_of_toNat_eq hc).symm,
    iff_of_true rfl ⟨by omega, fun h1 => by omega, fun h2 => by omega⟩⟩

theorem triggerRead_edge {table : Table} {code : Byte} (hc : code.toNat = 1) (c n o3 o2 o1 o0 : Byte)
    (part : List Byte) : TriggerRead table code [c, n, o3, o2, o1, o0] part := by
  have hparse := parseTrigger_edge hc c n o3 o2 o1 o0 part
  cases hch : byteFin 8 c with
  | none =>
    rw [hch] at hparse
    refine .inr ⟨hparse, fun hr => ?_⟩
    obtain ⟨-, -, ch, hbyte, -⟩ := hr.edge hc
    nomatch hch.symm.trans ((byteFin_eq_some_iff (by decide)).mpr hbyte)
  | some ch =>
    rw [hch] at hparse
    by_cases hok : n ≠ 0#8 ∧ offsetOk (word o3 o2 o1 o0) = true
    · refine .inl ⟨_, _, hparse.trans (if_pos hok), (BitVec.eq_of_toNat_eq hc).symm, ?_⟩
      rw [channelUsable_edge]
      refine ⟨fun hsel => ⟨by omega, fun _ => ⟨hok.1, (offsetOk_iff _).mp hok.2, ch,
        (byteFin_eq_some_iff (by decide)).mp hch, hsel⟩, fun h2 => by omega⟩, fun hr => ?_⟩
      obtain ⟨-, -, ch', hbyte, hsel⟩ := hr.edge hc
      obtain rfl := Option.some.inj (hch.symm.trans ((byteFin_eq_some_iff (by decide)).mpr hbyte))
      exact hsel
    · refine .inr ⟨hparse.trans (if_neg hok), fun hr => hok ?_⟩
      obtain ⟨hn, ho, -⟩ := hr.edge hc
      exact ⟨hn, (offsetOk_iff _).mpr ho⟩

theorem triggerRead_count {table : Table} {code : Byte} (hc : code.toNat = 2) (t h3 h2 h1 h0 o3 o2 o1 o0 : Byte)
    (part : List Byte) : TriggerRead table code [t, h3, h2, h1, h0, o3, o2, o1, o0] part := by
  have hparse := parseTrigger_count hc t h3 h2 h1 h0 o3 o2 o1 o0 part
  by_cases ht : t.toNat < 8
  · rw [byteFin_of_lt ht] at hparse
    by_cases hok : offsetOk (word o3 o2 o1 o0) = true
    · exact .inl ⟨_, _, hparse.trans (if_pos hok), (BitVec.eq_of_toNat_eq hc).symm,
        iff_of_true rfl ⟨by omega, fun h1 => by omega, fun _ => ⟨ht, (offsetOk_iff _).mp hok⟩⟩⟩
    · exact .inr ⟨hparse.trans (if_neg hok), fun hr => hok ((offsetOk_iff _).mpr (hr.count hc).2)⟩
  · rw [show byteFin 8 t = none from dif_neg ht] at hparse
    exact .inr ⟨hparse, fun hr => ht (hr.count hc).1⟩

theorem triggerRead_of_length (table : Table) {code : Byte} {trigger : List Byte}
    (h : trigger.length = triggerLength code) (part : List Byte) : TriggerRead table code trigger part := by
  by_cases h3 : 3 ≤ code.toNat
  · exact .inr ⟨parseTrigger_unknown h3 _, fun hr => by have := hr.known; omega⟩
  rcases (by omega : code.toNat = 0 ∨ code.toNat = 1 ∨ code.toNat = 2) with hc | hc | hc
  · rw [triggerLength_of_due hc] at h
    match trigger, h with
    | [_, _, _, _], _ => exact triggerRead_due hc ..
  · rw [triggerLength_of_edge hc] at h
    match trigger, h with
    | [_, _, _, _, _, _], _ => exact triggerRead_edge hc ..
  · rw [triggerLength_of_count hc] at h
    match trigger, h with
    | [_, _, _, _, _, _, _, _, _], _ => exact triggerRead_count hc ..

/-! ## The step (R5, R7) -/

/-- A PULSE has the code 3, and its width is the action part. -/
theorem parseLineAction_eq_some {code : Byte} {part : List Byte} {a : LineAction}
    (h : parseLineAction code part = some a) :
    (code.toNat = 3 → a = .pulse (half (part.getD 0 0#8) (part.getD 1 0#8))) ∧
    (code.toNat ≠ 3 → ∀ width, a ≠ .pulse width) := by
  obtain ⟨hcode, hlength, hwidth, -⟩ := parseLineAction_isSome_iff.mp (Option.isSome_of_eq_some h)
  unfold parseLineAction at h
  by_cases h3 : code.toNat = 3
  · refine ⟨fun _ => ?_, fun hc => absurd h3 hc⟩
    obtain ⟨w1, w0, rfl⟩ := List.length_eq_two.mp (hlength.trans (actionLength_of_pulse h3))
    rw [h3] at h
    exact (Option.some.inj ((if_neg (hwidth h3)).symm.trans h)).symm
  refine ⟨fun hc => absurd hc h3, fun _ width => ?_⟩
  by_cases h4 : code.toNat = 4
  · have hlen := hlength.trans (actionLength_of_wave h4)
    match part, hlen with
    | [p1, p0, d1, d0, sh], _ =>
      rw [h4] at h
      obtain ⟨_, -, rfl⟩ := Option.map_eq_some_iff.mp h
      nofun
  · obtain rfl := List.eq_nil_of_length_eq_zero (hlength.trans (actionLength_of_plain h3 h4))
    rcases (by omega : code.toNat = 0 ∨ code.toNat = 1 ∨ code.toNat = 2 ∨ code.toNat = 5) with hc | hc | hc | hc <;>
      (rw [hc] at h; obtain rfl := Option.some.inj h; nofun)

theorem eq_mark_of_parseAction {ln : Byte} {part : List Byte} {a : Action}
    (h : parseAction 6#8 ln part = some a) : a = .mark := by
  unfold parseAction at h
  rw [if_pos rfl] at h
  split at h
  · exact (Option.some.inj h).symm
  · nomatch h

/-- Only an AT-triggered PULSE asks more of its step than the range (R5). -/
theorem pulseFits_iff {code ln : Byte} {part : List Byte} {a : Action} (h : parseAction code ln part = some a)
    (t : Trigger) (step : Word) : pulseFits t a step = true ↔
      (t = .atDue → code.toNat = 3 → (half (part.getD 0 0#8) (part.getD 1 0#8)).toNat < step.toNat) := by
  cases t with
  | edge _ _ _ => exact iff_of_true rfl nofun
  | count _ _ _ => exact iff_of_true rfl nofun
  | atDue =>
    by_cases h6 : code = 6#8
    · subst h6
      obtain rfl := eq_mark_of_parseAction h
      exact iff_of_true rfl nofun
    · rw [parseAction_onLine h6] at h
      obtain ⟨l, -, hmap⟩ := Option.bind_eq_some_iff.mp h
      obtain ⟨la, hla, rfl⟩ := Option.map_eq_some_iff.mp hmap
      obtain ⟨hpulse, hother⟩ := parseLineAction_eq_some hla
      by_cases h3 : code.toNat = 3
      · obtain rfl := hpulse h3
        exact decide_eq_true_iff.trans ⟨fun hw _ _ => hw, fun hw => hw rfl h3⟩
      · refine iff_of_true ?_ fun _ hc => absurd hc h3
        cases la with
        | pulse width => exact absurd rfl (hother h3 width)
        | set => rfl
        | clear => rfl
        | toggle => rfl
        | wave _ => rfl
        | waveStop => rfl

theorem triggerCode_eq_zero (t : Trigger) : (triggerCode t).toNat = 0 ↔ t = .atDue := by
  cases t with
  | atDue => exact iff_of_true rfl rfl
  | edge _ _ _ => exact iff_of_false nofun nofun
  | count _ _ _ => exact iff_of_false nofun nofun

theorem stepInRange_iff (t : Trigger) (step : Word) : stepInRange t step = true ↔
    1 ≤ step.toNat ∧ step.toNat ≤ if (triggerCode t).toNat = 1 then 255 else 2 ^ 31 - 1 := by
  have hlong : 1 ≤ step.toNat ∧ step.toNat < 2 ^ 31 ↔ 1 ≤ step.toNat ∧ step.toNat ≤ 2 ^ 31 - 1 := by omega
  cases t with
  | edge _ _ _ => exact decide_eq_true_iff
  | atDue => exact decide_eq_true_iff.trans hlong
  | count _ _ _ => exact decide_eq_true_iff.trans hlong

theorem parseStep_isSome_iff (t : Trigger) (a : Action) (rep : Byte) (step : Word) :
    (parseStep t a rep step).isSome = true ↔
      (rep ≠ 1#8 → stepInRange t step = true ∧ pulseFits t a step = true) := by
  unfold parseStep
  by_cases hrep : rep = 1#8
  · rw [if_pos hrep]
    exact iff_of_true rfl fun h => absurd hrep h
  · rw [if_neg hrep, ← Bool.and_eq_true]
    split
    · next h => exact iff_of_true rfl fun _ => h
    · next h => exact iff_of_false Bool.false_ne_true fun hc => h (hc hrep)

/-- The step of a SCHEDULE body is read where R5 and R7 allow it. -/
theorem parseStep_isSome_iff_inRange {act ln : Byte} {part : List Byte} {a : Action}
    (h : parseAction act ln part = some a) (t : Trigger) (rep : Byte) (step : Word) :
    (parseStep t a rep step).isSome = true ↔ StepInRange (triggerCode t) act rep step part := by
  rw [parseStep_isSome_iff, stepInRange_iff, pulseFits_iff h]
  simp only [StepInRange, triggerCode_eq_zero, and_assoc]

/-! ## The whole body (R44) -/

section Schedule
variable {s : State} {r : Request} {t1 t0 act ln trg rep fl s3 s2 s1 s0 : Byte} {rest : List Byte}

/-- A body with no room for the eleven bytes of its front is none. -/
theorem parseSchedule_short (h : r.body.length < 11) : parseSchedule s r = none := by
  unfold parseSchedule
  split
  · next hb => simp only [hb, List.length_cons] at h; omega
  · rfl

theorem parseSchedule_of_no_trigger
    (hb : r.body = t1 :: t0 :: act :: ln :: trg :: rep :: fl :: s3 :: s2 :: s1 :: s0 :: rest)
    (h : parseTrigger trg rest = none) : parseSchedule s r = none := by
  simp only [parseSchedule, hb, h]

theorem parseSchedule_isSome_of_trigger
    (hb : r.body = t1 :: t0 :: act :: ln :: trg :: rep :: fl :: s3 :: s2 :: s1 :: s0 :: rest) {t : Trigger}
    {due : Word} {part : List Byte} (h : parseTrigger trg rest = some (t, due, part)) :
    (parseSchedule s r).isSome = true ↔ (∃ a, parseAction act ln part = some a ∧
      (parseStep t a rep (word s3 s2 s1 s0)).isSome = true) ∧ half t1 t0 ≠ 0#16 ∧ fl.toNat < 4 ∧
        channelUsable s.table t = true := by
  simp only [parseSchedule, hb, h]
  cases parseAction act ln part with
  | none => exact iff_of_false Bool.false_ne_true nofun
  | some a =>
    dsimp only
    cases hstep : parseStep t a rep (word s3 s2 s1 s0) with
    | none =>
      refine iff_of_false Bool.false_ne_true ?_
      rintro ⟨⟨_, ⟨⟩, hc⟩, -⟩
      rw [hstep] at hc
      nomatch hc
    | some step =>
      dsimp only
      split
      · next hc => exact iff_of_true rfl ⟨⟨a, rfl, Option.isSome_of_eq_some hstep⟩, hc⟩
      · next hc => exact iff_of_false Bool.false_ne_true fun hr => hc hr.2

end Schedule

theorem exists_cons_of_succ_le_length {α : Type} {n : Nat} {xs : List α} (h : n + 1 ≤ xs.length) :
    ∃ x ys, xs = x :: ys ∧ n ≤ ys.length := by
  cases xs with
  | nil => nomatch h
  | cons x ys => exact ⟨x, ys, rfl, Nat.le_of_succ_le_succ h⟩

/-- A body of eleven bytes or more has a front. -/
theorem exists_front {body : List Byte} (h : 11 ≤ body.length) : ∃ t1 t0 act ln trg rep fl s3 s2 s1 s0 rest,
    body = t1 :: t0 :: act :: ln :: trg :: rep :: fl :: s3 :: s2 :: s1 :: s0 :: rest := by
  obtain ⟨t1, b1, rfl, h10⟩ := exists_cons_of_succ_le_length h
  obtain ⟨t0, b2, rfl, h9⟩ := exists_cons_of_succ_le_length h10
  obtain ⟨act, b3, rfl, h8⟩ := exists_cons_of_succ_le_length h9
  obtain ⟨ln, b4, rfl, h7⟩ := exists_cons_of_succ_le_length h8
  obtain ⟨trg, b5, rfl, h6⟩ := exists_cons_of_succ_le_length h7
  obtain ⟨rep, b6, rfl, h5⟩ := exists_cons_of_succ_le_length h6
  obtain ⟨fl, b7, rfl, h4⟩ := exists_cons_of_succ_le_length h5
  obtain ⟨s3, b8, rfl, h3⟩ := exists_cons_of_succ_le_length h4
  obtain ⟨s2, b9, rfl, h2⟩ := exists_cons_of_succ_le_length h3
  obtain ⟨s1, b10, rfl, h1⟩ := exists_cons_of_succ_le_length h2
  obtain ⟨s0, rest, rfl, -⟩ := exists_cons_of_succ_le_length h1
  exact ⟨t1, t0, act, ln, trg, rep, fl, s3, s2, s1, s0, rest, rfl⟩

/-- What is in range is long enough for its trigger part. -/
theorem length_of_scheduleInRange {table : Table} {body : List Byte} (h : ScheduleInRange table body) :
    11 + triggerLength (body.getD 4 0#8) ≤ body.length := by
  obtain ⟨-, -, hlength, -⟩ := h
  rw [hlength]
  exact Nat.le_add_right ..

/-- A SCHEDULE body is read exactly where R44 allows it. -/
theorem parseSchedule_isSome_iff {s : State} {r : Request} :
    (parseSchedule s r).isSome = true ↔ ScheduleInRange s.table r.body := by
  by_cases hshort : r.body.length < 11
  · rw [parseSchedule_short hshort]
    exact iff_of_false Bool.false_ne_true fun h => by have := length_of_scheduleInRange h; omega
  obtain ⟨t1, t0, act, ln, trg, rep, fl, s3, s2, s1, s0, rest, hb⟩ := exists_front (not_lt.mp hshort)
  by_cases hrest : rest.length < triggerLength trg
  · rw [parseSchedule_of_no_trigger hb (parseTrigger_short hrest)]
    refine iff_of_false Bool.false_ne_true fun h => ?_
    have hlen := length_of_scheduleInRange h
    simp only [hb, List.getD_cons_succ, List.getD_cons_zero, List.length_cons] at hlen
    omega
  obtain ⟨trigger, part, rfl, htrigger⟩ : ∃ trigger part, rest = trigger ++ part ∧
      trigger.length = triggerLength trg :=
    ⟨_, _, (List.take_append_drop ..).symm, List.length_take_of_le (not_lt.mp hrest)⟩
  rw [hb, scheduleInRange_iff htrigger]
  rcases triggerRead_of_length s.table htrigger part with ⟨t, due, hparse, hcode, husable⟩ | ⟨hnone, hout⟩
  · rw [parseSchedule_isSome_of_trigger hb hparse, husable, ← parseAction_isSome_iff, ← hcode]
    constructor
    · rintro ⟨⟨a, ha, hstep⟩, htag, hfl, ht⟩
      exact ⟨ht, Option.isSome_of_eq_some ha, htag, hfl, (parseStep_isSome_iff_inRange ha ..).mp hstep⟩
    · rintro ⟨ht, ha, htag, hfl, hstep⟩
      obtain ⟨a, ha⟩ := Option.isSome_iff_exists.mp ha
      exact ⟨⟨a, ha, (parseStep_isSome_iff_inRange ha ..).mpr hstep⟩, htag, hfl, ht⟩
  · rw [parseSchedule_of_no_trigger hb hnone]
    exact iff_of_false Bool.false_ne_true fun h => hout h.1

end Sys2Proof.Machine
end

section
/-! PROOF of O11 to O13. Every request is one `serve` whose operands are there exactly where they are in range, and
whose work either accepts the request or refuses it with nothing changed; the checks before it come in their order. -/

namespace Sys2Proof.Machine

/-! ## What the work of a request answers (R162) -/

/-- The work accepts the request, or refuses it with a status of its own and nothing changed. -/
inductive Answered (s : State) : State × Reply → Prop where
  | ok (t : State) (body : List Byte) : Answered s (t, ⟨.ok, body⟩)
  | accepted (t : State) (body : List Byte) : Answered s (t, ⟨.accepted, body⟩)
  | refused {st : Status} (h : st ≠ .badField) : Answered s (s, refuse st)

theorem Answered.ne_badField {s : State} {x : State × Reply} (h : Answered s x) : x.2.status ≠ .badField := by
  cases h with
  | ok => nofun
  | accepted => nofun
  | refused h => exact h

theorem Answered.eq_refuse {s : State} {x : State × Reply} (h : Answered s x) (hok : x.2.status ≠ .ok)
    (hacc : x.2.status ≠ .accepted) : x = (s, refuse x.2.status) := by
  cases h with
  | ok => exact absurd rfl hok
  | accepted => exact absurd rfl hacc
  | refused => rfl

theorem actRefusal_ne_badField {s : State} {p : Port} {v : Level} {l : LineId} {st : Status}
    (h : s.actRefusal p v l = some st) : st ≠ .badField := by
  unfold State.actRefusal at h
  rintro rfl
  split at h <;> split at h <;> nomatch h

theorem answered_configWrite (q : ItemWrite) (s : State) : Answered s (configWriteWork q s) := by
  unfold configWriteWork
  split
  · exact .ok ..
  · exact .refused nofun

theorem Plant.hold_status (p : Port) (timeout : Nat) (w : Plant) :
    (w.hold p timeout).2 = .ok ∨ (w.hold p timeout).2 = .accepted := by
  unfold Plant.hold
  split
  · split
    · exact .inl rfl
    · exact .inr rfl
  · exact .inl rfl

theorem answered_tbHold (p : Port) (u : Unit) (s : State) : Answered s (holdWork p u s) := by
  have h := Plant.hold_status p s.table.holdTimeout s.plant
  unfold holdWork
  generalize s.plant.hold p s.table.holdTimeout = q at h ⊢
  obtain ⟨w, st⟩ := q
  rcases h with (rfl : st = .ok) | (rfl : st = .accepted)
  · exact .ok ..
  · exact .accepted ..

theorem scheduleRefusal_ne_badField {s : State} {e : Entry} {due : Word} {st : Status}
    (h : scheduleRefusal s e due = some st) : st ≠ .badField := by
  unfold scheduleRefusal at h
  split at h
  · next st' hr =>
    obtain rfl := Option.some.inj h
    unfold entryRefusal at hr
    split at hr
    · exact actRefusal_ne_badField hr
    · nomatch hr
  · rintro rfl
    repeat' split at h
    all_goals nomatch h

theorem answered_schedule (q : Entry × Word) (s : State) : Answered s (scheduleWork q s) := by
  unfold scheduleWork
  split
  · next h => exact .refused (scheduleRefusal_ne_badField h)
  · exact .ok ..

theorem answered_cancel (p : Port) (tag : Half) (s : State) : Answered s (cancelWork p tag s) := by
  unfold cancelWork
  split
  · exact .ok ..
  · split
    · exact .ok ..
    · exact .refused nofun

/-- A move is answered, or it is LATE and has removed the entry (R63). -/
theorem answered_entryMove (p : Port) (q : Half × Word) (s : State) :
    Answered s (moveWork p q s) ∨ (moveWork p q s).2.status = .late := by
  unfold moveWork
  split
  · unfold movePending
    dsimp only
    split
    · exact .inr rfl
    · exact .inl (.ok ..)
  · split
    · exact .inl (.refused nofun)
    · exact .inl (.refused nofun)

theorem answered_entryRead (p : Port) (tag : Half) (s : State) : Answered s (entryReadWork p tag s) := by
  unfold entryReadWork
  split
  · exact .ok ..
  · exact .refused nofun

theorem modeRefusal_ne_badField {s : State} {r : Request} {l : LineId} {st : Status}
    (h : modeRefusal s r l = some st) : st ≠ .badField := by
  unfold modeRefusal at h
  split at h
  · next hr => exact Option.some.inj h ▸ actRefusal_ne_badField hr
  · split at h
    · exact Option.some.inj h ▸ nofun
    · nomatch h

theorem answered_lineMode (r : Request) (q : LineId × Mode) (s : State) : Answered s (modeWork r q s) := by
  unfold modeWork
  split
  · next h => exact .refused (modeRefusal_ne_badField h)
  · exact .ok ..

theorem answered_waveRestart (r : Request) (l : LineId) (s : State) : Answered s (restartWork r l s) := by
  unfold restartWork
  split
  · next h => exact .refused (actRefusal_ne_badField h)
  · split
    · exact .ok ..
    · exact .refused nofun

theorem probeRefusal_ne_badField {s : State} {r : Request} {l : LineId} {st : Status}
    (h : probeRefusal s r l = some st) : st ≠ .badField := by
  unfold probeRefusal at h
  split at h
  · next hr => exact Option.some.inj h ▸ actRefusal_ne_badField hr
  · split at h
    · nomatch h
    · exact Option.some.inj h ▸ nofun

theorem answered_lineProbe (r : Request) (l : LineId) (s : State) : Answered s (probeWork r l s) := by
  unfold probeWork
  split
  · next h => exact .refused (probeRefusal_ne_badField h)
  · exact .accepted ..

theorem takeRefusal_ne_badField {s : State} {r : Request} {l : LineId} {st : Status}
    (h : takeRefusal s r l = some st) : st ≠ .badField := by
  unfold takeRefusal at h
  rintro rfl
  dsimp only at h
  repeat' split at h
  all_goals nomatch h

theorem answered_leaseTake (r : Request) (q : LineId × Half) (s : State) : Answered s (takeWork r q s) := by
  unfold takeWork
  split
  · next h => exact .refused (takeRefusal_ne_badField h)
  · exact .ok ..

theorem answered_leaseRenew (p : Port) (q : Option LineId) (s : State) : Answered s (renewWork p q s) := by
  unfold renewWork
  split
  · split
    · exact .ok ..
    · exact .refused nofun
  · exact .ok ..

theorem answered_leaseRelease (p : Port) (l : LineId) (s : State) : Answered s (releaseWork p l s) := by
  unfold releaseWork
  split
  · exact .ok ..
  · exact .refused nofun

theorem answered_tallyCas (q : TallyId × Word × Word) (s : State) : Answered s (casWork q s) := by
  unfold casWork
  split <;> exact .ok ..

/-! ## Every request (R163) -/

/-- The work of command `i` answers, but that an ENTRY_MOVE may be LATE, which is no refusal (R63). -/
def AnsweredBy (i : Instr) (s : State) (x : State × Reply) : Prop :=
  Answered s x ∨ (∃ r, i = .entryMove r) ∧ x.2.status = .late

/-- A request is one `serve` with the columns of its row, whose operands are there exactly where they are in
range, and whose work answers. -/
structure Serves (i : Instr) (kind : Byte) (r : Request) (s : State) {α : Type} (limit : State → Option Level)
    (operands : State → Option α) (work : α → State → State × Reply) : Prop where
  exec     : exec i s = .next (serve kind (allowedIn i) limit operands work r s)
  limit    : limit s = levelLimit i s
  operands : (operands s).isSome = true ↔ OperandsInRange i s
  work     : ∀ a, AnsweredBy i s (work a s)

theorem exists_serves : ∀ {i : Instr} {kind : Byte} {r : Request} (_ : i.record? = some (kind, r)) (s : State),
    ∃ (α : Type) (limit : State → Option Level) (operands : State → Option α)
      (work : α → State → State × Reply), Serves i kind r s limit operands work
  | .nop _, _, _, rfl, _ => ⟨_, _, _, _, rfl, rfl, parseNothing_isSome_iff, fun _ => .inl (.ok ..)⟩
  | .identify _, _, _, rfl, _ => ⟨_, _, _, _, rfl, rfl, parseNothing_isSome_iff, fun _ => .inl (.ok ..)⟩
  | .status _, _, _, rfl, _ => ⟨_, _, _, _, rfl, rfl, parseNothing_isSome_iff, fun _ => .inl (.ok ..)⟩
  | .noticeRead _, _, _, rfl, _ => ⟨_, _, _, _, rfl, rfl, parseNothing_isSome_iff, fun _ => .inl (.ok ..)⟩
  | .portReset _, _, _, rfl, _ => ⟨_, _, _, _, rfl, rfl, parseNothing_isSome_iff, fun _ => .inl (.ok ..)⟩
  | .subscribe _, _, _, rfl, _ => ⟨_, _, _, _, rfl, rfl, parseMask_isSome_iff, fun _ => .inl (.ok ..)⟩
  | .configRead _, _, _, rfl, _ => ⟨_, _, _, _, rfl, rfl, parseItem_isSome_iff, fun _ => .inl (.ok ..)⟩
  | .configWrite _, _, _, rfl, s =>
    ⟨_, _, _, _, rfl, rfl, parseWrite_isSome_iff, fun q => .inl (answered_configWrite q s)⟩
  | .endSetup _, _, _, rfl, _ => ⟨_, _, _, _, rfl, rfl, parseNothing_isSome_iff, fun _ => .inl (.ok ..)⟩
  | .tbHold r, _, _, rfl, s =>
    ⟨_, _, _, _, rfl, rfl, parseNothing_isSome_iff, fun u => .inl (answered_tbHold r.port u s)⟩
  | .tbStart _, _, _, rfl, _ => ⟨_, _, _, _, rfl, rfl, parseNothing_isSome_iff, fun _ => .inl (.ok ..)⟩
  | .schedule _, _, _, rfl, s =>
    ⟨_, _, _, _, rfl, rfl, parseSchedule_isSome_iff, fun q => .inl (answered_schedule q s)⟩
  | .cancel r, _, _, rfl, s =>
    ⟨_, _, _, _, rfl, rfl, parseTag_isSome_iff, fun tag => .inl (answered_cancel r.port tag s)⟩
  | .entryMove r, _, _, rfl, s =>
    ⟨_, _, _, _, rfl, rfl, parseMove_isSome_iff, fun q => (answered_entryMove r.port q s).imp_right (⟨⟨r, rfl⟩, ·⟩)⟩
  | .entryRead r, _, _, rfl, s =>
    ⟨_, _, _, _, rfl, rfl, parseLiveTag_isSome_iff, fun tag => .inl (answered_entryRead r.port tag s)⟩
  | .lineMode r, _, _, rfl, s =>
    ⟨_, _, _, _, rfl, rfl, parseLineMode_isSome_iff, fun q => .inl (answered_lineMode r q s)⟩
  | .lineRead _ _, _, _, rfl, _ => ⟨_, _, _, _, rfl, rfl, parseNumber_isSome_iff, fun _ => .inl (.ok ..)⟩
  | .waveRestart r, _, _, rfl, s =>
    ⟨_, _, _, _, rfl, rfl, parseNumber_isSome_iff, fun l => .inl (answered_waveRestart r l s)⟩
  | .lineProbe r, _, _, rfl, s =>
    ⟨_, _, _, _, rfl, rfl, parseNumber_isSome_iff, fun l => .inl (answered_lineProbe r l s)⟩
  | .leaseTake r, _, _, rfl, s =>
    ⟨_, _, _, _, rfl, rfl, parseTake_isSome_iff, fun q => .inl (answered_leaseTake r q s)⟩
  | .leaseRenew r, _, _, rfl, s =>
    ⟨_, _, _, _, rfl, rfl, parseRenew_isSome_iff, fun q => .inl (answered_leaseRenew r.port q s)⟩
  | .leaseRelease r, _, _, rfl, s =>
    ⟨_, _, _, _, rfl, rfl, parseNumber_isSome_iff, fun l => .inl (answered_leaseRelease r.port l s)⟩
  | .leaseRead _, _, _, rfl, _ => ⟨_, _, _, _, rfl, rfl, parseNumber_isSome_iff, fun _ => .inl (.ok ..)⟩
  | .captureRead _, _, _, rfl, _ => ⟨_, _, _, _, rfl, rfl, parseNumber_isSome_iff, fun _ => .inl (.ok ..)⟩
  | .tallyRead _, _, _, rfl, _ => ⟨_, _, _, _, rfl, rfl, parseNumber_isSome_iff, fun _ => .inl (.ok ..)⟩
  | .tallyAdd r, _, _, rfl, s =>
    ⟨_, _, _, _, rfl, (tallyLimit_eq r s).1, parseTallyValue_isSome_iff, fun _ => .inl (.ok ..)⟩
  | .tallySwap r, _, _, rfl, s =>
    ⟨_, _, _, _, rfl, (tallyLimit_eq r s).2.1, parseTallyValue_isSome_iff, fun _ => .inl (.ok ..)⟩
  | .tallyCas r, _, _, rfl, s =>
    ⟨_, _, _, _, rfl, (tallyLimit_eq r s).2.2, parseCas_isSome_iff, fun q => .inl (answered_tallyCas q s)⟩

/-! ## The checks in their order (R163) -/

theorem withinLimit_of_none {i : Instr} {s : State} (h : levelLimit i s = none) (r : Request) :
    withinLimit i r s = true := by
  unfold withinLimit
  rw [h]

theorem withinLimit_of_some {i : Instr} {s : State} {v : Level} (h : levelLimit i s = some v) (r : Request) :
    withinLimit i r s = true ↔ s.effective r ≤ v := by
  unfold withinLimit
  rw [h]
  exact decide_eq_true_iff

theorem exists_limit_of_not_withinLimit {i : Instr} {r : Request} {s : State} (h : withinLimit i r s = false) :
    ∃ v, levelLimit i s = some v ∧ v < s.effective r := by
  cases hv : levelLimit i s with
  | none => nomatch (withinLimit_of_none hv r).symm.trans h
  | some v =>
    refine ⟨v, rfl, not_le.mp fun hle => ?_⟩
    nomatch ((withinLimit_of_some hv r).mpr hle).symm.trans h

theorem passes_of_withinLimit {i : Instr} {r : Request} {s : State} {limit : State → Option Level}
    (h : limit s = levelLimit i s) (hw : withinLimit i r s = true) : Passes limit r s :=
  fun _ hv => (withinLimit_of_some (h.symm.trans hv) r).mp hw

/-- A request that is heard is refused by the checks before its work, or answers what its work answers. -/
theorem serve_heard {α : Type} {kind : Byte} {allowed : Allowed} {limit : State → Option Level}
    {operands : State → Option α} {work : α → State → State × Reply} {r : Request} {s : State}
    (hh : s.hears r.port (Request.bits kind r) = true) :
    (∃ st, serve kind allowed limit operands work r s = s.answer r kind st []) ∨
      ∃ a, serve kind allowed limit operands work r s =
        (work a s).1.answer r kind (work a s).2.status (work a s).2.body := by
  unfold serve
  rw [if_pos hh]
  split
  · exact .inl ⟨_, rfl⟩
  · exact .inr ⟨_, rfl⟩

theorem exec_of_wrongState {i : Instr} {kind : Byte} {r : Request} {s : State} (hi : i.record? = some (kind, r))
    (hh : s.hears r.port (Request.bits kind r) = true) (hl : r.body.length ≤ Config.maxBody)
    (ha : (allowedIn i).admits s.device = false) : exec i s = .next (s.answer r kind .wrongState []) := by
  obtain ⟨_, _, _, _, hserves⟩ := exists_serves hi s
  rw [hserves.exec, serve_wrongState hh hl ha]

theorem exec_of_noRight {i : Instr} {kind : Byte} {r : Request} {s : State} (hi : i.record? = some (kind, r))
    (hh : s.hears r.port (Request.bits kind r) = true) (hl : r.body.length ≤ Config.maxBody)
    (ha : (allowedIn i).admits s.device = true) (hw : withinLimit i r s = false) :
    exec i s = .next (s.answer r kind .noRight []) := by
  obtain ⟨_, _, _, _, hserves⟩ := exists_serves hi s
  obtain ⟨v, hv, hlt⟩ := exists_limit_of_not_withinLimit hw
  rw [hserves.exec, serve_noRight hh hl ha (hserves.limit.trans hv) hlt]

theorem exec_of_badField {i : Instr} {kind : Byte} {r : Request} {s : State} (hi : i.record? = some (kind, r))
    (hh : s.hears r.port (Request.bits kind r) = true) (hl : r.body.length ≤ Config.maxBody)
    (ha : (allowedIn i).admits s.device = true) (hw : withinLimit i r s = true)
    (hbad : Request.headClean r = false ∨ ¬ OperandsInRange i s) :
    exec i s = .next (s.answer r kind .badField []) := by
  obtain ⟨_, _, _, _, hserves⟩ := exists_serves hi s
  have hnone := hbad.imp_right fun hout => Option.not_isSome_iff_eq_none.mp (mt hserves.operands.mp hout)
  rw [hserves.exec, serve_badField hh hl ha (passes_of_withinLimit hserves.limit hw) hnone]

/-- A body of another length than the layout's has no operands (R164). -/
theorem exec_of_badLength {i : Instr} {kind : Byte} {r : Request} {s : State} (hi : i.record? = some (kind, r))
    (hh : s.hears r.port (Request.bits kind r) = true) (hl : r.body.length ≤ Config.maxBody)
    (ha : (allowedIn i).admits s.device = true) (hw : withinLimit i r s = true) {n : Nat}
    (hn : bodyLength i = some n) (hb : r.body.length ≠ n) : exec i s = .next (s.answer r kind .badField []) := by
  obtain ⟨_, _, _, _, hexec, hlimit, hlength⟩ := exec_request hi s
  rw [hexec, serve_badField hh hl ha (passes_of_withinLimit hlimit hw) (.inr (hlength n hn hb))]

/-- Settles O11: the three checks, each behind the ones before it. -/
theorem generalChecksInOrder : Obligations.GeneralChecksInOrder := by
  intro i kind r s hi hh hl
  exact ⟨exec_of_wrongState hi hh hl, fun ha => ⟨exec_of_noRight hi hh hl ha, fun hw =>
    ⟨fun hclean => exec_of_badField hi hh hl ha hw (.inl hclean), fun _ => exec_of_badLength hi hh hl ha hw⟩⟩⟩

/-- Settles O12: operands out of range fail step 6, and no work answers BAD_FIELD. -/
theorem operandsOutOfRange : Obligations.OperandsOutOfRange := by
  intro i kind r s hi ht ha hw
  refine ⟨fun hout => exec_of_badField hi ht.heard ht.fits ha hw (.inr hout), fun hin => ?_⟩
  obtain ⟨_, _, _, _, hserves⟩ := exists_serves hi s
  obtain ⟨a, hoperands⟩ := Option.isSome_iff_exists.mp (hserves.operands.mpr hin)
  refine ⟨_, hserves.exec, ?_⟩
  rw [serve_taken ht ha (passes_of_withinLimit hserves.limit hw) hoperands, State.answer_slot]
  refine ⟨?_, rfl⟩
  rcases hserves.work a with hanswered | ⟨-, hlate⟩
  · exact hanswered.ne_badField
  · exact hlate ▸ nofun

/-- Settles O13: a check refuses with nothing changed, and so does a work that does not accept. -/
theorem refusalChangesSlotOnly : Obligations.RefusalChangesSlotOnly := by
  intro i kind r s hi hh
  obtain ⟨_, limit, operands, work, hserves⟩ := exists_serves hi s
  refine ⟨_, hserves.exec, ?_⟩
  rcases serve_heard (limit := limit) (operands := operands) (work := work) hh with ⟨st, h⟩ | ⟨a, h⟩ <;>
    rw [h, State.answer_slot]
  · exact fun _ _ _ => rfl
  · intro hok hacc hmove
    rcases hserves.work a with hanswered | ⟨⟨q, hq⟩, hlate⟩
    · rw [hanswered.eq_refuse hok hacc]
      rfl
    · exact absurd hlate (hmove q hq)

end Sys2Proof.Machine
end

section
/-! PROOF of O15 to O17. NOP, IDENTIFY, STATUS, NOTICE_READ and SUBSCRIBE answer what their work answers. PORT_RESET
is its removals, line by line, and then the move to HELD where no pulse is left. -/

namespace Sys2Proof.Machine

/-! ## NOP, IDENTIFY and STATUS (R165, R166, R167) -/

/-- A request of any device state and level whose operands are out of range. -/
theorem exec_of_outOfRange {i : Instr} {kind : Byte} {r : Request} {s : State} (hi : i.record? = some (kind, r))
    (ht : Taken kind r s) (hout : ¬ OperandsInRange i s) (ha : allowedIn i = .both := by rfl)
    (hl : levelLimit i s = none := by rfl) : exec i s = .next (s.answer r kind .badField []) :=
  exec_of_badField hi ht.heard ht.fits (by rw [ha]; rfl) (withinLimit_of_none hl r) (.inr hout)

/-- A request with an empty body that only reads. -/
theorem serve_readOnly_of_nil {kind : Byte} {r : Request} {s : State} (ht : Taken kind r s) (hb : r.body = [])
    (body : State → Unit → List Byte) :
    serve kind .both noLimit (fun _ => parseNothing r.body) (readOnly body) r s =
      s.answer r kind .ok (body s ()) := serve_both ht (parseNothing_of_nil hb)

theorem identifyBody_eq (p : Port) (s : State) (u : Unit) : identifyBody p s u =
    [0x4A#8, 0x16#8, 2#8, natByte p.val, natByte (s.port p).strap.val] := rfl

theorem deviceByte_eq (d : DeviceState) : deviceByte d = if d = .operating then 1#8 else 0#8 := by
  cases d <;> rfl

theorem Plant.used_eq_lengths (w : Plant) : w.used = w.armed.length + w.timeline.length + w.pulsing.length := by
  simp only [Plant.used, Plant.live, List.length_append, List.length_map]

theorem statusBody_eq (p : Port) (s : State) (u : Unit) : statusBody p s u =
    [if s.device = .operating then 1#8 else 0#8, timebaseCode s.plant.timebase] ++ wordBytes s.plant.tc ++
      [natByte (s.plant.armed.length + s.plant.timeline.length + s.plant.pulsing.length),
        natByte (s.plant.live.filter fun e => e.owner == p).length, natByte (s.table.quota.get p),
        natByte (allLines.filter fun l => (s.plant.line l).heldBy p).length] := by
  rw [← deviceByte_eq, ← Plant.used_eq_lengths]
  rfl

/-- In SETUP nothing is there to report (R71). -/
theorem statusBody_of_setup {s : State} (hq : SetupQuiet s) (hd : s.device = .setup) (p : Port) (u : Unit) :
    statusBody p s u =
      [0#8, 0#8, 0#8, 0#8, 0#8, 0#8, 0#8, 0#8, natByte (s.table.quota.get p), 0#8] := by
  obtain ⟨hlive, htc, htb, -, hlines, -⟩ := hq.2 hd
  have hleases : s.plant.leaseCount p = 0 := by
    unfold Plant.leaseCount
    rw [List.length_eq_zero_iff, List.filter_eq_nil_iff]
    intro l _
    rw [hlines l]
    exact Bool.false_ne_true
  simp only [statusBody, hd, htb, htc, hleases, Plant.used, Plant.liveCount, hlive]
  rfl

/-- Settles O15: each body with an empty request body, and BAD_FIELD with any other. -/
theorem portReadsReport : Obligations.PortReadsReport := by
  refine fun r s => ⟨fun ht => ⟨fun hb => ?nop, fun hb => exec_of_outOfRange (i := .nop r) rfl ht hb⟩,
    fun ht => ⟨fun hb => ?identify, fun hb => exec_of_outOfRange (i := .identify r) rfl ht hb⟩,
    fun ht => ⟨fun hb => ⟨?status, fun hq hd => ?setup⟩, fun hb =>
      exec_of_outOfRange (i := .status r) rfl ht hb⟩⟩
  case nop => exact congrArg Host.Outcome.next (serve_readOnly_of_nil ht hb _)
  case identify => exact congrArg Host.Outcome.next (serve_readOnly_of_nil ht hb _)
  case status =>
    rw [← statusBody_eq r.port s ()]
    exact congrArg Host.Outcome.next (serve_readOnly_of_nil ht hb _)
  case setup =>
    rw [← statusBody_of_setup hq hd r.port ()]
    exact congrArg Host.Outcome.next (serve_readOnly_of_nil ht hb _)

/-! ## NOTICE_READ and SUBSCRIBE (R128, R170) -/

theorem noticesBody_eq (b : Inbox) : noticesBody b =
    [natByte (min 4 b.queue.length), if b.overflow then 1#8 else 0#8] ++ (b.queue.take 4).flatMap Notice.bytes := by
  unfold noticesBody
  rw [List.length_take]
  rfl

/-- Settles O16: what each work leaves of the port, and its body. -/
theorem noticeReadAndSubscribe : Obligations.NoticeReadAndSubscribe := by
  refine ⟨fun r s ht hb => ?_, fun r s m ht hb => ?_⟩
  · rw [← noticesBody_eq]
    exact congrArg Host.Outcome.next (serve_both ht (parseNothing_of_nil hb))
  · have hmask : parseMask r.body = some m := by rw [hb]; rfl
    exact congrArg Host.Outcome.next (serve_both ht hmask)

/-! ## PORT_RESET on one line (R171 steps 2 to 4) -/

/-- Step 2 of R171 on one line: a pulse of `p` is taken from it (R81). -/
def Line.dropPulseOf (p : Port) (level : Bool) (x : Line) : Line :=
  match x.state with
  | .pulsing r => if r.owner = p then x.rest level .static else x
  | _ => x

/-- Steps 2 to 4 of R171 on one line. -/
def Line.clearedOf (p : Port) (fallback : Bool) (x : Line) : Line :=
  ((x.dropPulseOf p fallback).endLeaseOf p fallback).abortProbeOf p

section ClearedLine
variable {p : Port} {fallback : Bool} {x : Line}

theorem Line.dropPulseOf_lease : (x.dropPulseOf p fallback).lease = x.lease := by
  unfold Line.dropPulseOf
  split
  · split <;> rfl
  · rfl

theorem Line.dropPulseOf_mode : (x.dropPulseOf p fallback).mode = x.mode := by
  unfold Line.dropPulseOf
  split
  · split <;> rfl
  · rfl

theorem Line.dropPulseOf_of_none (h : ∀ k, x.state = .pulsing k → k.owner ≠ p) : x.dropPulseOf p fallback = x := by
  unfold Line.dropPulseOf
  split
  · next k hk => exact if_neg (h k hk)
  · rfl

theorem Line.dropPulseOf_of_own {k : PulseRec} (hk : x.state = .pulsing k) (h : k.owner = p) :
    x.dropPulseOf p fallback = x.rest fallback .static := by
  simp only [Line.dropPulseOf, hk, h, if_true]

theorem Line.abortProbeOf_of_none (h : ∀ k, x.state = .probing k → k.requester ≠ p) : x.abortProbeOf p = x := by
  unfold Line.abortProbeOf
  split
  · next k hk => exact if_neg (h k hk)
  · rfl

/-- A line of `p` comes to rest at fallback, without holder, in its mode. -/
theorem Line.clearedOf_of_held (h : x.heldBy p = true) :
    x.clearedOf p fallback = ⟨fallback, x.mode, .static, none⟩ := by
  have hheld : (x.dropPulseOf p fallback).heldBy p = true := (Line.heldBy_congr Line.dropPulseOf_lease p).trans h
  unfold Line.clearedOf Line.endLeaseOf
  rw [if_pos hheld]
  change Line.mk fallback (x.dropPulseOf p fallback).mode .static none = _
  rw [Line.dropPulseOf_mode]

theorem Line.clearedOf_of_not_held (h : x.heldBy p = false) :
    x.clearedOf p fallback = (x.dropPulseOf p fallback).abortProbeOf p := by
  have hheld : (x.dropPulseOf p fallback).heldBy p = false := (Line.heldBy_congr Line.dropPulseOf_lease p).trans h
  unfold Line.clearedOf Line.endLeaseOf
  rw [hheld]
  rfl

theorem Line.clearedOf_of_pulse (h : x.heldBy p = false) {k : PulseRec} (hk : x.state = .pulsing k)
    (hp : k.owner = p) : x.clearedOf p fallback = x.rest fallback .static := by
  rw [Line.clearedOf_of_not_held h, Line.dropPulseOf_of_own hk hp]
  rfl

theorem Line.clearedOf_of_probe (h : x.heldBy p = false) {k : ProbeRec} (hk : x.state = .probing k)
    (hp : k.requester = p) : x.clearedOf p fallback = x.rest k.saved .static := by
  rw [Line.clearedOf_of_not_held h, Line.dropPulseOf_of_none fun _ h' => nomatch hk.symm.trans h']
  simp only [Line.abortProbeOf, hk, hp, if_true]

theorem Line.clearedOf_of_other (h : x.heldBy p = false) (hpulse : ∀ k, x.state = .pulsing k → k.owner ≠ p)
    (hprobe : ∀ k, x.state = .probing k → k.requester ≠ p) : x.clearedOf p fallback = x := by
  rw [Line.clearedOf_of_not_held h, Line.dropPulseOf_of_none hpulse, Line.abortProbeOf_of_none hprobe]

end ClearedLine

/-! ## PORT_RESET on the plant (R171) -/

/-- The plant after steps 1 to 4 of R171, before the move to HELD. -/
def Plant.clearedOf (p : Port) (fallback : LineId → Bool) (w : Plant) : Plant :=
  let w1 := { w with inboxes := upd w.inboxes p fun _ => ⟨[], false⟩ }
  let w2 := (w1.takePulseOf p (fun _ => true) fallback).drop fun e => e.owner == p
  let w3 := { w2 with lines := updAll w2.lines fun l => Line.endLeaseOf p (fallback l) }
  { w3 with lines := updAll w3.lines fun _ => Line.abortProbeOf p }

theorem Plant.resetPort_eq (p : Port) (fallback : LineId → Bool) (w : Plant) :
    w.resetPort p fallback = (w.clearedOf p fallback).settleHold := rfl

theorem Plant.clearedOf_line (p : Port) (fallback : LineId → Bool) (w : Plant) (l : LineId) :
    (w.clearedOf p fallback).line l = (w.line l).clearedOf p (fallback l) := by
  have hpulse := Plant.line_takePulseOf { w with inboxes := upd w.inboxes p fun _ => ⟨[], false⟩ } p
    (fun _ => true) fallback l
  unfold Plant.clearedOf
  rw [Plant.line_updAll, Plant.line_updAll, Plant.line_drop, hpulse]
  simp only [Bool.and_true, beq_iff_eq]
  rfl

theorem Plant.clearedOf_inbox (p : Port) (fallback : LineId → Bool) (w : Plant) (q : Port) :
    (w.clearedOf p fallback).inbox q = if q = p then ⟨[], false⟩ else w.inbox q := upd_get ..

theorem exec_portReset {r : Request} {s : State} (ht : Taken 0x04#8 r s) (hb : r.body = []) :
    exec (.portReset r) s = .next
      (({ s with plant := s.plant.resetPort r.port s.fallback }.setPort r.port
        fun x => { x with mask := 0#8 }).answer r 0x04#8 .ok
          [natByte (s.plant.liveCount r.port), natByte (s.plant.leaseCount r.port)]) :=
  congrArg Host.Outcome.next (serve_both ht (parseNothing_of_nil hb))

/-- Settles O17: the lists, the lines by what they held, and the move to HELD behind them. -/
theorem portResetClearsPort : Obligations.PortResetClearsPort := by
  intro r s ht hb
  refine ⟨_, exec_portReset ht hb, ?_⟩
  have hline := s.plant.clearedOf_line r.port s.fallback
  have hinbox := s.plant.clearedOf_inbox r.port s.fallback
  rw [Plant.resetPort_eq]
  generalize hw : s.plant.clearedOf r.port s.fallback = w at hline hinbox
  obtain ⟨htc, htb, hhold, harmed, htimeline, hpulsing⟩ : w.tc = s.plant.tc ∧ w.timebase = s.plant.timebase ∧
      w.holdTimer = s.plant.holdTimer ∧ w.armed = s.plant.armed.filter (fun x => x.entry.owner != r.port) ∧
      w.timeline = s.plant.timeline.filter (fun x => x.entry.owner != r.port) ∧
      w.pulsing = s.plant.pulsing.filter (fun x => x.entry.owner != r.port) := by
    subst hw
    exact ⟨rfl, rfl, rfl, rfl, rfl, rfl⟩
  simp only [Plant.settleHold_tc, Plant.settleHold_armed, Plant.settleHold_timeline, Plant.settleHold_pulsing,
    Plant.settleHold_line, Plant.settleHold_pulsingOn, hline]
  refine ⟨htc, harmed, htimeline, hpulsing, fun l hheld => Line.clearedOf_of_held hheld, fun l hheld =>
    ⟨fun k hk hp => Line.clearedOf_of_pulse hheld hk hp, fun k hk hp => Line.clearedOf_of_probe hheld hk hp,
      Line.clearedOf_of_other hheld⟩, fun hholding hnone => ?held, fun hother => ?stays⟩
  case held =>
    obtain ⟨htimebase, htimer, hqueues⟩ := Plant.settleHold_held (htb.trans hholding) hnone
    exact ⟨htimebase, htimer, fun p => by rw [hqueues, hinbox, htc]⟩
  case stays =>
    rw [Plant.settleHold_same (by rwa [htb])]
    exact ⟨htb, hhold, hinbox⟩

end Sys2Proof.Machine
end

section
/-! PROOF of O54. But for CONFIG_WRITE, the two halves of a device reset and CAPTURE_EDGE, no command touches the
table or the capture channels, and every one of them keeps the queues bounded; those four are taken apart. -/

namespace Sys2Proof.Machine

/-! ## The queues of a plant (R168) -/

/-- Every queue holds at most 16 notices. -/
structure Plant.Bounded (w : Plant) : Prop where
  queue : ∀ p, (w.inbox p).queue.length ≤ 16

theorem Inbox.postList_bounded (ns : List Notice) {b : Inbox} (h : b.queue.length ≤ 16) :
    (b.postList ns).queue.length ≤ 16 := by
  induction ns generalizing b with
  | nil => exact h
  | cons n ns ih => exact ih (Inbox.post_bounded n h)

theorem Plant.Keeps.bounded {w w' : Plant} (k : w.Keeps w') (h : w.Bounded) : w'.Bounded := by
  refine ⟨fun p => ?_⟩
  obtain ⟨ns, hns⟩ := k.inbox p
  rw [hns]
  exact Inbox.postList_bounded ns (h.queue p)

theorem Plant.Steady.bounded {w w' : Plant} (k : w.Steady w') (h : w.Bounded) : w'.Bounded := k.toKeeps.bounded h

namespace Plant.Bounded
variable {w : Plant}

theorem of_inboxes {w' : Plant} (h : w.Bounded) (hi : w'.inboxes = w.inboxes := by rfl) : w'.Bounded := by
  refine ⟨fun p => ?_⟩
  rw [Plant.inbox_of_inboxes hi]
  exact h.queue p

theorem post (h : w.Bounded) (p : Port) (b : Byte) (t : Half) (d : Detail) : (w.post p b t d).Bounded :=
  (w.keeps_post p b t d).bounded h

theorem setTimebase (h : w.Bounded) (n : Timebase) (c : TimebaseCause) : (w.setTimebase n c).Bounded :=
  (w.keeps_setTimebase n c).bounded h

theorem settleHold (h : w.Bounded) : w.settleHold.Bounded := w.keeps_settleHold.bounded h

/-- One queue is replaced by one that is bounded. -/
theorem updInbox (h : w.Bounded) (p : Port) {f : Inbox → Inbox} (hf : (f (w.inbox p)).queue.length ≤ 16) :
    Plant.Bounded { w with inboxes := upd w.inboxes p f } := by
  refine ⟨fun q => ?_⟩
  have hq : Plant.inbox { w with inboxes := upd w.inboxes p f } q = if q = p then f (w.inbox p) else w.inbox q :=
    upd_get ..
  rw [hq]
  split
  · exact hf
  · exact h.queue q

/-- What follows changes lines and lists alone, and then moves to HELD where no pulse is left. -/
theorem settle_of_inboxes {w' : Plant} (h : w.Bounded) (hi : w'.inboxes = w.inboxes := by rfl) :
    w'.settleHold.Bounded := (h.of_inboxes hi).settleHold

theorem lapse (h : w.Bounded) (p : Port) (l : LineId) (b : Bool) : (w.lapse p l b).Bounded :=
  .settleHold (.post h.of_inboxes ..)

theorem preempt (h : w.Bounded) (p : Port) (l : LineId) (k : Lease) : (w.preempt p l k).Bounded :=
  .settleHold (.of_inboxes (.post h.of_inboxes ..))

theorem take (h : w.Bounded) (l : LineId) (k : Lease) : (w.take l k).1.Bounded := by
  unfold Plant.take
  split
  · exact h.of_inboxes
  · split
    · exact h.of_inboxes
    · exact h.preempt ..

theorem enter (h : w.Bounded) (t : Table) (c : CloseCause) : (w.enter t c).Bounded := by
  unfold Plant.enter
  exact .setTimebase ((Plant.keeps_postAll ..).bounded h.of_inboxes) ..

theorem holdExpires (h : w.Bounded) : w.holdExpires.Bounded := by
  have hcut := w.steady_cutAll.bounded h
  unfold Plant.holdExpires
  generalize allLines.foldl Plant.cutForTimeout w = v at hcut ⊢
  exact .setTimebase hcut.of_inboxes ..

theorem hold (h : w.Bounded) (p : Port) (timeout : Nat) : (w.hold p timeout).1.Bounded := by
  unfold Plant.hold
  split
  · split
    · exact h.setTimebase ..
    · exact .setTimebase h.of_inboxes ..
  · exact h

theorem start (h : w.Bounded) (arb : Arbitration) (p : Port) : (w.start arb p).1.Bounded := by
  have hstopped : Plant.Bounded { w with holdTimer := none } := h.of_inboxes
  have hrun := hstopped.setTimebase .running (.request p)
  unfold Plant.start
  split
  · exact (Plant.steady_releaseDue ..).bounded hrun
  · exact (Plant.steady_releaseDue ..).bounded hrun
  · exact h
  · exact h

theorem resetPort (h : w.Bounded) (p : Port) (fallback : LineId → Bool) : (w.resetPort p fallback).Bounded := by
  have hcleared : (w.clearedOf p fallback).Bounded := by
    refine ⟨fun q => ?_⟩
    rw [Plant.clearedOf_inbox]
    split
    · exact Nat.zero_le _
    · exact h.queue q
  exact hcleared.settleHold

theorem endProbe (h : w.Bounded) (pol : Polarity) (l : LineId) (r : ProbeRec) (a b : Bool) :
    (w.endProbe pol l r a b).Bounded := .post h.of_inboxes ..

theorem pulseEnd (h : w.Bounded) (l : LineId) : (w.pulseEnd l).Bounded := by
  unfold Plant.pulseEnd
  split
  · split
    · exact ((Plant.steady_releasePulse ..).bounded h).settleHold
    · exact h
  · exact h

theorem periodEnd (h : w.Bounded) (l : LineId) : (w.periodEnd l).Bounded := by
  unfold Plant.periodEnd
  split
  · split
    · exact (Plant.steady_rewind ..).bounded h
    · exact h
  · exact h

end Plant.Bounded

/-! ## Tame steps -/

/-- From `s` to `t` the table and the capture channels stay, and bounded queues stay bounded. -/
structure State.Tame (s t : State) : Prop where
  table    : t.table = s.table
  channels : t.channels = s.channels
  queues   : s.plant.Bounded → t.plant.Bounded

namespace State.Tame
variable {s t u : State}

/-- A change of the plant that keeps its queues bounded. -/
theorem of_plant (h : s.plant.Bounded → t.plant.Bounded) (ht : t.table = s.table := by rfl)
    (hc : t.channels = s.channels := by rfl) : s.Tame t := ⟨ht, hc, h⟩

/-- A change of neither table, channels nor queues. -/
theorem of_inboxes (hi : t.plant.inboxes = s.plant.inboxes := by rfl) (ht : t.table = s.table := by rfl)
    (hc : t.channels = s.channels := by rfl) : s.Tame t := ⟨ht, hc, fun h => h.of_inboxes hi⟩

theorem refl (s : State) : s.Tame s := of_inboxes

theorem trans (h : s.Tame t) (k : t.Tame u) : s.Tame u :=
  ⟨k.table.trans h.table, k.channels.trans h.channels, fun hs => k.queues (h.queues hs)⟩

end State.Tame

theorem State.tame_onPlant {f : Plant → Plant} {s : State} (h : s.plant.Bounded → (f s.plant).Bounded) :
    s.Tame (s.onPlant f) := ⟨State.onPlant_table .., State.onPlant_channels .., h⟩

/-! ## Events of RC -/

theorem State.tame_enterOperating (s : State) (c : CloseCause) : s.Tame (s.enterOperating c) :=
  .of_plant fun h => h.enter ..

theorem State.tame_boundary (s : State) : s.Tame s.boundary := by
  unfold State.boundary
  split
  · exact .of_plant (Plant.keeps_tick ..).bounded
  · exact .refl s

theorem State.tame_windowExpiry (s : State) : s.Tame s.windowExpiry := by
  unfold State.windowExpiry
  split
  · exact s.tame_enterOperating _
  · exact .refl s

theorem State.tame_holdExpiry (s : State) : s.Tame s.holdExpiry := by
  unfold State.holdExpiry
  split
  · exact State.tame_onPlant fun h => h.holdExpires
  · exact .refl s

theorem State.tame_lapse (s : State) (l : LineId) : s.Tame (s.lapse l) := by
  unfold State.lapse
  split
  · split
    · exact State.tame_onPlant fun h => Plant.Bounded.lapse h ..
    · exact .refl s
  · exact .refl s

theorem State.tame_phaseAEnd (s : State) (l : LineId) (sense : Bool) : s.Tame (s.phaseAEnd l sense) := by
  unfold State.phaseAEnd
  split
  · split
    · split
      · exact .of_inboxes
      · exact .refl s
    · exact .refl s
  · exact .refl s

theorem State.tame_phaseBEnd (s : State) (l : LineId) (sense : Bool) : s.Tame (s.phaseBEnd l sense) := by
  unfold State.phaseBEnd
  split
  · split
    · exact .refl s
    · split
      · exact State.tame_onPlant fun h => h.endProbe ..
      · exact .refl s
  · exact .refl s

theorem State.tame_takeRc (s : State) (c : Instr) : s.Tame (s.takeRc c) := by
  unfold State.takeRc
  split
  · exact s.tame_boundary
  · exact s.tame_windowExpiry
  · exact s.tame_holdExpiry
  · exact s.tame_lapse _
  · exact s.tame_phaseAEnd ..
  · exact s.tame_phaseBEnd ..
  · exact .refl s

theorem State.tame_passed (s : State) (n : Nat) : s.Tame (s.passed n) :=
  State.passed_induction s.Tame (fun _ _ h => h.trans .of_inboxes) (fun t c h => h.trans (t.tame_takeRc c))
    (fun _ _ h => h.trans .of_inboxes) n (.refl s)

theorem State.tame_idle (s : State) : s.Tame s.idle := by
  unfold State.idle
  split
  · exact .refl s
  · split
    · exact .of_inboxes
    · exact .of_inboxes

/-! ## Requests -/

/-- A request is tame where its work is: an answer changes the interface of its port alone. -/
theorem State.tame_serve {α : Type} {kind : Byte} {allowed : Allowed} {limit : State → Option Level}
    {operands : State → Option α} {work : α → State → State × Reply} {r : Request} {s : State}
    (hwork : ∀ a, s.Tame (work a s).1) : s.Tame (serve kind allowed limit operands work r s) :=
  serve_induction s.Tame (fun _ _ _ h => h.trans .of_inboxes) (.refl s) fun a _ _ _ => hwork a

theorem State.tame_readOnly {α : Type} {kind : Byte} {allowed : Allowed} {limit : State → Option Level}
    {operands : State → Option α} {body : State → α → List Byte} {r : Request} {s : State} :
    s.Tame (serve kind allowed limit operands (readOnly body) r s) := State.tame_serve fun _ => .refl s

theorem State.tame_noticeRead (s : State) (p : Port) (u : Unit) : s.Tame (noticeReadWork p u s).1 :=
  .of_plant fun h => h.updInbox p ((List.length_drop ▸ Nat.sub_le ..).trans (h.queue p))

theorem State.tame_tbHold (s : State) (p : Port) (u : Unit) : s.Tame (holdWork p u s).1 :=
  .of_plant fun h => Plant.Bounded.hold h ..

theorem State.tame_schedule (s : State) (q : Entry × Word) : s.Tame (scheduleWork q s).1 := by
  unfold scheduleWork
  split
  · exact .refl s
  · exact .of_plant (s.keeps_postEntry ..).bounded

theorem State.tame_cancel (s : State) (p : Port) (tag : Half) : s.Tame (cancelWork p tag s).1 := by
  unfold cancelWork
  split
  · exact .of_plant fun h => h.settle_of_inboxes
  · split
    · exact .of_plant fun h => h.settle_of_inboxes
    · exact .refl s

theorem State.tame_movePending (s : State) (x : Timed) (due : Word) : s.Tame (movePending x due s).1 := by
  unfold movePending
  dsimp only
  split
  · exact .of_plant fun h => .post h.of_inboxes ..
  · split <;> exact .of_plant fun h => (Plant.steady_place ..).bounded h.of_inboxes

theorem State.tame_entryMove (s : State) (p : Port) (q : Half × Word) : s.Tame (moveWork p q s).1 := by
  unfold moveWork
  split
  · exact s.tame_movePending ..
  · split <;> exact .refl s

theorem State.tame_entryRead (s : State) (p : Port) (tag : Half) : s.Tame (entryReadWork p tag s).1 := by
  unfold entryReadWork
  split <;> exact .refl s

theorem State.tame_lineMode (s : State) (r : Request) (q : LineId × Mode) : s.Tame (modeWork r q s).1 := by
  unfold modeWork
  split
  · exact .refl s
  · exact .of_inboxes

theorem State.tame_waveRestart (s : State) (r : Request) (l : LineId) : s.Tame (restartWork r l s).1 := by
  unfold restartWork
  split
  · exact .refl s
  · split
    · exact .of_plant (Plant.steady_rewind ..).bounded
    · exact .refl s

theorem State.tame_lineProbe (s : State) (r : Request) (l : LineId) : s.Tame (probeWork r l s).1 := by
  unfold probeWork
  split
  · exact .refl s
  · exact .of_inboxes

theorem State.tame_leaseTake (s : State) (r : Request) (q : LineId × Half) : s.Tame (takeWork r q s).1 := by
  unfold takeWork
  split
  · exact .refl s
  · exact .of_plant fun h => Plant.Bounded.take h ..

theorem State.tame_leaseRenew (s : State) (p : Port) (q : Option LineId) : s.Tame (renewWork p q s).1 := by
  unfold renewWork
  split
  · split
    · exact .of_inboxes
    · exact .refl s
  · exact .of_inboxes

theorem State.tame_leaseRelease (s : State) (p : Port) (l : LineId) : s.Tame (releaseWork p l s).1 := by
  unfold releaseWork
  split
  · exact .of_plant fun h => h.settle_of_inboxes
  · exact .refl s

theorem State.tame_changeTally (s : State) (t : TallyId) (v : Word) : s.Tame (s.changeTally t v) :=
  .of_plant (Plant.steady_walkCount ..).bounded

theorem State.tame_tallyCas (s : State) (q : TallyId × Word × Word) : s.Tame (casWork q s).1 := by
  unfold casWork
  split
  · exact s.tame_changeTally ..
  · exact .refl s

/-! ## Commands that are no request -/

theorem State.tame_undecodedRequest {s t : State} {p : Port} {wire : Wire}
    (h : execUndecodedRequest p wire s = .next t) : s.Tame t := by
  obtain rfl := Host.Outcome.next.inj h
  split
  · split
    · exact .of_inboxes
    · exact .refl s
  · exact .refl s

theorem State.tame_transactionBegin {s t : State} {fall : Fall} (h : execTransactionBegin fall s = .next t) :
    s.Tame t := by
  obtain rfl := Host.Outcome.next.inj h
  split
  · exact .refl s
  · exact .of_inboxes

theorem State.tame_tick {s t : State} (h : execTick s = .next t) : s.Tame t := by
  obtain rfl := Host.Outcome.next.inj h
  split
  · exact (s.tame_passed _).trans (State.tame_boundary _)
  · exact .refl s

/-! ## Every command -/

/-- A property that tame steps keep is kept by every command, where a CONFIG_WRITE, the two halves of a device
reset, a sample and an accepted edge keep it. -/
structure State.Inductive (P : State → Prop) : Prop where
  tame        : ∀ {s t : State}, s.Tame t → P s → P t
  configWrite : ∀ {s : State} (q : ItemWrite), P s → P (configWriteWork q s).1
  inReset     : ∀ straps cs f, P (State.inReset straps cs f)
  afterRise   : ∀ {s : State} inputs, P s → P (s.afterRise inputs)
  sample      : ∀ {s : State} c dir, P s → P (s.sample c dir)
  acceptEdge  : ∀ {s : State} c dir, P s → P (s.acceptEdge c dir)

section Exec
variable {P : State → Prop} (hP : State.Inductive P)
include hP

theorem State.Inductive.rstnRise {s t : State} (hs : P s) (h : execRstnRise s = .next t) : P t := by
  obtain rfl := Host.Outcome.next.inj h
  split
  · exact hP.tame (s := s.afterRise _) .of_inboxes (hP.afterRise _ hs)
  · exact hs

theorem State.Inductive.captureEdge {s t : State} (hs : P s) {c : Channel} {dir : Edge} {after : Nat}
    (h : execCaptureEdge c dir after s = .next t) : P t := by
  have hpassed : P (s.passed after) := hP.tame (s.tame_passed after) hs
  obtain rfl := Host.Outcome.next.inj h
  split
  · exact hs
  · dsimp only
    split
    · split
      · exact hP.acceptEdge c dir (hP.sample c dir hpassed)
      · exact hP.sample c dir hpassed
    · exact hpassed

theorem State.Inductive.of_exec {s : State} (hs : P s) : ∀ i t, exec i s = .next t → P t
  | .nop _, _, rfl => hP.tame State.tame_readOnly hs
  | .identify _, _, rfl => hP.tame State.tame_readOnly hs
  | .status _, _, rfl => hP.tame State.tame_readOnly hs
  | .noticeRead _, _, rfl => hP.tame (State.tame_serve fun u => s.tame_noticeRead _ u) hs
  | .portReset _, _, rfl =>
      hP.tame (State.tame_serve fun _ => .of_plant fun h => Plant.Bounded.resetPort h ..) hs
  | .subscribe _, _, rfl => hP.tame (State.tame_serve fun _ => .of_inboxes) hs
  | .configRead _, _, rfl => hP.tame State.tame_readOnly hs
  | .configWrite _, _, rfl =>
      serve_induction P (fun _ _ _ => hP.tame .of_inboxes) hs fun q _ _ _ => hP.configWrite q hs
  | .endSetup _, _, rfl => hP.tame (State.tame_serve fun _ => s.tame_enterOperating _) hs
  | .tbHold _, _, rfl => hP.tame (State.tame_serve fun u => s.tame_tbHold _ u) hs
  | .tbStart _, _, rfl =>
      hP.tame (State.tame_serve fun _ => .of_plant fun h => Plant.Bounded.start h ..) hs
  | .schedule _, _, rfl => hP.tame (State.tame_serve s.tame_schedule) hs
  | .cancel _, _, rfl => hP.tame (State.tame_serve fun tag => s.tame_cancel _ tag) hs
  | .entryMove _, _, rfl => hP.tame (State.tame_serve fun q => s.tame_entryMove _ q) hs
  | .entryRead _, _, rfl => hP.tame (State.tame_serve fun tag => s.tame_entryRead _ tag) hs
  | .lineMode r, _, rfl => hP.tame (State.tame_serve fun q => s.tame_lineMode r q) hs
  | .lineRead _ _, _, rfl => hP.tame State.tame_readOnly hs
  | .waveRestart r, _, rfl => hP.tame (State.tame_serve fun l => s.tame_waveRestart r l) hs
  | .lineProbe r, _, rfl => hP.tame (State.tame_serve fun l => s.tame_lineProbe r l) hs
  | .leaseTake r, _, rfl => hP.tame (State.tame_serve fun q => s.tame_leaseTake r q) hs
  | .leaseRenew _, _, rfl => hP.tame (State.tame_serve fun q => s.tame_leaseRenew _ q) hs
  | .leaseRelease _, _, rfl => hP.tame (State.tame_serve fun l => s.tame_leaseRelease _ l) hs
  | .leaseRead _, _, rfl => hP.tame State.tame_readOnly hs
  | .captureRead _, _, rfl => hP.tame State.tame_readOnly hs
  | .tallyRead _, _, rfl => hP.tame State.tame_readOnly hs
  | .tallyAdd _, _, rfl => hP.tame (State.tame_serve fun _ => s.tame_changeTally ..) hs
  | .tallySwap _, _, rfl => hP.tame (State.tame_serve fun _ => s.tame_changeTally ..) hs
  | .tallyCas _, _, rfl => hP.tame (State.tame_serve s.tame_tallyCas) hs
  | .undecodedRequest _ _, _, h => hP.tame (State.tame_undecodedRequest h) hs
  | .deviceReset _ _, _, rfl => hP.inReset ..
  | .rstnRise, _, h => hP.rstnRise hs h
  | .tick, _, h => hP.tame (State.tame_tick h) hs
  | .captureEdge _ _ _, _, h => hP.captureEdge hs h
  | .pulseEnd l, _, rfl => hP.tame (State.tame_onPlant fun h => Plant.Bounded.pulseEnd h l) hs
  | .periodEnd l, _, rfl => hP.tame (State.tame_onPlant fun h => Plant.Bounded.periodEnd h l) hs
  | .holdTimerExpiry, _, rfl => hP.tame s.tame_holdExpiry hs
  | .lapse l, _, rfl => hP.tame (s.tame_lapse l) hs
  | .phaseAEnd l b, _, rfl => hP.tame (s.tame_phaseAEnd l b) hs
  | .phaseBEnd l b, _, rfl => hP.tame (s.tame_phaseBEnd l b) hs
  | .setupWindowExpiry, _, rfl => hP.tame s.tame_windowExpiry hs
  | .transactionBegin _, _, h => hP.tame (State.tame_transactionBegin h) hs

theorem State.Inductive.of_step {s t : State} (hs : P s) (h : step s = .next t) : P t := by
  unfold step at h
  split at h
  · next c cs _ => exact hP.of_exec (hP.tame (t := { s with pending := cs }) .of_inboxes hs) c t h
  · cases h
    exact hP.tame s.tame_idle hs

end Exec

/-! ## Queues at every step (R168) -/

theorem queuesBounded_iff (s : State) : QueuesBounded s ↔ s.plant.Bounded := ⟨fun h => ⟨h⟩, fun h => h.queue⟩

theorem bounded_configWrite {s : State} (q : ItemWrite) (h : s.plant.Bounded) :
    (configWriteWork q s).1.plant.Bounded := by
  unfold configWriteWork
  split
  · unfold State.setTable
    split
    · exact h.of_inboxes
    · exact h
  · exact h

theorem bounded_inReset (straps : Vector Level 4) (cs : List Instr) (f : Nat) :
    (State.inReset straps cs f).plant.Bounded := by
  refine ⟨fun p => ?_⟩
  rw [State.inReset_inbox]
  exact Nat.zero_le _

/-- An EDGE notice takes its place among the first 16 (R129). -/
theorem bounded_acceptEdge {s : State} (c : Channel) (dir : Edge) (h : s.plant.Bounded) :
    (s.acceptEdge c dir).plant.Bounded := by
  refine ⟨fun p => ?_⟩
  cases hp : (s.port p).mask.getLsbD c.val with
  | false =>
    rw [State.acceptEdge_inbox_of_unsubscribed hp]
    exact ((s.keeps_edgeDone c).bounded h).queue p
  | true =>
    obtain ⟨before, behind, -, -, hinbox⟩ := State.acceptEdge_inbox_of_subscribed hp dir
    rw [hinbox]
    exact List.length_take_le ..

theorem inductive_bounded : State.Inductive fun s => s.plant.Bounded where
  tame h hs := h.queues hs
  configWrite := bounded_configWrite
  inReset := bounded_inReset
  afterRise _ hs := hs
  sample _ _ hs := hs
  acceptEdge := bounded_acceptEdge

/-! ## The table at every step (R174) -/

theorem Table.quotaSum_eq (t : Table) :
    t.quotaSum = t.quota.get 0 + t.quota.get 1 + t.quota.get 2 + t.quota.get 3 := by
  have hports : allPorts = [0, 1, 2, 3] := by decide
  simp only [Table.quotaSum, hports, List.map_cons, List.map_nil, List.sum_cons, List.sum_nil]
  omega

theorem Table.sourceUsable_iff (t : Table) :
    t.sourceUsable = true ↔ ∀ c, t.source = .pace c → (t.channels.get c).select ≠ .off := by
  unfold Table.sourceUsable
  cases t.source with
  | internal => exact iff_of_true rfl nofun
  | pace c =>
    refine bne_iff_ne.trans ⟨fun h d hd => ?_, fun h => h c rfl⟩
    cases hd
    exact h

/-- The consistency that CONFIG_WRITE tests is that of R174. -/
theorem Table.consistent_iff (t : Table) : t.consistent = true ↔
    t.quota.get 0 + t.quota.get 1 + t.quota.get 2 + t.quota.get 3 ≤ 64 ∧
      ∀ c, t.source = .pace c → (t.channels.get c).select ≠ .off := by
  rw [Table.consistent, Bool.and_eq_true, decide_eq_true_eq, Table.quotaSum_eq, Table.sourceUsable_iff]

theorem tableConsistent_iff (s : State) : TableConsistent s ↔ s.table.consistent = true :=
  (Table.consistent_iff s.table).symm

theorem Table.default_consistent : Table.default.consistent = true := by decide +kernel

@[simp] theorem State.setTable_table (x : Item) (t : Table) (s : State) : (s.setTable x t).table = t := by
  unfold State.setTable
  split <;> rfl

@[simp] theorem State.setTable_channels (x : Item) (t : Table) (s : State) :
    (s.setTable x t).channels = s.channels := by
  unfold State.setTable
  split <;> rfl

/-! ## The capture windows at every step (R126) -/

/-- Sequence numbers run up to `next`, modulo 256. -/
def RunsUpTo (next : Byte) (xs : List CaptureRecord) : Prop :=
  ∀ i, (h : i < xs.length) → (xs[i]).seq + BitVec.ofNat 8 (xs.length - i) = next

/-- One record more, with the next number. -/
theorem RunsUpTo.append {next : Byte} {xs : List CaptureRecord} (h : RunsUpTo next xs) (dir : Edge) (tc : Word) :
    RunsUpTo (next + 1#8) (xs ++ [⟨next, dir, tc⟩]) := by
  intro i hi
  rw [List.length_append, List.length_singleton] at hi ⊢
  rcases Nat.lt_succ_iff_lt_or_eq.mp hi with hlt | rfl
  · rw [List.getElem_append_left hlt, Nat.sub_add_comm hlt.le, BitVec.ofNat_add, ← BitVec.add_assoc, h i hlt]
  · rw [List.getElem_append_right le_rfl]
    simp only [Nat.sub_self, List.getElem_cons_zero, Nat.add_sub_cancel_left]

/-- The oldest records may go. -/
theorem RunsUpTo.drop {next : Byte} {xs : List CaptureRecord} (h : RunsUpTo next xs) (k : Nat) :
    RunsUpTo next (xs.drop k) := by
  intro i hi
  rw [List.length_drop] at hi ⊢
  rw [List.getElem_drop, Nat.sub_sub]
  exact h (k + i) (by omega)

/-- What R126 asks of one channel. -/
def CaptureChannel.Windowed (x : CaptureChannel) : Prop := x.window.length ≤ 4 ∧ x.consecutive

theorem CaptureChannel.Windowed.record {x : CaptureChannel} (h : x.Windowed) (now : Nat) (dir : Edge)
    (tc : Word) : (x.record now dir tc).Windowed := by
  obtain ⟨hlength, hruns⟩ := h
  refine ⟨?_, (RunsUpTo.append (xs := x.window) hruns dir tc).drop _⟩
  simp only [CaptureChannel.record, keepLast, Config.windowDepth, List.length_drop, List.length_append,
    List.length_singleton]
  omega

/-- The table is consistent, and every window is as R126 asks. -/
structure TableSound (s : State) : Prop where
  table   : s.table.consistent = true
  windows : ∀ c, (s.channels.get c).Windowed

theorem tableSound_iff (s : State) : TableSound s ↔ TableConsistent s ∧ WindowsConsecutive s :=
  ⟨fun h => ⟨(tableConsistent_iff s).mpr h.table, h.windows⟩,
    fun ⟨htable, hwindows⟩ => ⟨(tableConsistent_iff s).mp htable, hwindows⟩⟩

theorem TableSound.of_tame {s t : State} (h : s.Tame t) (hs : TableSound s) : TableSound t :=
  ⟨by rw [h.table]; exact hs.table, by rw [h.channels]; exact hs.windows⟩

/-- A write that leaves an inconsistent table is refused (R175). -/
theorem TableSound.configWrite {s : State} (q : ItemWrite) (hs : TableSound s) :
    TableSound (configWriteWork q s).1 := by
  unfold configWriteWork
  split
  · next hq => exact ⟨by rwa [State.setTable_table], by rw [State.setTable_channels]; exact hs.windows⟩
  · exact hs

theorem tableSound_inReset (straps : Vector Level 4) (cs : List Instr) (f : Nat) :
    TableSound (State.inReset straps cs f) := by
  refine ⟨Table.default_consistent, fun c => ?_⟩
  rw [show (State.inReset straps cs f).channels.get c = ⟨none, 0#8, [], false, 0⟩ from replicate_get ..]
  exact ⟨Nat.zero_le _, nofun⟩

theorem TableSound.afterRise {s : State} (inputs : BitVec 8) (hs : TableSound s) :
    TableSound (s.afterRise inputs) := by
  refine ⟨Table.default_consistent, fun c => ?_⟩
  rw [State.afterRise_channels, ofFn_get]
  exact hs.windows c

/-- One channel is replaced by one whose window is as R126 asks. -/
theorem windowed_upd {s : State} (hs : TableSound s) (c : Channel) {f : CaptureChannel → CaptureChannel}
    (hf : (f (s.channels.get c)).Windowed) (d : Channel) : ((upd s.channels c f).get d).Windowed := by
  rw [upd_get]
  split
  · exact hf
  · exact hs.windows d

theorem TableSound.sample {s : State} (c : Channel) (dir : Edge) (hs : TableSound s) :
    TableSound (s.sample c dir) := ⟨hs.table, windowed_upd hs c (hs.windows c)⟩

theorem TableSound.acceptEdge {s : State} (c : Channel) (dir : Edge) (hs : TableSound s) :
    TableSound (s.acceptEdge c dir) := by
  refine ⟨hs.table, fun d => ?_⟩
  rw [State.acceptEdge_channels]
  exact windowed_upd hs c ((hs.windows c).record ..) d

theorem inductive_tableSound : State.Inductive TableSound where
  tame := TableSound.of_tame
  configWrite := TableSound.configWrite
  inReset := tableSound_inReset
  afterRise := TableSound.afterRise
  sample := TableSound.sample
  acceptEdge := TableSound.acceptEdge

/-- Settles O54: the two invariants are inductive. -/
theorem queuesTableWindowsStayLegal : Obligations.QueuesTableWindowsStayLegal := by
  refine ⟨fun s t hs hstep => ?queues, fun s t htable hwindows hstep => ?tables⟩
  case queues =>
    exact (queuesBounded_iff t).mpr (inductive_bounded.of_step ((queuesBounded_iff s).mp hs) hstep)
  case tables =>
    have hs : TableSound s := (tableSound_iff s).mpr ⟨htable, hwindows⟩
    exact (tableSound_iff t).mp (inductive_tableSound.of_step hs hstep)

end Sys2Proof.Machine
end

section
/-! PROOF of O19 and O20. The code of an item and the value that it holds are read back: each reader of a byte or a
word is told by what it reads. A write sets the field of its item to the value and leaves every other item. -/

namespace Sys2Proof.Machine

/-! ## Codes and indices (R174) -/

/-- The code of an item (R174). -/
def Item.code : Item → Byte
  | .quota _ => 0x01#8
  | .lineKind _ => 0x10#8
  | .lineCeiling _ => 0x11#8
  | .linePolarity _ => 0x12#8
  | .lineFallback _ => 0x13#8
  | .linePreemptible _ => 0x14#8
  | .lineInitialMode _ => 0x15#8
  | .source => 0x20#8
  | .prescale => 0x21#8
  | .holdLevel => 0x22#8
  | .holdTimeout => 0x23#8
  | .arbitration => 0x24#8
  | .chEdge _ => 0x30#8
  | .chHoldoff _ => 0x31#8
  | .tallyBind _ => 0x40#8
  | .tallyLevel _ => 0x41#8

/-- The index of an item: its port, line, channel or tally, and 0 for an item of the whole part (R174). -/
def Item.index : Item → Byte
  | .quota p => natByte p.val
  | .lineKind l | .lineCeiling l | .linePolarity l | .lineFallback l | .linePreemptible l
  | .lineInitialMode l => natByte l.val
  | .source | .prescale | .holdLevel | .holdTimeout | .arbitration => 0#8
  | .chEdge c | .chHoldoff c => natByte c.val
  | .tallyBind n | .tallyLevel n => natByte n.val

theorem natByte_of_byteFin {n : Nat} {b : Byte} {i : Fin n} (h : byteFin n b = some i) : b = natByte i.val := by
  unfold byteFin at h
  split at h
  · cases h
    exact BitVec.eq_of_toNat_eq (by simp [natByte])
  · nomatch h

theorem byteFin_map_natByte {α : Type} {n : Nat} (f : Fin n → α) (i : Fin n) (h : n ≤ 256) :
    (byteFin n (natByte i.val)).map f = some (f i) :=
  congrArg (Option.map f) (byteFin_natByte i h)

theorem wholeItem_eq_some {x y : Item} {b : Byte} : wholeItem x b = some y ↔ b = 0#8 ∧ x = y := by
  unfold wholeItem
  split <;> simp [*]

/-- A code and an index of the table name their item. -/
theorem Item.ofCode_code_index (x : Item) : Item.ofCode x.code x.index = some x := by
  cases x with
  | quota p => exact byteFin_map_natByte _ p (by decide)
  | lineKind l | lineCeiling l | linePolarity l | lineFallback l | linePreemptible l | lineInitialMode l =>
    exact byteFin_map_natByte _ l (by decide)
  | source | prescale | holdLevel | holdTimeout | arbitration => rfl
  | chEdge c | chHoldoff c => exact byteFin_map_natByte _ c (by decide)
  | tallyBind n | tallyLevel n => exact byteFin_map_natByte _ n (by decide)

/-- An item is named by its own code and index alone. -/
theorem Item.code_index_of_ofCode {code index : Byte} {x : Item} (h : Item.ofCode code index = some x) :
    code = x.code ∧ index = x.index := by
  unfold Item.ofCode at h
  split at h
  case h_17 => nomatch h
  case h_8 hc | h_9 hc | h_10 hc | h_11 hc | h_12 hc =>
    obtain ⟨hi, rfl⟩ := wholeItem_eq_some.mp h
    exact ⟨BitVec.eq_of_toNat_eq hc, hi⟩
  all_goals
    obtain ⟨i, hi, rfl⟩ := Option.map_eq_some_iff.mp h
    exact ⟨BitVec.eq_of_toNat_eq ‹_›, natByte_of_byteFin hi⟩

theorem Item.ofCode_eq_some_iff {code index : Byte} {x : Item} :
    Item.ofCode code index = some x ↔ code = x.code ∧ index = x.index := by
  refine ⟨Item.code_index_of_ofCode, ?_⟩
  rintro ⟨rfl, rfl⟩
  exact x.ofCode_code_index

/-! ## Values (R174) -/

theorem natWord_toNat {n : Nat} (h : n < 2 ^ 32) : (natWord n).toNat = n :=
  (BitVec.toNat_ofNat ..).trans (Nat.mod_eq_of_lt h)

theorem natWord_of_toNat (v : Word) : natWord v.toNat = v :=
  BitVec.eq_of_toNat_eq (natWord_toNat v.isLt)

theorem wordFin_toNat {n : Nat} {v : Word} {k : Fin n} (h : wordFin n v = some k) : k.val = v.toNat := by
  unfold wordFin at h
  split at h
  · cases h
    rfl
  · nomatch h

theorem wordFin_eq_some {n : Nat} {v : Word} {k : Fin n} (h : wordFin n v = some k) : v = natWord k.val := by
  rw [wordFin_toNat h, natWord_of_toNat]

theorem wordFin_isSome_iff {n : Nat} {v : Word} : (wordFin n v).isSome = true ↔ v.toNat < n := by
  unfold wordFin
  split <;> simp [*]

theorem wordRange_eq_some_iff {lo hi n : Nat} {v : Word} :
    wordRange lo hi v = some n ↔ (lo ≤ v.toNat ∧ v.toNat ≤ hi) ∧ v.toNat = n := by
  rw [wordRange, Option.ite_none_right_eq_some, Option.some.injEq]

theorem wordRange_eq_some {lo hi n : Nat} {v : Word} (h : wordRange lo hi v = some n) : n = v.toNat :=
  (wordRange_eq_some_iff.mp h).2.symm

theorem wordRange_isSome_iff {lo hi : Nat} {v : Word} :
    (wordRange lo hi v).isSome = true ↔ lo ≤ v.toNat ∧ v.toNat ≤ hi := by
  unfold wordRange
  split <;> simp [*]

theorem wordPair_eq_some {α : Type} {zero one k : α} {v : Word} (h : wordPair zero one v = some k) :
    (v = 0#32 ∧ k = zero) ∨ (v = 1#32 ∧ k = one) := by
  unfold wordPair at h
  split at h
  · next hv => exact .inl ⟨BitVec.eq_of_toNat_eq hv, (Option.some.inj h).symm⟩
  · next hv => exact .inr ⟨BitVec.eq_of_toNat_eq hv, (Option.some.inj h).symm⟩
  · nomatch h

theorem wordPair_isSome_iff {α : Type} {zero one : α} {v : Word} :
    (wordPair zero one v).isSome = true ↔ v.toNat ≤ 1 := by
  unfold wordPair
  split
  · next hv => simp [hv]
  · next hv => simp [hv]
  · next h0 h1 => exact iff_of_false nofun fun hle => (Nat.le_one_iff_eq_zero_or_eq_one.mp hle).elim h0 h1

theorem wordChannel_eq_some {v : Word} {c : Option Channel} (h : wordChannel v = some c) : v = channelWord c := by
  unfold wordChannel at h
  split at h
  · next hv =>
    cases h
    exact hv
  · obtain ⟨d, hd, rfl⟩ := Option.map_eq_some_iff.mp h
    exact wordFin_eq_some hd

theorem wordChannel_isSome_iff {v : Word} : (wordChannel v).isSome = true ↔ v.toNat ≤ 7 ∨ v = 0xFF#32 := by
  unfold wordChannel
  split
  · next hv => exact iff_of_true rfl (.inr hv)
  · next hv =>
    rw [Option.isSome_map, wordFin_isSome_iff, or_iff_left hv]
    exact Nat.lt_succ_iff

theorem wordSelect_eq_some {v : Word} {k : EdgeSelect} (h : wordSelect v = some k) :
    v = (selectCode k).setWidth 32 := by
  unfold wordSelect at h
  split at h
  case h_5 => nomatch h
  all_goals
    cases h
    exact BitVec.eq_of_toNat_eq ‹_›

theorem wordSelect_isSome_iff {v : Word} : (wordSelect v).isSome = true ↔ v.toNat ≤ 3 := by
  unfold wordSelect
  split
  case h_5 h0 h1 h2 h3 =>
    refine iff_of_false nofun fun hle => ?_
    rcases (by omega : v.toNat = 0 ∨ v.toNat = 1 ∨ v.toNat = 2 ∨ v.toNat = 3) with h | h | h | h
    exacts [h0 h, h1 h, h2 h, h3 h]
  all_goals exact iff_of_true rfl (by omega)

theorem channelWord_eq_none {c : Option Channel} (h : channelWord c = 0xFF#32) : c = none := by
  revert c; decide

theorem channelWord_eq_some {c : Option Channel} {d : Channel} (h : (channelWord c).toNat = d.val) : c = some d := by
  revert c d; decide

theorem wordPair_eq_ite {α : Type} {zero one k : α} {v : Word} (h : wordPair zero one v = some k) :
    k = if v = 0#32 then zero else one := by
  rcases wordPair_eq_some h with ⟨rfl, rfl⟩ | ⟨rfl, rfl⟩ <;> rfl

theorem wordPair_eq_beq {k : Bool} {v : Word} (h : wordPair false true v = some k) : k = (v == 1#32) := by
  rcases wordPair_eq_some h with ⟨rfl, rfl⟩ | ⟨rfl, rfl⟩ <;> rfl

/-! ## A write sets its field (R174, R175) -/

@[simp] theorem Table.setLine_get_self (t : Table) (l : LineId) (f : LineConfig → LineConfig) :
    (t.setLine l f).lines.get l = f (t.lines.get l) := upd_get_self ..

@[simp] theorem Table.setChannel_get_self (t : Table) (c : Channel) (f : ChannelConfig → ChannelConfig) :
    (t.setChannel c f).channels.get c = f (t.channels.get c) := upd_get_self ..

@[simp] theorem Table.setTally_get_self (t : Table) (n : TallyId) (f : TallyConfig → TallyConfig) :
    (t.setTally n f).tallies.get n = f (t.tallies.get n) := upd_get_self ..

/-- The field that an item names, as the table of R174 gives a value of it. -/
def Item.Holds (v : Word) (t : Table) : Item → Prop
  | .quota p => t.quota.get p = v.toNat
  | .lineKind l => (t.lines.get l).kind = if v = 0#32 then .leased else .shared
  | .lineCeiling l => (t.lines.get l).ceiling.val = v.toNat
  | .linePolarity l => (t.lines.get l).polarity = if v = 0#32 then .activeHigh else .activeLow
  | .lineFallback l => (t.lines.get l).fallback = (v == 1#32)
  | .linePreemptible l => (t.lines.get l).preemptible = (v == 1#32)
  | .lineInitialMode l => (t.lines.get l).initialMode = if v = 0#32 then .drive else .shadow
  | .source => (v = 0xFF#32 → t.source = .internal) ∧
      ∀ c : Channel, v.toNat = c.val → t.source = .pace c
  | .prescale => t.prescale = v.toNat
  | .holdLevel => t.holdLevel.val = v.toNat
  | .holdTimeout => t.holdTimeout = v.toNat
  | .arbitration => t.arbitration = if v = 0#32 then .oldest else .newest
  | .chEdge c => (t.channels.get c).select =
      if v = 0#32 then .off else if v = 1#32 then .rise else if v = 2#32 then .fall else .both
  | .chHoldoff c => (t.channels.get c).holdoff.toNat = v.toNat
  | .tallyBind n => (v = 0xFF#32 → (t.tallies.get n).binding = none) ∧
      ∀ c : Channel, v.toNat = c.val → (t.tallies.get n).binding = some c
  | .tallyLevel n => (t.tallies.get n).level.val = v.toNat

theorem Item.holds_of_write {x : Item} {t t' : Table} {v : Word} (h : x.write t v = some t') : x.Holds v t' := by
  cases x <;> obtain ⟨k, hk, rfl⟩ := Option.map_eq_some_iff.mp h
  case quota p => exact (upd_get_self ..).trans (wordRange_eq_some hk)
  case lineKind l => exact (congrArg LineConfig.kind (Table.setLine_get_self ..)).trans (wordPair_eq_ite hk)
  case lineCeiling l =>
    refine (congrArg (fun c => c.ceiling.val) (Table.setLine_get_self ..)).trans ?_
    exact wordFin_toNat hk
  case linePolarity l => exact (congrArg LineConfig.polarity (Table.setLine_get_self ..)).trans (wordPair_eq_ite hk)
  case lineFallback l => exact (congrArg LineConfig.fallback (Table.setLine_get_self ..)).trans (wordPair_eq_beq hk)
  case linePreemptible l =>
    exact (congrArg LineConfig.preemptible (Table.setLine_get_self ..)).trans (wordPair_eq_beq hk)
  case lineInitialMode l =>
    exact (congrArg LineConfig.initialMode (Table.setLine_get_self ..)).trans (wordPair_eq_ite hk)
  case source =>
    obtain rfl := wordChannel_eq_some hk
    exact ⟨fun hv => congrArg TickSource.ofChannel (channelWord_eq_none hv),
      fun c hc => congrArg TickSource.ofChannel (channelWord_eq_some hc)⟩
  case prescale | holdTimeout => exact wordRange_eq_some hk
  case holdLevel => exact wordFin_toNat hk
  case arbitration => exact wordPair_eq_ite hk
  case chEdge c =>
    refine (congrArg ChannelConfig.select (Table.setChannel_get_self ..)).trans ?_
    obtain rfl := wordSelect_eq_some hk
    cases k <;> rfl
  case chHoldoff c =>
    refine (congrArg (fun x => x.holdoff.toNat) (Table.setChannel_get_self ..)).trans ?_
    obtain ⟨⟨-, hmax⟩, rfl⟩ := wordRange_eq_some_iff.mp hk
    exact (BitVec.toNat_ofNat ..).trans (Nat.mod_eq_of_lt (Nat.lt_succ_of_le hmax))
  case tallyBind n =>
    have hget := congrArg TallyConfig.binding (Table.setTally_get_self t n fun x => { x with binding := k })
    obtain rfl := wordChannel_eq_some hk
    exact ⟨fun hv => hget.trans (channelWord_eq_none hv), fun c hc => hget.trans (channelWord_eq_some hc)⟩
  case tallyLevel n =>
    refine (congrArg (fun x => x.level.val) (Table.setTally_get_self ..)).trans ?_
    exact wordFin_toNat hk

/-- The values of an item (R174). -/
def Item.InRange (v : Word) : Item → Prop
  | .quota _ => v.toNat ≤ 64
  | .lineCeiling _ | .holdLevel | .chEdge _ | .tallyLevel _ => v.toNat ≤ 3
  | .source | .tallyBind _ => v.toNat ≤ 7 ∨ v = 0xFF#32
  | .prescale => 1 ≤ v.toNat ∧ v.toNat ≤ 1000
  | .holdTimeout => 1 ≤ v.toNat ∧ v.toNat ≤ 60000
  | .chHoldoff _ => v.toNat ≤ 65535
  | _ => v.toNat ≤ 1

theorem Item.write_isSome_iff (x : Item) (t : Table) (v : Word) : (x.write t v).isSome = true ↔ x.InRange v := by
  have hlt {n : Nat} : v.toNat < n + 1 ↔ v.toNat ≤ n := Nat.lt_succ_iff
  have hzero {n : Nat} : 0 ≤ v.toNat ∧ v.toNat ≤ n ↔ v.toNat ≤ n := and_iff_right (Nat.zero_le _)
  cases x <;> refine (congrArg (· = true) Option.isSome_map).to_iff.trans ?_
  case quota | chHoldoff => exact wordRange_isSome_iff.trans hzero
  case prescale | holdTimeout => exact wordRange_isSome_iff
  case lineCeiling | holdLevel | tallyLevel => exact wordFin_isSome_iff.trans hlt
  case source | tallyBind => exact wordChannel_isSome_iff
  case chEdge => exact wordSelect_isSome_iff
  case lineKind | linePolarity | lineFallback | linePreemptible | lineInitialMode | arbitration =>
    exact wordPair_isSome_iff

/-! ## The default table (R174) -/

/-- The default value of an item (R174). -/
def Item.default : Item → Word
  | .quota _ => 16#32
  | .lineCeiling _ | .tallyLevel _ => 3#32
  | .source | .tallyBind _ => 0xFF#32
  | .prescale => 10#32
  | .holdLevel => 1#32
  | .holdTimeout => 100#32
  | _ => 0#32

theorem Table.default_line (l : LineId) : Table.default.lines.get l = LineConfig.default := replicate_get ..

theorem Table.default_channel (c : Channel) : Table.default.channels.get c = ⟨.off, 0#16⟩ := replicate_get ..

theorem Table.default_tally (n : TallyId) : Table.default.tallies.get n = ⟨none, 3⟩ := replicate_get ..

theorem Item.read_default (x : Item) : x.read Table.default = x.default := by
  cases x
  case quota p => exact congrArg natWord (replicate_get ..)
  case source | prescale | holdLevel | holdTimeout | arbitration => rfl
  case chEdge c | chHoldoff c => rw [Item.read, Table.default_channel]; rfl
  case tallyBind n | tallyLevel n => rw [Item.read, Table.default_tally]; rfl
  case lineKind l | lineCeiling l | linePolarity l | lineFallback l | linePreemptible l | lineInitialMode l =>
    rw [Item.read, Table.default_line]
    rfl

/-- Settles O19: the codes, the fields, the ranges and the defaults, item by item. -/
theorem configItemsAsListed : Obligations.ConfigItemsAsListed := by
  refine ⟨fun code index x => Item.ofCode_eq_some_iff.trans (.of_eq ?codes), fun x t t' v h => ?sets,
    fun x t v => (x.write_isSome_iff t v).trans (.of_eq ?ranges), fun x => x.read_default.trans ?defaults⟩
  case codes => cases x <;> rfl
  case sets =>
    have hholds := Item.holds_of_write h
    cases x <;> exact hholds
  case ranges => cases x <;> rfl
  case defaults => cases x <;> rfl

/-! ## What a write changes (R175) -/

/-- The item holds the value written. -/
theorem Item.read_of_write {x : Item} {t t' : Table} {v : Word} (h : x.write t v = some t') : x.read t' = v := by
  cases x <;> obtain ⟨k, hk, rfl⟩ := Option.map_eq_some_iff.mp h
  case quota p => rw [Item.read, upd_get_self, wordRange_eq_some hk, natWord_of_toNat]
  case lineKind l | linePolarity l | lineFallback l | linePreemptible l | lineInitialMode l =>
    rw [Item.read, Table.setLine_get_self]
    rcases wordPair_eq_some hk with ⟨rfl, rfl⟩ | ⟨rfl, rfl⟩ <;> rfl
  case lineCeiling l => rw [Item.read, Table.setLine_get_self, wordFin_eq_some hk]
  case source =>
    obtain rfl := wordChannel_eq_some hk
    cases k <;> rfl
  case prescale | holdTimeout => exact (congrArg natWord (wordRange_eq_some hk)).trans (natWord_of_toNat v)
  case holdLevel => exact (wordFin_eq_some hk).symm
  case arbitration => rcases wordPair_eq_some hk with ⟨rfl, rfl⟩ | ⟨rfl, rfl⟩ <;> rfl
  case chEdge c => rw [Item.read, Table.setChannel_get_self, wordSelect_eq_some hk]
  case chHoldoff c =>
    obtain ⟨⟨-, hmax⟩, rfl⟩ := wordRange_eq_some_iff.mp hk
    rw [Item.read, Table.setChannel_get_self]
    refine BitVec.eq_of_toNat_eq ?_
    simp only [BitVec.toNat_setWidth, BitVec.toNat_ofNat]
    omega
  case tallyBind n => rw [Item.read, Table.setTally_get_self, wordChannel_eq_some hk]
  case tallyLevel n => rw [Item.read, Table.setTally_get_self, wordFin_eq_some hk]

/-- What a change of one element leaves of it, it leaves of every element. -/
theorem upd_get_congr {α β : Type} {n : Nat} {v : Vector α n} {i : Fin n} {f : α → α} (g : α → β)
    (j : Fin n) (h : j = i → ∀ x, g (f x) = g x) : g ((upd v i f).get j) = g (v.get j) := by
  rw [upd_get]
  split
  · next e => rw [h e, e]
  · rfl

/-- A change of one line leaves every item but those of the fields that it changes on that line. -/
theorem Item.read_setLine {t : Table} {l : LineId} {f : LineConfig → LineConfig} {y : Item}
    (kind : y = .lineKind l → ∀ c, (f c).kind = c.kind := by exact fun _ _ => rfl)
    (ceiling : y = .lineCeiling l → ∀ c, (f c).ceiling = c.ceiling := by exact fun _ _ => rfl)
    (polarity : y = .linePolarity l → ∀ c, (f c).polarity = c.polarity := by exact fun _ _ => rfl)
    (fallback : y = .lineFallback l → ∀ c, (f c).fallback = c.fallback := by exact fun _ _ => rfl)
    (preemptible : y = .linePreemptible l → ∀ c, (f c).preemptible = c.preemptible := by exact fun _ _ => rfl)
    (initialMode : y = .lineInitialMode l → ∀ c, (f c).initialMode = c.initialMode := by exact fun _ _ => rfl) :
    y.read (t.setLine l f) = y.read t := by
  cases y
  case lineKind m =>
    rw [Item.read, Item.read, Table.setLine, upd_get_congr LineConfig.kind m fun e => kind (e ▸ rfl)]
  case lineCeiling m =>
    rw [Item.read, Item.read, Table.setLine, upd_get_congr LineConfig.ceiling m fun e => ceiling (e ▸ rfl)]
  case linePolarity m =>
    rw [Item.read, Item.read, Table.setLine, upd_get_congr LineConfig.polarity m fun e => polarity (e ▸ rfl)]
  case lineFallback m =>
    rw [Item.read, Item.read, Table.setLine, upd_get_congr LineConfig.fallback m fun e => fallback (e ▸ rfl)]
  case linePreemptible m =>
    rw [Item.read, Item.read, Table.setLine, upd_get_congr LineConfig.preemptible m fun e => preemptible (e ▸ rfl)]
  case lineInitialMode m =>
    rw [Item.read, Item.read, Table.setLine, upd_get_congr LineConfig.initialMode m fun e => initialMode (e ▸ rfl)]
  all_goals rfl

theorem Item.read_setChannel {t : Table} {c : Channel} {f : ChannelConfig → ChannelConfig} {y : Item}
    (select : y = .chEdge c → ∀ x, (f x).select = x.select := by exact fun _ _ => rfl)
    (holdoff : y = .chHoldoff c → ∀ x, (f x).holdoff = x.holdoff := by exact fun _ _ => rfl) :
    y.read (t.setChannel c f) = y.read t := by
  cases y
  case chEdge d =>
    rw [Item.read, Item.read, Table.setChannel, upd_get_congr ChannelConfig.select d fun e => select (e ▸ rfl)]
  case chHoldoff d =>
    rw [Item.read, Item.read, Table.setChannel, upd_get_congr ChannelConfig.holdoff d fun e => holdoff (e ▸ rfl)]
  all_goals rfl

theorem Item.read_setTally {t : Table} {n : TallyId} {f : TallyConfig → TallyConfig} {y : Item}
    (binding : y = .tallyBind n → ∀ x, (f x).binding = x.binding := by exact fun _ _ => rfl)
    (level : y = .tallyLevel n → ∀ x, (f x).level = x.level := by exact fun _ _ => rfl) :
    y.read (t.setTally n f) = y.read t := by
  cases y
  case tallyBind m =>
    rw [Item.read, Item.read, Table.setTally, upd_get_congr TallyConfig.binding m fun e => binding (e ▸ rfl)]
  case tallyLevel m =>
    rw [Item.read, Item.read, Table.setTally, upd_get_congr TallyConfig.level m fun e => level (e ▸ rfl)]
  all_goals rfl

/-- A change of what belongs to the whole part leaves every item but those of the fields that it changes. -/
theorem Item.read_setWhole {t t' : Table} {y : Item}
    (source : y = .source → t'.source = t.source := by exact fun _ => rfl)
    (prescale : y = .prescale → t'.prescale = t.prescale := by exact fun _ => rfl)
    (holdLevel : y = .holdLevel → t'.holdLevel = t.holdLevel := by exact fun _ => rfl)
    (holdTimeout : y = .holdTimeout → t'.holdTimeout = t.holdTimeout := by exact fun _ => rfl)
    (arbitration : y = .arbitration → t'.arbitration = t.arbitration := by exact fun _ => rfl)
    (quota : t'.quota = t.quota := by exact rfl) (lines : t'.lines = t.lines := by exact rfl)
    (channels : t'.channels = t.channels := by exact rfl) (tallies : t'.tallies = t.tallies := by exact rfl) :
    y.read t' = y.read t := by
  cases y <;> rw [Item.read, Item.read]
  case quota => rw [quota]
  case lineKind | lineCeiling | linePolarity | lineFallback | linePreemptible | lineInitialMode => rw [lines]
  case source => rw [source rfl]
  case prescale => rw [prescale rfl]
  case holdLevel => rw [holdLevel rfl]
  case holdTimeout => rw [holdTimeout rfl]
  case arbitration => rw [arbitration rfl]
  case chEdge | chHoldoff => rw [channels]
  case tallyBind | tallyLevel => rw [tallies]

theorem Item.read_setQuota {t : Table} {p : Port} {f : Nat → Nat} {y : Item} (hy : y ≠ .quota p) :
    y.read { t with quota := upd t.quota p f } = y.read t := by
  cases y
  case quota q => exact congrArg natWord (upd_get_ne _ _ fun e => hy (e ▸ rfl))
  all_goals rfl

/-- Every other item holds what it held. -/
theorem Item.read_of_write_ne {x y : Item} {t t' : Table} {v : Word} (h : x.write t v = some t') (hy : y ≠ x) :
    y.read t' = y.read t := by
  cases x <;> obtain ⟨k, -, rfl⟩ := Option.map_eq_some_iff.mp h
  case quota p => exact Item.read_setQuota hy
  case lineKind l => exact Item.read_setLine (kind := (absurd · hy))
  case lineCeiling l => exact Item.read_setLine (ceiling := (absurd · hy))
  case linePolarity l => exact Item.read_setLine (polarity := (absurd · hy))
  case lineFallback l => exact Item.read_setLine (fallback := (absurd · hy))
  case linePreemptible l => exact Item.read_setLine (preemptible := (absurd · hy))
  case lineInitialMode l => exact Item.read_setLine (initialMode := (absurd · hy))
  case chEdge c => exact Item.read_setChannel (select := (absurd · hy))
  case chHoldoff c => exact Item.read_setChannel (holdoff := (absurd · hy))
  case tallyBind n => exact Item.read_setTally (binding := (absurd · hy))
  case tallyLevel n => exact Item.read_setTally (level := (absurd · hy))
  case source => exact Item.read_setWhole (source := (absurd · hy))
  case prescale => exact Item.read_setWhole (prescale := (absurd · hy))
  case holdLevel => exact Item.read_setWhole (holdLevel := (absurd · hy))
  case holdTimeout => exact Item.read_setWhole (holdTimeout := (absurd · hy))
  case arbitration => exact Item.read_setWhole (arbitration := (absurd · hy))

/-! ## CONFIG_WRITE (R175) -/

theorem parseWrite_eq {t t' : Table} {code index v3 v2 v1 v0 : Byte} {x : Item}
    (hx : Item.ofCode code index = some x) (hw : x.write t (word v3 v2 v1 v0) = some t') :
    parseWrite t [code, index, v3, v2, v1, v0] = some ⟨code, index, x, t'⟩ := by
  simp only [parseWrite, hx, hw, Option.map_some]

/-- A request that SETUP alone admits and effective level 0 alone makes (R163). -/
theorem serve_setup {α : Type} {kind : Byte} {operands : State → Option α} {work : α → State → State × Reply}
    {r : Request} {s : State} {a : α} (ht : Taken kind r s) (hd : s.device = .setup) (hv : s.effective r = 0)
    (ho : operands s = some a) : serve kind .setupOnly (fun _ => some 0) operands work r s =
      (work a s).1.answer r kind (work a s).2.status (work a s).2.body := by
  refine serve_taken ht (by rw [hd]; rfl) ?_ ho
  rintro v ⟨⟩
  exact hv.le

theorem exec_configWrite {r : Request} {s : State} {q : ItemWrite} (ht : Taken 0x09#8 r s)
    (hd : s.device = .setup) (hv : s.effective r = 0) (hq : parseWrite s.table r.body = some q) :
    exec (.configWrite r) s = .next ((configWriteWork q s).1.answer r 0x09#8 (configWriteWork q s).2.status
      (configWriteWork q s).2.body) :=
  congrArg Host.Outcome.next (serve_setup ht hd hv hq)

theorem configWriteWork_of_consistent {q : ItemWrite} (h : q.table.consistent = true) (s : State) :
    configWriteWork q s =
      (s.setTable q.item q.table, ⟨.ok, [q.code, q.index] ++ wordBytes (q.item.read q.table)⟩) := if_pos h

theorem configWriteWork_of_inconsistent {q : ItemWrite} (h : q.table.consistent ≠ true) (s : State) :
    configWriteWork q s = (s, refuse .badConfig) := if_neg h

/-- What makes a table inconsistent (R174). -/
theorem Table.not_consistent_iff (t : Table) : t.consistent ≠ true ↔
    64 < t.quota.get 0 + t.quota.get 1 + t.quota.get 2 + t.quota.get 3 ∨
      ∃ c, t.source = .pace c ∧ (t.channels.get c).select = .off := by
  rw [Ne, Table.consistent_iff, not_and_or, not_le]
  push Not
  rfl

/-- Settles O20: the items of the new table, and the work by whether the new table is consistent. -/
theorem configWriteKeepsConsistency : Obligations.ConfigWriteKeepsConsistency := by
  intro r s code index v3 v2 v1 v0 x t' ht hd hv hb hx hw
  have hread := Item.read_of_write hw
  have hexec := exec_configWrite ht hd hv (hb ▸ parseWrite_eq hx hw)
  refine ⟨hread, fun y hy => Item.read_of_write_ne hw hy, fun hc => ?made, fun hc => ?refused⟩
  case made =>
    have hwork := configWriteWork_of_consistent (q := ⟨code, index, x, t'⟩) ((Table.consistent_iff t').mpr hc) s
    rw [hexec, hwork, hread, wordBytes_word]
    cases x <;> rfl
  case refused =>
    have hwork :=
      configWriteWork_of_inconsistent (q := ⟨code, index, x, t'⟩) ((Table.not_consistent_iff t').mpr hc) s
    rw [hexec, hwork]
    rfl

end Sys2Proof.Machine
end

section
/-! PROOF of O21 and O52. END_SETUP and the end of the window are one work, the entry into OPERATING, which is read
field by field; CONFIG_READ, LEASE_READ and CAPTURE_READ answer their bodies. -/

namespace Sys2Proof.Machine

/-! ## END_SETUP and SETUP_WINDOW_EXPIRY (R177) -/

theorem exec_endSetup {r : Request} {s : State} (ht : Taken 0x0A#8 r s) (hb : r.body = []) (hd : s.device = .setup)
    (hv : s.effective r = 0) :
    exec (.endSetup r) s = .next ((s.enterOperating (.request r.port)).answer r 0x0A#8 .ok []) :=
  congrArg Host.Outcome.next (serve_setup ht hd hv (parseNothing_of_nil hb))

theorem State.windowExpiry_of_end {s : State} (hr : s.rstnLow = false) (hd : s.device = .setup)
    (hw : s.window = some 0) : s.windowExpiry = s.enterOperating .window := if_pos ⟨hr, hd, hw⟩

/-- An expiry that RC has not brought is no event (log 6). -/
theorem State.windowExpiry_of_none {s : State}
    (h : s.rstnLow = true ∨ s.device = .operating ∨ s.window ≠ some 0) : s.windowExpiry = s := by
  refine if_neg ?_
  rintro ⟨hr, hd, hw⟩
  rcases h with h | h | h
  · nomatch hr.symm.trans h
  · nomatch hd.symm.trans h
  · exact h hw

/-! ## The entry into OPERATING (R178) -/

/-- From timebase OFF an empty queue holds SETUP_CLOSED and then TIMEBASE, both at TC 0. -/
theorem Plant.inbox_enter {w : Plant} {p : Port} (ho : w.timebase = .off) (hp : w.inbox p = ⟨[], false⟩) (t : Table)
    (c : CloseCause) : (w.enter t c).inbox p =
      ⟨[⟨0xFF#8, 0#16, 0#32, .setupClosed c⟩, timebaseNotice 0#32 .off .held .setupClosed], false⟩ := by
  have hinbox : (w.enter t c).inbox p = ((w.inbox p).post ⟨noSubject, 0#16, 0#32, .setupClosed c⟩).post
      ⟨noSubject, 0#16, 0#32, .timebase w.timebase .held .setupClosed⟩ := by
    unfold Plant.enter Plant.setTimebase
    rw [Plant.inbox_postAll]
    exact congrArg (Inbox.post _) (Plant.inbox_postAll ..)
  rw [hinbox, hp, ho]
  rfl

/-- Settles O21: the two events that enter OPERATING, and the entry field by field. -/
theorem entryIntoOperating : Obligations.EntryIntoOperating := by
  refine ⟨fun r s ht hb hd hv => exec_endSetup ht hb hd hv, fun s => ⟨fun hr hd hw => ?ends, fun h => ?none⟩,
    fun s c ho => ⟨rfl, rfl, rfl, rfl, rfl, Plant.line_enter s.table c s.plant,
      fun p hp => Plant.inbox_enter ho hp s.table c, rfl, rfl, rfl, rfl, rfl⟩⟩
  case ends => exact congrArg Host.Outcome.next (State.windowExpiry_of_end hr hd hw)
  case none => exact congrArg Host.Outcome.next (State.windowExpiry_of_none h)

/-! ## CONFIG_READ (R176) -/

theorem itemBody_eq (s : State) (code index : Byte) (x : Item) : itemBody s (code, index, x) =
    [code, index] ++ wordBytes (x.read s.table) ++ [if s.device = .setup then 1#8 else 0#8] := by
  unfold itemBody
  cases s.device <;> rfl

theorem exec_configRead {r : Request} {s : State} {code index : Byte} {x : Item} (ht : Taken 0x08#8 r s)
    (hb : r.body = [code, index]) (hx : Item.ofCode code index = some x) :
    exec (.configRead r) s = .next (s.answer r 0x08#8 .ok (itemBody s (code, index, x))) := by
  have hitem : parseItem r.body = some (code, index, x) := by rw [hb, parseItem, hx]; rfl
  exact congrArg Host.Outcome.next (serve_both ht hitem)

theorem exec_configRead_of_no_item {r : Request} {s : State} {code index : Byte} (ht : Taken 0x08#8 r s)
    (hb : r.body = [code, index]) (hx : Item.ofCode code index = none) :
    exec (.configRead r) s = .next (s.answer r 0x08#8 .badField []) := by
  refine exec_of_outOfRange (i := .configRead r) rfl ht ?_
  rintro ⟨_, _, x, hbody, hitem⟩
  cases hb.symm.trans hbody
  nomatch hx.symm.trans hitem

/-! ## LEASE_READ (R112) and CAPTURE_READ (R127) -/

theorem leaseBody_eq (s : State) (l : LineId) : leaseBody s l =
    [kindCode (s.table.lines.get l).kind, levelByte (s.table.lines.get l).ceiling,
        flagByte (s.table.lines.get l).preemptible] ++
      match (s.plant.line l).lease with
      | some k => [portByte k.holder, levelByte k.level] ++ halfBytes k.term ++
          halfBytes (BitVec.ofNat 16 (max 1 ((k.remaining + 15999) / 16000)))
      | none => [0xFF#8, 0#8, 0#8, 0#8, 0#8, 0#8] := by
  unfold leaseBody
  cases (s.plant.line l).lease <;> rfl

theorem exec_leaseRead {r : Request} {s : State} {l : LineId} (ht : Taken 0x43#8 r s) (hd : s.device = .operating)
    (hb : r.body = [lineByte l]) :
    exec (.leaseRead r) s = .next (s.answer r 0x43#8 .ok (leaseBody s l)) :=
  congrArg Host.Outcome.next (serve_operating ht hd (hb ▸ parseNumber_lineByte l))

theorem exec_captureRead {r : Request} {s : State} {c : Channel} (ht : Taken 0x50#8 r s)
    (hb : r.body = [natByte c.val]) :
    exec (.captureRead r) s = .next (s.answer r 0x50#8 .ok (windowBody s c)) :=
  congrArg Host.Outcome.next (serve_both ht (hb ▸ parseNumber_natByte c (by decide)))

/-- Settles O52: the body of each read, and BAD_FIELD where no item has the code and index. -/
theorem readsReportState : Obligations.ReadsReportState := by
  refine ⟨fun r s code index ht hb => ⟨fun x hx => ?item, exec_configRead_of_no_item ht hb⟩,
    fun r s l ht hd hb => ?lease, fun r s c ht hb => exec_captureRead ht hb⟩
  case item => rw [exec_configRead ht hb hx, itemBody_eq]
  case lease =>
    have hexec := exec_leaseRead ht hd hb
    rw [leaseBody_eq] at hexec
    exact hexec

end Sys2Proof.Machine
end

section
/-! PROOF of O56 and O3. In SETUP the plant is the one that the table rests it at. A step from SETUP leaves plant and
table, but for a CONFIG_WRITE, which moves the line with its fallback, and the events that leave SETUP or reset it. -/

namespace Sys2Proof.Machine

/-! ## The plant at rest (R20, R30, R69, R71) -/

/-- A line at rest: STATIC at its fallback level in DRIVE, without holder. -/
def LineConfig.restingLine (c : LineConfig) : Line := ⟨c.fallback, .drive, .static, none⟩

/-- The plant that SETUP keeps under a table. -/
def Plant.resting (t : Table) : Plant :=
  { Plant.reset with lines := Vector.ofFn fun l => (t.lines.get l).restingLine }

@[simp] theorem Plant.resting_line (t : Table) (l : LineId) :
    (Plant.resting t).line l = (t.lines.get l).restingLine := ofFn_get ..

@[simp] theorem Plant.resting_inbox (t : Table) (p : Port) : (Plant.resting t).inbox p = ⟨[], false⟩ :=
  replicate_get ..

/-- A plant is at rest where every part of it is. -/
theorem Plant.eq_resting {t : Table} {w : Plant} (hlive : w.live = []) (htc : w.tc = 0#32)
    (htimebase : w.timebase = .off) (hhold : w.holdTimer = none)
    (hlines : ∀ l, w.line l = (t.lines.get l).restingLine) (hinboxes : ∀ p, w.inbox p = ⟨[], false⟩) :
    w = Plant.resting t := by
  simp only [Plant.live, List.append_eq_nil_iff, List.map_eq_nil_iff] at hlive
  obtain ⟨⟨harmed, htimeline⟩, hpulsing⟩ := hlive
  have hl : w.lines = (Plant.resting t).lines := get_ext fun l => (hlines l).trans (Plant.resting_line t l).symm
  have hi : w.inboxes = (Plant.resting t).inboxes := get_ext fun p => (hinboxes p).trans (Plant.resting_inbox t p).symm
  cases w
  simp only at harmed htimeline hpulsing htc htimebase hhold hl hi
  subst harmed htimeline hpulsing htc htimebase hhold hl hi
  rfl

theorem setupQuiet_iff (s : State) : SetupQuiet s ↔
    (s.rstnLow = true → s.device = .setup ∧ s.table = Table.default) ∧
      (s.device = .setup → s.plant = Plant.resting s.table) := by
  refine and_congr Iff.rfl (imp_congr_right fun _ => ⟨?_, fun h => ?_⟩)
  · rintro ⟨hlive, htc, htimebase, hhold, hlines, hinboxes⟩
    exact Plant.eq_resting hlive htc htimebase hhold hlines hinboxes
  · rw [h]
    exact ⟨rfl, rfl, rfl, rfl, Plant.resting_line s.table, Plant.resting_inbox s.table⟩

/-! ## Steps that leave SETUP as it stands -/

/-- From `s` to `t` RSTn, the device state and the table stay, and in SETUP a plant at rest stays. -/
structure State.Rests (s t : State) : Prop where
  rstnLow : t.rstnLow = s.rstnLow
  device  : t.device = s.device
  table   : t.table = s.table
  plant   : s.device = .setup → s.plant = Plant.resting s.table → t.plant = s.plant

theorem SetupQuiet.of_rests {s t : State} (hs : SetupQuiet s) (h : s.Rests t) : SetupQuiet t := by
  rw [setupQuiet_iff] at hs ⊢
  obtain ⟨hlow, hsetup⟩ := hs
  rw [h.rstnLow, h.device, h.table]
  exact ⟨hlow, fun hd => (h.plant hd (hsetup hd)).trans (hsetup hd)⟩

namespace State.Rests
variable {s t u : State}

theorem of_plant (hp : t.plant = s.plant := by rfl) (hr : t.rstnLow = s.rstnLow := by rfl)
    (hd : t.device = s.device := by rfl) (ht : t.table = s.table := by rfl) : s.Rests t :=
  ⟨hr, hd, ht, fun _ _ => hp⟩

theorem refl (s : State) : s.Rests s := of_plant

theorem trans (h : s.Rests t) (k : t.Rests u) : s.Rests u where
  rstnLow := k.rstnLow.trans h.rstnLow
  device := k.device.trans h.device
  table := k.table.trans h.table
  plant hd hw := by
    have hp := h.plant hd hw
    exact (k.plant (h.device.trans hd) (by rw [hp, h.table, hw])).trans hp

/-- In OPERATING the plant is free. -/
theorem of_operating (ho : s.device = .operating) (hr : t.rstnLow = s.rstnLow := by rfl)
    (hd : t.device = s.device := by rfl) (ht : t.table = s.table := by rfl) : s.Rests t :=
  ⟨hr, hd, ht, fun hs => nomatch ho.symm.trans hs⟩

theorem of_sheds (ho : s.device = .operating) (h : s.Sheds t) (k : s.Tame t) : s.Rests t :=
  of_operating ho h.rstnLow h.device k.table

/-- Work on the plant that has nothing to do on one at rest. -/
theorem onPlant {f : Plant → Plant} (h : f (Plant.resting s.table) = Plant.resting s.table) :
    s.Rests (s.onPlant f) :=
  ⟨rfl, rfl, rfl, fun _ hw => by rw [State.onPlant_plant, hw, h]⟩

end State.Rests

/-! ## Events of RC -/

theorem State.rests_boundary (s : State) : s.Rests s.boundary := by
  unfold State.boundary
  split
  · next h => exact .of_operating (State.operating_of_dividing h.1)
  · exact .refl s

/-- The timebase is OFF, and so not HOLDING. -/
theorem State.rests_holdExpiry (s : State) : s.Rests s.holdExpiry where
  rstnLow := s.sheds_holdExpiry.rstnLow
  device := s.sheds_holdExpiry.device
  table := s.tame_holdExpiry.table
  plant _ hw := by
    refine congrArg State.plant (if_neg ?_)
    rintro ⟨hholding, -⟩
    rw [hw] at hholding
    nomatch hholding

/-- No line has a holder. -/
theorem State.rests_lapse (s : State) (l : LineId) : s.Rests (s.lapse l) where
  rstnLow := (s.sheds_lapse l).rstnLow
  device := (s.sheds_lapse l).device
  table := (s.tame_lapse l).table
  plant _ hw := by
    refine congrArg State.plant (State.lapse_of_remaining fun k hk => ?_)
    rw [hw, Plant.resting_line] at hk
    nomatch hk

/-- No line is PROBING. -/
theorem State.rests_phaseAEnd (s : State) (l : LineId) (sense : Bool) : s.Rests (s.phaseAEnd l sense) where
  rstnLow := (s.sheds_phaseAEnd l sense).rstnLow
  device := (s.sheds_phaseAEnd l sense).device
  table := (s.tame_phaseAEnd l sense).table
  plant _ hw := by
    unfold State.phaseAEnd
    rw [hw, Plant.resting_line]
    exact hw

theorem State.rests_phaseBEnd (s : State) (l : LineId) (sense : Bool) : s.Rests (s.phaseBEnd l sense) where
  rstnLow := (s.sheds_phaseBEnd l sense).rstnLow
  device := (s.sheds_phaseBEnd l sense).device
  table := (s.tame_phaseBEnd l sense).table
  plant _ hw := by
    unfold State.phaseBEnd
    rw [hw, Plant.resting_line]
    exact hw

theorem setupQuiet_enterOperating {s : State} (hr : s.rstnLow = false) (c : CloseCause) :
    SetupQuiet (s.enterOperating c) := by
  refine ⟨fun h => ?_, nofun⟩
  rw [State.enterOperating_rstnLow, hr] at h
  nomatch h

theorem SetupQuiet.windowExpiry {s : State} (hs : SetupQuiet s) : SetupQuiet s.windowExpiry := by
  unfold State.windowExpiry
  split
  · next h =>
    obtain ⟨hr, -⟩ := h
    exact setupQuiet_enterOperating hr _
  · exact hs

/-- Every event that RC brings keeps SETUP quiet. -/
theorem SetupQuiet.takeRc {s : State} (hs : SetupQuiet s) (c : Instr) : SetupQuiet (s.takeRc c) := by
  unfold State.takeRc
  split
  · exact hs.of_rests s.rests_boundary
  · exact hs.windowExpiry
  · exact hs.of_rests s.rests_holdExpiry
  · exact hs.of_rests (s.rests_lapse _)
  · exact hs.of_rests (s.rests_phaseAEnd ..)
  · exact hs.of_rests (s.rests_phaseBEnd ..)
  · exact hs

/-- A plant at rest has no timer running. -/
theorem State.rests_runRc (s : State) (n : Nat) : s.Rests (s.runRc n) := by
  refine ⟨rfl, rfl, rfl, fun _ hw => Eq.trans (Plant.eq_resting ?live ?tc ?timebase ?hold ?lines ?inboxes) hw.symm⟩
  case live => exact (congrArg Plant.live hw).trans rfl
  case tc => exact (congrArg Plant.tc hw).trans rfl
  case timebase => exact (congrArg Plant.timebase hw).trans rfl
  case hold => exact (congrArg (fun w => w.holdTimer.map (· - n)) hw).trans rfl
  case lines =>
    intro l
    rw [State.runRc_line, hw, Plant.resting_line]
    rfl
  case inboxes => exact fun p => (congrArg (Plant.inbox · p) hw).trans (Plant.resting_inbox s.table p)

theorem SetupQuiet.passed {s : State} (hs : SetupQuiet s) (n : Nat) : SetupQuiet (s.passed n) :=
  State.passed_induction SetupQuiet (fun s n h => h.of_rests (s.rests_runRc n)) (fun _ c h => h.takeRc c)
    (fun _ _ h => h.of_rests .of_plant) n hs

theorem State.rests_idle (s : State) : s.Rests s.idle := by
  unfold State.idle
  split
  · exact .refl s
  · have h : s.Rests (if s.due = [] then s.runRc 1 else s) := by
      split
      · exact s.rests_runRc 1
      · exact .refl s
    exact h.trans .of_plant

/-! ## Requests that SETUP admits -/

/-- Every queue is empty, and its overflow flag clear. -/
theorem State.rests_noticeRead (s : State) (p : Port) (u : Unit) : s.Rests (noticeReadWork p u s).1 := by
  refine .onPlant (f := fun w => { w with inboxes := upd w.inboxes p Inbox.readOff }) ?_
  have hq : (Plant.resting s.table).inboxes.get p = ⟨[], false⟩ := Plant.resting_inbox s.table p
  exact congrArg (fun q => { Plant.resting s.table with inboxes := q }) (upd_id _ p Inbox.readOff (by rw [hq]; rfl))

theorem LineConfig.restingLine_clearedOf (c : LineConfig) (p : Port) (fallback : Bool) :
    c.restingLine.clearedOf p fallback = c.restingLine :=
  Line.clearedOf_of_other rfl (fun _ h => nomatch h) fun _ h => nomatch h

/-- A PORT_RESET has nothing to remove. -/
theorem Plant.resetPort_resting (t : Table) (p : Port) (fallback : LineId → Bool) :
    (Plant.resting t).resetPort p fallback = Plant.resting t := by
  have hcleared : (Plant.resting t).clearedOf p fallback = Plant.resting t := by
    refine Plant.eq_resting rfl rfl rfl rfl (fun l => ?_) fun q => ?_
    · rw [Plant.clearedOf_line, Plant.resting_line, LineConfig.restingLine_clearedOf]
    · rw [Plant.clearedOf_inbox, Plant.resting_inbox, ite_self]
  rw [Plant.resetPort_eq, hcleared, Plant.settleHold_of_ne (show Timebase.off ≠ .holding by decide)]

theorem State.rests_portReset (s : State) (p : Port) (u : Unit) : s.Rests (portResetWork p u s).1 :=
  (State.Rests.onPlant (Plant.resetPort_resting s.table p s.fallback)).trans .of_plant

/-- No entry is armed. -/
theorem State.rests_changeTally (s : State) (n : TallyId) (v : Word) : s.Rests (s.changeTally n v) := by
  refine ⟨rfl, rfl, rfl, fun _ hw => ?_⟩
  unfold State.changeTally
  rw [hw]
  rfl

theorem State.rests_tallyCas (s : State) (q : TallyId × Word × Word) : s.Rests (casWork q s).1 := by
  unfold casWork
  split
  · exact s.rests_changeTally ..
  · exact .refl s

/-! ## CONFIG_WRITE (R69, R175) -/

theorem flagWord_injective {a b : Bool} (h : flagWord a = flagWord b) : a = b := by
  revert h
  cases a <;> cases b <;> decide

/-- A write of another item leaves a line's fallback level. -/
theorem Item.fallback_of_write_ne {x : Item} {t t' : Table} {v : Word} {l : LineId} (h : x.write t v = some t')
    (hx : x ≠ .lineFallback l) : (t'.lines.get l).fallback = (t.lines.get l).fallback :=
  flagWord_injective (Item.read_of_write_ne h hx.symm)

theorem State.setTable_line (x : Item) (t : Table) (s : State) (l : LineId) : (s.setTable x t).plant.line l =
    if x.moved? = some l then { s.plant.line l with level := (t.lines.get l).fallback } else s.plant.line l := by
  unfold State.setTable
  split
  · next m hm =>
    rw [hm]
    refine (Plant.line_setLine ..).trans ?_
    by_cases h : l = m
    · subst h
      rw [if_pos rfl, if_pos rfl]
    · rw [if_neg h, if_neg fun e => h (Option.some.inj e).symm]
  · next hm => rw [hm, if_neg nofun]

theorem State.setTable_plant (x : Item) (t : Table) (s : State) :
    ∃ lines, (s.setTable x t).plant = { s.plant with lines := lines } := by
  unfold State.setTable
  split <;> exact ⟨_, rfl⟩

/-- A line whose fallback is written moves with it, and so the plant is at rest under the new table. -/
theorem State.setTable_resting {s : State} {x : Item} {t' : Table} {v : Word} (h : x.write s.table v = some t')
    (hw : s.plant = Plant.resting s.table) : (s.setTable x t').plant = Plant.resting t' := by
  have hline : ∀ l, (s.setTable x t').plant.line l = (t'.lines.get l).restingLine := fun l => by
    rw [State.setTable_line, hw, Plant.resting_line]
    split
    · rfl
    · next hm =>
      have hx : x ≠ .lineFallback l := by
        rintro rfl
        exact hm rfl
      rw [LineConfig.restingLine, LineConfig.restingLine, Item.fallback_of_write_ne h hx]
  obtain ⟨lines, hplant⟩ := s.setTable_plant x t'
  rw [hw] at hplant
  rw [hplant] at hline ⊢
  have hinbox p :=
    Plant.inbox_of_inboxes (w := Plant.resting s.table) (w' := { Plant.resting s.table with lines }) rfl p
  exact Plant.eq_resting rfl rfl rfl rfl hline fun p => (hinbox p).trans (Plant.resting_inbox s.table p)

theorem write_of_parseWrite {t : Table} {body : List Byte} {q : ItemWrite} (h : parseWrite t body = some q) :
    ∃ v, q.item.write t v = some q.table := by
  unfold parseWrite at h
  split at h
  · split at h
    · obtain ⟨t', hw, rfl⟩ := Option.map_eq_some_iff.mp h
      exact ⟨_, hw⟩
    · nomatch h
  · nomatch h

@[simp] theorem State.setTable_rstnLow (x : Item) (t : Table) (s : State) :
    (s.setTable x t).rstnLow = s.rstnLow := by
  unfold State.setTable
  split <;> rfl

theorem SetupQuiet.configWrite {s : State} (hs : SetupQuiet s) (hr : s.rstnLow = false) (hd : s.device = .setup)
    {q : ItemWrite} {v : Word} (hw : q.item.write s.table v = some q.table) :
    SetupQuiet (configWriteWork q s).1 := by
  obtain ⟨-, hplant⟩ := (setupQuiet_iff s).mp hs
  unfold configWriteWork
  split
  · refine (setupQuiet_iff _).mpr ⟨fun hl => ?_, fun _ => ?_⟩
    · rw [State.setTable_rstnLow, hr] at hl
      nomatch hl
    · rw [State.setTable_table]
      exact State.setTable_resting hw (hplant hd)
  · exact hs

/-! ## Requests -/

section Serve
variable {α : Type} {kind : Byte} {allowed : Allowed} {limit : State → Option Level}
  {operands : State → Option α} {r : Request} {s : State}

theorem SetupQuiet.of_serve {work : α → State → State × Reply} (hs : SetupQuiet s)
    (hwork : ∀ a, s.Rests (work a s).1) : SetupQuiet (serve kind allowed limit operands work r s) :=
  serve_induction SetupQuiet (fun _ _ _ h => h.of_rests .of_plant) hs fun a _ _ _ => hs.of_rests (hwork a)

theorem SetupQuiet.of_serve_operating {work : α → State → State × Reply} (hs : SetupQuiet s)
    (hwork : ∀ a, s.device = .operating → s.Rests (work a s).1) :
    SetupQuiet (serve kind .operatingOnly limit operands work r s) :=
  serve_induction SetupQuiet (fun _ _ _ h => h.of_rests .of_plant) hs fun a _ _ ha =>
    hs.of_rests (hwork a (Allowed.operating_of_admits ha))

theorem SetupQuiet.of_serve_readOnly {body : State → α → List Byte} (hs : SetupQuiet s) :
    SetupQuiet (serve kind allowed limit operands (readOnly body) r s) := hs.of_serve fun _ => .refl s

end Serve

theorem State.rests_schedule {s : State} (ho : s.device = .operating) (q : Entry × Word) :
    s.Rests (scheduleWork q s).1 := by
  unfold scheduleWork
  split
  · exact .refl s
  · exact .of_operating ho

/-! ## Commands that are no request -/

theorem setupQuiet_inReset (straps : Vector Level 4) (cs : List Instr) (f : Nat) :
    SetupQuiet (State.inReset straps cs f) := by
  refine ⟨fun _ => ⟨rfl, rfl⟩, fun _ => ⟨rfl, rfl, rfl, rfl, fun l => ?_, State.inReset_inbox straps cs f⟩⟩
  have hline : (State.inReset straps cs f).table.lines.get l = LineConfig.default := Table.default_line l
  rw [State.inReset_line, hline]
  rfl

/-- With RSTn low the table is the default one, and so the rise changes nothing that SETUP rests on. -/
theorem SetupQuiet.afterRise {s : State} (hs : SetupQuiet s) (hr : s.rstnLow = true) (inputs : BitVec 8) :
    SetupQuiet (s.afterRise inputs) := by
  obtain ⟨hlow, hplant⟩ := (setupQuiet_iff s).mp hs
  obtain ⟨hd, ht⟩ := hlow hr
  exact (setupQuiet_iff _).mpr ⟨nofun, fun _ => (hplant hd).trans (congrArg Plant.resting ht)⟩

theorem SetupQuiet.rstnRise {s t : State} (hs : SetupQuiet s) (h : execRstnRise s = .next t) : SetupQuiet t := by
  obtain rfl := Host.Outcome.next.inj h
  split
  · next hr => exact (hs.afterRise hr (Config.freeInputs s.freeCount)).of_rests .of_plant
  · exact hs

theorem SetupQuiet.tick {s t : State} (hs : SetupQuiet s) (h : execTick s = .next t) : SetupQuiet t := by
  obtain rfl := Host.Outcome.next.inj h
  split
  · exact (hs.passed _).of_rests (State.rests_boundary _)
  · exact hs

theorem SetupQuiet.captureEdge {s t : State} (hs : SetupQuiet s) {c : Channel} {dir : Edge} {after : Nat}
    (h : execCaptureEdge c dir after s = .next t) : SetupQuiet t := by
  obtain rfl := Host.Outcome.next.inj h
  have hp := hs.passed after
  have hsample : SetupQuiet ((s.passed after).sample c dir) := hp.of_rests .of_plant
  split
  · exact hs
  · dsimp only
    split
    · split
      · next ha =>
        have ho : (s.passed after).device = .operating := State.operating_of_accepts ha
        exact hsample.of_rests (.of_operating ho)
      · exact hsample
    · exact hp

theorem State.rests_pulseEnd (s : State) (l : LineId) : s.Rests (s.onPlant (Plant.pulseEnd l)) :=
  .onPlant (by rw [Plant.pulseEnd, Plant.resting_line]; rfl)

theorem State.rests_periodEnd (s : State) (l : LineId) : s.Rests (s.onPlant (Plant.periodEnd l)) :=
  .onPlant (by rw [Plant.periodEnd, Plant.resting_line]; rfl)

theorem SetupQuiet.undecodedRequest {s t : State} (hs : SetupQuiet s) {p : Port} {wire : Wire}
    (h : execUndecodedRequest p wire s = .next t) : SetupQuiet t := by
  obtain rfl := Host.Outcome.next.inj h
  split
  · split
    · exact hs.of_rests .of_plant
    · exact hs
  · exact hs

theorem SetupQuiet.transactionBegin {s t : State} (hs : SetupQuiet s) {fall : Fall}
    (h : execTransactionBegin fall s = .next t) : SetupQuiet t := by
  obtain rfl := Host.Outcome.next.inj h
  split
  · exact hs
  · exact hs.of_rests .of_plant

/-! ## The step -/

theorem SetupQuiet.of_exec {s : State} (hs : SetupQuiet s) : ∀ i t, exec i s = .next t → SetupQuiet t
  | .nop _, _, rfl => hs.of_serve_readOnly
  | .identify _, _, rfl => hs.of_serve_readOnly
  | .status _, _, rfl => hs.of_serve_readOnly
  | .noticeRead _, _, rfl => hs.of_serve fun u => s.rests_noticeRead _ u
  | .portReset _, _, rfl => hs.of_serve fun u => s.rests_portReset _ u
  | .subscribe _, _, rfl => hs.of_serve fun _ => .of_plant
  | .configRead _, _, rfl => hs.of_serve_readOnly
  | .configWrite _, _, rfl =>
    serve_induction SetupQuiet (fun _ _ _ h => h.of_rests .of_plant) hs fun _ ho ht ha =>
      let ⟨_, hw⟩ := write_of_parseWrite ho
      hs.configWrite (rstnLow_of_hears ht.heard) (Allowed.setup_of_admits ha) hw
  | .endSetup _, _, rfl =>
    serve_induction SetupQuiet (fun _ _ _ h => h.of_rests .of_plant) hs fun _ _ ht _ =>
      setupQuiet_enterOperating (rstnLow_of_hears ht.heard) _
  | .tbHold _, _, rfl => hs.of_serve_operating fun _ ho => .of_operating ho
  | .tbStart _, _, rfl => hs.of_serve_operating fun _ ho => .of_operating ho
  | .schedule _, _, rfl => hs.of_serve_operating fun q ho => State.rests_schedule ho q
  | .cancel _, _, rfl => hs.of_serve_operating fun tag ho =>
      .of_sheds ho (State.sheds_cancel ho _ tag) (s.tame_cancel _ tag)
  | .entryMove _, _, rfl => hs.of_serve_operating fun q ho =>
      .of_sheds ho (State.sheds_entryMove ho _ q) (s.tame_entryMove _ q)
  | .entryRead _, _, rfl => hs.of_serve_operating fun tag ho =>
      .of_sheds ho (s.sheds_entryRead _ tag) (s.tame_entryRead _ tag)
  | .lineMode r, _, rfl => hs.of_serve_operating fun q ho =>
      .of_sheds ho (s.sheds_lineMode r q) (s.tame_lineMode r q)
  | .lineRead _ _, _, rfl => hs.of_serve_readOnly
  | .waveRestart r, _, rfl => hs.of_serve_operating fun l ho =>
      .of_sheds ho (s.sheds_waveRestart r l) (s.tame_waveRestart r l)
  | .lineProbe r, _, rfl => hs.of_serve_operating fun l ho =>
      .of_sheds ho (s.sheds_lineProbe r l) (s.tame_lineProbe r l)
  | .leaseTake r, _, rfl => hs.of_serve_operating fun q ho =>
      .of_sheds ho (State.sheds_leaseTake ho r q) (s.tame_leaseTake r q)
  | .leaseRenew _, _, rfl => hs.of_serve_operating fun q ho =>
      .of_sheds ho (s.sheds_leaseRenew _ q) (s.tame_leaseRenew _ q)
  | .leaseRelease _, _, rfl => hs.of_serve_operating fun l ho =>
      .of_sheds ho (State.sheds_leaseRelease ho _ l) (s.tame_leaseRelease _ l)
  | .leaseRead _, _, rfl => hs.of_serve_readOnly
  | .captureRead _, _, rfl => hs.of_serve_readOnly
  | .tallyRead _, _, rfl => hs.of_serve_readOnly
  | .tallyAdd _, _, rfl => hs.of_serve fun _ => s.rests_changeTally ..
  | .tallySwap _, _, rfl => hs.of_serve fun _ => s.rests_changeTally ..
  | .tallyCas _, _, rfl => hs.of_serve s.rests_tallyCas
  | .undecodedRequest _ _, _, h => hs.undecodedRequest h
  | .deviceReset _ _, _, rfl => setupQuiet_inReset ..
  | .rstnRise, _, h => hs.rstnRise h
  | .tick, _, h => hs.tick h
  | .captureEdge _ _ _, _, h => hs.captureEdge h
  | .pulseEnd l, _, rfl => hs.of_rests (s.rests_pulseEnd l)
  | .periodEnd l, _, rfl => hs.of_rests (s.rests_periodEnd l)
  | .holdTimerExpiry, _, rfl => hs.of_rests s.rests_holdExpiry
  | .lapse l, _, rfl => hs.of_rests (s.rests_lapse l)
  | .phaseAEnd l b, _, rfl => hs.of_rests (s.rests_phaseAEnd l b)
  | .phaseBEnd l b, _, rfl => hs.of_rests (s.rests_phaseBEnd l b)
  | .setupWindowExpiry, _, rfl => hs.windowExpiry
  | .transactionBegin _, _, h => hs.transactionBegin h

/-- Settles O56: every command, and RC on an empty queue, keeps SETUP quiet. -/
theorem setupStaysQuiet : Obligations.SetupStaysQuiet := by
  intro s t hs hstep
  unfold step at hstep
  split at hstep
  · next c cs _ =>
    have hcs : SetupQuiet { s with pending := cs } := hs.of_rests .of_plant
    exact hcs.of_exec c t hstep
  · cases hstep
    exact hs.of_rests s.rests_idle

/-! ## The state right after reset (R173) -/

/-- The part of `State.reset` before RSTn rises. -/
abbrev State.resetLow : State := State.inReset (Vector.replicate 4 0) [] 0

theorem State.reset_line (l : LineId) : State.reset.plant.line l = ⟨false, .drive, .static, none⟩ :=
  State.inReset_line (Vector.replicate 4 0) [] 0 l

theorem State.reset_inbox (p : Port) : State.reset.plant.inbox p = ⟨[], false⟩ :=
  State.inReset_inbox (Vector.replicate 4 0) [] 0 p

theorem State.reset_slot (p : Port) : (State.reset.port p).slot = Response.initial :=
  congrArg PortState.slot (State.inReset_port (Vector.replicate 4 0) [] 0 p)

theorem State.reset_window (c : Channel) : (State.reset.channels.get c).window = [] := by
  have hlow : State.resetLow.channels.get c = ⟨none, 0#8, [], false, 0⟩ := replicate_get ..
  refine (congrArg CaptureChannel.window (ofFn_get _ c)).trans ?_
  rw [hlow]

theorem poolSound_reset : PoolSound State.reset :=
  poolSound_of_empty rfl rfl ((Plant.live_eq_nil_iff _).mp rfl)

/-- No lease, no entry and no pulse is there to break a rule. -/
theorem scheduleSound_reset : ScheduleSound State.reset := by
  obtain ⟨hempty, hshares⟩ := poolSound_reset
  have hlive : State.reset.plant.live = [] := rfl
  refine ⟨hempty, hshares, fun l k hk => ?leases, ?under, ?legal, ?ordered, ⟨fun l k hk => ?pulses, ?referred⟩,
    (holdSound_inReset (Vector.replicate 4 0) [] 0).hold⟩
  case leases =>
    rw [State.reset_line] at hk
    nomatch hk
  case pulses =>
    rw [State.reset_line] at hk
    nomatch hk
  case under =>
    rw [EntriesUnderLease, hlive]
    exact List.forall_mem_nil _
  case legal =>
    rw [hlive]
    exact List.forall_mem_nil _
  case ordered => exact ⟨.nil, List.forall_mem_nil _, fun _ => List.forall_mem_nil _⟩
  case referred => exact List.forall_mem_nil _

/-- Settles O3: the state field by field, and the invariants from those of the part in reset. -/
theorem resetStateIsClear : Obligations.ResetStateIsClear := by
  obtain ⟨htable, hwindows⟩ : TableConsistent State.reset ∧ WindowsConsecutive State.reset :=
    (tableSound_iff _).mp ((tableSound_inReset (Vector.replicate 4 0) [] 0).afterRise 0#8)
  have hqueues : QueuesBounded State.reset := (queuesBounded_iff _).mpr (bounded_inReset (Vector.replicate 4 0) [] 0)
  have hquiet : SetupQuiet State.reset := (setupQuiet_inReset (Vector.replicate 4 0) [] 0).afterRise rfl 0#8
  obtain ⟨hlines, -⟩ := (linesSound_iff State.resetLow).mp (linesSound_inReset ..)
  exact ⟨rfl, rfl, rfl, rfl, rfl, rfl, rfl, rfl, rfl, rfl, fun l => congrArg Line.lease (State.reset_line l),
    fun n => replicate_get 0#32 n, State.reset_window, State.reset_inbox, State.reset_slot, hqueues, htable, hwindows,
    hlines, hquiet, scheduleSound_reset⟩

end Sys2Proof.Machine
end

section
/-! PROOF of O1. With `step_of_empty` it says what a step does on either form of the queue (section 10.1, log 21). -/

namespace Sys2Proof.Machine

/-- Settles O1: of the two branches of `step`, a queue with a front command takes the first. -/
theorem stepTakesFrontCommand : Obligations.StepTakesFrontCommand := by
  intro c cs s hfront
  unfold step
  rw [hfront]

end Sys2Proof.Machine
end

section
/-! PROOF of O60, first part. The timeline list, the PULSING entries and the lines move together: an entry that
repeats is re-inserted ahead of TC because its pulse, which refers to it, has run no longer than its width, and that
is below its step (R5, R57). The work of one entry is judged with the names of the entries that are in hand. -/

namespace Sys2Proof.Machine

/-! ## Leads at a moment (R28) -/

@[simp] theorem lead_add (tc o : Word) : lead tc (tc + o) = o := by
  unfold lead
  bv_omega

/-- A due behind TC by less than a step comes to lie ahead of it by the step (R57). -/
theorem lead_step {tc due v : Word} (h : (tc - due).toNat < v.toNat) :
    0 < (lead tc (due + v)).toNat ∧ (lead tc (due + v)).toNat ≤ v.toNat := by
  unfold lead
  bv_omega

/-- A tick brings each due that lies ahead one nearer (R26). -/
theorem lead_countTick {tc due : Word} (h : lead tc due ≠ 0#32) :
    (lead (tc + 1#32) due).toNat + 1 = (lead tc due).toNat := by
  unfold lead at *
  bv_omega

theorem lead_ne_zero_iff (tc due : Word) : lead tc due ≠ 0#32 ↔ 0 < (lead tc due).toNat := by
  generalize lead tc due = v
  bv_omega

/-! ## The fields of live entries (R5, R6, R7) -/

/-- A completion counts executions left down, the repeat of a COUNT entry raises its threshold, and a placement
sets its late mark: all three leave the ranges that SCHEDULE tested. -/
theorem Entry.lasting_legal : Entry.Lasting Entry.legal where
  completed := by
    rintro e ⟨hleft, hoffset, hwidth, hstep⟩
    refine ⟨?_, hoffset, hwidth, hstep⟩
    change e.left.after.within e.repeatCount
    cases hl : e.left with
    | unlimited => rw [hl] at hleft; exact hleft
    | count n =>
      rw [hl] at hleft
      exact ⟨hleft.1, (Nat.sub_le n 1).trans hleft.2⟩
  raised := by
    rintro e t h o ht ⟨hleft, hoffset, hwidth, hstep⟩ h'
    rw [ht] at hoffset hstep
    exact ⟨hleft, hoffset, hwidth, hstep⟩
  marked h _ := h

/-- An entry of one execution does not go on after it. -/
theorem Entry.legal.repeat_ne_one {e : Entry} (h : e.legal) (hg : e.left.after.goesOn = true) :
    e.repeatCount ≠ 1#8 := by
  obtain ⟨hleft, -⟩ := h
  intro hone
  rw [hone] at hleft
  cases hl : e.left with
  | unlimited => rw [hl] at hleft; nomatch hleft
  | count n =>
    rw [hl] at hleft hg
    obtain ⟨-, hle⟩ := hleft
    have hz : n - 1 = 0 := Nat.sub_eq_zero_of_le hle
    simp [Left.after, Left.goesOn, hz] at hg

/-- The execution that completes is of this moment, or the pulse of one that began at the due has run no longer
than its width. -/
def Timed.Current (tc : Word) (x : Timed) : Prop :=
  x.due = tc ∨ ∃ l width, x.entry.action = .onLine l (.pulse width) ∧
    (x.entry.trigger = .atDue → (tc - x.due).toNat ≤ width.toNat)

/-- The repeat of an AT entry lies ahead of TC, by less than 2^31 (R5, R7, R57). -/
theorem Timed.Current.lead_repeat {tc : Word} {x : Timed} (hc : x.Current tc) (hl : x.entry.legal)
    (hg : x.entry.left.after.goesOn = true) (ht : x.entry.trigger = .atDue) :
    0 < (lead tc (x.due + x.entry.step.getD 0#32)).toNat ∧
      (lead tc (x.due + x.entry.step.getD 0#32)).toNat < 2 ^ 31 := by
  have hone := hl.repeat_ne_one hg
  obtain ⟨-, -, -, hstep⟩ := hl
  obtain ⟨v, hv, hrange, hfits⟩ := hstep hone
  rw [ht] at hrange hfits
  simp only [stepInRange, Bool.decide_and, Bool.and_eq_true, decide_eq_true_eq] at hrange
  obtain ⟨hpos, hbound⟩ := hrange
  have hbehind : (tc - x.due).toNat < v.toNat := by
    rcases hc with rfl | ⟨l, width, ha, hw⟩
    · rw [BitVec.sub_self]; exact hpos
    · rw [ha] at hfits
      simp only [pulseFits, decide_eq_true_eq] at hfits
      exact (hw ht).trans_lt hfits
  rw [hv, Option.getD_some]
  obtain ⟨h0, hle⟩ := lead_step hbehind
  exact ⟨h0, hle.trans_lt hbound⟩

/-! ## The timeline list (R41, R42) -/

/-- The timeline list is in order, and every lead is below 2^31. In RUNNING no lead is 0, unless a batch of the
entries at lead 0 waits to be released. -/
structure Plant.Queued (waits : Prop) (w : Plant) : Prop where
  sorted : w.timeline.Pairwise fun x y => (lead w.tc x.due).toNat ≤ (lead w.tc y.due).toNat
  below  : ∀ x ∈ w.timeline, (lead w.tc x.due).toNat < 2 ^ 31
  ahead  : ¬ waits → w.timebase = .running → ∀ x ∈ w.timeline, lead w.tc x.due ≠ 0#32

theorem timelineOrdered_iff (w : Plant) : TimelineOrdered w ↔ w.Queued False :=
  ⟨fun ⟨h1, h2, h3⟩ => ⟨h1, h2, fun _ => h3⟩, fun h => ⟨h.sorted, h.below, h.ahead not_false⟩⟩

namespace Plant.Queued
variable {waits : Prop} {w w' : Plant}

theorem weaken (h : w.Queued waits) {waits' : Prop} (hw : waits → waits') : w.Queued waits' :=
  ⟨h.sorted, h.below, fun hn => h.ahead (mt hw hn)⟩

/-- Entries leave the list, and the timebase does not start. -/
theorem of_sublist (h : w.Queued waits) (hs : w'.timeline.Sublist w.timeline) (hc : w'.tc = w.tc)
    (hb : w'.timebase = .running → w.timebase = .running) : w'.Queued waits := by
  refine ⟨?_, fun x hx => ?_, fun hn hr x hx => ?_⟩ <;> rw [hc]
  · exact h.sorted.sublist hs
  · exact h.below x (hs.subset hx)
  · exact h.ahead hn (hb hr) x (hs.subset hx)

theorem of_nil (h : w.timeline = []) : w.Queued waits := by
  refine ⟨?_, ?_, fun _ _ => ?_⟩ <;> rw [h]
  · exact List.Pairwise.nil
  · exact fun _ hx => absurd hx List.not_mem_nil
  · exact fun _ hx => absurd hx List.not_mem_nil

/-- An entry is inserted behind every entry whose lead is not greater (R42). -/
theorem insert (h : w.Queued waits) {x : Timed} (hx : (lead w.tc x.due).toNat < 2 ^ 31)
    (hr : w.timebase = .running → lead w.tc x.due ≠ 0#32) : (w.insert x).Queued waits := by
  obtain ⟨before, after, hw, hi, hbefore, hafter⟩ := insertTimed_split w.tc x w.timeline h.sorted
  refine ⟨?_, fun y hy => ?_, fun hn hrun y hy => ?_⟩
  · have hsorted := h.sorted
    rw [hw, List.pairwise_append] at hsorted
    obtain ⟨hb, ha, hcross⟩ := hsorted
    rw [Plant.insert_timeline, Plant.insert_tc, hi, List.pairwise_append, List.pairwise_cons]
    refine ⟨hb, ⟨fun y hy => (hafter y hy).le, ha⟩, fun y hy z hz => ?_⟩
    rcases List.mem_cons.mp hz with rfl | hz
    · exact hbefore y hy
    · exact hcross y hy z hz
  · rcases mem_insertTimed.mp hy with rfl | hy
    · exact hx
    · exact h.below y hy
  · rcases mem_insertTimed.mp hy with rfl | hy
    · exact hr hrun
    · exact h.ahead hn hrun y hy

/-- A completion repeats its entry ahead of TC, or leaves the list (R56, R57, R58). -/
theorem finish (h : w.Queued waits) (how : Finish) {x : Timed} (hl : x.entry.legal) (hc : x.Current w.tc) :
    (w.finish how x).Queued waits := by
  have hpost : (w.postIf x.entry.notify x.entry.owner x.entry.subject x.entry.tag
      (how.detail x.entry)).Queued waits := h.of_sublist (by simp) (by simp) (by simp)
  unfold Plant.finish
  dsimp only
  split
  · next hg =>
    unfold Plant.again
    dsimp only
    split
    · next ht =>
      obtain ⟨hpos, hlt⟩ := hc.lead_repeat hl hg ht
      refine hpost.insert ?_ fun _ => ?_ <;> rw [Plant.postIf_tc]
      · exact hlt
      · exact (lead_ne_zero_iff ..).mpr hpos
    · exact hpost.of_sublist (List.Sublist.refl _) rfl id
    · exact hpost.of_sublist (List.Sublist.refl _) rfl id
  · exact hpost

/-- A tick in RUNNING brings every entry one nearer; those at lead 0 then wait for their batch (R26, R49). -/
theorem countTick (h : w.Queued False) (hr : w.timebase = .running) : w.countTick.Queued True := by
  have hlead : ∀ x ∈ w.timeline, (lead w.countTick.tc x.due).toNat + 1 = (lead w.tc x.due).toNat :=
    fun x hx => lead_countTick (h.ahead not_false hr x hx)
  refine ⟨?_, fun x hx => ?_, fun hn => absurd trivial hn⟩
  · refine h.sorted.imp_of_mem fun {x y} hx hy hxy => ?_
    have := hlead x hx
    have := hlead y hy
    omega
  · have := hlead x hx
    have := h.below x hx
    omega

end Plant.Queued

/-! ## Pulses and their entries (R72) -/

/-- TC as a line's pulse counts it: behind by the tick whose advance is still to come to the line (R77). -/
def Plant.clock (todo : Finset LineId) (w : Plant) (l : LineId) : Word :=
  if l ∈ todo then w.tc - 1#32 else w.tc

/-- Every pulse refers to a PULSING entry and every PULSING entry is referred to, with the lines of `todo` still to
be advanced. -/
structure Plant.PulsesBut (todo : Finset LineId) (w : Plant) : Prop where
  entry : ∀ l r, (w.line l).state = .pulsing r → ∃ x ∈ w.pulsing, r.refersTo (w.clock todo l) l x
  line  : ∀ x ∈ w.pulsing, ∃ l r, (w.line l).state = .pulsing r ∧ r.refersTo (w.clock todo l) l x

theorem pulsesReferred_iff (w : Plant) : PulsesReferred w ↔ w.PulsesBut ∅ :=
  ⟨fun ⟨h1, h2⟩ => ⟨h1, h2⟩, fun h => ⟨h.entry, h.line⟩⟩

/-- The entry that a pulse refers to is of the line, and its repeat will lie ahead of TC. -/
theorem PulseRec.refersTo.current {todo : Finset LineId} {w : Plant} {l : LineId} {r : PulseRec} {x : Timed}
    (h : r.refersTo (w.clock todo l) l x) : x.Current w.tc := by
  obtain ⟨-, width, ha, hpos, -, hrun⟩ := h
  refine .inr ⟨l, width, ha, fun ht => ?_⟩
  have hrun := hrun ht
  have hwidth := width.isLt
  unfold Plant.clock at hrun
  split at hrun
  · bv_omega
  · omega

theorem PulseRec.refersTo.line? {tc : Word} {l : LineId} {r : PulseRec} {x : Timed} (h : r.refersTo tc l x) :
    x.entry.line? = some l := by
  obtain ⟨-, width, ha, -⟩ := h
  simp [Entry.line?, ha]

namespace Plant.PulsesBut
variable {todo : Finset LineId} {w w' : Plant}

/-- The same lines are PULSING with the same records. -/
theorem of_same (h : w.PulsesBut todo) (hp : w'.pulsing = w.pulsing) (hc : w'.tc = w.tc)
    (hl : ∀ l r, (w'.line l).state = .pulsing r ↔ (w.line l).state = .pulsing r) : w'.PulsesBut todo := by
  have hclock : ∀ l, w'.clock todo l = w.clock todo l := fun l => by rw [Plant.clock, hc, Plant.clock]
  refine ⟨fun l r hr => ?_, fun x hx => ?_⟩
  · rw [hp, hclock]
    exact h.entry l r ((hl l r).mp hr)
  · obtain ⟨l, r, hr, hx⟩ := h.line x (hp ▸ hx)
    exact ⟨l, r, (hl l r).mpr hr, (hclock l).symm ▸ hx⟩

/-- Entries leave the pool, and their pulses, and no others, leave the lines with them (R77, R80, R81, R114). -/
theorem remove (h : w.PulsesBut todo) (gone : Entry → Bool)
    (hold : ∀ l r, (w'.line l).state = .pulsing r → (w.line l).state = .pulsing r)
    (hstay : ∀ l r x, x ∈ w.pulsing → (w.line l).state = .pulsing r → r.refersTo (w.clock todo l) l x →
      ((w'.line l).state = .pulsing r ↔ gone x.entry = false))
    (hp : w'.pulsing = w.pulsing.filter fun x => !gone x.entry := by rfl) (hc : w'.tc = w.tc := by rfl) :
    w'.PulsesBut todo := by
  have hclock : ∀ l, w'.clock todo l = w.clock todo l := fun l => by rw [Plant.clock, hc, Plant.clock]
  have hmem : ∀ x, x ∈ w'.pulsing ↔ x ∈ w.pulsing ∧ gone x.entry = false := fun x => by
    rw [hp, List.mem_filter, Bool.not_eq_true']
  refine ⟨fun l r hr => ?_, fun x hx => ?_⟩
  · obtain ⟨x, hx, href⟩ := h.entry l r (hold l r hr)
    exact ⟨x, (hmem x).mpr ⟨hx, (hstay l r x hx (hold l r hr) href).mp hr⟩, hclock l ▸ href⟩
  · obtain ⟨hx, hkept⟩ := (hmem x).mp hx
    obtain ⟨l, r, hr, href⟩ := h.line x hx
    exact ⟨l, r, (hstay l r x hx hr href).mpr hkept, (hclock l).symm ▸ href⟩

/-- A PULSE starts on a line that has no pulse (R76). -/
theorem start (h : w.PulsesBut ∅) {l : LineId} (hl : ∀ r, (w.line l).state ≠ .pulsing r) {x : Timed}
    {width : Half} (ha : x.entry.action = .onLine l (.pulse width)) (hw : width ≠ 0#16) (hd : x.due = w.tc)
    (hp : w'.pulsing = w.pulsing ++ [x]) (hc : w'.tc = w.tc)
    (hl' : ∀ m, (w'.line m).state =
      if m = l then .pulsing ⟨x.entry.owner, x.entry.tag, width.toNat⟩ else (w.line m).state) :
    w'.PulsesBut ∅ := by
  have hclock : ∀ m, w'.clock ∅ m = w.clock ∅ m := fun m => by rw [Plant.clock, hc, Plant.clock]
  have hnew : (⟨x.entry.owner, x.entry.tag, width.toNat⟩ : PulseRec).refersTo (w.clock ∅ l) l x := by
    refine ⟨rfl, width, ha, ?_, Nat.le_refl _, fun _ => ?_⟩
    · change 1 ≤ width.toNat
      bv_omega
    · simp [Plant.clock, hd]
  have hself := hl' l
  rw [if_pos rfl] at hself
  refine ⟨fun m r hr => ?_, fun y hy => ?_⟩ <;> simp only [hclock]
  · rw [hl'] at hr
    split at hr
    · next e => subst e; cases hr; exact ⟨x, by simp [hp], hnew⟩
    · obtain ⟨y, hy, href⟩ := h.entry m r hr
      exact ⟨y, by simp [hp, hy], href⟩
  · rw [hp] at hy
    rcases List.mem_append.mp hy with hy | hy
    · obtain ⟨m, r, hr, href⟩ := h.line y hy
      have hm : m ≠ l := fun e => hl r (e ▸ hr)
      exact ⟨m, r, by rw [hl', if_neg hm]; exact hr, href⟩
    · exact ⟨l, _, hself, List.mem_singleton.mp hy ▸ hnew⟩

/-- The advance comes to a line without a pulse. -/
theorem erase (h : w.PulsesBut todo) {l : LineId} (hl : ∀ r, (w.line l).state ≠ .pulsing r) :
    w.PulsesBut (todo.erase l) := by
  have hclock : ∀ m r, (w.line m).state = .pulsing r → w.clock (todo.erase l) m = w.clock todo m := by
    intro m r hr
    have hm : m ≠ l := fun e => hl r (e ▸ hr)
    simp [Plant.clock, Finset.mem_erase, hm]
  refine ⟨fun m r hr => ?_, fun x hx => ?_⟩
  · rw [hclock m r hr]
    exact h.entry m r hr
  · obtain ⟨m, r, hr, href⟩ := h.line x hx
    exact ⟨m, r, hr, (hclock m r hr).symm ▸ href⟩

/-- The advance counts a line's pulse down (R77). -/
theorem countDown (h : w.PulsesBut todo) {l : LineId} {r : PulseRec} (hr : (w.line l).state = .pulsing r)
    (hrem : 1 < r.remaining) (hp : w'.pulsing = w.pulsing) (hc : w'.tc = w.tc)
    (hl : ∀ m, (w'.line m).state =
      if m = l then .pulsing { r with remaining := r.remaining - 1 } else (w.line m).state) :
    w'.PulsesBut (todo.erase l) := by
  have hother : ∀ m, m ≠ l → w'.clock (todo.erase l) m = w.clock todo m := fun m hm => by
    simp [Plant.clock, Finset.mem_erase, hm, hc]
  have hcounted : ∀ x, r.refersTo (w.clock todo l) l x →
      ({ r with remaining := r.remaining - 1 } : PulseRec).refersTo (w'.clock (todo.erase l) l) l x := by
    rintro x ⟨hn, width, ha, hpos, hle, hrun⟩
    refine ⟨hn, width, ha, ?_, (Nat.sub_le ..).trans hle, fun ht => ?_⟩
    · change 1 ≤ r.remaining - 1
      omega
    · have hrun := hrun ht
      have hwidth := width.isLt
      simp only [Plant.clock, Finset.mem_erase, ne_eq, not_true, false_and, if_false, hc] at hrun ⊢
      split at hrun
      · bv_omega
      · omega
  have hself := hl l
  rw [if_pos rfl] at hself
  refine ⟨fun m q hq => ?_, fun x hx => ?_⟩
  · rw [hp]
    by_cases e : m = l
    · subst e
      obtain ⟨x, hx, href⟩ := h.entry m r hr
      rw [hself] at hq
      cases hq
      exact ⟨x, hx, hcounted x href⟩
    · rw [hl, if_neg e] at hq
      rw [hother m e]
      exact h.entry m q hq
  · obtain ⟨m, q, hq, href⟩ := h.line x (hp ▸ hx)
    by_cases e : m = l
    · subst e
      obtain rfl := LineState.pulsing.inj (hr.symm.trans hq)
      exact ⟨m, _, hself, hcounted x href⟩
    · exact ⟨m, q, by rw [hl, if_neg e]; exact hq, hother m e ▸ href⟩

end Plant.PulsesBut

end Sys2Proof.Machine
end

section
/-! PROOF of O60, second part. What the work of a completion, a pulse, a generator, a batch, an advance, a walk and a
removal makes of the schedule of a plant. -/

namespace Sys2Proof.Machine

/-! ## The schedule of a plant -/

/-- The schedule of a plant is sound, with the entries named in `hand` taken out of their lists, the lines of `todo`
still to be advanced and, where `waits`, a batch still to be released. -/
structure Plant.Planned (waits : Prop) (todo : Finset LineId) (hand : Multiset (Port × Half)) (w : Plant) : Prop where
  names  : (hand + w.names).Nodup
  legal  : w.EachLive Entry.legal
  queued : w.Queued waits
  pulses : w.PulsesBut todo

/-- The state of a line shows the same pulse, or none, as before. -/
def Plant.SamePulses (w w' : Plant) : Prop :=
  ∀ l r, (w'.line l).state = .pulsing r ↔ (w.line l).state = .pulsing r

theorem Plant.samePulses_of_lines {w w' : Plant} (h : w'.lines = w.lines) : w.SamePulses w' := fun l r => by
  rw [Plant.line_of_lines h]

/-- One line is changed, from no pulse to no pulse. -/
theorem Plant.samePulses_of_line {w w' : Plant} {l : LineId} {y : Line}
    (hl : ∀ m, w'.line m = if m = l then y else w.line m) (hw : ∀ r, (w.line l).state ≠ .pulsing r)
    (hy : ∀ r, y.state ≠ .pulsing r) : w.SamePulses w' := fun m r => by
  rw [hl]
  split
  · next e => exact ⟨fun h => absurd h (hy r), fun h => absurd (e ▸ h) (hw r)⟩
  · rfl

/-- Every line is changed, and shows the same pulse or none. -/
theorem Plant.samePulses_updAll (w : Plant) {f : LineId → Line → Line}
    (hf : ∀ l x r, (f l x).state = .pulsing r ↔ x.state = .pulsing r) :
    w.SamePulses { w with lines := updAll w.lines f } := fun l r => by
  rw [Plant.line_updAll]
  exact hf l _ r

theorem Plant.samePulses_setLine (w : Plant) {l : LineId} {f : Line → Line}
    (hf : (f (w.line l)).state = (w.line l).state) : w.SamePulses (w.setLine l f) := fun m r => by
  rw [Plant.line_setLine]
  split
  · next e => rw [hf, e]
  · rfl

theorem LineState.ne_pulsing_of_waving {st : LineState} {g : Generator} (h : st = .waving g) (r : PulseRec) :
    st ≠ .pulsing r := by rw [h]; exact nofun

theorem LineState.ne_pulsing_of_probing {st : LineState} {k : ProbeRec} (h : st = .probing k) (r : PulseRec) :
    st ≠ .pulsing r := by rw [h]; exact nofun

theorem LineState.ne_pulsing_of_static {st : LineState} (h : st = .static) (r : PulseRec) :
    st ≠ .pulsing r := by rw [h]; exact nofun

namespace Plant.Planned
variable {waits : Prop} {todo : Finset LineId} {hand : Multiset (Port × Half)} {w w' : Plant}

/-- Lists, TC and pulses stay, and the timebase does not start. -/
theorem of_same (h : w.Planned waits todo hand) (hl : w.SamePulses w')
    (hb : w'.timebase = .running → w.timebase = .running) (ha : w'.armed = w.armed := by rfl)
    (ht : w'.timeline = w.timeline := by rfl) (hp : w'.pulsing = w.pulsing := by rfl)
    (hc : w'.tc = w.tc := by rfl) : w'.Planned waits todo hand where
  names := Plant.names_of_lists ha ht hp ▸ h.names
  legal := h.legal.of_lists ha ht hp
  queued := h.queued.of_sublist (ht ▸ List.Sublist.refl _) hc hb
  pulses := h.pulses.of_same hp hc hl

theorem weaken (h : w.Planned waits todo hand) {waits' : Prop} (hw : waits → waits') :
    w.Planned waits' todo hand := ⟨h.names, h.legal, h.queued.weaken hw, h.pulses⟩

theorem post (h : w.Planned waits todo hand) (p : Port) (b : Byte) (t : Half) (d : Detail) :
    (w.post p b t d).Planned waits todo hand := h.of_same (Plant.samePulses_of_lines rfl) id

theorem postIf (h : w.Planned waits todo hand) (c : Bool) (p : Port) (b : Byte) (t : Half) (d : Detail) :
    (w.postIf c p b t d).Planned waits todo hand := by
  unfold Plant.postIf
  split
  · exact h.post ..
  · exact h

theorem settleHold (h : w.Planned waits todo hand) : w.settleHold.Planned waits todo hand := by
  refine h.of_same (Plant.samePulses_of_lines (by simp)) (fun hr => ?_) (by simp) (by simp) (by simp) (by simp)
  rcases w.settleHold_cases with ⟨-, -, e⟩ | ⟨-, e⟩ <;> rw [e] at hr
  · nomatch hr
  · exact hr

/-- A line without a pulse is changed, and none starts there. -/
theorem setLine (h : w.Planned waits todo hand) {l : LineId} {f : Line → Line}
    (hl : ∀ r, (w.line l).state ≠ .pulsing r) (hf : ∀ r, (f (w.line l)).state ≠ .pulsing r) :
    (w.setLine l f).Planned waits todo hand :=
  h.of_same (Plant.samePulses_of_line (fun m => w.line_setLine l m f) hl hf) id

/-- Two PULSING entries of one name are one entry. -/
theorem pulsing_inj (h : w.Planned waits todo hand) {x y : Timed} (hx : x ∈ w.pulsing) (hy : y ∈ w.pulsing)
    (hn : x.entry.name = y.entry.name) : x = y := by
  have hnodup : (namesIn Timed.entry w.pulsing).Nodup := by
    refine Multiset.nodup_of_le ?_ h.names
    rw [Plant.names_eq]
    exact (Multiset.le_add_left ..).trans (Multiset.le_add_left ..)
  exact List.inj_on_of_nodup_map (Multiset.coe_nodup.mp hnodup) hx hy hn

/-! ## Completions and pulses -/

/-- An entry in hand completes (R56). -/
theorem finish {x : Timed} (h : w.Planned waits todo ({x.entry.name} + hand)) (how : Finish)
    (hl : x.entry.legal) (hc : x.Current w.tc) : (w.finish how x).Planned waits todo hand where
  names := by
    refine Multiset.nodup_of_le ?_ h.names
    rw [add_assoc, add_left_comm]
    exact add_le_add_right (w.admits_finish how x).names hand
  legal := h.legal.finish Entry.lasting_legal how hl
  queued := h.queued.finish how hl hc
  pulses := h.pulses.of_same (w.finish_pulsing how x) (w.steady_finish how x).tc
    (Plant.samePulses_of_lines (w.finish_lines how x))

/-- A pulse leaves its line, and the entry that it refers to completes (R33, R77, R80). -/
theorem releasePulse (h : w.Planned waits todo hand) {l : LineId} {r : PulseRec}
    (hr : (w.line l).state = .pulsing r) (cut : Option CutCause) :
    (w.releasePulse l r cut).Planned waits todo hand := by
  obtain ⟨x, hx, href⟩ := h.pulses.entry l r hr
  have hn : x.entry.name = (r.owner, r.tag) := href.1
  have hfound : w.findPulsing r.owner r.tag = some x := by
    obtain ⟨y, hy⟩ : ∃ y, w.findPulsing r.owner r.tag = some y :=
      Option.isSome_iff_exists.mp (List.find?_isSome.mpr ⟨x, hx, (Entry.isKey_iff ..).mpr hn⟩)
    have hyn : y.entry.name = (r.owner, r.tag) := by simpa [Entry.isKey_iff] using List.find?_some hy
    rw [hy, h.pulsing_inj (List.mem_of_find?_eq_some hy) hx (hyn.trans hn.symm)]
  have hrest : ((w.setLine l (Line.rest false .static)).dropPulsing r.owner r.tag).Planned waits todo
      ({x.entry.name} + hand) := by
    refine ⟨Multiset.nodup_of_le ?_ h.names, (h.legal.setLine ..).dropPulsing .., ?_, ?_⟩
    · rw [add_assoc, add_left_comm, hn]
      exact add_le_add_right (Plant.names_dropPulsing (w := w.setLine l _) (hn ▸ mem_namesIn Timed.entry hx)) hand
    · exact h.queued.of_sublist (List.Sublist.refl _) rfl id
    · have hline := fun m => w.line_setLine l m (Line.rest false .static)
      refine h.pulses.remove (Entry.isKey r.owner r.tag) (fun m q hq => ?_) fun m q y hy hq hyref => ?_ <;>
        rw [Plant.line_of_lines (Plant.dropPulsing_lines ..), hline] at *
      · split at hq
        · nomatch hq
        · exact hq
      · split
        · next hm =>
          subst hm
          obtain rfl := LineState.pulsing.inj (hr.symm.trans hq)
          rw [(Entry.isKey_iff ..).mpr hyref.1]
          exact iff_of_false nofun nofun
        · next hm =>
          refine iff_of_true hq (Bool.eq_false_iff.mpr fun hk => hm ?_)
          have hxy := h.pulsing_inj hy hx (((Entry.isKey_iff ..).mp hk).trans hn.symm)
          exact Option.some.inj (hyref.line?.symm.trans (hxy ▸ href.line?))
  rw [Plant.releasePulse_found hfound]
  have hlegal := h.legal.pulsing x hx
  cases cut with
  | none => exact hrest.finish _ hlegal href.current
  | some c =>
    refine (hrest.postIf x.entry.notify r.owner (lineByte l) r.tag (.pulseCut c r.remaining)).finish _ hlegal ?_
    rw [Plant.postIf_tc]
    exact href.current

theorem endPulse (h : w.Planned waits todo hand) {l : LineId} {r : PulseRec}
    (hr : (w.line l).state = .pulsing r) : (w.endPulse l r).Planned waits todo hand :=
  (h.releasePulse hr none).settleHold

theorem pulseEnd (h : w.Planned waits todo hand) (l : LineId) : (w.pulseEnd l).Planned waits todo hand := by
  unfold Plant.pulseEnd
  split
  · next r hr =>
    split
    · exact h.endPulse hr
    · exact h
  · exact h

theorem cutForTimeout (h : w.Planned waits todo hand) (l : LineId) :
    (w.cutForTimeout l).Planned waits todo hand := by
  unfold Plant.cutForTimeout
  split
  · next r hr => exact h.releasePulse hr _
  · exact h

theorem foldl {α : Type} {f : Plant → α → Plant} {xs : List α}
    (hf : ∀ w x, x ∈ xs → w.Planned waits todo hand → (f w x).Planned waits todo hand)
    (h : w.Planned waits todo hand) : (xs.foldl f w).Planned waits todo hand := by
  induction xs generalizing w with
  | nil => exact h
  | cons x xs ih =>
    exact ih (fun w y hy => hf w y (List.mem_cons_of_mem _ hy)) (hf w x List.mem_cons_self h)

theorem holdExpires (h : w.Planned waits todo hand) : w.holdExpires.Planned waits todo hand := by
  have hcut := h.foldl (xs := allLines) fun _ l _ hw => hw.cutForTimeout l
  unfold Plant.holdExpires
  generalize allLines.foldl Plant.cutForTimeout w = v at hcut ⊢
  exact hcut.of_same (Plant.samePulses_of_lines rfl) nofun

/-! ## Generators -/

theorem showGenerator (h : w.Planned waits todo hand) {l : LineId} (hl : ∀ r, (w.line l).state ≠ .pulsing r)
    (g : Generator) : (w.showGenerator l g).Planned waits todo hand := h.setLine hl nofun

theorem applyLoad (h : w.Planned waits todo hand) {l : LineId} (hl : ∀ r, (w.line l).state ≠ .pulsing r)
    (ld : Load) (c : ApplyCause) : (w.applyLoad l ld c).Planned waits todo hand :=
  (h.showGenerator hl _).postIf ..

theorem rewind (h : w.Planned waits todo hand) {l : LineId} {g : Generator} (hg : (w.line l).state = .waving g)
    (c : ApplyCause) : (w.rewind l g c).Planned waits todo hand := by
  have hl := LineState.ne_pulsing_of_waving hg
  unfold Plant.rewind
  split
  · exact h.applyLoad hl ..
  · exact h.showGenerator hl _

theorem countGenerator (h : w.Planned waits todo hand) {l : LineId} {g : Generator}
    (hg : (w.line l).state = .waving g) : (w.countGenerator l g).Planned waits todo hand := by
  unfold Plant.countGenerator
  split
  · exact h
  · split
    · exact h.showGenerator (LineState.ne_pulsing_of_waving hg) _
    · exact h.rewind hg _

theorem periodEnd (h : w.Planned waits todo hand) (l : LineId) : (w.periodEnd l).Planned waits todo hand := by
  unfold Plant.periodEnd
  split
  · next g hg =>
    split
    · exact h.rewind hg _
    · exact h
  · exact h

theorem stage (h : w.Planned waits todo hand) {l : LineId} {g : Generator} (hg : (w.line l).state = .waving g)
    (ld : Load) : (w.stage l g ld).Planned waits todo hand := by
  have hl := LineState.ne_pulsing_of_waving hg
  unfold Plant.stage
  split
  · exact h.applyLoad hl ..
  · exact h.setLine hl nofun

/-! ## The advance (R77, R94) -/

/-- The advance of one line: its pulse is a tick shorter or ends. -/
theorem advanceLine (h : w.Planned waits todo hand) (l : LineId) :
    (w.advanceLine l).Planned waits (todo.erase l) hand := by
  have hafter : ∀ {v : Plant}, v.Planned waits todo hand → (∀ r, (v.line l).state ≠ .pulsing r) →
      v.Planned waits (todo.erase l) hand := fun hv hl => ⟨hv.names, hv.legal, hv.queued, hv.pulses.erase hl⟩
  cases hst : (w.line l).state with
  | static =>
    rw [Plant.advanceLine_of_static hst]
    exact hafter h (LineState.ne_pulsing_of_static hst)
  | probing k =>
    rw [Plant.advanceLine_of_probing hst]
    exact hafter h (LineState.ne_pulsing_of_probing hst)
  | waving g =>
    rw [Plant.advanceLine_of_waving hst]
    exact (hafter h (LineState.ne_pulsing_of_waving hst)).countGenerator hst
  | pulsing r =>
    rw [Plant.advanceLine_of_pulsing hst]
    split
    · refine hafter (h.endPulse hst) ?_
      rw [Plant.endPulse, Plant.settleHold_line, Plant.line_releasePulse, if_pos rfl]
      exact nofun
    · next hrem =>
      refine ⟨h.names, h.legal.of_lists rfl rfl rfl, h.queued.of_sublist (List.Sublist.refl _) rfl id, ?_⟩
      refine h.pulses.countDown hst (not_le.mp hrem) rfl rfl fun m => ?_
      rw [Plant.line_setLine]
      split <;> rfl

/-- The lines of `todo` are all advanced at the end. -/
theorem advance (h : w.Planned waits todo hand) : w.advance.Planned waits ∅ hand := by
  have hlines : ∀ (ls : List LineId) (w : Plant) (todo : Finset LineId), w.Planned waits todo hand →
      (ls.foldl Plant.advanceLine w).Planned waits (todo \ ls.toFinset) hand := by
    intro ls
    induction ls with
    | nil => intro w todo h; simpa using h
    | cons l ls ih =>
      intro w todo h
      have herase : todo.erase l \ ls.toFinset = todo \ (l :: ls).toFinset := by
        rw [List.toFinset_cons, Finset.sdiff_insert, Finset.erase_sdiff_comm]
      exact herase ▸ ih _ _ (h.advanceLine l)
  have hnone : todo \ allLines.toFinset = ∅ := by ext; simp
  exact hnone ▸ hlines allLines w todo h

/-- In RUNNING TC advances, then the lines; the entries at lead 0 wait for their batch (R26, R77). -/
theorem countTick_advance (h : w.Planned False ∅ hand) (hr : w.timebase = .running) :
    w.countTick.advance.Planned True ∅ hand := by
  have hclock : ∀ l, w.countTick.clock Finset.univ l = w.clock ∅ l := fun l => by simp [Plant.clock]
  refine Plant.Planned.advance (todo := Finset.univ) ⟨h.names, h.legal.countTick, h.queued.countTick hr, ?_⟩
  refine ⟨fun l r hl => ?_, fun x hx => ?_⟩ <;> simp only [hclock]
  · exact h.pulses.entry l r hl
  · exact h.pulses.line x hx

theorem paceAdvance (h : w.Planned False ∅ hand) (pace : Bool) : (w.paceAdvance pace).Planned True ∅ hand := by
  unfold Plant.paceAdvance
  split
  · next hp => exact h.countTick_advance (by simp at hp; exact hp.2)
  · exact h.weaken nofun

/-! ## Batches (R52 to R55, R74) -/

/-- A winner clears its line of what it was doing; no pulse is left there (R74). -/
theorem clearLine (h : w.Planned waits todo hand) (l : LineId) (p : Port) :
    (w.clearLine l p).Planned waits todo hand := by
  unfold Plant.clearLine
  split
  · exact h
  · next r hr => exact h.releasePulse hr _
  · next g hg => exact h.setLine (LineState.ne_pulsing_of_waving hg) (LineState.ne_pulsing_of_static rfl)
  · next k hk => exact (h.setLine (LineState.ne_pulsing_of_probing hk) (LineState.ne_pulsing_of_static rfl)).post ..

end Plant.Planned

theorem Plant.line_clearLine (l : LineId) (p : Port) (w : Plant) :
    (w.clearLine l p).line l = (w.line l).rest (w.line l).quietLevel .static := by
  unfold Plant.line
  rw [Plant.clearLine_lines, upd_get_self]
  rfl

namespace Plant.Planned
variable {waits : Prop} {todo : Finset LineId} {hand : Multiset (Port × Half)} {w w' : Plant}

/-- A line cleared and then left without a pulse. -/
theorem clearLine_setLine (h : w.Planned waits todo hand) (l : LineId) (p : Port) {f : Line → Line}
    (hf : ∀ x r, (f x).state ≠ .pulsing r) : ((w.clearLine l p).setLine l f).Planned waits todo hand :=
  (h.clearLine l p).setLine (by rw [Plant.line_clearLine]; exact LineState.ne_pulsing_of_static rfl) (hf _)

/-- A winner that is no PULSE leaves its entry in hand (R54). -/
theorem applyWinner (h : w.Planned waits todo hand) (x : Timed) (l : LineId) {a : LineAction}
    (ha : ∀ width, a ≠ .pulse width) : (w.applyWinner x l a).1.Planned waits todo hand := by
  unfold Plant.applyWinner
  cases a with
  | set => exact h.clearLine_setLine l _ fun _ => LineState.ne_pulsing_of_static rfl
  | clear => exact h.clearLine_setLine l _ fun _ => LineState.ne_pulsing_of_static rfl
  | toggle => exact h.clearLine_setLine l _ fun _ => LineState.ne_pulsing_of_static rfl
  | waveStop => exact h.clearLine_setLine l _ fun _ => LineState.ne_pulsing_of_static rfl
  | pulse width => exact absurd rfl (ha width)
  | wave v =>
    dsimp only
    split
    · next g hg => exact h.stage hg _
    · exact h.clearLine_setLine l _ fun _ => LineState.ne_pulsing_of_waving rfl

/-- A PULSE winner joins the PULSING entries, and its line refers to it (R76). -/
theorem applyWinner_pulse {x : Timed} (h : w.Planned waits ∅ ({x.entry.name} + hand)) (hl : x.entry.legal)
    (hd : x.due = w.tc) {l : LineId} {width : Half} (ha : x.entry.action = .onLine l (.pulse width)) :
    (w.applyWinner x l (.pulse width)).1.Planned waits ∅ hand := by
  have hc := h.clearLine l x.entry.owner
  have hsteady := w.steady_clearLine l x.entry.owner
  refine ⟨Multiset.nodup_of_le ?_ h.names, h.legal.applyWinner Entry.lasting_legal hl l _,
    hc.queued.of_sublist (List.Sublist.refl _) rfl id, ?_⟩
  · rw [add_assoc, add_left_comm]
    exact add_le_add_right (w.admits_applyWinner_pulse x l width).names hand
  · obtain ⟨-, -, hwidth, -⟩ := hl
    rw [ha] at hwidth
    refine hc.pulses.start (l := l) (x := x) ?_ ha hwidth (hd.trans hsteady.tc.symm) rfl rfl fun m => ?_
    · rw [Plant.line_clearLine]
      exact nofun
    · refine (congrArg Line.state (Plant.line_setLine (w.clearLine l x.entry.owner) l m _)).trans ?_
      split <;> rfl

/-- The work of one entry of a batch (R53, R54, R55). -/
theorem runOne (arb : Arbitration) (batch : List Timed) {x : Timed} (h : w.Planned waits ∅ ({x.entry.name} + hand))
    (hl : x.entry.legal) (hd : x.due = w.tc) : (w.runOne arb batch x).Planned waits ∅ hand := by
  unfold Plant.runOne
  split
  · exact h.finish _ hl (.inl hd)
  · next l a ha =>
    dsimp only
    split
    · split
      · exact h.applyWinner_pulse hl hd ha
      · next hne =>
        refine (h.applyWinner x l hne).finish _ hl (.inl ?_)
        rw [(w.steady_applyWinner x l a).tc]
        exact hd
    · exact h.finish _ hl (.inl hd)

/-- A batch of entries in hand, all of this moment (R55). -/
theorem runBatch (arb : Arbitration) {batch : List Timed} (h : w.Planned waits ∅ (namesIn Timed.entry batch + hand))
    (hl : ∀ x ∈ batch, x.entry.legal) (hd : ∀ x ∈ batch, x.due = w.tc) :
    (w.runBatch arb batch).Planned waits ∅ hand := by
  have hrest : ∀ (xs : List Timed) (w : Plant), w.Planned waits ∅ (namesIn Timed.entry xs + hand) →
      (∀ x ∈ xs, x.entry.legal) → (∀ x ∈ xs, x.due = w.tc) →
      (xs.foldl (Plant.runOne arb batch) w).Planned waits ∅ hand := by
    intro xs
    induction xs with
    | nil => intro w h _ _; simpa [namesIn] using h
    | cons x xs ih =>
      intro w h hl hd
      have hx : w.Planned waits ∅ ({x.entry.name} + (namesIn Timed.entry xs + hand)) := by
        rw [← add_assoc]; exact h
      refine ih _ (hx.runOne arb batch (hl x List.mem_cons_self) (hd x List.mem_cons_self))
        (fun y hy => hl y (List.mem_cons_of_mem _ hy)) fun y hy => ?_
      rw [(w.steady_runOne arb batch x).tc]
      exact hd y (List.mem_cons_of_mem _ hy)
  exact hrest batch w h hl hd

/-- The entries at lead 0 are released, and none is left at lead 0 (R35, R49). -/
theorem releaseDue (h : w.Planned waits ∅ hand) (arb : Arbitration) : (w.releaseDue arb).Planned False ∅ hand := by
  refine Plant.Planned.runBatch arb ⟨?_, ?_, ?_, ?_⟩ (fun x hx => ?_) fun x hx => ?_
  · refine Multiset.nodup_of_le (le_of_eq ?_) h.names
    simp only [Plant.names_eq, Plant.armedNames, Plant.dueNow]
    rw [← namesIn_filter_add Timed.entry (fun x => lead w.tc x.due == 0#32) w.timeline]
    simp only [bne]
    abel
  · exact ⟨h.legal.armed, fun x hx => h.legal.timeline x (List.mem_of_mem_filter hx), h.legal.pulsing⟩
  · refine ⟨h.queued.sorted.sublist List.filter_sublist,
      fun x hx => h.queued.below x (List.mem_of_mem_filter hx), fun _ _ x hx => ?_⟩
    simpa using (List.mem_filter.mp hx).2
  · exact h.pulses.of_same rfl rfl (Plant.samePulses_of_lines rfl)
  · exact h.legal.timeline x (List.mem_of_mem_filter hx)
  · simpa [lead_beq_zero] using (List.mem_filter.mp hx).2

theorem tick (h : w.Planned False ∅ hand) (arb : Arbitration) : (w.tick arb).Planned False ∅ hand := by
  unfold Plant.tick
  split
  · next hr => exact (h.countTick_advance hr).releaseDue arb
  · exact h.advance
  · exact h
  · exact h

theorem start (h : w.Planned False ∅ hand) (arb : Arbitration) (p : Port) :
    (w.start arb p).1.Planned False ∅ hand := by
  have hset : (({ w with holdTimer := none } : Plant).setTimebase .running (.request p)).Planned True ∅ hand :=
    ⟨h.names, h.legal.of_lists rfl rfl rfl, ⟨h.queued.sorted, h.queued.below, fun hn => absurd trivial hn⟩,
      h.pulses.of_same rfl rfl (Plant.samePulses_of_lines rfl)⟩
  unfold Plant.start
  split
  · exact hset.releaseDue arb
  · exact hset.releaseDue arb
  · exact h
  · exact h

theorem hold (h : w.Planned waits todo hand) (p : Port) (timeout : Nat) :
    (w.hold p timeout).1.Planned waits todo hand := by
  unfold Plant.hold
  split
  · split <;> exact h.of_same (Plant.samePulses_of_lines rfl) nofun
  · exact h

/-! ## Placements and walks -/

/-- An entry in hand is armed (R47, R131). -/
theorem arm {x : Waiting} (h : w.Planned waits todo ({x.entry.name} + hand)) (hl : x.entry.legal) :
    (w.arm x).Planned waits todo hand where
  names := by
    rw [Plant.names_arm, add_left_comm, ← add_assoc]
    exact h.names
  legal := h.legal.arm hl
  queued := h.queued.of_sublist (List.Sublist.refl _) rfl id
  pulses := h.pulses.of_same rfl rfl (Plant.samePulses_of_lines rfl)

/-- An entry in hand whose due is not late is placed (R47, R50). -/
theorem place {x : Timed} (h : w.Planned waits ∅ ({x.entry.name} + hand)) (arb : Arbitration)
    (hl : x.entry.legal) (hd : (lead w.tc x.due).toNat < 2 ^ 31) : (w.place arb x).Planned waits ∅ hand := by
  unfold Plant.place
  split
  · next hnow =>
    obtain ⟨-, hz⟩ := hnow
    have hbatch : w.Planned waits ∅ (namesIn Timed.entry [x] + hand) := h
    refine hbatch.runBatch arb (fun y hy => List.mem_singleton.mp hy ▸ hl) fun y hy => ?_
    rw [List.mem_singleton.mp hy]
    exact (lead_eq_zero ..).mp hz
  · next hnow =>
    refine ⟨?_, h.legal.insert hl, h.queued.insert hd fun hr hz => hnow ⟨hr, hz⟩,
      h.pulses.of_same rfl rfl (Plant.samePulses_of_lines rfl)⟩
    rw [Plant.names_insert, add_left_comm, ← add_assoc]
    exact h.names

/-- An armed entry is released at its offset (R132, R146). -/
theorem release (h : w.Planned waits ∅ hand) (arb : Arbitration) {x : Waiting} {o : Word}
    (hx : x.entry.name ∈ w.armedNames) (hl : x.entry.legal) (ho : o.toNat < 2 ^ 31) :
    (w.release arb x o).Planned waits ∅ hand := by
  refine Plant.Planned.place (x := ⟨x.entry, w.tc + o⟩) ⟨Multiset.nodup_of_le ?_ h.names, h.legal.dropArmed ..,
    h.queued.of_sublist (List.Sublist.refl _) rfl id,
    h.pulses.of_same rfl rfl (Plant.samePulses_of_lines rfl)⟩ arb hl ?_
  · rw [add_assoc, add_left_comm]
    exact add_le_add_right (Plant.names_dropArmed hx) hand
  · change (lead w.tc (w.tc + o)).toNat < 2 ^ 31
    rwa [lead_add]

theorem countDown (h : w.Planned waits ∅ hand) (arb : Arbitration) {x : Waiting} {o : Word}
    (hx : x.entry.name ∈ w.armedNames) (hl : x.entry.legal) (ho : o.toNat < 2 ^ 31) :
    (w.countDown arb x o).Planned waits ∅ hand := by
  have hnames := (w.admits_countDown arb o hx).names_le
  unfold Plant.countDown at hnames ⊢
  dsimp only at hnames ⊢
  split
  · exact h.release arb hx hl ho
  · next hk =>
    rw [if_neg hk] at hnames
    refine ⟨Multiset.nodup_of_le (add_le_add_right hnames hand) h.names, ⟨fun y hy => ?_, h.legal.timeline,
      h.legal.pulsing⟩, h.queued.of_sublist (List.Sublist.refl _) rfl id,
      h.pulses.of_same rfl rfl (Plant.samePulses_of_lines rfl)⟩
    obtain ⟨z, hz, rfl⟩ := List.mem_map.mp hy
    split <;> exact h.legal.armed z hz

end Plant.Planned

/-- What a walk's visit to an armed entry keeps, the walk keeps: one visit takes no other name out of the armed
list, and names do not repeat, so that it meets each entry that it picks armed still. -/
theorem Plant.walk_induction (P : Plant → Prop) {f : Plant → Waiting → Plant} {pick : Waiting → Bool}
    {snapshot : List Waiting}
    (met : ∀ w x, x ∈ snapshot → pick x = true → x.entry.name ∈ w.armedNames → P w →
      Plant.Admits 0 {x.entry.name} w (f w x) ∧ P (f w x))
    (passed : ∀ w x, pick x = false → f w x = w) (hnd : (snapshot.map fun x => x.entry.name).Nodup) {w : Plant}
    (harmed : ∀ x ∈ snapshot, pick x = true → x.entry.name ∈ w.armedNames) (hw : P w) :
    P (snapshot.foldl f w) := by
  induction snapshot generalizing w with
  | nil => exact hw
  | cons x xs ih =>
    rw [List.map_cons, List.nodup_cons] at hnd
    obtain ⟨hnew, hnd⟩ := hnd
    have hmet := fun w y (hy : y ∈ xs) => met w y (List.mem_cons_of_mem _ hy)
    have hstill := fun y (hy : y ∈ xs) => harmed y (List.mem_cons_of_mem _ hy)
    rw [List.foldl_cons]
    cases hp : pick x with
    | false =>
      rw [passed w x hp]
      exact ih hmet hnd hstill hw
    | true =>
      obtain ⟨hadmits, hfx⟩ := met w x List.mem_cons_self hp (harmed x List.mem_cons_self hp) hw
      refine ih hmet hnd (fun y hy hyp => hadmits.armed _ (fun hc => hnew ?_) (hstill y hy hyp)) hfx
      exact List.mem_map.mpr ⟨y, hy, hc⟩

end Sys2Proof.Machine
end

section
/-! PROOF of O60, third part. The claims of one accepted edge, in any order, and the removals of entries with their
pulses. -/

namespace Sys2Proof.Machine

/-! ## Walks and claims (R51, R125, R132, R146) -/

namespace Plant.Planned
variable {waits : Prop} {todo : Finset LineId} {hand : Multiset (Port × Half)} {w w' : Plant}

theorem walkEdge (h : w.Planned waits ∅ hand) (arb : Arbitration) (c : Channel) {snapshot : List Waiting}
    (hl : ∀ x ∈ snapshot, x.entry.legal) (hnd : (snapshot.map fun x => x.entry.name).Nodup)
    (harmed : ∀ x ∈ snapshot, waitsOn c [x] = true → x.entry.name ∈ w.armedNames) :
    (w.walkEdge arb c snapshot).Planned waits ∅ hand := by
  refine Plant.walk_induction (fun w => w.Planned waits ∅ hand) (pick := fun x => waitsOn c [x])
    (fun w x hx hp hm hw => ?_) (fun w x hp => ?_) hnd harmed h
  · obtain ⟨n, o, ht⟩ : ∃ n o, x.entry.trigger = .edge c n o := by simpa [waitsOn_iff] using hp
    have ho : x.entry.trigger.offsetOk := (hl x hx).2.1
    rw [ht] at ho
    simp only [ht, if_true]
    exact ⟨Plant.admits_countDown arb o hm, hw.countDown arb hm (hl x hx) ho⟩
  · split
    · next c' n o ht => exact if_neg fun hc => by simp [waitsOn, ht, hc] at hp
    · rfl

theorem walkCount (h : w.Planned waits ∅ hand) (arb : Arbitration) (t : TallyId) (v : Word)
    {snapshot : List Waiting} (hl : ∀ x ∈ snapshot, x.entry.legal)
    (hnd : (snapshot.map fun x => x.entry.name).Nodup)
    (harmed : ∀ x ∈ snapshot, someReached t v [x] = true → x.entry.name ∈ w.armedNames) :
    (w.walkCount arb t v snapshot).Planned waits ∅ hand := by
  refine Plant.walk_induction (fun w => w.Planned waits ∅ hand) (pick := fun x => someReached t v [x])
    (fun w x hx hp hm hw => ?_) (fun w x hp => ?_) hnd harmed h
  · obtain ⟨m, o, ht, hr⟩ : ∃ m o, x.entry.trigger = .count t m o ∧ (v - m).toNat < 2 ^ 31 := by
      simpa only [someReached_iff, List.mem_singleton, exists_eq_left] using hp
    have ho : x.entry.trigger.offsetOk := (hl x hx).2.1
    rw [ht] at ho
    simp only [ht, (reached_iff v m).mpr hr, and_self, if_true]
    exact ⟨Plant.admits_release arb o hm, hw.release arb hm (hl x hx) ho⟩
  · split
    · next t' m o ht => exact if_neg fun hc => by simp [someReached, ht, hc] at hp
    · rfl

/-- A claim of an edge, whose visits find their entries armed. -/
theorem claim (h : w.Planned waits ∅ hand) (arb : Arbitration) (c : Channel) {snapshot : List Waiting} (k : Claim)
    (hl : ∀ x ∈ snapshot, x.entry.legal) (hnd : (snapshot.map fun x => x.entry.name).Nodup)
    (harmed : ∀ x ∈ snapshot, k.visits c x = true → x.entry.name ∈ w.armedNames) :
    (w.claim arb c snapshot k).Planned waits ∅ hand := by
  cases k with
  | tickBatch => exact (h.releaseDue arb).weaken False.elim
  | advance => exact h.advance
  | walk => exact h.walkEdge arb c hl hnd harmed
  | count t v => exact h.walkCount arb t v hl hnd harmed

/-- The claims of an edge, in whichever order: once the batch is released no entry waits at lead 0. -/
theorem claims (arb : Arbitration) (c : Channel) {snapshot : List Waiting} {order : List Claim}
    (h : w.Planned (.tickBatch ∈ order) ∅ hand) (hl : ∀ x ∈ snapshot, x.entry.legal)
    (hnd : (snapshot.map fun x => x.entry.name).Nodup)
    (hapart : order.Pairwise fun j k => ∀ x, j.visits c x = true → k.visits c x = false)
    (harmed : ∀ k ∈ order, ∀ x ∈ snapshot, k.visits c x = true → x.entry.name ∈ w.armedNames) :
    (order.foldl (Plant.claim arb c snapshot) w).Planned False ∅ hand := by
  induction order generalizing w with
  | nil => exact h.weaken nofun
  | cons j js ih =>
    rw [List.pairwise_cons] at hapart
    obtain ⟨hfirst, hapart⟩ := hapart
    have hj := harmed j List.mem_cons_self
    refine ih ?_ hapart fun k hk x hx hv => ?_
    · by_cases e : j = .tickBatch
      · subst e
        exact (h.releaseDue arb).weaken False.elim
      · exact (h.claim arb c j hl hnd hj).weaken fun hm => (List.mem_cons.mp hm).resolve_left (Ne.symm e)
    · refine (Plant.admits_claim arb c j hnd hj).armed _ ?_ (harmed k (List.mem_cons_of_mem _ hk) x hx hv)
      rintro ⟨y, hy, hyv, hn⟩
      rw [List.inj_on_of_nodup_map hnd hy hx hn] at hyv
      exact Bool.false_ne_true ((hfirst k hk x hyv).symm.trans hv)

/-- The notices of an edge change nothing but queues (R129). -/
theorem postEdges (before : Port → Nat) (n : Notice) (ps : List Port) {q : Plant × Nat}
    (h : q.1.Planned waits todo hand) :
    (ps.foldl (fun q p => Plant.postEdge p (before p) n q) q).1.Planned waits todo hand := by
  induction ps generalizing q with
  | nil => exact h
  | cons p ps ih => exact ih (h.of_same (Plant.samePulses_of_lines rfl) id)

/-! ## Removals (R18, R81, R113, R114, R171) -/

/-- Entries leave the pool, and their pulses, and no others, leave the lines with them. -/
theorem removed (h : w.Planned waits todo hand) (gone : Entry → Bool)
    (hold : ∀ l r, (w'.line l).state = .pulsing r → (w.line l).state = .pulsing r)
    (hstay : ∀ l r x, x ∈ w.pulsing → (w.line l).state = .pulsing r → r.refersTo (w.clock todo l) l x →
      ((w'.line l).state = .pulsing r ↔ gone x.entry = false))
    (ha : w'.armed = (w.drop gone).armed := by rfl) (ht : w'.timeline = (w.drop gone).timeline := by rfl)
    (hp : w'.pulsing = (w.drop gone).pulsing := by rfl) (hc : w'.tc = w.tc := by rfl)
    (hb : w'.timebase = w.timebase := by rfl) : w'.Planned waits todo hand where
  names := by
    refine Multiset.nodup_of_le ?_ h.names
    rw [Plant.names_of_lists ha ht hp]
    exact add_le_add_right (w.names_drop_le gone) hand
  legal := (h.legal.drop (f := gone) fun _ he _ => he).of_lists ha ht hp
  queued := h.queued.of_sublist (ht ▸ List.filter_sublist) hc fun hr => hb ▸ hr
  pulses := h.pulses.remove gone hold hstay hp hc

/-- The entries of a port whose tags are picked leave, PULSING ones with their pulses (R81). -/
theorem takeEntries (h : w.Planned waits todo hand) (p : Port) (f : Half → Bool) (level : LineId → Bool) :
    ((w.takePulseOf p f level).drop fun e => e.owner == p && f e.tag).Planned waits todo hand := by
  refine h.removed (fun e => e.owner == p && f e.tag) (fun l r hr => ?_) fun l r x _ hr href => ?_ <;>
    rw [Plant.line_drop, Plant.line_takePulseOf] at *
  · split at hr
    · next q hq =>
      split at hr
      · nomatch hr
      · exact hr
    · exact hr
  · obtain ⟨howner, htag⟩ := Prod.mk.inj href.1
    simp only [hr, howner, htag]
    cases hg : r.owner == p && f r.tag with
    | true => exact iff_of_false nofun nofun
    | false => exact iff_of_true hr rfl

theorem cancel (h : w.Planned waits todo hand) (p : Port) (tag : Half) : (w.cancel p tag).Planned waits todo hand :=
  (h.takeEntries p (· == tag) fun _ => false).settleHold

theorem cancelAll (h : w.Planned waits todo hand) (p : Port) : (w.cancelAll p).Planned waits todo hand := by
  have hall := h.takeEntries p (fun _ => true) fun _ => false
  simp only [Bool.and_true] at hall
  exact hall.settleHold

/-- A lease ends whose holder owns the PULSING entries on its line (R106, R113, R114). -/
theorem vacate (h : w.Planned waits todo hand) {p : Port} {l : LineId}
    (hown : ∀ x ∈ w.pulsing, x.entry.line? = some l → x.entry.owner = p) (b : Bool) :
    (w.vacate p l b).Planned waits todo hand := by
  have hline : ∀ m, (w.vacate p l b).line m = if m = l then (w.line l).vacate b else w.line m :=
    fun m => w.line_vacate p l m b
  refine h.removed (ownedOn p l) (fun m r hr => ?_) fun m r x hx hr href => ?_ <;> rw [hline] at *
  · split at hr
    · nomatch hr
    · exact hr
  · split
    · next hm =>
      subst hm
      refine iff_of_false nofun ?_
      simp [ownedOn, Entry.onLine, href.line?, hown x hx href.line?]
    · next hm =>
      refine iff_of_true hr ?_
      simp [ownedOn, Entry.onLine, href.line?, hm]

end Plant.Planned

/-- Steps 2 to 4 of R171 start no pulse. -/
theorem Line.pulsing_of_clearedOf {p : Port} {fallback : Bool} {x : Line} {r : PulseRec}
    (h : (x.clearedOf p fallback).state = .pulsing r) : x.state = .pulsing r := by
  cases hheld : x.heldBy p with
  | true => rw [Line.clearedOf_of_held hheld] at h; nomatch h
  | false =>
    cases hx : x.state with
    | static => rwa [Line.clearedOf_of_other hheld (by simp [hx]) (by simp [hx]), hx] at h
    | waving g => rwa [Line.clearedOf_of_other hheld (by simp [hx]) (by simp [hx]), hx] at h
    | pulsing k =>
      by_cases hk : k.owner = p
      · rw [Line.clearedOf_of_pulse hheld hx hk] at h; nomatch h
      · rwa [Line.clearedOf_of_other hheld (by simp [hx, hk]) (by simp [hx]), hx] at h
    | probing k =>
      by_cases hk : k.requester = p
      · rw [Line.clearedOf_of_probe hheld hx hk] at h; nomatch h
      · rwa [Line.clearedOf_of_other hheld (by simp [hx]) (by simp [hx, hk]), hx] at h

namespace Plant.Planned
variable {waits : Prop} {todo : Finset LineId} {hand : Multiset (Port × Half)} {w : Plant}

/-- A port's entries leave, and its leases end, on whose lines no other port has a PULSING entry (R171). -/
theorem resetPort (h : w.Planned waits todo hand) {p : Port}
    (hown : ∀ x ∈ w.pulsing, ∀ l, x.entry.line? = some l → (w.line l).heldBy p = true → x.entry.owner = p)
    (fallback : LineId → Bool) : (w.resetPort p fallback).Planned waits todo hand := by
  rw [Plant.resetPort_eq]
  refine settleHold (h.removed (fun e => e.owner == p) (fun l r hr => ?_) fun l r x hx hr href => ?_) <;>
    rw [Plant.clearedOf_line] at *
  · exact Line.pulsing_of_clearedOf hr
  · obtain ⟨howner, -⟩ := Prod.mk.inj href.1
    have hheld := fun hk => howner.symm.trans (hown x hx l href.line? hk)
    by_cases hp : r.owner = p
    · refine iff_of_false ?_ (by simp [howner, hp])
      cases hk : (w.line l).heldBy p with
      | true => rw [Line.clearedOf_of_held hk]; exact nofun
      | false => rw [Line.clearedOf_of_pulse hk hr hp]; exact nofun
    · rw [Line.clearedOf_of_other (Bool.eq_false_iff.mpr fun hk => hp (hheld hk)) (by simp [hr, hp]) (by simp [hr])]
      exact iff_of_true hr (by simp [howner, hp])

end Plant.Planned

/-- A plant with an empty pool and no pulse has nothing to put out of order. -/
theorem Plant.planned_of_empty {w : Plant} (h : w.live = []) (hl : ∀ l r, (w.line l).state ≠ .pulsing r)
    (waits : Prop) (todo : Finset LineId) : w.Planned waits todo 0 := by
  have hn := (Plant.live_eq_nil_iff w).mp h
  have hlegal := Plant.EachLive.of_nil h Entry.legal
  simp only [Plant.live, List.append_eq_nil_iff, List.map_eq_nil_iff] at h
  obtain ⟨⟨-, ht⟩, hp⟩ := h
  refine ⟨by simp [hn], hlegal, .of_nil ht, fun l r hr => absurd hr (hl l r), ?_⟩
  rw [hp]
  exact fun _ hx => absurd hx List.not_mem_nil

end Sys2Proof.Machine
end

section
/-! PROOF of O60, fourth part. A SCHEDULE body that is read gives a legal entry of its requester (R43, R44). -/

namespace Sys2Proof.Machine

/-! ## What is read (R5, R6, R7, R43, R44) -/

/-- All that a SCHEDULE body that is read says of its entry. -/
theorem parseSchedule_cases {s : State} {r : Request} {e : Entry} {due : Word}
    (h : parseSchedule s r = some (e, due)) :
    e.owner = r.port ∧ e.level = s.effective r ∧ e.lateMark = false ∧ e.left = Left.ofRepeat e.repeatCount ∧
      ∃ act ln trg rest part step, parseTrigger trg rest = some (e.trigger, due, part) ∧
        parseAction act ln part = some e.action ∧
        parseStep e.trigger e.action e.repeatCount step = some e.step := by
  unfold parseSchedule at h
  split at h
  · split at h
    · next htrigger =>
      split at h
      · next haction =>
        split at h
        · next hstep =>
          split at h
          · cases h
            exact ⟨rfl, rfl, rfl, rfl, _, _, _, _, _, _, htrigger, haction, hstep⟩
          · nomatch h
        · nomatch h
      · nomatch h
    · nomatch h
  · nomatch h

theorem offsetOk_of_parseTrigger {code : Byte} {rest part : List Byte} {t : Trigger} {due : Word}
    (h : parseTrigger code rest = some (t, due, part)) : t.offsetOk := by
  unfold parseTrigger at h
  split at h
  · cases h
    trivial
  · split at h
    · split at h
      · next ho =>
        cases h
        exact (offsetOk_iff _).mp ho.2
      · nomatch h
    · nomatch h
  · split at h
    · split at h
      · next ho =>
        cases h
        exact (offsetOk_iff _).mp ho
      · nomatch h
    · nomatch h
  · nomatch h

theorem widthOk_of_parseAction {code ln : Byte} {part : List Byte} {a : Action}
    (h : parseAction code ln part = some a) : a.widthOk := by
  by_cases hmark : code = 6#8
  · subst hmark
    rw [eq_mark_of_parseAction h]
    trivial
  · rw [parseAction_onLine hmark] at h
    obtain ⟨l, -, hmap⟩ := Option.bind_eq_some_iff.mp h
    obtain ⟨la, hla, rfl⟩ := Option.map_eq_some_iff.mp hmap
    obtain ⟨-, -, hwidth, -⟩ := parseLineAction_isSome_iff.mp (Option.isSome_of_eq_some hla)
    obtain ⟨hpulse, hother⟩ := parseLineAction_eq_some hla
    cases la with
    | pulse width =>
      have h3 : code.toNat = 3 := by
        by_contra hc
        exact hother hc width rfl
      rw [hpulse h3]
      exact hwidth h3
    | set => trivial
    | clear => trivial
    | toggle => trivial
    | wave u => trivial
    | waveStop => trivial

theorem step_of_parseStep {t : Trigger} {a : Action} {rep : Byte} {step : Word} {v : Option Word}
    (h : parseStep t a rep step = some v) (hrep : rep ≠ 1#8) :
    v = some step ∧ stepInRange t step = true ∧ pulseFits t a step = true := by
  unfold parseStep at h
  rw [if_neg hrep] at h
  split at h
  · next hok => exact ⟨(Option.some.inj h).symm, (Bool.and_eq_true ..).mp hok⟩
  · nomatch h

theorem Left.within_ofRepeat (rep : Byte) : (Left.ofRepeat rep).within rep := by
  unfold Left.ofRepeat
  split
  · assumption
  · next h => exact ⟨h, Nat.le_refl _⟩

/-- An entry that is read is in the ranges of R5 to R7. -/
theorem legal_of_parseSchedule {s : State} {r : Request} {e : Entry} {due : Word}
    (h : parseSchedule s r = some (e, due)) : e.legal := by
  obtain ⟨-, -, -, hleft, _, _, _, _, _, _, htrigger, haction, hstep⟩ := parseSchedule_cases h
  refine ⟨?_, offsetOk_of_parseTrigger htrigger, widthOk_of_parseAction haction, fun hrep => ?_⟩
  · rw [hleft]
    exact Left.within_ofRepeat _
  · obtain ⟨hv, hrange, hfits⟩ := step_of_parseStep hstep hrep
    exact ⟨_, hv, hrange, hfits⟩

end Sys2Proof.Machine
end

section
/-! PROOF of O60, fifth part: every event of RC, request and command keeps the schedule. That pool, leases and hold
stay sound is proved above (O57, O58, O59); what is left is the plan: names, ranges, the timeline list and the pulses
with their entries. -/

namespace Sys2Proof.Machine

/-! ## The schedule of a state -/

/-- The plan of a state's plant, with no entry in hand and no work left over. -/
abbrev State.Planned (s : State) : Prop := s.plant.Planned False ∅ 0

/-- The invariant of O60. -/
structure PlanSound (s : State) : Prop where
  pool  : PoolSound s
  lease : LeaseSound s
  hold  : HoldSound s
  plan  : s.Planned

theorem scheduleSound_iff (s : State) : ScheduleSound s ↔ PlanSound s := by
  constructor
  · rintro ⟨hsetup, hpool, hleases, hunder, hlegal, hordered, hreferred, hhold⟩
    have hps : PoolSound s := ⟨hsetup, hpool⟩
    refine ⟨hps, (leaseSound_iff s).mpr ⟨hsetup, hleases, hunder⟩, ⟨hsetup, hhold⟩, ?_,
      (Plant.eachLive_iff ..).mpr hlegal, (timelineOrdered_iff _).mp hordered, (pulsesReferred_iff _).mp hreferred⟩
    rw [zero_add]
    exact hps.namesFit.nodup
  · intro h
    obtain ⟨hsetup, hleases, hunder⟩ := (leaseSound_iff s).mp h.lease
    exact ⟨hsetup, h.pool.2, hleases, hunder, (Plant.eachLive_iff ..).mp h.plan.legal,
      (timelineOrdered_iff _).mpr h.plan.queued, (pulsesReferred_iff _).mpr h.plan.pulses, h.hold.hold⟩

/-- The entries of a line with a lease are its holder's (R106). -/
theorem LeaseSound.owner_of_lease {s : State} (hs : LeaseSound s) {l : LineId} {k : Lease}
    (hk : (s.plant.line l).lease = some k) {x : Timed} (hx : x ∈ s.plant.pulsing)
    (hl : x.entry.line? = some l) : x.entry.owner = k.holder := by
  obtain ⟨k', hk', howner⟩ := (Line.heldBy_iff ..).mp (hs.entries.pulsing x hx l hl (hs.leases l k hk).leased)
  obtain rfl := Option.some.inj (hk.symm.trans hk')
  exact howner.symm

/-! ## Events of RC -/

namespace PlanSound
variable {s t : State}

/-- The lines enter OPERATING without a pulse, and the pool was empty (R20, R178). -/
theorem plan_enterOperating (hs : PlanSound s) (hd : s.device = .setup) (c : CloseCause) :
    (s.enterOperating c).Planned := by
  refine Plant.planned_of_empty (w := (s.enterOperating c).plant) (hs.hold.live_of_setup hd) (fun l r hr => ?_) _ _
  rw [State.enterOperating_plant, Plant.line_enter] at hr
  nomatch hr

theorem plan_windowExpiry (hs : PlanSound s) : s.windowExpiry.Planned := by
  unfold State.windowExpiry
  split
  · next h => exact hs.plan_enterOperating h.2.1 _
  · exact hs.plan

theorem plan_boundary (hs : PlanSound s) : s.boundary.Planned := by
  unfold State.boundary
  split
  · exact hs.plan.tick _
  · exact hs.plan

theorem plan_holdExpiry (hs : PlanSound s) : s.holdExpiry.Planned := by
  unfold State.holdExpiry
  split
  · exact hs.plan.holdExpires
  · exact hs.plan

theorem plan_lapse (hs : PlanSound s) (l : LineId) : (s.lapse l).Planned := by
  unfold State.lapse
  split
  · next k hk =>
    split
    · exact ((hs.plan.vacate (fun x hx => hs.lease.owner_of_lease hk hx) _).post ..).settleHold
    · exact hs.plan
  · exact hs.plan

theorem plan_phaseAEnd (hs : PlanSound s) (l : LineId) (sense : Bool) : (s.phaseAEnd l sense).Planned := by
  unfold State.phaseAEnd
  split
  · next r hr =>
    split
    · split
      · exact hs.plan.setLine (LineState.ne_pulsing_of_probing hr) (LineState.ne_pulsing_of_probing rfl)
      · exact hs.plan
    · exact hs.plan
  · exact hs.plan

theorem plan_phaseBEnd (hs : PlanSound s) (l : LineId) (sense : Bool) : (s.phaseBEnd l sense).Planned := by
  unfold State.phaseBEnd
  split
  · next r hr =>
    split
    · exact hs.plan
    · split
      · exact (hs.plan.setLine (LineState.ne_pulsing_of_probing hr) (LineState.ne_pulsing_of_static rfl)).post ..
      · exact hs.plan
  · exact hs.plan

/-- Every event that RC brings keeps the schedule. -/
theorem takeRc (hs : PlanSound s) (c : Instr) : PlanSound (s.takeRc c) := by
  refine ⟨hs.pool.takeRc c, hs.lease.takeRc c, hs.hold.takeRc c, ?_⟩
  unfold State.takeRc
  split
  · exact hs.plan_boundary
  · exact hs.plan_windowExpiry
  · exact hs.plan_holdExpiry
  · exact hs.plan_lapse _
  · exact hs.plan_phaseAEnd ..
  · exact hs.plan_phaseBEnd ..
  · exact hs.plan

end PlanSound

theorem LineState.run_eq_pulsing (n : Nat) (st : LineState) (r : PulseRec) :
    st.run n = .pulsing r ↔ st = .pulsing r := by
  cases st <;> simp [LineState.run]

namespace PlanSound
variable {s t : State}

/-- RC counts no pulse down (R77). -/
theorem runRc (hs : PlanSound s) (n : Nat) : PlanSound (s.runRc n) := by
  refine ⟨hs.pool.runRc n, hs.lease.runRc n, hs.hold.runRc n, hs.plan.of_same (fun l r => ?_) id⟩
  rw [State.runRc_line, Line.run_state, LineState.run_eq_pulsing]

/-- The counter of free orders and the queue of commands are nothing of the schedule. -/
theorem of_plant (hs : PlanSound s) (hp : t.plant = s.plant) (hr : t.rstnLow = s.rstnLow) (hd : t.device = s.device)
    (ht : t.table = s.table) (hports : t.ports = s.ports) : PlanSound t where
  pool := hs.pool.of_sheds (.of_plant hr hd (by rw [ht]) hp)
  lease := hs.lease.of_plant ⟨hr, hd, by rw [ht], fun p => by rw [State.port, hports, State.port]⟩ hp
  hold := hs.hold.of_plant hr hd hp
  plan := by rw [State.Planned, hp]; exact hs.plan

theorem passed (hs : PlanSound s) (n : Nat) : PlanSound (s.passed n) :=
  State.passed_induction PlanSound (fun _ n h => h.runRc n) (fun _ c h => h.takeRc c)
    (fun _ _ h => h.of_plant rfl rfl rfl rfl rfl) n hs

theorem plan_idle (hs : PlanSound s) : s.idle.Planned := by
  unfold State.idle
  split
  · exact hs.plan
  · have h1 : PlanSound (if s.due = [] then s.runRc 1 else s) := by
      split
      · exact hs.runRc 1
      · exact hs
    dsimp only
    generalize (if s.due = [] then s.runRc 1 else s) = s1 at h1 ⊢
    generalize shuffle s1.due s1.freeCount = q
    exact h1.plan

/-! ## Edges and tallies -/

/-- After the advance of a pace edge the entries at lead 0 wait for the batch that is among the claims; without
such a batch there are none (R51, R130). -/
theorem plan_paceAdvance (hs : PlanSound s) (c : Channel) (vs : Vector Word 8) :
    (s.plant.paceAdvance (s.table.paces c)).Planned
      (.tickBatch ∈ claims s.table c vs s.plant.armed (s.plant.paceAdvance (s.table.paces c))) ∅ 0 := by
  have hpace := hs.plan.paceAdvance (s.table.paces c)
  refine ⟨hpace.names, hpace.legal, ⟨hpace.queued.sorted, hpace.queued.below, fun hnone hrun x hx hz => ?_⟩,
    hpace.pulses⟩
  cases hp : s.table.paces c with
  | true =>
    refine hnone ((mem_claims ..).mpr ⟨(Table.paces_iff ..).mp hp, hrun, x, hx, ?_⟩)
    exact (lead_eq_zero ..).mp hz
  | false =>
    rw [hp] at hrun hx hz
    exact hs.plan.queued.ahead not_false hrun x hx hz

theorem plan_acceptEdge (hs : PlanSound s) (c : Channel) (dir : Edge) : (s.acceptEdge c dir).Planned := by
  let w := s.plant.paceAdvance (s.table.paces c)
  let vs := raiseBound s.table.tallies c s.tallies
  have hperm := shuffle_perm (claims s.table c vs s.plant.armed w) s.freeCount
  have hw : w.Planned (.tickBatch ∈ (shuffle (claims s.table c vs s.plant.armed w) s.freeCount).1) ∅ 0 :=
    (hs.plan_paceAdvance c vs).weaken hperm.mem_iff.mpr
  have harmed : ∀ x ∈ s.plant.armed, x.entry.name ∈ w.armedNames := fun x hx =>
    (s.plant.settles_paceAdvance (s.table.paces c)).armed _ (Set.notMem_empty _) (mem_namesIn Waiting.entry hx)
  refine Plant.Planned.postEdges (fun p => (s.plant.inbox p).queue.length) _ _ (q := (_, _))
    (hw.claims s.table.arbitration c hs.plan.legal.armed hs.pool.nodup_armed ?_ fun _ _ x hx _ => harmed x hx)
  refine (hperm.nodup_iff.mpr (nodup_claims ..)).pairwise_of_forall_ne fun j hj k hk hne => ?_
  exact claims_visit_apart (hperm.mem_iff.mp hj) (hperm.mem_iff.mp hk) hne

theorem plan_changeTally (hs : PlanSound s) (n : TallyId) (v : Word) : (s.changeTally n v).Planned :=
  hs.plan.walkCount s.table.arbitration n v hs.plan.legal.armed hs.pool.nodup_armed fun _ hx _ =>
    mem_namesIn Waiting.entry hx

/-! ## Requests -/

section Serve
variable {α : Type} {kind : Byte} {allowed : Allowed} {limit : State → Option Level}
  {operands : State → Option α} {r : Request}

theorem of_serve {work : α → State → State × Reply} (hs : PlanSound s)
    (hwork : ∀ a, operands s = some a → allowed.admits s.device = true → (work a s).1.Planned) :
    (serve kind allowed limit operands work r s).Planned :=
  serve_induction State.Planned (fun _ _ _ h => h) hs.plan fun a ho _ => hwork a ho

/-- A request whose work keeps the plan wherever it is reached. -/
theorem of_serve_work {work : α → State → State × Reply} (hs : PlanSound s)
    (hwork : ∀ a, (work a s).1.Planned) : (serve kind allowed limit operands work r s).Planned :=
  hs.of_serve fun a _ _ => hwork a

theorem of_serve_readOnly {body : State → α → List Byte} (hs : PlanSound s) :
    (serve kind allowed limit operands (readOnly body) r s).Planned := hs.of_serve_work fun _ => hs.plan

end Serve

/-! ### Ports and setup -/

theorem plan_noticeRead (hs : PlanSound s) (p : Port) (u : Unit) : (noticeReadWork p u s).1.Planned :=
  hs.plan.of_same (Plant.samePulses_of_lines rfl) id

theorem plan_portReset (hs : PlanSound s) (p : Port) (u : Unit) : (portResetWork p u s).1.Planned := by
  refine hs.plan.resetPort (fun x hx l hl hheld => ?_) s.fallback
  obtain ⟨k, hk, rfl⟩ := (Line.heldBy_iff ..).mp hheld
  exact hs.lease.owner_of_lease hk hx hl

/-- A line's level moves with its fallback, and its pulse stays (R69, R175). -/
theorem plan_configWrite (hs : PlanSound s) (q : ItemWrite) : (configWriteWork q s).1.Planned := by
  have hset : (s.setTable q.item q.table).Planned := by
    unfold State.setTable
    split
    · exact hs.plan.of_same (s.plant.samePulses_setLine rfl) id
    · exact hs.plan
  unfold configWriteWork
  split
  · exact hset
  · exact hs.plan

/-! ### Entries -/

end PlanSound

theorem lead_placeDue (tc due : Word) (e : Entry) : (lead tc (placeDue tc due e).due).toNat < 2 ^ 31 := by
  unfold placeDue
  split
  · simp [lead]
  · next h => exact (not_isLate_iff tc due).mp (by simpa using h)

/-- An accepted entry is placed at a due that is not late, or armed (R46, R47). -/
theorem Plant.Planned.postEntry {s : State} {e : Entry} {hand : Multiset (Port × Half)}
    (h : s.plant.Planned False ∅ ({e.name} + hand)) (hl : e.legal) (due : Word) :
    (s.postEntry e due).Planned False ∅ hand := by
  have hoffset : e.trigger.offsetOk := hl.2.1
  unfold State.postEntry
  split
  · have hname := placeDue_name s.plant.tc due e
    refine Plant.Planned.place (x := placeDue s.plant.tc due e) ?_ _ (Entry.lasting_legal.placeDue hl _ _)
      (lead_placeDue ..)
    rw [hname]
    exact h
  · exact h.arm (x := ⟨e, _⟩) hl
  · next ht =>
    rw [ht] at hoffset
    split
    · exact h.place (x := ⟨e, _⟩) _ hl (by rw [lead_add]; exact hoffset)
    · exact h.arm (x := ⟨e, none⟩) hl

namespace PlanSound
variable {s t : State}

/-- A new entry has a name of its own, and is in the ranges that SCHEDULE tests (R13, R44). -/
theorem plan_schedule (hs : PlanSound s) {r : Request} {q : Entry × Word} (hq : parseSchedule s r = some q) :
    (scheduleWork q s).1.Planned := by
  unfold scheduleWork
  split
  · exact hs.plan
  · next hok =>
    obtain ⟨hnew, -⟩ := scheduleRefusal_none hok
    refine Plant.Planned.postEntry ⟨?_, hs.plan.legal, hs.plan.queued, hs.plan.pulses⟩ (legal_of_parseSchedule hq) q.2
    rw [add_zero, Multiset.singleton_add, Multiset.nodup_cons]
    exact ⟨hnew, hs.pool.namesFit.nodup⟩

theorem plan_cancel (hs : PlanSound s) (p : Port) (tag : Half) : (cancelWork p tag s).1.Planned := by
  unfold cancelWork
  split
  · exact hs.plan.cancelAll p
  · split
    · exact hs.plan.cancel p tag
    · exact hs.plan

/-- A moved entry leaves the timeline list before it is placed anew or removed (R63). -/
theorem plan_movePending (hs : PlanSound s) {x : Timed} (hx : x ∈ s.plant.timeline) (due : Word) :
    (movePending x due s).1.Planned := by
  have hrest : (s.plant.dropPending x.entry.owner x.entry.tag).Planned False ∅ ({x.entry.name} + 0) := by
    refine ⟨Multiset.nodup_of_le ?_ hs.plan.names, hs.plan.legal.dropPending ..,
      hs.plan.queued.of_sublist List.filter_sublist rfl id,
      hs.plan.pulses.of_same rfl rfl (Plant.samePulses_of_lines rfl)⟩
    rw [add_zero, zero_add]
    exact Plant.names_dropPending (mem_namesIn Timed.entry hx)
  unfold movePending
  dsimp only
  split
  · refine Plant.Planned.post ⟨?_, hrest.legal, hrest.queued, hrest.pulses⟩ ..
    exact Multiset.nodup_of_le (add_le_add_left (Multiset.zero_le _) _) hrest.names
  · have hplace := Plant.Planned.place (x := placeDue s.plant.tc due x.entry)
      (w := s.plant.dropPending x.entry.owner x.entry.tag) (hand := 0) (by rw [placeDue_name]; exact hrest)
      s.table.arbitration (Entry.lasting_legal.placeDue (hs.plan.legal.timeline x hx) _ _) (lead_placeDue ..)
    split <;> exact hplace

theorem plan_entryMove (hs : PlanSound s) (p : Port) (q : Half × Word) : (moveWork p q s).1.Planned := by
  unfold moveWork
  split
  · next x hx => exact hs.plan_movePending (List.mem_of_find?_eq_some hx) q.2
  · split <;> exact hs.plan

theorem plan_entryRead (hs : PlanSound s) (p : Port) (tag : Half) : (entryReadWork p tag s).1.Planned := by
  unfold entryReadWork
  split <;> exact hs.plan

/-! ### Timebase, tallies, lines and leases -/

theorem plan_tbStart (hs : PlanSound s) (p : Port) (u : Unit) : (startWork p u s).1.Planned :=
  hs.plan.start s.table.arbitration p

theorem plan_tbHold (hs : PlanSound s) (p : Port) (u : Unit) : (holdWork p u s).1.Planned :=
  hs.plan.hold p s.table.holdTimeout

theorem plan_tallyCas (hs : PlanSound s) (q : TallyId × Word × Word) : (casWork q s).1.Planned := by
  unfold casWork
  split
  · exact hs.plan_changeTally ..
  · exact hs.plan

theorem plan_lineMode (hs : PlanSound s) (r : Request) (q : LineId × Mode) : (modeWork r q s).1.Planned := by
  unfold modeWork
  split
  · exact hs.plan
  · exact hs.plan.of_same (s.plant.samePulses_setLine rfl) id

theorem plan_waveRestart (hs : PlanSound s) (r : Request) (l : LineId) : (restartWork r l s).1.Planned := by
  unfold restartWork
  split
  · exact hs.plan
  · split
    · next g hg => exact hs.plan.rewind hg _
    · exact hs.plan

/-- A probe starts on a STATIC line alone (R151). -/
theorem plan_lineProbe (hs : PlanSound s) (r : Request) (l : LineId) : (probeWork r l s).1.Planned := by
  unfold probeWork
  split
  · exact hs.plan
  · next h =>
    exact hs.plan.setLine (LineState.ne_pulsing_of_static (static_of_probeRefusal h))
      (LineState.ne_pulsing_of_probing rfl)

theorem plan_setLease (hs : PlanSound s) (l : LineId) (k : Option Lease) :
    (s.plant.setLease l k).Planned False ∅ 0 := hs.plan.of_same (s.plant.samePulses_setLine rfl) id

theorem plan_leaseTake (hs : PlanSound s) (r : Request) (q : LineId × Half) : (takeWork r q s).1.Planned := by
  unfold takeWork
  split
  · exact hs.plan
  · change (s.plant.take q.1 (Lease.fresh r.port (s.effective r) q.2)).1.Planned False ∅ 0
    unfold Plant.take
    split
    · exact hs.plan_setLease ..
    · next k hk =>
      split
      · exact hs.plan_setLease ..
      · have hvacated := (hs.plan.vacate (fun x hx => hs.lease.owner_of_lease hk hx)
          (s.plant.line q.1).quietLevel).post k.holder (lineByte q.1) 0#16
            (.leaseLost (.taken r.port (s.effective r)) (s.plant.leaseEntries k.holder q.1))
        exact (hvacated.of_same (Plant.samePulses_setLine _ rfl) id).settleHold

theorem plan_leaseRenew (hs : PlanSound s) (p : Port) (q : Option LineId) : (renewWork p q s).1.Planned := by
  unfold renewWork
  split
  · split
    · exact hs.plan_setLease ..
    · exact hs.plan
  · refine hs.plan.of_same (s.plant.samePulses_updAll fun _ x r => ?_) id
    unfold Line.renewIf
    split <;> rfl

theorem plan_leaseRelease (hs : PlanSound s) (p : Port) (l : LineId) : (releaseWork p l s).1.Planned := by
  unfold releaseWork
  split
  · next hheld =>
    obtain ⟨k, hk, rfl⟩ := (Line.heldBy_iff ..).mp hheld
    exact (hs.plan.vacate (fun x hx => hs.lease.owner_of_lease hk hx) _).settleHold
  · exact hs.plan

/-! ## Commands that are no request -/

theorem plan_inReset (straps : Vector Level 4) (pending : List Instr) (f : Nat) :
    (State.inReset straps pending f).Planned := by
  refine Plant.planned_of_empty rfl (fun l r hr => ?_) _ _
  have hline : (State.inReset straps pending f).plant.line l = Line.reset := replicate_get ..
  rw [hline] at hr
  nomatch hr

theorem plan_rstnRise (hs : PlanSound s) (h : execRstnRise s = .next t) : t.Planned := by
  obtain rfl := Host.Outcome.next.inj h
  split <;> exact hs.plan

theorem plan_tick (hs : PlanSound s) (h : execTick s = .next t) : t.Planned := by
  obtain rfl := Host.Outcome.next.inj h
  split
  · exact (hs.passed _).plan_boundary
  · exact hs.plan

theorem plan_captureEdge (hs : PlanSound s) {c : Channel} {dir : Edge} {after : Nat}
    (h : execCaptureEdge c dir after s = .next t) : t.Planned := by
  obtain rfl := Host.Outcome.next.inj h
  have hp := hs.passed after
  have hsample : PlanSound ((s.passed after).sample c dir) := hp.of_plant rfl rfl rfl rfl rfl
  split
  · exact hs.plan
  · dsimp only
    split
    · split
      · exact hsample.plan_acceptEdge c dir
      · exact hsample.plan
    · exact hp.plan

theorem plan_undecodedRequest (hs : PlanSound s) {p : Port} {wire : Wire}
    (h : execUndecodedRequest p wire s = .next t) : t.Planned := by
  obtain rfl := Host.Outcome.next.inj h
  split
  · split <;> exact hs.plan
  · exact hs.plan

theorem plan_transactionBegin (hs : PlanSound s) {fall : Fall} (h : execTransactionBegin fall s = .next t) :
    t.Planned := by
  obtain rfl := Host.Outcome.next.inj h
  split <;> exact hs.plan

/-! ## The step -/

/-- Every command keeps the plan. -/
theorem plan_of_exec (hs : PlanSound s) : ∀ i t, exec i s = .next t → t.Planned
  | .nop _, _, rfl => hs.of_serve_readOnly
  | .identify _, _, rfl => hs.of_serve_readOnly
  | .status _, _, rfl => hs.of_serve_readOnly
  | .noticeRead _, _, rfl => hs.of_serve_work fun u => hs.plan_noticeRead _ u
  | .portReset _, _, rfl => hs.of_serve_work fun u => hs.plan_portReset _ u
  | .subscribe _, _, rfl => hs.of_serve_work fun _ => hs.plan
  | .configRead _, _, rfl => hs.of_serve_readOnly
  | .configWrite _, _, rfl => hs.of_serve_work hs.plan_configWrite
  | .endSetup _, _, rfl => hs.of_serve fun _ _ ha => hs.plan_enterOperating (Allowed.setup_of_admits ha) _
  | .tbHold _, _, rfl => hs.of_serve_work fun u => hs.plan_tbHold _ u
  | .tbStart _, _, rfl => hs.of_serve_work fun u => hs.plan_tbStart _ u
  | .schedule _, _, rfl => hs.of_serve fun _ hq _ => hs.plan_schedule hq
  | .cancel _, _, rfl => hs.of_serve_work fun tag => hs.plan_cancel _ tag
  | .entryMove _, _, rfl => hs.of_serve_work fun q => hs.plan_entryMove _ q
  | .entryRead _, _, rfl => hs.of_serve_work fun tag => hs.plan_entryRead _ tag
  | .lineMode r, _, rfl => hs.of_serve_work fun q => hs.plan_lineMode r q
  | .lineRead _ _, _, rfl => hs.of_serve_readOnly
  | .waveRestart r, _, rfl => hs.of_serve_work fun l => hs.plan_waveRestart r l
  | .lineProbe r, _, rfl => hs.of_serve_work fun l => hs.plan_lineProbe r l
  | .leaseTake r, _, rfl => hs.of_serve_work fun q => hs.plan_leaseTake r q
  | .leaseRenew _, _, rfl => hs.of_serve_work fun q => hs.plan_leaseRenew _ q
  | .leaseRelease _, _, rfl => hs.of_serve_work fun l => hs.plan_leaseRelease _ l
  | .leaseRead _, _, rfl => hs.of_serve_readOnly
  | .captureRead _, _, rfl => hs.of_serve_readOnly
  | .tallyRead _, _, rfl => hs.of_serve_readOnly
  | .tallyAdd _, _, rfl => hs.of_serve_work fun _ => hs.plan_changeTally ..
  | .tallySwap _, _, rfl => hs.of_serve_work fun _ => hs.plan_changeTally ..
  | .tallyCas _, _, rfl => hs.of_serve_work hs.plan_tallyCas
  | .undecodedRequest _ _, _, h => hs.plan_undecodedRequest h
  | .deviceReset _ _, _, rfl => plan_inReset ..
  | .rstnRise, _, h => hs.plan_rstnRise h
  | .tick, _, h => hs.plan_tick h
  | .captureEdge _ _ _, _, h => hs.plan_captureEdge h
  | .pulseEnd l, _, rfl => hs.plan.pulseEnd l
  | .periodEnd l, _, rfl => hs.plan.periodEnd l
  | .holdTimerExpiry, _, rfl => hs.plan_holdExpiry
  | .lapse l, _, rfl => hs.plan_lapse l
  | .phaseAEnd l b, _, rfl => hs.plan_phaseAEnd l b
  | .phaseBEnd l b, _, rfl => hs.plan_phaseBEnd l b
  | .setupWindowExpiry, _, rfl => hs.plan_windowExpiry
  | .transactionBegin _, _, h => hs.plan_transactionBegin h

end PlanSound

/-- Settles O60: pool, leases and hold stay sound by O58, O59 and O57, and every command, and RC on an empty queue,
keeps the plan. -/
theorem scheduleStaysSound : Obligations.ScheduleStaysSound := by
  intro s t hsound hstep
  have hs := (scheduleSound_iff s).mp hsound
  obtain ⟨hsetup, hpool, hleases, hunder, -, -, -, hhold⟩ := hsound
  refine (scheduleSound_iff t).mpr ⟨poolStaysWithinShares s t hsetup hpool hstep,
    (leaseSound_iff t).mpr (entriesStayUnderLease s t hsetup hleases hunder hstep), ?_, ?_⟩
  · obtain ⟨hsetup', hhold'⟩ := holdKeepsPulses s t hsetup hhold hstep
    exact ⟨hsetup', hhold'⟩
  · unfold step at hstep
    split at hstep
    · next c cs _ =>
      have hcs : PlanSound { s with pending := cs } := hs.of_plant rfl rfl rfl rfl rfl
      exact hcs.plan_of_exec c t hstep
    · cases hstep
      exact hs.plan_idle

end Sys2Proof.Machine
end

section
/-! PROOF of O27 to O30 and O33. The winner is what the fold of `prefer` finds; a line waits in a batch for its
winner, before and behind which no entry touches it; the work of an entry is read off its action; a completion and a
placement are what R56 to R58 and R42 make of the lists. -/

namespace Sys2Proof.Machine

/-! ## Arbitration (R52) -/

theorem winner_of_unnamed {l : LineId} {batch : List Timed} (h : ∀ x ∈ batch, x.entry.line? ≠ some l)
    (arb : Arbitration) : winner arb l batch = none := by
  have hnone : batch.filter (fun x => x.entry.onLine l) = [] :=
    List.filter_eq_nil_iff.mpr fun x hx hl => h x hx ((Entry.onLine_iff l x.entry).mp hl)
  unfold winner
  rw [hnone]

/-- What stands at a place among the entries that name a line stands at a place of the batch. -/
theorem filter_split {α : Type} {f : α → Bool} {xs before after : List α} {v : α}
    (h : xs.filter f = before ++ v :: after) : ∃ before' after', xs = before' ++ v :: after' ∧ f v = true ∧
      before'.filter f = before ∧ after'.filter f = after := by
  obtain ⟨ys, zs, rfl, hys, hzs⟩ := List.filter_eq_append_iff.mp h
  obtain ⟨ms, ns, rfl, hms, hv, hns⟩ := List.filter_eq_cons_iff.mp hzs
  refine ⟨ys ++ ms, ns, by simp, hv, ?_, hns⟩
  rw [List.filter_append, hys, List.filter_eq_nil_iff.mpr hms, List.append_nil]

/-- The winner of a line that the batch names, with its place in the batch. -/
theorem winner_split (arb : Arbitration) {l : LineId} {batch : List Timed}
    (h : ∃ x ∈ batch, x.entry.line? = some l) : ∃ v before after, winner arb l batch = some v ∧
      batch = before ++ v :: after ∧ v.entry.line? = some l ∧
      (∀ x ∈ batch, x.entry.line? = some l → v.entry.level ≤ x.entry.level) ∧
      (arb = .oldest → ∀ x ∈ before, x.entry.line? = some l → v.entry.level < x.entry.level) ∧
      (arb = .newest → ∀ x ∈ after, x.entry.line? = some l → v.entry.level < x.entry.level) := by
  have named : ∀ {xs : List Timed} {x : Timed}, x ∈ xs → x.entry.line? = some l →
      x ∈ xs.filter fun x => x.entry.onLine l :=
    fun hx hl => List.mem_filter.mpr ⟨hx, (Entry.onLine_iff ..).mpr hl⟩
  cases hf : batch.filter fun x => x.entry.onLine l with
  | nil =>
    obtain ⟨x, hx, hl⟩ := h
    exact absurd (hf ▸ named hx hl) List.not_mem_nil
  | cons y ys =>
    obtain ⟨bf, af, hsplit, hlow, hold, hnew⟩ := foldl_prefer arb y ys
    obtain ⟨before, after, hbatch, hv, rfl, rfl⟩ := filter_split (hf.trans hsplit)
    refine ⟨_, before, after, ?_, hbatch, (Entry.onLine_iff ..).mp hv, fun x hx hl => ?_,
      fun ha x hx hl => hold ha x (named hx hl), fun ha x hx hl => hnew ha x (named hx hl)⟩
    · unfold winner
      rw [hf]
    · exact hlow x (hf ▸ named hx hl)

/-- Settles O27: the line that no entry names, and the place of the winner of any other. -/
theorem winnerIsLowestLevel : Obligations.WinnerIsLowestLevel :=
  fun arb _ _ => ⟨fun h => winner_of_unnamed h arb, winner_split arb⟩

/-! ## Lines through a batch (R53, R54) -/

/-- Entries of other names than the winner's leave its line alone. -/
theorem Plant.runEntries_line_of_ne {arb : Arbitration} {batch : List Timed} {l : LineId} {v : Timed}
    (hv : winner arb l batch = some v) {xs : List Timed} (hx : ∀ x ∈ xs, x.entry.name ≠ v.entry.name) (w : Plant) :
    (xs.foldl (Plant.runOne arb batch) w).line l = w.line l := by
  induction xs generalizing w with
  | nil => rfl
  | cons x xs ih =>
    rw [List.foldl_cons, ih fun y hy => hx y (List.mem_cons_of_mem _ hy), Plant.runOne_line]
    split
    · next m a _ =>
      rw [if_neg]
      rintro ⟨rfl, hk⟩
      rw [hv] at hk
      exact hx x List.mem_cons_self ((Entry.sameKey_iff ..).mp hk).symm
    · rfl

/-- A line takes its winner's action as the batch found it (R53, R54, R74). -/
theorem Plant.runBatch_line_of_winner {arb : Arbitration} {batch : List Timed} {l : LineId} {v : Timed}
    {a : LineAction} (hnd : (batch.map fun x => x.entry.name).Nodup) (hv : winner arb l batch = some v)
    (ha : v.entry.action = .onLine l a) (w : Plant) :
    (w.runBatch arb batch).line l = (w.line l).applied v.entry a := by
  obtain ⟨before, after, hbatch⟩ := List.append_of_mem (winner_mem hv).1
  rw [hbatch, List.map_append, List.map_cons, List.nodup_middle, List.nodup_cons] at hnd
  obtain ⟨hfresh, -⟩ := hnd
  have hother : ∀ x ∈ before ++ after, x.entry.name ≠ v.entry.name := fun x hx hn =>
    hfresh (List.map_append ▸ hn ▸ List.mem_map_of_mem (f := fun x => x.entry.name) hx)
  have hwork : ∀ u : Plant, (u.runOne arb batch v).line l = (u.line l).applied v.entry a := fun u => by
    rw [Plant.runOne_line, ha]
    exact if_pos ⟨rfl, by rw [hv]; exact (Entry.sameKey_iff ..).mpr rfl⟩
  unfold Plant.runBatch
  generalize hf : Plant.runOne arb batch = f
  rw [hbatch, List.foldl_append, List.foldl_cons, ← hf,
    Plant.runEntries_line_of_ne hv fun x hx => hother x (List.mem_append_right _ hx), hwork,
    Plant.runEntries_line_of_ne hv fun x hx => hother x (List.mem_append_left _ hx)]

/-- Settles O28: a batch is steady work, and each line is reached through its winner. -/
theorem batchAppliesWinners : Obligations.BatchAppliesWinners := by
  intro arb batch w
  have hs := w.steady_runBatch arb batch
  exact ⟨hs.toKeeps, hs.tc, hs.timebase, hs.holdTimer, fun hnd l =>
    ⟨fun h => Plant.runBatch_line_of_none h w, fun v a hv ha => Plant.runBatch_line_of_winner hnd hv ha w⟩⟩

/-! ## Entries through a batch (R53, R54, R55, R74) -/

theorem Plant.runOne_mark {x : Timed} (h : x.entry.action = .mark) (arb : Arbitration) (batch : List Timed)
    (w : Plant) : w.runOne arb batch x = w.finish (.done .none) x := by
  unfold Plant.runOne
  rw [h]

/-- An entry that is not its line's winner completes as superseded by it (R53). -/
theorem Plant.runOne_superseded {arb : Arbitration} {batch : List Timed} {x v : Timed} {l : LineId}
    {a : LineAction} (hx : x.entry.action = .onLine l a) (hv : winner arb l batch = some v)
    (hn : v.entry.name ≠ x.entry.name) (w : Plant) :
    w.runOne arb batch x = w.finish (.superseded v.entry) x := by
  unfold Plant.runOne
  simp only [hx, hv, Option.getD_some]
  exact if_neg fun hk => hn ((Entry.sameKey_iff ..).mp hk)

theorem Plant.applyWinner_wave_of_waving {w : Plant} {l : LineId} {g : Generator}
    (hg : (w.line l).state = .waving g) (x : Timed) (u : Wave) : w.applyWinner x l (.wave u) =
      (w.stage l g ⟨u, x.entry.owner, x.entry.tag, x.entry.notify⟩, .staged) := by
  unfold Plant.applyWinner
  rw [hg]

theorem Plant.applyWinner_wave_of_other {w : Plant} {l : LineId} (hg : ∀ g, (w.line l).state ≠ .waving g)
    (x : Timed) (u : Wave) : w.applyWinner x l (.wave u) =
      ((w.clearLine l x.entry.owner).showGenerator l (Generator.fresh u), .started) := by
  unfold Plant.applyWinner
  dsimp only
  split
  · next g h => exact absurd h (hg g)
  · rfl

theorem Plant.clearLine_of_pulsing {w : Plant} {l : LineId} {k : PulseRec} (h : (w.line l).state = .pulsing k)
    (p : Port) : w.clearLine l p = w.releasePulse l k (some (.overtaken p)) := by
  unfold Plant.clearLine
  rw [h]

/-- Settles O29: the entry by its action and its line's winner, and the line by its state. -/
theorem batchActsOnEntries : Obligations.BatchActsOnEntries := by
  intro arb batch w
  refine ⟨rfl, fun x hx => Plant.runOne_mark hx arb batch w, fun x l a v hx hv =>
    ⟨fun hn => Plant.runOne_superseded hx hv hn w, ?_⟩, fun l p => ⟨fun h => ?_, fun g h => ?_, fun k x h hk => ?_⟩⟩
  · rintro hn c rfl
    have hwork := Plant.runOne_winner (w := w) hx hv hn
    cases a with
    | set => exact hwork
    | clear => exact hwork
    | toggle => exact hwork
    | waveStop => exact hwork
    | pulse width => exact hwork
    | wave u =>
      refine ⟨fun hg => ?_, fun g hg => ⟨fun hp => ?_, fun hp => ?_⟩⟩
      · rw [Plant.applyWinner_wave_of_other hg] at hwork
        exact hwork
      · rw [Plant.applyWinner_wave_of_waving hg] at hwork
        rw [Plant.stage, if_neg hp] at hwork
        exact hwork
      · rw [Plant.applyWinner_wave_of_waving hg] at hwork
        rw [Plant.stage, if_pos hp] at hwork
        exact hwork
  · unfold Plant.clearLine
    rw [h]
  · unfold Plant.clearLine
    rw [h]
  · rw [Plant.clearLine_of_pulsing h, Plant.releasePulse_found hk]
    rfl

/-! ## Completions (R56, R57, R58) -/

theorem Plant.finish_of_last {x : Timed} (h : x.entry.left.after.goesOn = false) (how : Finish) (w : Plant) :
    w.finish how x =
      w.postIf x.entry.notify x.entry.owner x.entry.subject x.entry.tag (how.detail x.entry) := by
  unfold Plant.finish
  rw [h]
  rfl

theorem Plant.finish_of_more {x : Timed} (h : x.entry.left.after.goesOn = true) (how : Finish) (w : Plant) :
    w.finish how x = (w.postIf x.entry.notify x.entry.owner x.entry.subject x.entry.tag
      (how.detail x.entry)).again { x with entry := x.entry.completed } := by
  unfold Plant.finish
  rw [h]
  rfl

theorem Plant.again_inboxes (x : Timed) (w : Plant) : (w.again x).inboxes = w.inboxes := by
  unfold Plant.again
  split <;> rfl

/-- The repeat of an AT entry (R57). -/
theorem Plant.again_of_due {x : Timed} {v : Word} (ht : x.entry.trigger = .atDue) (hv : x.entry.step = some v)
    (w : Plant) : w.again x = w.insert ⟨x.entry, x.due + v⟩ := by
  unfold Plant.again
  simp only [ht, hv, Option.getD_some]

/-- The repeat of an EDGE entry (R58). -/
theorem Plant.again_of_edge {x : Timed} {v : Word} {c : Channel} {n : Byte} {o : Word}
    (ht : x.entry.trigger = .edge c n o) (hv : x.entry.step = some v) (w : Plant) :
    w.again x = w.arm ⟨x.entry, some v.toNat⟩ := by
  unfold Plant.again
  simp only [ht, hv, Option.getD_some]

/-- The repeat of a COUNT entry (R58). -/
theorem Plant.again_of_count {x : Timed} {v : Word} {t : TallyId} {m o : Word}
    (ht : x.entry.trigger = .count t m o) (hv : x.entry.step = some v) (w : Plant) :
    w.again x = w.arm ⟨{ x.entry with trigger := .count t (m + v) o }, none⟩ := by
  unfold Plant.again
  simp only [ht, hv, Option.getD_some]

/-- A completion posts one notice, where notify is set (R56). -/
theorem Plant.finish_inbox (how : Finish) (x : Timed) (w : Plant) (p : Port) : (w.finish how x).inbox p =
    if x.entry.notify = true ∧ p = x.entry.owner then
      (w.inbox p).post ⟨x.entry.subject, x.entry.tag, w.tc, how.detail x.entry⟩
    else w.inbox p := by
  have hpost : (w.finish how x).inbox p = (w.postIf x.entry.notify x.entry.owner x.entry.subject x.entry.tag
      (how.detail x.entry)).inbox p := by
    cases h : x.entry.left.after.goesOn with
    | true =>
      rw [Plant.finish_of_more h]
      exact Plant.inbox_of_inboxes (Plant.again_inboxes ..) p
    | false => rw [Plant.finish_of_last h]
  rw [hpost, Plant.inbox_postIf]
  split
  · next h => rw [h.2]
  · rfl

theorem Left.last_of_le_one {left : Left} {n : Nat} (h : left = .count n) (hn : n ≤ 1) :
    left.after.goesOn = false := by
  have hz : n - 1 = 0 := Nat.sub_eq_zero_of_le hn
  simp [h, Left.after, Left.goesOn, hz]

theorem Left.more_of_two {left : Left} (h : left = .unlimited ∨ ∃ n, left = .count (n + 2)) :
    left.after.goesOn = true := by
  rcases h with rfl | ⟨n, rfl⟩ <;> rfl

/-- Settles O30: the notice, what stays, and the lists by whether executions remain and by the trigger. -/
theorem completionRepeatsOrRemoves : Obligations.CompletionRepeatsOrRemoves := by
  rintro how x w e he
  have hleft : e.left = x.entry.left.after := by
    rw [he]
    rfl
  have hcompleted : x.entry.completed = e := he.symm
  have hs := w.steady_finish how x
  refine ⟨fun p => ?_, w.finish_lines how x, w.finish_pulsing how x, hs.tc, hs.timebase, hs.holdTimer,
    fun n hn hle => ?_, fun hmore step hstep => ?_⟩
  · rw [Plant.finish_inbox, hleft]
    cases how <;> rfl
  · rw [Plant.finish_of_last (Left.last_of_le_one hn hle)]
    exact ⟨Plant.postIf_timeline .., Plant.postIf_armed ..⟩
  · rw [Plant.finish_of_more (Left.more_of_two hmore), hcompleted]
    have hstep' : e.step = some step := hcompleted ▸ hstep
    have htrigger : e.trigger = x.entry.trigger := hcompleted ▸ rfl
    cases ht : x.entry.trigger with
    | atDue =>
      rw [Plant.again_of_due (htrigger.trans ht) hstep']
      simp
    | edge c n o =>
      rw [Plant.again_of_edge (htrigger.trans ht) hstep']
      simp
    | count n m o =>
      rw [Plant.again_of_count (htrigger.trans ht) hstep']
      simp

/-! ## Placements (R42, R47, R50) -/

/-- Settles O33: a batch of one at lead 0 in RUNNING, and the place in the list by lead. -/
theorem placementByLead : Obligations.PlacementByLead := by
  refine fun arb x w => ⟨fun hr hd => if_pos ⟨hr, (lead_eq_zero ..).mpr hd⟩, fun hne hsorted => ?_⟩
  have hwait : w.place arb x = w.insert x := if_neg fun ⟨hr, hz⟩ =>
    hne.elim (absurd hr) (absurd ((lead_eq_zero ..).mp hz))
  obtain ⟨before, after, hsplit, hinsert, hbefore, hafter⟩ := insertTimed_split w.tc x w.timeline hsorted
  refine ⟨before, after, hsplit, ?_, hbefore, hafter⟩
  rw [hwait, Plant.insert, hinsert]

end Sys2Proof.Machine
end

section
/-! PROOF of O32 and O37. What the parser fixes of the entry that a SCHEDULE names, the refusals of R45 and R46 one
by one in their order, and the entry that a name finds. -/

namespace Sys2Proof.Machine

/-! ## The entry of a name (R14) -/

/-- A name that is in no list finds no entry. -/
theorem Plant.find_of_not_hasTag {p : Port} {tag : Half} {w : Plant} (h : w.hasTag p tag = false) :
    w.findArmed p tag = none ∧ w.findPending p tag = none ∧ w.findPulsing p tag = none := by
  have hkey : ∀ e ∈ w.live, ¬ e.isKey p tag = true := by
    unfold Plant.hasTag at h
    exact List.any_eq_false.mp h
  unfold Plant.live at hkey
  refine ⟨List.find?_eq_none.mpr fun x hx => hkey _ ?_, List.find?_eq_none.mpr fun x hx => hkey _ ?_,
    List.find?_eq_none.mpr fun x hx => hkey _ ?_⟩
  · exact List.mem_append_left _ (List.mem_append_left _ (List.mem_map_of_mem hx))
  · exact List.mem_append_left _ (List.mem_append_right _ (List.mem_map_of_mem hx))
  · exact List.mem_append_right _ (List.mem_map_of_mem hx)

theorem Plant.viewEntry_of_none {p : Port} {tag : Half} {w : Plant} (h : w.hasTag p tag = false) :
    w.viewEntry p tag = none := by
  obtain ⟨harmed, hpending, hpulsing⟩ := Plant.find_of_not_hasTag h
  unfold Plant.viewEntry
  rw [harmed, hpending, hpulsing]

theorem Plant.viewEntry_of_armed {p : Port} {tag : Half} {w : Plant} {x : Waiting}
    (h : w.findArmed p tag = some x) : w.viewEntry p tag = some ⟨x.entry, .armed, x.edgesLeft, none⟩ := by
  unfold Plant.viewEntry
  rw [h]

theorem Plant.viewEntry_of_pending {p : Port} {tag : Half} {w : Plant} {x : Timed}
    (harmed : w.findArmed p tag = none) (h : w.findPending p tag = some x) :
    w.viewEntry p tag = some ⟨x.entry, .pending, none, some x.due⟩ := by
  unfold Plant.viewEntry
  rw [harmed, h]

theorem Plant.viewEntry_of_pulsing {p : Port} {tag : Half} {w : Plant} {x : Timed}
    (harmed : w.findArmed p tag = none) (hpending : w.findPending p tag = none)
    (h : w.findPulsing p tag = some x) : w.viewEntry p tag = some ⟨x.entry, .pulsing, none, some x.due⟩ := by
  unfold Plant.viewEntry
  rw [harmed, hpending, h]

/-! ## ENTRY_READ (R65) -/

theorem entryReadWork_of_some {p : Port} {tag : Half} {s : State} {v : EntryView}
    (h : s.plant.viewEntry p tag = some v) : entryReadWork p tag s = (s, ⟨.ok, viewBody s.plant.tc v⟩) := by
  unfold entryReadWork
  rw [h]

theorem entryReadWork_of_none {p : Port} {tag : Half} {s : State} (h : s.plant.viewEntry p tag = none) :
    entryReadWork p tag s = (s, refuse .noTag) := by
  unfold entryReadWork
  rw [h]

/-- The body of an armed entry shows no due and no lead. -/
theorem viewBody_armed (tc : Word) (x : Waiting) : viewBody tc ⟨x.entry, .armed, x.edgesLeft, none⟩ =
    entryBody x.entry 0#32 ++ [levelByte x.entry.level, 0#8, flagByte x.entry.lateMark] ++
      halfBytes (leftHalf x.entry.left) ++ [if x.edgesLeft.isSome then 1#8 else 0#8, natByte (x.edgesLeft.getD 0)] ++
      wordBytes 0#32 ++ wordBytes 0#32 := by
  cases x.edgesLeft <;> simp [viewBody, entryStateCode, natByte]

/-- The body of a placed entry shows its due and its lead. -/
theorem viewBody_timed (tc : Word) (x : Timed) (st : EntryState) : viewBody tc ⟨x.entry, st, none, some x.due⟩ =
    entryBody x.entry x.due ++ [levelByte x.entry.level, entryStateCode st, flagByte x.entry.lateMark] ++
      halfBytes (leftHalf x.entry.left) ++ [2#8, 0#8] ++ wordBytes x.due ++ wordBytes (x.due - tc) := by
  simp [viewBody, natByte, lead]

/-- Settles O37: the view of the entry by the list that holds it. -/
theorem entryReadShowsFields : Obligations.EntryReadShowsFields := by
  intro r s tag ht hd h0 hb
  have hexec : exec (.entryRead r) s = .next ((entryReadWork r.port tag s).1.answer r 0x23#8
      (entryReadWork r.port tag s).2.status (entryReadWork r.port tag s).2.body) :=
    congrArg Host.Outcome.next (serve_operating ht hd (hb ▸ parseLiveTag_halfBytes h0))
  refine ⟨fun hno => ?_, fun x hx => ?_, fun x hna hx => ?_, fun x hna hnp hx => ?_⟩
  · rw [hexec, entryReadWork_of_none (Plant.viewEntry_of_none hno)]
    rfl
  · rw [hexec, entryReadWork_of_some (Plant.viewEntry_of_armed hx), viewBody_armed]
  · rw [hexec, entryReadWork_of_some (Plant.viewEntry_of_pending hna hx), viewBody_timed]
    rfl
  · rw [hexec, entryReadWork_of_some (Plant.viewEntry_of_pulsing hna hnp hx), viewBody_timed]
    rfl

/-! ## The refusals of a SCHEDULE (R45, R46) -/

theorem Plant.free_eq_zero_iff (w : Plant) : w.free = 0 ↔ 64 ≤ w.used := Nat.sub_eq_zero_iff_le

/-- The right to act is asked for the line that the entry names, with the entry's owner and level. -/
theorem entryRefusal_of_line {s : State} {e : Entry} {l : LineId} (h : e.line? = some l) :
    entryRefusal s e = s.actRefusal e.owner e.level l := by
  unfold entryRefusal
  rw [h]

theorem entryRefusal_eq_none {s : State} {e : Entry}
    (h : ∀ l, e.line? = some l → s.actRefusal e.owner e.level l = none) : entryRefusal s e = none := by
  cases hl : e.line? with
  | some l => rw [entryRefusal_of_line hl, h l hl]
  | none =>
    unfold entryRefusal
    rw [hl]

section Refusals
variable {s : State} {e : Entry} {due : Word}

theorem scheduleRefusal_of_right {st : Status} (h : entryRefusal s e = some st) :
    scheduleRefusal s e due = some st := by
  unfold scheduleRefusal
  rw [h]

theorem scheduleRefusal_of_dupTag (hright : entryRefusal s e = none) (h : s.plant.hasTag e.owner e.tag = true) :
    scheduleRefusal s e due = some .dupTag := by
  unfold scheduleRefusal
  rw [hright]
  exact if_pos h

/-- Behind the right and the tag stand the quota, the pool and the late test. -/
theorem scheduleRefusal_of_freshTag (hright : entryRefusal s e = none)
    (htag : s.plant.hasTag e.owner e.tag = false) : scheduleRefusal s e due =
      if s.table.quota.get e.owner ≤ s.plant.liveCount e.owner then some .quotaFull
      else if 64 ≤ s.plant.used then some .poolFull
      else if e.trigger = .atDue ∧ 2 ^ 31 ≤ (due - s.plant.tc).toNat ∧ e.latePolicy = .drop then some .late
      else none := by
  unfold scheduleRefusal
  simp only [hright, htag, Bool.false_eq_true, if_false, Plant.free_eq_zero_iff, isLate_iff]

end Refusals

theorem scheduleWork_of_refusal {s : State} {e : Entry} {due : Word} {st : Status}
    (h : scheduleRefusal s e due = some st) : scheduleWork (e, due) s = (s, refuse st) := by
  unfold scheduleWork
  rw [h]

/-- A SCHEDULE that is taken in OPERATING and whose body parses does the work of its entry. -/
theorem exec_schedule_of_parse {r : Request} {s : State} {q : Entry × Word} (ht : Taken 0x20#8 r s)
    (hd : s.device = .operating) (hp : parseSchedule s r = some q) :
    exec (.schedule r) s = .next ((scheduleWork q s).1.answer r 0x20#8 (scheduleWork q s).2.status
      (scheduleWork q s).2.body) :=
  congrArg Host.Outcome.next (serve_operating ht hd hp)

/-- A refused SCHEDULE answers the refusal and does no more. -/
theorem exec_schedule_of_refusal {r : Request} {s : State} {e : Entry} {due : Word} {st : Status}
    (ht : Taken 0x20#8 r s) (hd : s.device = .operating) (hp : parseSchedule s r = some (e, due))
    (h : scheduleRefusal s e due = some st) : exec (.schedule r) s = .next (s.answer r 0x20#8 st []) := by
  rw [exec_schedule_of_parse ht hd hp, scheduleWork_of_refusal h]
  rfl

/-- The parser gives the entry the requester's port and its effective level, with a clear late mark. -/
theorem parseSchedule_requester {s : State} {r : Request} {e : Entry} {due : Word}
    (h : parseSchedule s r = some (e, due)) :
    e.owner = r.port ∧ e.level = s.effective r ∧ e.lateMark = false := by
  obtain ⟨howner, hlevel, hmark, -⟩ := parseSchedule_cases h
  exact ⟨howner, hlevel, hmark⟩

/-- Settles O32: the refusals one behind the other. -/
theorem scheduleChecksInOrder : Obligations.ScheduleChecksInOrder := by
  intro r s e due ht hd hp
  obtain ⟨howner, hlevel, -⟩ := parseSchedule_requester hp
  have hrefuse : ∀ {st}, scheduleRefusal s e due = some st →
      exec (.schedule r) s = .next (s.answer r 0x20#8 st []) := exec_schedule_of_refusal ht hd hp
  rw [← howner, ← hlevel]
  refine ⟨fun l st hl hst => hrefuse (scheduleRefusal_of_right ((entryRefusal_of_line hl).trans hst)),
    fun hright => ?_⟩
  have hright := entryRefusal_eq_none hright
  refine ⟨fun htag => hrefuse (scheduleRefusal_of_dupTag hright htag), fun htag => ?_⟩
  have hchecks := scheduleRefusal_of_freshTag (due := due) hright htag
  refine ⟨fun hquota => hrefuse (hchecks.trans (if_pos hquota)), fun hquota => ?_⟩
  rw [if_neg (Nat.not_le.mpr hquota)] at hchecks
  refine ⟨fun hpool => hrefuse (hchecks.trans (if_pos hpool)), fun hpool hat hlate hdrop => ?_⟩
  rw [if_neg (Nat.not_le.mpr hpool), if_pos ⟨hat, hlate, hdrop⟩] at hchecks
  exact hrefuse hchecks

end Sys2Proof.Machine
end

section
/-! PROOF of O34 and O36. Where an accepted SCHEDULE and an ENTRY_MOVE place their entry, by its trigger and by
whether its due is late. -/

namespace Sys2Proof.Machine

/-! ## Placements by lateness (R46, R63) -/

theorem placeDue_of_late {tc due : Word} (h : 2 ^ 31 ≤ (due - tc).toNat) (e : Entry) :
    placeDue tc due e = ⟨{ e with lateMark := true }, tc⟩ := if_pos ((isLate_iff ..).mpr h)

theorem placeDue_of_timely {tc due : Word} (h : (due - tc).toNat < 2 ^ 31) (e : Entry) :
    placeDue tc due e = ⟨{ e with lateMark := false }, due⟩ :=
  if_neg (Bool.not_eq_true _ ▸ (not_isLate_iff ..).mpr h)

section PostEntry
variable {s : State} {e : Entry} {due : Word}

theorem State.postEntry_of_due (h : e.trigger = .atDue) :
    s.postEntry e due = s.plant.place s.table.arbitration (placeDue s.plant.tc due e) := by
  unfold State.postEntry
  rw [h]

theorem State.postEntry_of_edge {c : Channel} {n : Byte} {o : Word} (h : e.trigger = .edge c n o) :
    s.postEntry e due = { s.plant with armed := s.plant.armed ++ [⟨e, some n.toNat⟩] } := by
  unfold State.postEntry
  rw [h]
  rfl

theorem State.postEntry_of_reached {t : TallyId} {m o : Word} (h : e.trigger = .count t m o)
    (hreached : (s.tallies.get t - m).toNat < 2 ^ 31) :
    s.postEntry e due = s.plant.place s.table.arbitration ⟨e, s.plant.tc + o⟩ := by
  unfold State.postEntry
  rw [h]
  exact if_pos ((reached_iff ..).mpr hreached)

theorem State.postEntry_of_waiting {t : TallyId} {m o : Word} (h : e.trigger = .count t m o)
    (hwait : 2 ^ 31 ≤ (s.tallies.get t - m).toNat) :
    s.postEntry e due = { s.plant with armed := s.plant.armed ++ [⟨e, none⟩] } := by
  unfold State.postEntry
  rw [h]
  exact if_neg (Bool.not_eq_true _ ▸ (not_reached_iff ..).mpr hwait)

end PostEntry

/-- The late mark is that of an AT entry whose due is late. -/
theorem placedLate_of_due {tc due : Word} {e : Entry} (h : e.trigger = .atDue) :
    placedLate tc due e = isLate tc due := by
  unfold placedLate
  rw [h]
  rfl

theorem placedLate_of_armed {tc due : Word} {e : Entry} (h : e.trigger ≠ .atDue) : placedLate tc due e = false := by
  unfold placedLate
  rw [beq_eq_false_iff_ne.mpr h, Bool.false_and]

/-! ## SCHEDULE accepted (R47, R48) -/

theorem scheduleWork_of_accepted {s : State} {e : Entry} {due : Word} (h : scheduleRefusal s e due = none) :
    scheduleWork (e, due) s = ({ s with
        plant := s.postEntry e due, moved := s.moved.filter (· != (e.owner, e.tag)) },
      ⟨.ok, [entryStateCode ((s.postEntry e due).stateOf e.owner e.tag), natByte (64 - (s.postEntry e due).used),
        flagByte (placedLate s.plant.tc due e)]⟩) := by
  unfold scheduleWork
  rw [h]
  rfl

/-- Settles O34: no check refuses, and the placement by the trigger. -/
theorem schedulePlacesByTrigger : Obligations.SchedulePlacesByTrigger := by
  intro r s e due ht hd hp hright htag hquota hpool hlate
  obtain ⟨howner, hlevel, hmark⟩ := parseSchedule_requester hp
  have hclean : { e with lateMark := false } = e := by rw [← hmark]
  rw [← howner, ← hlevel] at hright
  rw [← howner] at htag hquota ⊢
  have haccept : scheduleRefusal s e due = none := by
    rw [scheduleRefusal_of_freshTag (entryRefusal_eq_none hright) htag, if_neg (Nat.not_le.mpr hquota),
      if_neg (Nat.not_le.mpr hpool), if_neg]
    rintro ⟨hat, hl, hdrop⟩
    exact absurd (hlate hat hdrop) (Nat.not_lt.mpr hl)
  refine ⟨s.postEntry e due, placedLate s.plant.tc due e, ?_, fun hat => ⟨fun htimely => ?_, fun hlater => ?_⟩,
    fun c n o hedge => ?_, fun t m o hcount => ?_⟩
  · rw [exec_schedule_of_parse ht hd hp, scheduleWork_of_accepted haccept]
  · refine ⟨(placedLate_of_due hat).trans ((not_isLate_iff ..).mpr htimely), ?_⟩
    rw [State.postEntry_of_due hat, placeDue_of_timely htimely, hclean]
  · refine ⟨(placedLate_of_due hat).trans ((isLate_iff ..).mpr hlater), ?_⟩
    rw [State.postEntry_of_due hat, placeDue_of_late hlater]
  · exact ⟨placedLate_of_armed (hedge ▸ nofun), State.postEntry_of_edge hedge⟩
  · exact ⟨placedLate_of_armed (hcount ▸ nofun), State.postEntry_of_waiting hcount,
      State.postEntry_of_reached hcount⟩

/-! ## ENTRY_MOVE (R63, R64) -/

/-- The PENDING entry of a name carries the name. -/
theorem Plant.name_of_findPending {p : Port} {tag : Half} {w : Plant} {x : Timed}
    (h : w.findPending p tag = some x) : x.entry.owner = p ∧ x.entry.tag = tag := by
  have hkey : x.entry.isKey p tag = true := List.find?_some (p := fun x : Timed => x.entry.isKey p tag) h
  exact Prod.mk.inj ((Entry.isKey_iff ..).mp hkey)

theorem moveWork_of_absent {p : Port} {tag : Half} {due : Word} {s : State} (h : s.plant.hasTag p tag = false) :
    moveWork p (tag, due) s = (s, refuse .noTag) := by
  obtain ⟨-, hpending, -⟩ := Plant.find_of_not_hasTag h
  unfold moveWork
  simp only [hpending, h]
  rfl

theorem moveWork_of_busy {p : Port} {tag : Half} {due : Word} {s : State} (h : s.plant.hasTag p tag = true)
    (hpending : s.plant.findPending p tag = none) : moveWork p (tag, due) s = (s, refuse .busy) := by
  unfold moveWork
  simp only [hpending, h]
  rfl

section Pending
variable {p : Port} {tag : Half} {x : Timed} {due : Word} {s : State}

theorem moveWork_of_pending (h : s.plant.findPending p tag = some x) :
    moveWork p (tag, due) s = movePending x due s := by
  unfold moveWork
  rw [h]

/-- A late entry under LATE_DROP is removed (R63). -/
theorem moveWork_of_dropped (hx : s.plant.findPending p tag = some x) (hlate : 2 ^ 31 ≤ (due - s.plant.tc).toNat)
    (hdrop : x.entry.latePolicy = .drop) : moveWork p (tag, due) s =
      ({ s with plant := (s.plant.dropPending p tag).post p x.entry.subject tag (.late due) }, refuse .late) := by
  rw [moveWork_of_pending hx]
  obtain ⟨rfl, rfl⟩ := Plant.name_of_findPending hx
  exact if_pos ⟨(isLate_iff ..).mpr hlate, hdrop⟩

/-- Any other entry is placed anew, and noted where it waits (R63, R64). -/
theorem moveWork_of_placed (hx : s.plant.findPending p tag = some x)
    (h : ¬ (isLate s.plant.tc due = true ∧ x.entry.latePolicy = .drop)) {t : Timed}
    (ht : placeDue s.plant.tc due x.entry = t) {w : Plant}
    (hw : w = (s.plant.dropPending p tag).place s.table.arbitration t) : moveWork p (tag, due) s =
      ({ s with
          plant := w
          moved := if s.plant.timebase = .running ∧ t.due = s.plant.tc then s.moved.filter (· != (p, tag))
            else s.moved.insert (p, tag) },
        ⟨.ok, [entryStateCode (w.stateOf p tag), flagByte (isLate s.plant.tc due)]⟩) := by
  rw [moveWork_of_pending hx]
  obtain ⟨rfl, rfl⟩ := Plant.name_of_findPending hx
  subst hw ht
  unfold movePending
  simp only [if_neg h, Plant.AtOnce, lead_eq_zero, Plant.dropPending_timebase, Plant.dropPending_tc]
  split <;> rfl

end Pending

/-- Settles O36: the refusals, and the placement by whether the due is late. -/
theorem moveReplacesPending : Obligations.MoveReplacesPending := by
  intro r s tag due ht hd h0 hb
  have hexec : exec (.entryMove r) s = .next ((moveWork r.port (tag, due) s).1.answer r 0x22#8
      (moveWork r.port (tag, due) s).2.status (moveWork r.port (tag, due) s).2.body) :=
    congrArg Host.Outcome.next (serve_operating ht hd (hb ▸ parseMove_bytes h0 due))
  refine ⟨fun habsent => ?_, fun hlive hno => ?_, ?_⟩
  · rw [hexec, moveWork_of_absent habsent]
    rfl
  · rw [hexec, moveWork_of_busy hlive hno]
    rfl
  rintro x w w' hx rfl
  refine ⟨fun htimely hw => ?_, fun hlate hrun hw => ?_, fun hlate hdrop hw => ?_⟩
  · have hclear := (not_isLate_iff ..).mpr htimely
    rw [hexec, moveWork_of_placed hx (by simp [hclear]) (placeDue_of_timely htimely _) hw, hclear]
    rfl
  · have hmark := (isLate_iff ..).mpr hlate
    rw [hexec, moveWork_of_placed hx (by simp [hrun]) (placeDue_of_late hlate _) hw, hmark]
    simp [flagByte]
  · rw [hexec, moveWork_of_dropped hx hlate hdrop, hw]
    rfl

end Sys2Proof.Machine
end

section
/-! PROOF of O35. Which entries a CANCEL takes out of the lists, which pulses it cuts, and that the last pulse cut in
HOLDING brings HELD. -/

namespace Sys2Proof.Machine

/-! ## The removal (R60, R61, R81) -/

/-- What a CANCEL removes: the entries that `f` picks among those of `p`, by their tags. -/
def Plant.cancelBy (p : Port) (f : Half → Bool) (w : Plant) : Plant :=
  ((w.takePulseOf p f fun _ => false).drop fun e => e.owner == p && f e.tag).settleHold

theorem Plant.cancel_eq (p : Port) (tag : Half) (w : Plant) : w.cancel p tag = w.cancelBy p (· == tag) := rfl

theorem Plant.cancelAll_eq (p : Port) (w : Plant) : w.cancelAll p = w.cancelBy p fun _ => true := by
  unfold Plant.cancelAll Plant.cancelBy
  simp only [Bool.and_true]

section CancelBy
variable (p : Port) (f : Half → Bool) (w : Plant)

theorem Plant.cancelBy_tc : (w.cancelBy p f).tc = w.tc := Plant.settleHold_tc _

theorem Plant.cancelBy_armed : (w.cancelBy p f).armed =
    w.armed.filter fun x => !(x.entry.owner == p && f x.entry.tag) := Plant.settleHold_armed _

theorem Plant.cancelBy_timeline : (w.cancelBy p f).timeline =
    w.timeline.filter fun x => !(x.entry.owner == p && f x.entry.tag) := Plant.settleHold_timeline _

theorem Plant.cancelBy_pulsing : (w.cancelBy p f).pulsing =
    w.pulsing.filter fun x => !(x.entry.owner == p && f x.entry.tag) := Plant.settleHold_pulsing _

theorem Plant.cancelBy_line (l : LineId) :
    (w.cancelBy p f).line l = (w.takePulseOf p f fun _ => false).line l := by
  unfold Plant.cancelBy
  rw [Plant.settleHold_line, Plant.line_drop]

end CancelBy

section CancelLines
variable {p : Port} {f : Half → Bool} {w : Plant} {l : LineId}

/-- A pulse of a removed entry is cut to inactive. -/
theorem Plant.cancelBy_line_of_cut {k : PulseRec} (h : (w.line l).state = .pulsing k) (hp : k.owner = p)
    (hf : f k.tag = true) : (w.cancelBy p f).line l = (w.line l).rest false .static := by
  rw [Plant.cancelBy_line, Plant.line_takePulseOf, h]
  simp [hp, hf]

/-- Any other line stays. -/
theorem Plant.cancelBy_line_of_other
    (h : ∀ k, (w.line l).state = .pulsing k → ¬ (k.owner = p ∧ f k.tag = true)) :
    (w.cancelBy p f).line l = w.line l := by
  rw [Plant.cancelBy_line, Plant.line_takePulseOf]
  split
  · next k hk =>
    rw [if_neg]
    simpa using h k hk
  · rfl

theorem Plant.cancelBy_held (h : w.timebase = .holding) (hn : ∀ l, ¬ (w.cancelBy p f).pulsingOn l) :
    (w.cancelBy p f).timebase = .held ∧ (w.cancelBy p f).holdTimer = none ∧
      ∀ q, (w.cancelBy p f).inbox q = (w.inbox q).post (timebaseNotice w.tc .holding .held .pulsesDone) :=
  Plant.settleHold_held (w := (w.takePulseOf p f fun _ => false).drop fun e => e.owner == p && f e.tag) h
    fun l hl => hn l ((Plant.settleHold_pulsingOn ..).mpr hl)

theorem Plant.cancelBy_same (h : w.timebase ≠ .holding ∨ ∃ l, (w.cancelBy p f).pulsingOn l) :
    (w.cancelBy p f).timebase = w.timebase ∧ (w.cancelBy p f).holdTimer = w.holdTimer ∧
      (w.cancelBy p f).inboxes = w.inboxes := by
  have hsame : w.cancelBy p f = (w.takePulseOf p f fun _ => false).drop fun e => e.owner == p && f e.tag :=
    Plant.settleHold_same (h.imp id fun ⟨l, hl⟩ => ⟨l, (Plant.settleHold_pulsingOn ..).mp hl⟩)
  rw [hsame]
  exact ⟨rfl, rfl, rfl⟩

end CancelLines

/-! ## The three answers (R60, R61, R64) -/

/-- The move of this moment and the entry that still waits where it was put. -/
theorem State.justMoved_iff (p : Port) (tag : Half) (s : State) :
    s.justMoved p tag = true ↔ (p, tag) ∈ s.moved ∧ s.plant.findPending p tag ≠ none := by
  simp [State.justMoved, Option.isSome_iff_ne_none]

theorem cancelWork_all (p : Port) (s : State) : cancelWork p 0#16 s =
    ({ s with plant := s.plant.cancelBy p fun _ => true }, ⟨.ok, [natByte (s.plant.liveCount p)]⟩) := by
  rw [← Plant.cancelAll_eq]
  rfl

section CancelOne
variable {p : Port} {tag : Half} {s : State}

theorem cancelWork_of_found (h0 : tag ≠ 0#16) (hlive : s.plant.hasTag p tag = true)
    (hmoved : s.justMoved p tag = false) : cancelWork p tag s =
      ({ s with plant := s.plant.cancelBy p (· == tag) }, ⟨.ok, [entryStateCode (s.plant.stateOf p tag)]⟩) := by
  unfold cancelWork
  rw [if_neg h0, hlive, hmoved, ← Plant.cancel_eq]
  rfl

theorem cancelWork_of_absent (h0 : tag ≠ 0#16) (h : s.plant.hasTag p tag = false ∨ s.justMoved p tag = true) :
    cancelWork p tag s = (s, refuse .noTag) := by
  unfold cancelWork
  rw [if_neg h0]
  rcases h with h | h <;> simp [h]

end CancelOne

/-- The tags that a CANCEL of `tag` picks: of 0 every tag. -/
def cancels (tag t : Half) : Bool := tag == 0#16 || t == tag

theorem cancels_zero : cancels 0#16 = fun _ => true := rfl

theorem cancels_of_ne {tag : Half} (h : tag ≠ 0#16) : cancels tag = (· == tag) := by
  funext t
  simp [cancels, h]

theorem cancels_iff (tag t : Half) : cancels tag t = true ↔ tag = 0#16 ∨ t = tag := by
  simp [cancels]

/-- Settles O35: the answer by the tag, the rest by what the removal does. -/
theorem cancelRemovesEntries : Obligations.CancelRemovesEntries := by
  intro r s tag ht hd hb gone
  have hexec : exec (.cancel r) s = .next ((cancelWork r.port tag s).1.answer r 0x21#8
      (cancelWork r.port tag s).2.status (cancelWork r.port tag s).2.body) :=
    congrArg Host.Outcome.next (serve_operating ht hd (hb ▸ parseTag_halfBytes tag))
  refine ⟨fun h0 habsent => ?_, fun hfound => ?_⟩
  · rw [hexec, cancelWork_of_absent h0 (habsent.imp id (State.justMoved_iff ..).mpr)]
    rfl
  have hwork : ∃ found, cancelWork r.port tag s =
      ({ s with plant := s.plant.cancelBy r.port (cancels tag) }, ⟨.ok, [found]⟩) ∧
      (tag = 0#16 → found = natByte (s.plant.live.filter gone).length) ∧
      (tag ≠ 0#16 → found = entryStateCode (s.plant.stateOf r.port tag)) := by
    by_cases h0 : tag = 0#16
    · subst h0
      rw [cancels_zero]
      refine ⟨_, cancelWork_all .., fun _ => ?_, fun h => absurd rfl h⟩
      simp [gone, Plant.liveCount]
    · obtain ⟨hlive, hstays⟩ := hfound.resolve_left h0
      have hmoved : s.justMoved r.port tag = false := by
        rw [Bool.eq_false_iff, Ne, State.justMoved_iff]
        tauto
      rw [cancels_of_ne h0]
      exact ⟨_, cancelWork_of_found h0 hlive hmoved, fun h => absurd h h0, fun _ => rfl⟩
  obtain ⟨found, hwork, hall, hone⟩ := hwork
  refine ⟨s.plant.cancelBy r.port (cancels tag), found, ?_, hall, hone, Plant.cancelBy_tc ..,
    Plant.cancelBy_armed .., Plant.cancelBy_timeline .., Plant.cancelBy_pulsing ..,
    fun l k hk hp hf => Plant.cancelBy_line_of_cut hk hp ((cancels_iff ..).mpr hf),
    fun l h => Plant.cancelBy_line_of_other fun k hk ⟨hp, hf⟩ => h k hk ⟨hp, (cancels_iff ..).mp hf⟩,
    Plant.cancelBy_held, Plant.cancelBy_same⟩
  rw [hexec, hwork]

end Sys2Proof.Machine
end

section
/-! PROOF of O31. Each part of the SCHEDULE body is read back as the part of the entry that it spells. -/

namespace Sys2Proof.Machine

/-! ## The parts read back (R164) -/

/-- The trigger part with its code. -/
theorem parseTrigger_triggerPart {t : Trigger} {due : Word} (hoffset : t.offsetOk)
    (hedges : ∀ c n o, t = .edge c n o → n ≠ 0#8) (hdue : t ≠ .atDue → due = 0#32) (part : List Byte) :
    parseTrigger (triggerCode t) (triggerPart due t ++ part) = some (t, due, part) := by
  cases t with
  | atDue =>
    refine (parseTrigger_due rfl (part := part) ..).trans ?_
    rw [word_extract]
  | edge c n o =>
    obtain rfl := hdue nofun
    refine (parseTrigger_edge rfl (part := part) ..).trans ?_
    rw [byteFin_natByte c (by decide), word_extract, Option.bind_some,
      if_pos ⟨hedges c n o rfl, (offsetOk_iff o).mpr hoffset⟩]
  | count n m o =>
    obtain rfl := hdue nofun
    refine (parseTrigger_count rfl (part := part) ..).trans ?_
    rw [byteFin_natByte n (by decide), word_extract, word_extract, Option.bind_some,
      if_pos ((offsetOk_iff o).mpr hoffset)]

theorem parseShape_shapeByte (u : Wave) : parseShape u.shapeByte = some (u.align, u.start) := by
  obtain ⟨period, duty, align, start⟩ := u
  cases align <;> cases start <;> rfl

/-- The action part of an action on a line with its code. -/
theorem parseLineAction_actionPart {l : LineId} {a : LineAction} (h : (Action.onLine l a).widthOk) :
    parseLineAction (actionCode (Action.onLine l a).kind) (actionPart (.onLine l a)) = some a := by
  cases a with
  | set => rfl
  | clear => rfl
  | toggle => rfl
  | waveStop => rfl
  | pulse width =>
    change (if half _ _ = 0#16 then none else some (LineAction.pulse (half _ _))) = _
    rw [half_extract]
    exact if_neg h
  | wave u =>
    change (parseShape u.shapeByte).map (fun q => LineAction.wave ⟨half _ _, half _ _, q.1, q.2⟩) = _
    rw [half_extract, half_extract, parseShape_shapeByte]
    rfl

theorem actionCode_onLine_ne (l : LineId) (a : LineAction) : actionCode (Action.onLine l a).kind ≠ 6#8 := by
  cases a <;> simp [Action.kind, actionCode]

/-- The action part with its code and the number of its line. -/
theorem parseAction_actionPart {e : Entry} (h : e.action.widthOk) :
    parseAction (actionCode e.action.kind) e.subject (actionPart e.action) = some e.action := by
  unfold Entry.subject Entry.line?
  cases ha : e.action with
  | mark => rfl
  | onLine l a =>
    rw [ha] at h
    rw [parseAction_onLine (actionCode_onLine_ne l a), parseLineAction_actionPart h, byteFin_lineByte]
    rfl

/-- The step field of an entry whose step is in range where it is read (R7). -/
theorem parseStep_getD {t : Trigger} {a : Action} {rep : Byte} {step : Option Word}
    (hone : rep = 1#8 → step = none)
    (hmore : rep ≠ 1#8 → ∃ v, step = some v ∧ stepInRange t v = true ∧ pulseFits t a v = true) :
    parseStep t a rep (step.getD 0#32) = some step := by
  unfold parseStep
  split
  · next h => rw [hone h]
  · next h =>
    obtain ⟨v, rfl, hrange, hfits⟩ := hmore h
    exact if_pos (Bool.and_eq_true_iff.mpr ⟨hrange, hfits⟩)

/-- The policy byte spells notify and LATE_DROP by its two low bits. -/
theorem policyByte_bits (e : Entry) : (policyByte e).toNat < 4 ∧ (policyByte e).getLsbD 0 = e.notify ∧
    (if (policyByte e).getLsbD 1 then .drop else .run : LatePolicy) = e.latePolicy := by
  unfold policyByte
  cases e.notify <;> cases e.latePolicy <;> decide

/-! ## The body read back (R43, R44) -/

/-- Behind the eleven bytes of the front the trigger part and the action part are read in turn. -/
theorem parseSchedule_of_parts {s : State} {r : Request} {t1 t0 act ln trg rep fl s3 s2 s1 s0 : Byte}
    {rest part : List Byte} {trigger : Trigger} {due : Word} {action : Action} {step : Option Word}
    (hbody : r.body = t1 :: t0 :: act :: ln :: trg :: rep :: fl :: s3 :: s2 :: s1 :: s0 :: rest)
    (htrigger : parseTrigger trg rest = some (trigger, due, part)) (haction : parseAction act ln part = some action)
    (hstep : parseStep trigger action rep (word s3 s2 s1 s0) = some step)
    (hrest : half t1 t0 ≠ 0#16 ∧ fl.toNat < 4 ∧ channelUsable s.table trigger = true) :
    parseSchedule s r = some (⟨r.port, half t1 t0, s.effective r, action, trigger, rep, step, fl.getLsbD 0,
      if fl.getLsbD 1 then .drop else .run, false, Left.ofRepeat rep⟩, due) := by
  unfold parseSchedule
  simp only [hbody, htrigger, haction, hstep]
  exact if_pos hrest

/-- Settles O31: the parts read back, and the entry put together from them. -/
theorem scheduleBodyRoundTrip : Obligations.ScheduleBodyRoundTrip := by
  intro s r e due howner hlevel htag hmark hleft hone hlegal husable hedges hdue hbody
  obtain ⟨-, hoffset, hwidth, hmore⟩ := hlegal
  obtain ⟨hflags, hnotify, hpolicy⟩ := policyByte_bits e
  have htag' := half_extract e.tag
  have hstep := parseStep_getD (t := e.trigger) (a := e.action) hone hmore
  rw [← word_extract (e.step.getD 0#32)] at hstep
  have hparse := parseSchedule_of_parts (s := s) (r := r) hbody
    (parseTrigger_triggerPart hoffset hedges hdue _) (parseAction_actionPart hwidth) hstep
    ⟨htag'.symm ▸ htag, hflags, husable⟩
  rw [hparse, htag', hnotify, hpolicy, ← howner, ← hlevel, Left.ofRepeat, ← hleft, ← hmark]

end Sys2Proof.Machine
end
